-- ==== Sys2Proof/Word.lean ====
section
/-! DEFINITION. The words of the SKA-2460 model: bytes, the millisecond timebase, the eight domains, sets of domains, and a
store of one value for each domain. A domain and its tap share one number (00_scope, Addresses and domains), so one type serves both. -/

namespace Sys2Proof

/-- A byte of a frame or of a table image. -/
abbrev Byte := BitVec 8

/-- A value of the timebase: milliseconds from power-on, modulo 2^32 (00_scope, Time). -/
abbrev Time := BitVec 32

/-- A set of domains or taps: bit n − 1 stands for domain or tap n (R178). -/
abbrev DomSet := BitVec 8

/-- A domain 1 to 8, which is also its tap. -/
inductive Dom where
  | d1 | d2 | d3 | d4 | d5 | d6 | d7 | d8
  deriving DecidableEq, Repr

/-- The place of a domain counted from 0: its bit in a set byte (R178). -/
def Dom.index : Dom → Nat
  | .d1 => 0 | .d2 => 1 | .d3 => 2 | .d4 => 3 | .d5 => 4 | .d6 => 5 | .d7 => 6 | .d8 => 7

/-- The number of a domain, 1 to 8: the chain address of its tap. -/
def Dom.number (d : Dom) : Nat := d.index + 1

/-- The eight domains in ascending order. -/
def Dom.all : List Dom := [.d1, .d2, .d3, .d4, .d5, .d6, .d7, .d8]

/-- The domain that a number names, if it is 1 to 8. -/
def Dom.ofNumber (n : Nat) : Option Dom :=
  match n with
  | 1 => some .d1
  | 2 => some .d2
  | 3 => some .d3
  | 4 => some .d4
  | 5 => some .d5
  | 6 => some .d6
  | 7 => some .d7
  | 8 => some .d8
  | _ => none

/-- Domain `d` belongs to the set. -/
def inSet (ds : DomSet) (d : Dom) : Bool := ds.getLsbD d.index

/-- The set that holds one domain alone. -/
def single (d : Dom) : DomSet := BitVec.twoPow 8 d.index

/-- The set of the domains that pass a test. -/
def setOf (p : Dom → Bool) : DomSet :=
  Dom.all.foldl (fun ds d => if p d then ds ||| single d else ds) 0

/-- The domains of a set in ascending order. -/
def members (ds : DomSet) : List Dom := Dom.all.filter (inSet ds)

/-- One value for each domain (or tap) 1 to 8. -/
structure PerDom (α : Type) where
  v1 : α
  v2 : α
  v3 : α
  v4 : α
  v5 : α
  v6 : α
  v7 : α
  v8 : α
  deriving DecidableEq, Repr

namespace PerDom

variable {α : Type}

/-- The same value for every domain. -/
def replicate (x : α) : PerDom α := ⟨x, x, x, x, x, x, x, x⟩

/-- The value held for a domain. -/
def get (t : PerDom α) : Dom → α
  | .d1 => t.v1 | .d2 => t.v2 | .d3 => t.v3 | .d4 => t.v4
  | .d5 => t.v5 | .d6 => t.v6 | .d7 => t.v7 | .d8 => t.v8

/-- The store with one domain's value replaced. -/
def set (t : PerDom α) (d : Dom) (x : α) : PerDom α :=
  match d with
  | .d1 => { t with v1 := x } | .d2 => { t with v2 := x }
  | .d3 => { t with v3 := x } | .d4 => { t with v4 := x }
  | .d5 => { t with v5 := x } | .d6 => { t with v6 := x }
  | .d7 => { t with v7 := x } | .d8 => { t with v8 := x }

/-- The store with every value changed by a function of its domain and its old value. -/
def mapWith (f : Dom → α → α) (t : PerDom α) : PerDom α :=
  ⟨f .d1 t.v1, f .d2 t.v2, f .d3 t.v3, f .d4 t.v4, f .d5 t.v5, f .d6 t.v6, f .d7 t.v7, f .d8 t.v8⟩

end PerDom

end Sys2Proof
end

