-- ==== Sys2Proof/Syntax.lean ====
section
/-! DEFINITION. The commands of the SKA-2460, one constructor for each row of spec/opcode_table.json, in the table's order. The
table gives its rows no fields; a constructor carries what its rule needs and the state does not already hold (assumption log 1, 4, 5). -/

namespace Sys2Proof

/-- The two ports: U toward the host, D toward the tap chain (00_scope, Pins). -/
inductive Port where
  | u | d
  deriving DecidableEq, Repr

/-- A frame as its characters give it after the start marker: the length character is the number of payload bytes, and `crc` is
the CRC that arrived, right or wrong (R126). -/
structure RxFrame where
  address : Byte
  kind : Byte
  tag : Byte
  payload : List Byte
  crc : BitVec 16
  deriving DecidableEq, Repr

/-- Whose phase or plateau timer an expiry is of: the cycle of the island with this member set (R39, R41), or the reference
cycle (R117). -/
inductive CycleRef where
  | island (ds : DomSet)
  | refCheck
  deriving DecidableEq, Repr

/-- The commands: the rows of spec/opcode_table.json. A request row has no operand, because it processes the frame at the head of
the request buffer (R156). -/
inductive Instr where
  | powerOn
  | requestFrameReceived (f : RxFrame)
  | hostTapFrame (f : RxFrame)
  | sampleFrame (f : RxFrame)
  | tapResponse (f : RxFrame)
  | receiveError (p : Port) (c : BitVec 11)
  | rxGapTimeout (p : Port)
  | rxRecoveryDone (p : Port)
  | portDTxDone
  | portUTxDone
  | topo
  | xclaim
  | xrel
  | meas
  | rchk
  | stat
  | mask
  | isord
  | resrd
  | fltrd
  | ldtab
  | seg
  | tsum
  | freeze
  | frls
  | restart
  | unknownRequest
  | freshnessExpiry
  | settleTimerExpiry (ds : DomSet)
  | intervalExpiry (ds : DomSet)
  | phaseTimerExpiry (c : CycleRef)
  | plateauTimerExpiry (c : CycleRef)
  | refreshTimerExpiry (t : Dom)
  | lossTimerExpiry (t : Dom)
  | joinRunTimeout (t : Dom)
  | handoffTimeout
  | suspendEntryExpiry (ds : DomSet)
  | agingExpiry (d : Dom)
  | loadGapTimeout
  | characterReceived (p : Port) (c : Byte)
  deriving DecidableEq, Repr

end Sys2Proof
end

