-- ==== Sys2Proof/Decode.lean ====
section
/-! DEFINITION. The decoder the host asks for. A block has no instruction words: no row of spec/opcode_table.json gives bits, so no
word spells a command, and every word is refused. -/

namespace Sys2Proof

/-- The command that a table word spells: none, whatever the word, because the table gives no row any bits. -/
def decodeTableWord (_nbits _w : Nat) : Option Instr := none

end Sys2Proof
end

