-- ==== Sys2Proof/Config.lean ====
section
/-! DEFINITION. The fixed numbers of the part, and the free choices: the points the spec leaves open, each an opaque constant that no
proof can see into. -/

namespace Sys2Proof.Config

/-- UBUS_MIN: 60 V in counts of 50 mV (00_scope, Quantities). -/
def ubusMin : Nat := 1200

/-- OPEN: at or above range, in kΩ (00_scope, Quantities). -/
def openR : Nat := 65535

/-- Places in the upstream queue (R148). -/
def upstreamPlaces : Nat := 32

/-- Occupancy at and above which tap responses are dropped (R150). -/
def tapResponseLimit : Nat := 24

/-- Places in the downstream queue (R137). -/
def downstreamPlaces : Nat := 16

/-- Places in the request buffer (R155). -/
def requestPlaces : Nat := 4

/-- Largest payload of a frame (R126). -/
def maxPayload : Nat := 120

/-- Refresh period of a tap's level frames and step time of its ramp, ms (R30, R134). -/
def refreshMs : Nat := 20

/-- Loss timer, ms (R130). -/
def lossMs : Nat := 100

/-- Gap timer of an open load, ms (R171). -/
def loadGapMs : Nat := 250

/-- Frames in sequence that make a tap PRESENT (R129). -/
def joinFrames : Nat := 3

/-- Plateau length and stable run in FAST mode (R28). -/
def fastPlateau : Nat := 16

/-- Stable run in FAST mode (R28). -/
def fastSettle : Nat := 2

/-- The largest inlet voltage the resolver stores, V (R6). -/
def inletMax : Nat := 1500

/-- FREE CHOICE (DESIGN CHOICE, log 8). R127 says where a host frame with address 0 or 1 to 15 goes, and nothing of one whose address
byte is above 15. It is accepted nowhere; whether it counts as a framing error is this bit. -/
opaque strayAddressIsFramingError : Bool

/-- FREE CHOICE (DESIGN CHOICE, log 9). R70 does not order the rows within its check 4. Given the failing rows, which of them is
reported: an index, taken modulo their number. -/
opaque warnOrderPick : List Nat → Nat

end Sys2Proof.Config
end

