-- ==== Sys2Proof/Machine/State.lean ====
section
/-! DEFINITION. The state of the SKA-2460 as plain data: every register, record, queue, timer, table and pin the spec names, its value at
power-on, and the reasons a command could stop (there is none). INVENTORY.md lists each field with its rule. -/

namespace Sys2Proof.Machine

/-! ### Names the manual uses -/

/-- Operating profiles (00_scope, Operating profiles). -/
inductive Profile where
  | park | drive | charge | service
  deriving DecidableEq, Repr

/-- Cycle modes of an island (02, Terms). -/
inductive Mode where
  | fast | full
  deriving DecidableEq, Repr

/-- The three phases of a cycle. -/
inductive Phase where
  | quiet | pos | neg
  deriving DecidableEq, Repr

/-- The nine cycle steps, in their order (02, Cycle steps). -/
inductive CycleStep where
  | quietSettle | quietPlateau | rampPos | posSettle | posPlateau | rampNeg | negSettle | negPlateau | rampHome
  deriving DecidableEq, Repr

/-- The states of an island, with the step while in CYCLE (02, Island states). -/
inductive IslandState where
  | forming
  | cycle (step : CycleStep)
  | interval
  | stalled
  | handoff
  | external
  | refhold
  deriving DecidableEq, Repr

/-- Topology states (R10). -/
inductive TopoState where
  | unresolved | known | nomatch | stale
  deriving DecidableEq, Repr

/-- Claim states (R93). -/
inductive ClaimState where
  | none | handoff | granted
  deriving DecidableEq, Repr

/-- Verdicts (R74). -/
inductive Verdict where
  | unknown | ok | warn | fault
  deriving DecidableEq, Repr

/-- The least severe level of a worse run (R74). -/
inductive RunLevel where
  | warn | fault
  deriving DecidableEq, Repr

/-- Levels of one result (R73). -/
inductive Level where
  | ok | warn | fault
  deriving DecidableEq, Repr

/-- Outcomes of an island's cycle (R53). -/
inductive CycleOutcome where
  | valid | inverted | timedOut
  deriving DecidableEq, Repr

/-- Outcomes of a reference check (R118, R120). -/
inductive RefOutcome where
  | pass | fail | notCompleted
  deriving DecidableEq, Repr

/-- Why a cycle was suspended (R107). -/
inductive SuspendCause where
  | claim | refchk
  deriving DecidableEq, Repr

/-- The last reset (R162). -/
inductive ResetCause where
  | powerOn | restart
  deriving DecidableEq, Repr

/-- The open-drain ISO_ALERT output (R81). -/
inductive AlertLine where
  | released | low
  deriving DecidableEq, Repr

/-- Injection paths of a tap. -/
inductive Path where
  | domain | ref
  deriving DecidableEq, Repr

/-- Balance states of a tap. -/
inductive Balance where
  | floating | connected
  deriving DecidableEq, Repr

/-- The five tables, numbered 1 to 5 (10). -/
inductive TableId where
  | domain | topology | cycle | limit | forward
  deriving DecidableEq, Repr

/-- Status codes of responses (R157, R184). -/
inductive Status where
  | ok | badKind | badForm | badArg | busy | locked | wrongState | order | invalid | timeout | filtered | cancelled
  deriving DecidableEq, Repr

/-- The twenty event flags (R160, R185). -/
inductive Flag where
  | reset | topoNomatch | topoStale | tapLost | faultPresent | warnPresent | topoMulti | sampleGap | verdictChanged | asym
  | cycleFail | handoffDone | refDone | refFail | linkErrU | linkErrD | reqOverrun | fwdDrop | tableDone | tableAbort
  deriving DecidableEq, Repr

/-- Receive states (R124). -/
inductive RxState where
  | ready | inFrame | recovering
  deriving DecidableEq, Repr

/-- Presence states of a fitted tap (R129). -/
inductive TapState where
  | unseen | present | lost
  deriving DecidableEq, Repr

/-! ### Time -/

/-- A running timer: when it started and how long it runs, ms. -/
structure Timer where
  start : Time
  dur : Nat
  deriving DecidableEq, Repr

/-- The settle timer of FORMING; `expired` is an expiry that waits for the part to be RUNNING (R25). -/
inductive SettleTimer where
  | stopped
  | running (t : Timer)
  | expired
  deriving DecidableEq, Repr

/-! ### Ports and queues -/

/-- A frame the part holds or sends (R180); its length and CRC follow from the rest. -/
structure Frame where
  marker : Byte
  address : Byte
  kind : Byte
  tag : Byte
  payload : List Byte
  deriving DecidableEq, Repr

/-- One port's receiver: receive state, characters collected so far, whether 100 µs of line idle has already passed since the last
character, and the four error counters (R124, R125). -/
structure Receiver where
  state : RxState
  chars : List Byte
  idle : Bool
  parity : Nat
  framing : Nat
  gap : Nat
  crc : Nat
  deriving DecidableEq, Repr

/-- The ports with their receivers and transmitters, the queues, and the traffic and request counters. -/
structure Link where
  rxU : Receiver
  rxD : Receiver
  txU : Option Frame
  txD : Option Frame
  upQueue : List Frame
  downQueue : List Frame
  buffer : List Frame
  overrun : Nat
  drops : Nat
  decim : PerDom Nat
  deriving DecidableEq, Repr

/-! ### Table loader -/

/-- An open load (R168); the bytes received are the length of the buffer. -/
structure Load where
  table : TableId
  length : Nat
  crc : BitVec 16
  expected : Byte
  buffer : List Byte
  gapStart : Time
  deriving DecidableEq, Repr

/-- The load context, closed or open, and the seven freeze flags: bit 0 DOMAIN, 1 TOPOLOGY, 2 CYCLE, 3 to 6 LIMIT profiles 0 to 3
(R168, R176, R186). -/
structure Loader where
  load : Option Load
  freeze : BitVec 7
  deriving DecidableEq, Repr

/-- The active table images (R174). FORWARD is `none` while the built-in table is active (R142). -/
structure Tables where
  domain : Option (List Byte)
  topology : Option (List Byte)
  cycle : Option (List Byte)
  limit : Option (List Byte)
  forward : Option (List Byte)
  deriving DecidableEq, Repr

/-! ### Tap chain -/

/-- The five readings of a sample frame (07, What the part relies on from a tap; R181). -/
structure Sample where
  vPlus : Nat
  vMinus : Nat
  vs : Int
  applied : Int
  bal : Bool
  ref : Bool
  clip : Bool
  tflt : Bool
  deriving DecidableEq, Repr

/-- A tap's presence record (R129 to R131). -/
structure Presence where
  state : TapState
  lastSeq : Option Byte
  joinRun : Nat
  lossStart : Option Time
  latest : Option Sample
  deriving DecidableEq, Repr

/-- A level mailbox (R133). -/
structure Mailbox where
  level : Int
  path : Path
  balance : Balance
  deriving DecidableEq, Repr

/-- The block that asked for a ramp, told when it ends (R30). -/
inductive RampOwner where
  | cycle | claim | refCheck
  deriving DecidableEq, Repr

/-- A ramp in progress: target mV, step mV, and the path and balance its steps keep (R30). -/
structure Ramp where
  target : Int
  step : Nat
  path : Path
  balance : Balance
  owner : RampOwner
  deriving DecidableEq, Repr

/-- What the chain interface holds for one tap. `presence` is `none` while the tap is not fitted (R131). -/
structure Tap where
  presence : Option Presence
  mailbox : Mailbox
  ramp : Option Ramp
  levelSeq : Byte
  refreshStart : Option Time
  due : Bool
  deriving DecidableEq, Repr

/-! ### Cycles -/

/-- A row of the CYCLE table (02, The CYCLE table; R193). -/
structure CycleRow where
  injMv : Nat
  slew : Nat
  nFull : Nat
  block : Nat
  settleBlocks : Nat
  settleTol : Nat
  phaseTimeout : Nat
  interval : Nat
  maxGap : Nat
  noiseLimit : Nat
  invMargin : Nat
  handoffLimit : Nat
  resumeAge : Nat
  attribAge : Nat
  asymPct : Nat
  asymCount : Nat
  refTol : Nat
  deriving DecidableEq, Repr

/-- What a cycle captures at its start (R28). -/
structure Captured where
  row : CycleRow
  profile : Profile
  rc : Nat
  rbal : Nat
  deriving DecidableEq, Repr

/-- The accumulators of the step in progress: block, stable run, plateau sums and noise count (02, The island context). -/
structure Accum where
  blockSum : Int
  blockCount : Nat
  prevMean : Option Int
  stableRun : Nat
  sumVs : Int
  sumVPlus : Nat
  sumVMinus : Nat
  plateauCount : Nat
  noise : Nat
  deriving DecidableEq, Repr

/-- Retained plateau means, each present or absent (R40). -/
structure Means where
  vq : Option Int
  vPlusQ : Option Nat
  vMinusQ : Option Nat
  vp : Option Int
  vn : Option Int
  deriving DecidableEq, Repr

/-- Settle block counts of the three phases (R38). -/
structure Counts where
  quiet : Nat
  pos : Nat
  neg : Nat
  deriving DecidableEq, Repr

/-- Quality flags of a cycle (02, The island context). -/
structure Quality where
  unsettled : Bool
  noisy : Bool
  gapped : Bool
  resumed : Bool
  deriving DecidableEq, Repr

/-- A published result record (R63). -/
structure ResultRecord where
  number : BitVec 16
  members : DomSet
  injector : Dom
  profile : Profile
  mode : Mode
  outcome : CycleOutcome
  quality : Quality
  time : Time
  u : Nat
  means : Means
  d2 : Option Int
  rraw : Option Nat
  riso : Option Nat
  rp : Option Nat
  rn : Option Nat
  counts : Counts
  deriving DecidableEq, Repr

/-- An island of the partition with its context and its result slot (R12, R22, R65). -/
structure Island where
  members : DomSet
  injector : Dom
  profile : Profile
  state : IslandState
  mode : Mode
  captured : Option Captured
  acc : Accum
  phaseTimer : Option Timer
  plateauTimer : Option Timer
  settleTimer : SettleTimer
  intervalTimer : Option Timer
  means : Means
  counts : Counts
  quality : Quality
  demand : Option Mode
  slot : Option ResultRecord
  deriving DecidableEq, Repr

/-! ### Verdicts -/

/-- A domain's newest evaluated result (R74). -/
structure Newest where
  number : BitVec 16
  time : Time
  deriving DecidableEq, Repr

/-- A domain's last solo result (R84). -/
structure Solo where
  riso : Nat
  time : Time
  deriving DecidableEq, Repr

/-- An entry of an attribution list: a domain, with its solo Riso and age in seconds when it has solo data (R86). -/
structure AttribEntry where
  dom : Dom
  solo : Option (Nat × Nat)
  deriving DecidableEq, Repr

/-- A fault record (R85). -/
structure FaultRecord where
  dom : Dom
  time : Time
  members : DomSet
  injector : Dom
  profile : Profile
  number : BitVec 16
  riso : Nat
  rp : Option Nat
  rn : Option Nat
  entries : List AttribEntry
  deriving DecidableEq, Repr

/-- What the verdict unit holds for one domain (R74). -/
structure DomRec where
  verdict : Verdict
  worse : Nat
  runLevel : RunLevel
  better : Nat
  belowClear : Bool
  newest : Option Newest
  solo : Option Solo
  fault : Option FaultRecord
  asymRun : Nat
  asymActive : Bool
  deriving DecidableEq, Repr

/-! ### Topology, claim, suspend list, reference check -/

/-- The last TOPO report: positions, clamped inlet voltage, receipt time (R6). -/
structure Report where
  positions : BitVec 16
  inlet : Nat
  time : Time
  deriving DecidableEq, Repr

/-- What the resolver holds beside its tables and the partition (R21). -/
structure Topo where
  stored : Option Report
  state : TopoState
  row : Option Nat
  count : Nat
  deriving DecidableEq, Repr

/-- The claim record (R93, R94). -/
structure Claim where
  state : ClaimState
  dom : Option Dom
  acceptance : Time
  limit : Nat
  tag : Byte
  armed : Bool
  confirmed : DomSet
  deriving DecidableEq, Repr

/-- An entry of the suspend list (R106). -/
structure SuspendEntry where
  members : DomSet
  injector : Dom
  mode : Mode
  phase : Phase
  means : Means
  captured : Captured
  counts : Counts
  quality : Quality
  time : Time
  cause : SuspendCause
  deriving DecidableEq, Repr

/-- The step of a reference check (06, The reference-check record). -/
inductive RefStep where
  | preempt
  | cycle (step : CycleStep)
  deriving DecidableEq, Repr

/-- The ACTIVE reference-check record (R113, R114). -/
structure RefCheck where
  step : RefStep
  tap : Dom
  tag : Byte
  row : CycleRow
  rc : Nat
  rref : Nat
  preemptSlew : Option Nat
  acc : Accum
  phaseTimer : Option Timer
  plateauTimer : Option Timer
  vp : Option Int
  vn : Option Int
  outcome : Option RefOutcome
  rraw : Option Nat
  decided : Option Time
  deriving DecidableEq, Repr

/-- A pending deferred request: its kind and tag (R159). -/
structure PendingRec where
  kind : Byte
  tag : Byte
  deriving DecidableEq, Repr

/-- The measurement side, the chain records, the tables, the event flags and the deferred requests: everything but the ports, the
queues and the loader. -/
structure Meas where
  timebase : Time
  resetCause : ResetCause
  flags : BitVec 32
  mask : BitVec 32
  pendXclaim : Option PendingRec
  pendRchk : Option PendingRec
  heldResponses : List Frame
  tables : Tables
  taps : PerDom Tap
  doms : PerDom DomRec
  isoAlert : AlertLine
  topo : Topo
  islands : List Island
  resultNumber : BitVec 16
  claim : Claim
  suspended : List SuspendEntry
  ref : Option RefCheck
  deriving DecidableEq, Repr

/-- The state of the part, with the queue of the commands that wait, first in, first out. -/
structure State where
  pending : List Instr
  link : Link
  loader : Loader
  meas : Meas
  deriving DecidableEq, Repr

/-- Reasons a command could stop the machine. There is none: the spec gives the part no fault that stops it, so this type has no
constructor, and no step ends in a fault. Safe: nothing is stopped. -/
inductive Fault where
  deriving DecidableEq, Repr

/-- Reasons a command could have no meaning. -/
inductive Refusal where
  /-- A command whose row has no meaning yet. Raised by an arm of `exec` alone; no arm raises it. Safe: it stops. -/
  | notModelled (mnemonic : String)
  deriving DecidableEq, Repr

/-! ### Power-on values -/

/-- A mailbox at rest (R133). -/
def Mailbox.rest : Mailbox := ⟨0, .domain, .floating⟩

/-- Accumulators with nothing in them (R22, R37). -/
def Accum.empty : Accum := ⟨0, 0, none, 0, 0, 0, 0, 0, 0⟩

/-- No plateau mean present (R22). -/
def Means.none : Means := ⟨.none, .none, .none, .none, .none⟩

/-- No settle block counted (R22). -/
def Counts.zero : Counts := ⟨0, 0, 0⟩

/-- No quality flag set (R22). -/
def Quality.clear : Quality := ⟨false, false, false, false⟩

/-- A receiver at power-on: RECOVERING with its counters at 0 (R124, R125); that no idle has been measured is DESIGN CHOICE (log 23). -/
def Receiver.reset : Receiver := ⟨.recovering, [], false, 0, 0, 0, 0⟩

/-- A tap's records at power-on: not fitted, mailbox at rest (R140). -/
def Tap.reset : Tap := ⟨none, .rest, none, 0, none, false⟩

/-- A domain's verdict records at power-on (R91); the run level is DESIGN CHOICE (log 10). -/
def DomRec.reset : DomRec := ⟨.unknown, 0, .warn, 0, false, none, none, none, 0, false⟩

/-- The claim record at power-on (R112). -/
def Claim.reset : Claim := ⟨.none, none, 0, 0, 0, false, 0⟩

/-- The resolver at power-on (R21). -/
def Topo.reset : Topo := ⟨none, .unresolved, none, 0⟩

/-- The ports and queues at power-on (R124, R137, R140, R148, R151, R152, R155). -/
def Link.reset : Link :=
  { rxU := .reset, rxD := .reset, txU := none, txD := none, upQueue := [], downQueue := [], buffer := [],
    overrun := 0, drops := 0, decim := .replicate 0 }

/-- The measurement side at power-on: only RESET set (bit 0), the mask all ones, no table (R21, R52, R91, R112, R122, R140, R167). -/
def Meas.reset : Meas :=
  { timebase := 0, resetCause := .powerOn, flags := 1, mask := BitVec.allOnes 32, pendXclaim := none, pendRchk := none,
    heldResponses := [], tables := ⟨none, none, none, none, none⟩, taps := .replicate .reset, doms := .replicate .reset,
    isoAlert := .released, topo := .reset, islands := [], resultNumber := 0, claim := .reset, suspended := [], ref := none }

/-- The part at power-on (R167), with no command waiting. -/
def State.reset : State :=
  { pending := [], link := .reset, loader := ⟨none, 0⟩, meas := .reset }

end Sys2Proof.Machine
end

