-- ==== Sys2Proof/Machine/Operands.lean ====
section
/-! DEFINITION. Every operand form: fields of frames, request payloads and table images (R178 to R195), line characters (R123), the CRC
(R178), and the codes of fields (R183, R184, R185). -/

namespace Sys2Proof.Machine

/-! ### Fields of bytes, most significant byte first (R178) -/

/-- One byte as a number; a byte past the end reads 0. -/
def nat8 (b : List Byte) (i : Nat) : Nat := (b.getD i 0).toNat

/-- A two-byte field (R178). -/
def nat16 (b : List Byte) (i : Nat) : Nat := nat8 b i * 256 + nat8 b (i + 1)

/-- A four-byte field (R178). -/
def nat32 (b : List Byte) (i : Nat) : Nat := nat16 b i * 65536 + nat16 b (i + 2)

/-- A signed two-byte field: two's complement (R178). -/
def int16 (b : List Byte) (i : Nat) : Int := (BitVec.ofNat 16 (nat16 b i)).toInt

/-- The bytes of a one-byte field. -/
def be8 (n : Nat) : List Byte := [BitVec.ofNat 8 n]

/-- The bytes of a two-byte field (R178). -/
def be16 (n : Nat) : List Byte := [BitVec.ofNat 8 (n / 256), BitVec.ofNat 8 n]

/-- The bytes of a four-byte field (R178). -/
def be32 (n : Nat) : List Byte := be16 (n / 65536) ++ be16 n

/-- The bytes of a signed two-byte field (R178). -/
def beInt16 (i : Int) : List Byte := be16 (BitVec.ofInt 16 i).toNat

/-- The bytes of a signed four-byte field (R178). -/
def beInt32 (i : Int) : List Byte := be32 (BitVec.ofInt 32 i).toNat

/-- A byte assembled from bits, each with its place. -/
def byteOfBits (bits : List (Bool × Nat)) : Nat := (bits.map fun x => x.1.toNat * 2 ^ x.2).sum

/-! ### CRC-16 (00_scope, Frames; R178) -/

/-- One data bit: the register shifts left, and takes 0x1021 when the bit shifted out differs from the data bit. -/
def crcBit (reg : BitVec 16) (bit : Bool) : BitVec 16 :=
  if reg.msb == bit then reg <<< 1 else (reg <<< 1) ^^^ 0x1021

/-- One byte, its bits most significant first. -/
def crcByte (reg : BitVec 16) (b : Byte) : BitVec 16 :=
  [7, 6, 5, 4, 3, 2, 1, 0].foldl (fun r i => crcBit r (b.getLsbD i)) reg

/-- The CRC of a run of bytes, from 0xFFFF and without final inversion. -/
def crc16 (bytes : List Byte) : BitVec 16 := bytes.foldl crcByte 0xFFFF

/-! ### Line characters (R123) -/

/-- The parity bit that makes the ones among eight data bits and itself odd in number. -/
def oddParity (b : Byte) : Bool :=
  !((List.range 8).foldl (fun x i => x ^^ b.getLsbD i) false)

/-- The eleven bits of a character in the order they are sent: start 0, data least significant bit first, odd parity, stop 1. -/
def lineChar (b : Byte) : BitVec 11 :=
  BitVec.ofNat 11 (b.toNat * 2 + (oddParity b).toNat * 512 + 1024)

/-- The data bits of a line character. -/
def charData (c : BitVec 11) : Byte := BitVec.ofNat 8 (c.toNat / 2)

/-- The parity bit of a line character is right. -/
def parityOk (c : BitVec 11) : Bool := c.getLsbD 9 == oddParity (charData c)

/-- The stop bit of a line character is there. -/
def stopOk (c : BitVec 11) : Bool := c.getLsbD 10

/-! ### Frames (R126, R180) -/

/-- Start markers. -/
def markerRequest : Byte := 0xC3
/-- Start marker of a response. -/
def markerResponse : Byte := 0xC5
/-- Start marker of a sample. -/
def markerSample : Byte := 0xC9
/-- Start marker of a level frame. -/
def markerLevel : Byte := 0xCA

/-- The bytes a frame's CRC covers: length, address, kind, tag and payload (R126). -/
def bodyBytes (address kind tag : Byte) (payload : List Byte) : List Byte :=
  BitVec.ofNat 8 payload.length :: address :: kind :: tag :: payload

/-- The CRC of a frame (R126). -/
def Frame.crc (f : Frame) : BitVec 16 := crc16 (bodyBytes f.address f.kind f.tag f.payload)

/-- A frame's characters as the part transmits them (R126, R180). -/
def Frame.bytes (f : Frame) : List Byte :=
  f.marker :: (bodyBytes f.address f.kind f.tag f.payload ++ be16 f.crc.toNat)

/-- A frame's line characters as the part transmits them, back to back (R123). -/
def Frame.lineChars (f : Frame) : List (BitVec 11) := f.bytes.map lineChar

/-- The characters of a received frame after its start marker. -/
def rxBytes (marker : Byte) (f : RxFrame) : List Byte :=
  marker :: (bodyBytes f.address f.kind f.tag f.payload ++ be16 f.crc.toNat)

/-- The CRC that arrived is the CRC of the frame (R126). -/
def rxCrcOk (f : RxFrame) : Bool := crc16 (bodyBytes f.address f.kind f.tag f.payload) == f.crc

/-- A received frame as the part keeps it. -/
def keptFrame (marker : Byte) (f : RxFrame) : Frame := ⟨marker, f.address, f.kind, f.tag, f.payload⟩

/-- The frame that collected characters spell, marker first (R126). -/
def rxFrameOf (chars : List Byte) : RxFrame :=
  let len := nat8 chars 1
  { address := chars.getD 2 0, kind := chars.getD 3 0, tag := chars.getD 4 0,
    payload := (chars.drop 5).take len, crc := BitVec.ofNat 16 (nat16 chars (5 + len)) }

/-- The readings of a sample payload (R181). -/
def sampleOf (p : List Byte) : Sample :=
  let st := p.getD 8 0
  { vPlus := nat16 p 0, vMinus := nat16 p 2, vs := int16 p 4, applied := int16 p 6,
    bal := st.getLsbD 0, ref := st.getLsbD 1, clip := st.getLsbD 2, tflt := st.getLsbD 3 }

/-! ### Codes (R183 to R186) -/

def Profile.code : Profile → Nat
  | .park => 0 | .drive => 1 | .charge => 2 | .service => 3

/-- The profile with a code, if there is one. -/
def Profile.ofCode (n : Nat) : Option Profile :=
  match n with
  | 0 => some .park | 1 => some .drive | 2 => some .charge | 3 => some .service | _ => none

/-- The four profiles in ascending order. -/
def Profile.all : List Profile := [.park, .drive, .charge, .service]

def Mode.code : Mode → Nat
  | .fast => 0 | .full => 1

/-- The mode with a code, if there is one. -/
def Mode.ofCode (n : Nat) : Option Mode :=
  match n with
  | 0 => some .fast | 1 => some .full | _ => none

def Phase.code : Phase → Nat
  | .quiet => 0 | .pos => 1 | .neg => 2

/-- The island code of a cycle step: 2 to 10 in their order (R183). -/
def CycleStep.code : CycleStep → Nat
  | .quietSettle => 2 | .quietPlateau => 3 | .rampPos => 4 | .posSettle => 5 | .posPlateau => 6
  | .rampNeg => 7 | .negSettle => 8 | .negPlateau => 9 | .rampHome => 10

/-- The island code (R183). -/
def IslandState.code : IslandState → Nat
  | .forming => 1 | .cycle st => st.code | .interval => 11 | .stalled => 12 | .handoff => 13 | .external => 14 | .refhold => 15

def TopoState.code : TopoState → Nat
  | .unresolved => 0 | .known => 1 | .nomatch => 2 | .stale => 3

def ClaimState.code : ClaimState → Nat
  | .none => 0 | .handoff => 1 | .granted => 2

def Verdict.code : Verdict → Nat
  | .unknown => 0 | .ok => 1 | .warn => 2 | .fault => 3

def RunLevel.code : RunLevel → Nat
  | .warn => 0 | .fault => 1

def CycleOutcome.code : CycleOutcome → Nat
  | .valid => 0 | .inverted => 1 | .timedOut => 2

def RefOutcome.code : RefOutcome → Nat
  | .pass => 0 | .fail => 1 | .notCompleted => 2

def SuspendCause.code : SuspendCause → Nat
  | .claim => 0 | .refchk => 1

def ResetCause.code : ResetCause → Nat
  | .powerOn => 0 | .restart => 1

def Path.code : Path → Nat
  | .domain => 0 | .ref => 1

def Balance.code : Balance → Nat
  | .floating => 0 | .connected => 1

/-- The tap state code; an unfitted tap reads 3 (R183). -/
def tapStateCode : Option TapState → Nat
  | some .unseen => 0 | some .present => 1 | some .lost => 2 | none => 3

/-- The step code of STAT's reference field: 1 PREEMPT, else the island code (R187). -/
def RefStep.code : RefStep → Nat
  | .preempt => 1 | .cycle st => st.code

def Status.code : Status → Nat
  | .ok => 0x00 | .badKind => 0x01 | .badForm => 0x02 | .badArg => 0x03 | .busy => 0x04 | .locked => 0x05
  | .wrongState => 0x06 | .order => 0x07 | .invalid => 0x08 | .timeout => 0x09 | .filtered => 0x0A | .cancelled => 0x0B

def TableId.code : TableId → Nat
  | .domain => 1 | .topology => 2 | .cycle => 3 | .limit => 4 | .forward => 5

/-- The table with a number, if there is one (10). -/
def TableId.ofCode (n : Nat) : Option TableId :=
  match n with
  | 1 => some .domain | 2 => some .topology | 3 => some .cycle | 4 => some .limit | 5 => some .forward | _ => none

/-- The bit of a flag in the flag word (R185). -/
def Flag.bit : Flag → Nat
  | .reset => 0 | .topoNomatch => 1 | .topoStale => 2 | .tapLost => 3 | .faultPresent => 4 | .warnPresent => 5 | .topoMulti => 6
  | .sampleGap => 7 | .verdictChanged => 8 | .asym => 9 | .cycleFail => 10 | .handoffDone => 11 | .refDone => 12 | .refFail => 13
  | .linkErrU => 14 | .linkErrD => 15 | .reqOverrun => 16 | .fwdDrop => 17 | .tableDone => 18 | .tableAbort => 19

/-! ### Request kinds (R157) -/

def kindTopo : Byte := 0x10
def kindXclaim : Byte := 0x11
def kindXrel : Byte := 0x12
def kindMeas : Byte := 0x13
def kindRchk : Byte := 0x14
def kindStat : Byte := 0x20
def kindMask : Byte := 0x21
def kindIsord : Byte := 0x22
def kindResrd : Byte := 0x23
def kindFltrd : Byte := 0x24
def kindLdtab : Byte := 0x30
def kindSeg : Byte := 0x31
def kindTsum : Byte := 0x32
def kindFreeze : Byte := 0x33
def kindFrls : Byte := 0x34
def kindRestart : Byte := 0x3F

/-- The sixteen request kinds, each with its command and its least and greatest payload length (R157). -/
def requestKinds : List (Byte × Instr × Nat × Nat) :=
  [(kindTopo, .topo, 4, 4), (kindXclaim, .xclaim, 1, 1), (kindXrel, .xrel, 0, 0), (kindMeas, .meas, 2, 2),
   (kindRchk, .rchk, 1, 1), (kindStat, .stat, 0, 0), (kindMask, .mask, 4, 4), (kindIsord, .isord, 1, 1),
   (kindResrd, .resrd, 1, 1), (kindFltrd, .fltrd, 1, 1), (kindLdtab, .ldtab, 5, 5), (kindSeg, .seg, 2, 97),
   (kindTsum, .tsum, 5, 5), (kindFreeze, .freeze, 1, 1), (kindFrls, .frls, 0, 0), (kindRestart, .restart, 0, 0)]

/-- A kind is one of the sixteen (R157, check BADKIND). -/
def knownKind (k : Byte) : Bool := requestKinds.any fun r => r.1 == k

/-- A payload length is one given for the kind (R157, check BADFORM). -/
def formOk (k : Byte) (len : Nat) : Bool :=
  requestKinds.any fun r => r.1 == k && decide (r.2.2.1 ≤ len) && decide (len ≤ r.2.2.2)

/-! ### DOMAIN image: eight rows of 7 bytes (R191) -/

/-- The fitted field of a domain's row. -/
def domFittedByte (img : List Byte) (d : Dom) : Nat := nat8 img (7 * d.index)
/-- Rc of a domain's row, kΩ. -/
def domRc (img : List Byte) (d : Dom) : Nat := nat16 img (7 * d.index + 1)
/-- Rbal of a domain's row, kΩ. -/
def domRbal (img : List Byte) (d : Dom) : Nat := nat16 img (7 * d.index + 3)
/-- Rref of a domain's row, kΩ. -/
def domRref (img : List Byte) (d : Dom) : Nat := nat16 img (7 * d.index + 5)
/-- A DOMAIN image says that a domain is fitted (R1). -/
def domFitted (img : List Byte) (d : Dom) : Bool := domFittedByte img d == 1

/-! ### TOPOLOGY image: a 6-byte header, then rows of 16 (R192) -/

/-- Row count. -/
def topoRows (img : List Byte) : Nat := nat8 img 0
/-- Search order byte: 0 UPWARD, 1 DOWNWARD. -/
def topoOrder (img : List Byte) : Nat := nat8 img 1
/-- Freshness limit, ms. -/
def topoFreshness (img : List Byte) : Nat := nat16 img 2
/-- Topology settle time, ms. -/
def topoSettle (img : List Byte) : Nat := nat16 img 4
/-- Where a row begins. -/
def topoBase (r : Nat) : Nat := 6 + 16 * r
/-- Care mask; bit n is switch position n, as in the TOPO payload (DEDUCED, log 17). -/
def topoCare (img : List Byte) (r : Nat) : BitVec 16 := BitVec.ofNat 16 (nat16 img (topoBase r))
/-- Expected positions, 1 closed; bit n is switch position n (DEDUCED, log 17). -/
def topoExpected (img : List Byte) (r : Nat) : BitVec 16 := BitVec.ofNat 16 (nat16 img (topoBase r + 2))
/-- Match kind byte: 0 ALL, 1 ANY. -/
def topoKind (img : List Byte) (r : Nat) : Nat := nat8 img (topoBase r + 4)
/-- Inlet flag byte. -/
def topoInletFlag (img : List Byte) (r : Nat) : Nat := nat8 img (topoBase r + 5)
/-- Inlet low, V. -/
def topoInletLow (img : List Byte) (r : Nat) : Nat := nat16 img (topoBase r + 6)
/-- Inlet high, V. -/
def topoInletHigh (img : List Byte) (r : Nat) : Nat := nat16 img (topoBase r + 8)
/-- A domain's label nibble: high nibble first, 0xF NONE. -/
def topoLabel (img : List Byte) (r : Nat) (d : Dom) : Nat :=
  let b := nat8 img (topoBase r + 10 + d.index / 2)
  if d.index % 2 = 0 then b / 16 else b % 16
/-- The injector set. -/
def topoInjectors (img : List Byte) (r : Nat) : DomSet := img.getD (topoBase r + 14) 0
/-- The profile byte. -/
def topoProfile (img : List Byte) (r : Nat) : Nat := nat8 img (topoBase r + 15)

/-- A row matches positions and an inlet voltage (R8). -/
def rowMatches (img : List Byte) (positions : BitVec 16) (inlet r : Nat) : Bool :=
  let care := topoCare img r
  let agree := care &&& ~~~(positions ^^^ topoExpected img r)
  (if topoKind img r = 0 then agree == care else agree != 0) &&
    (topoInletFlag img r != 1 || (decide (topoInletLow img r ≤ inlet) && decide (inlet ≤ topoInletHigh img r)))

/-- The rows in search order (R9). -/
def searchOrder (img : List Byte) : List Nat :=
  let up := List.range (topoRows img)
  if topoOrder img = 0 then up else up.reverse

/-- The matching rows in search order (R9). -/
def matchingRows (img : List Byte) (positions : BitVec 16) (inlet : Nat) : List Nat :=
  (searchOrder img).filter (rowMatches img positions inlet)

/-- What a row says of one island: its members, its injector and its profile (R12). -/
structure IslandSpec where
  members : DomSet
  injector : Dom
  profile : Profile
  deriving DecidableEq, Repr

/-- The fitted domains that carry a domain's label in a row (R12). -/
def labelMates (img : List Byte) (r : Nat) (fitted : Dom → Bool) (d : Dom) : DomSet :=
  setOf fun e => fitted e && topoLabel img r e == topoLabel img r d

/-- The partition of a row in ascending order of lowest member (R12): one island for each fitted domain that is the lowest of its
label, injected by its one member in the injector set. -/
def partitionOf (img : List Byte) (r : Nat) (fitted : Dom → Bool) : List IslandSpec :=
  (Dom.all.filter fun d => fitted d && (members (labelMates img r fitted d)).head? == some d).map fun d =>
    let ds := labelMates img r fitted d
    { members := ds
      injector := ((members ds).find? (inSet (topoInjectors img r))).getD d
      profile := (Profile.ofCode (topoProfile img r)).getD .park }

/-! ### CYCLE image: four rows of 31 bytes (R193) -/

/-- The row of a profile. -/
def cycleRowOf (img : List Byte) (p : Profile) : CycleRow :=
  let o := 31 * p.code
  { injMv := nat16 img o, slew := nat16 img (o + 2), nFull := nat16 img (o + 4), block := nat8 img (o + 6),
    settleBlocks := nat8 img (o + 7), settleTol := nat16 img (o + 8), phaseTimeout := nat32 img (o + 10),
    interval := nat32 img (o + 14), maxGap := nat8 img (o + 18), noiseLimit := nat8 img (o + 19),
    invMargin := nat16 img (o + 20), handoffLimit := nat16 img (o + 22), resumeAge := nat16 img (o + 24),
    attribAge := nat16 img (o + 26), asymPct := nat8 img (o + 28), asymCount := nat8 img (o + 29),
    refTol := nat8 img (o + 30) }

/-! ### LIMIT image: k, four default rows of 11 bytes, k override rows of 14 (R194) -/

/-- The seven fields of a default row or an effective record (04, The LIMIT table). -/
structure Limits where
  warnOpv : Nat
  faultOpv : Nat
  ratedV : Nat
  faultCount : Nat
  clearCount : Nat
  hystPct : Nat
  maxAge : Nat
  deriving DecidableEq, Repr

/-- The 11-byte field block at an offset. -/
def limitBlock (img : List Byte) (o : Nat) : Limits :=
  { warnOpv := nat16 img o, faultOpv := nat16 img (o + 2), ratedV := nat16 img (o + 4), faultCount := nat8 img (o + 6),
    clearCount := nat8 img (o + 7), hystPct := nat8 img (o + 8), maxAge := nat16 img (o + 9) }

/-- The override count k. -/
def limitCount (img : List Byte) : Nat := nat8 img 0
/-- Where an override row begins. -/
def overrideBase (j : Nat) : Nat := 45 + 14 * j
/-- The default row of a profile. -/
def limitDefault (img : List Byte) (p : Profile) : Limits := limitBlock img (1 + 11 * p.code)
/-- The domain byte of override row j. -/
def overrideDom (img : List Byte) (j : Nat) : Nat := nat8 img (overrideBase j)
/-- The profile byte of override row j. -/
def overrideProfile (img : List Byte) (j : Nat) : Nat := nat8 img (overrideBase j + 1)
/-- The field mask of override row j. -/
def overrideMask (img : List Byte) (j : Nat) : Byte := img.getD (overrideBase j + 2) 0
/-- The field block of override row j. -/
def overrideBlock (img : List Byte) (j : Nat) : Limits := limitBlock img (overrideBase j + 3)

/-- The override row that names a domain and a profile, if there is one (R69); the first of two, which no image that passed R70 has
(DESIGN CHOICE, log 25). -/
def overrideFor (img : List Byte) (d : Dom) (p : Profile) : Option Nat :=
  (List.range (limitCount img)).find? fun j => overrideDom img j == d.number && overrideProfile img j == p.code

/-- Fields of an override where its mask selects them, of the default elsewhere (R69). -/
def blendLimits (mask : Byte) (o df : Limits) : Limits :=
  let pick (i : Nat) (f : Limits → Nat) : Nat := if mask.getLsbD i then f o else f df
  { warnOpv := pick 0 (·.warnOpv), faultOpv := pick 1 (·.faultOpv), ratedV := pick 2 (·.ratedV),
    faultCount := pick 3 (·.faultCount), clearCount := pick 4 (·.clearCount), hystPct := pick 5 (·.hystPct),
    maxAge := pick 6 (·.maxAge) }

/-- The effective record of a domain under a profile (R69). -/
def effectiveLimits (img : List Byte) (d : Dom) (p : Profile) : Limits :=
  match overrideFor img d p with
  | some j => blendLimits (overrideMask img j) (overrideBlock img j) (limitDefault img p)
  | none => limitDefault img p

/-! ### FORWARD image (R195) -/

/-- The built-in image: high mark 16, every tap at decimation 1 unannotated, every kind PASS but 0x02, BLOCK_OWNED (R142, R195). -/
def builtinForward : List Byte :=
  0x10 :: ((List.replicate 8 ([0x01, 0x00] : List Byte)).flatten ++ ([0, 0, 2] ++ List.replicate 125 0))

/-- The high mark. -/
def fwdHighMark (img : List Byte) : Nat := nat8 img 0
/-- A tap's decimation. -/
def fwdDecimation (img : List Byte) (t : Dom) : Nat := nat8 img (1 + 2 * t.index)
/-- A tap's annotate byte. -/
def fwdAnnotate (img : List Byte) (t : Dom) : Nat := nat8 img (2 + 2 * t.index)
/-- The filter action byte of a kind 0x00 to 0x7F: 0 PASS, 1 BLOCK, 2 BLOCK_OWNED. -/
def fwdAction (img : List Byte) (kind : Nat) : Nat := nat8 img (17 + kind)

end Sys2Proof.Machine
end

