-- ==== Sys2Proof/Machine/Flags.lean ====
section
/-! DEFINITION. The event flag word, the conditions of the condition flags, the attention bit, and the ISO_ALERT line (R80, R81, R160, R161). -/

namespace Sys2Proof.Machine

/-- The flag word with one flag alone. -/
def Flag.word (f : Flag) : BitVec 32 := BitVec.twoPow 32 f.bit

/-- A flag is set in the flag word. -/
def flagSet (m : Meas) (f : Flag) : Bool := m.flags.getLsbD f.bit

/-- An event raises a flag, whether it was set or not (R160). -/
def raise (f : Flag) (m : Meas) : Meas := { m with flags := m.flags ||| f.word }

/-- A domain is fitted by the active DOMAIN table; none is while no table is active (R1). -/
def fitted (m : Meas) (d : Dom) : Bool :=
  match m.tables.domain with
  | some img => domFitted img d
  | none => false

/-- The fitted set (R1). -/
def fittedSet (m : Meas) : DomSet := setOf (fitted m)

/-- Some fitted domain's verdict is `v` (R80). -/
def anyVerdict (m : Meas) (v : Verdict) : Bool := Dom.all.any fun d => fitted m d && (m.doms.get d).verdict == v

/-- A tap's presence state; none while it has no presence record. -/
def tapState (m : Meas) (t : Dom) : Option TapState := (m.taps.get t).presence.map (·.state)

/-- Some fitted tap is LOST (R130). -/
def anyLost (m : Meas) : Bool := Dom.all.any fun t => fitted m t && tapState m t == some .lost

/-- The condition that a condition flag follows; an edge flag follows none (R160). -/
def conditionHolds (m : Meas) : Flag → Bool
  | .topoNomatch => m.topo.state == .nomatch
  | .topoStale => m.topo.state == .stale
  | .tapLost => anyLost m
  | .faultPresent => anyVerdict m .fault
  | .warnPresent => anyVerdict m .warn
  | _ => false

/-- The five condition flags (R160). -/
def conditionFlags : List Flag := [.topoNomatch, .topoStale, .tapLost, .faultPresent, .warnPresent]

/-- The flag word of the conditions that hold. -/
def conditionWord (m : Meas) : BitVec 32 :=
  conditionFlags.foldl (fun w f => if conditionHolds m f then w ||| f.word else w) 0

/-- The line the verdicts ask for: low while any fitted domain is in FAULT (R81). -/
def alertOf (m : Meas) : AlertLine := if anyVerdict m .fault then .low else .released

/-- After an event that may begin a condition: each condition that holds has its flag set (R160), and ISO_ALERT follows the verdicts
(R81). -/
def followConditions (m : Meas) : Meas :=
  { m with flags := m.flags ||| conditionWord m, isoAlert := alertOf m }

/-- The attention bit (R161). -/
def attention (m : Meas) : Bool := m.flags &&& m.mask != 0

/-- STAT's clearing rule: only a condition flag that is set and whose condition holds stays set (R160). -/
def clearReported (m : Meas) : Meas := { m with flags := m.flags &&& conditionWord m }

end Sys2Proof.Machine
end

