-- ==== Sys2Proof/Machine/Ops.lean ====
section
/-! DEFINITION. The shared operations: timers, active tables, islands, the claim's coverage, level mailboxes and ramps (R23, R30, R31, R133,
R134), responses (R158, R159), the queues and the two transmitters (R136, R148, R150). -/

namespace Sys2Proof.Machine

/-- The outcome of a command: the part never stops, so this is always a next state. -/
abbrev Result := Host.Outcome State Fault Refusal

/-- Count up by one, saturating. -/
def satInc (top n : Nat) : Nat := min top (n + 1)

/-! ### Time -/

/-- The difference of two timebase values, modulo 2^32 (00_scope, Time). -/
def age (now start : Time) : Nat := (now - start).toNat

/-- A timer has run its time. -/
def Timer.expired (t : Timer) (now : Time) : Bool := decide (t.dur ≤ age now t.start)

/-- A timer that may be stopped runs and has run its time. -/
def timerExpired (t : Option Timer) (now : Time) : Bool :=
  match t with
  | some t => t.expired now
  | none => false

/-- A timer of a fixed time that may be stopped runs and has run its time. -/
def startExpired (start : Option Time) (dur : Nat) (now : Time) : Bool :=
  match start with
  | some t => decide (dur ≤ age now t)
  | none => false

/-! ### Parts of the state -/

/-- The state with its measurement side changed. -/
def State.withMeas (f : Meas → Meas) (s : State) : State := { s with meas := f s.meas }

/-- The state with its ports and queues changed. -/
def State.withLink (f : Link → Link) (s : State) : State := { s with link := f s.link }

/-- The state with its loader changed. -/
def State.withLoader (f : Loader → Loader) (s : State) : State := { s with loader := f s.loader }

/-! ### Active tables -/

/-- The part state is RUNNING: DOMAIN, TOPOLOGY, CYCLE and LIMIT are all active (R165). -/
def partRunning (m : Meas) : Bool :=
  m.tables.domain.isSome && m.tables.topology.isSome && m.tables.cycle.isSome && m.tables.limit.isSome

/-- The active FORWARD image, built-in or loaded (R142). -/
def forwardImage (m : Meas) : List Byte := m.tables.forward.getD builtinForward

/-- The active image of a kind, if there is one (R175). -/
def activeImage (m : Meas) : TableId → Option (List Byte)
  | .domain => m.tables.domain
  | .topology => m.tables.topology
  | .cycle => m.tables.cycle
  | .limit => m.tables.limit
  | .forward => some (forwardImage m)

/-- The active CYCLE row of a profile. -/
def cycleRow (m : Meas) (p : Profile) : Option CycleRow := m.tables.cycle.map (cycleRowOf · p)

/-- A constant of a domain's row in the active DOMAIN table. -/
def domConst (f : List Byte → Dom → Nat) (m : Meas) (d : Dom) : Nat := (m.tables.domain.map (f · d)).getD 0

/-- The effective record of a domain under a profile, while a LIMIT table is active (R69). -/
def limitsOf (m : Meas) (d : Dom) (p : Profile) : Option Limits := m.tables.limit.map (effectiveLimits · d p)

/-! ### Islands -/

/-- The island that holds a domain (R12). -/
def islandOf (m : Meas) (d : Dom) : Option Island := m.islands.find? fun i => inSet i.members d

/-- The island with a member set (R12: an island is identified by its member set alone). -/
def islandAt (m : Meas) (ds : DomSet) : Option Island := m.islands.find? fun i => i.members == ds

/-- The island that a tap injects. -/
def injectedBy (m : Meas) (t : Dom) : Option Island := m.islands.find? fun i => i.injector == t

/-- Replace the island with the same member set. -/
def putIsland (i : Island) (m : Meas) : Meas :=
  { m with islands := m.islands.map fun j => if j.members == i.members then i else j }

/-- Change the island with a member set, if there is one. -/
def changeIsland (ds : DomSet) (f : Island → Island) (m : Meas) : Meas :=
  { m with islands := m.islands.map fun j => if j.members == ds then f j else j }

/-- The profile in force of a domain: its island's, or PARK (R13). -/
def profileInForce (m : Meas) (d : Dom) : Profile :=
  match islandOf m d with
  | some i => i.profile
  | none => .park

/-- A tap is PRESENT. -/
def isPresent (m : Meas) (t : Dom) : Bool := tapState m t == some .present

/-- A tap is under reference check (R113). -/
def underRef (m : Meas) (t : Dom) : Bool :=
  match m.ref with
  | some r => r.tap == t
  | none => false

/-! ### Coverage by the claim (R93) -/

/-- The claimed island: the current island that holds the claimed domain, while a claim exists (R93). -/
def claimedIsland (m : Meas) : Option Island :=
  if m.claim.state == .none then none else m.claim.dom.bind (islandOf m)

/-- The covered set: the claimed island's members while the topology state is KNOWN, every fitted domain while it is not, nothing
while no claim exists (R93). -/
def coveredSet (m : Meas) : DomSet :=
  if m.claim.state == .none then 0
  else if m.topo.state == .known then (claimedIsland m).elim 0 (·.members)
  else fittedSet m

/-- A domain is held by the claim: its EXTERNAL marker is set and its verdict does not age (R83). -/
def held (m : Meas) (d : Dom) : Bool := inSet (coveredSet m) d

/-! ### Level mailboxes and ramps -/

/-- Change what is held for a tap. -/
def changeTap (t : Dom) (f : Tap → Tap) (m : Meas) : Meas := { m with taps := m.taps.set t (f (m.taps.get t)) }

/-- A write to a covered tap's mailbox removes the tap from the confirmed taps (R98). -/
def unconfirm (t : Dom) (m : Meas) : Meas :=
  { m with claim := { m.claim with confirmed := m.claim.confirmed &&& ~~~ (single t) } }

/-- A write to a mailbox that is not a ramp step: it ends any ramp on the tap (R31); a change makes a level frame due at once and
restarts the refresh timer, for a fitted tap (R133, R134). -/
def writeTap (b : Mailbox) (isFitted : Bool) (now : Time) (p : Tap) : Tap :=
  let changed := isFitted && p.mailbox != b
  { p with
    mailbox := b
    ramp := none
    due := p.due || changed
    refreshStart := if changed then some now else p.refreshStart }

/-- A block writes a tap's mailbox other than as a ramp step (R23, R31, R133). -/
def writeMailbox (t : Dom) (b : Mailbox) (m : Meas) : Meas :=
  unconfirm t (changeTap t (writeTap b (fitted m t) m.timebase) m)

/-- The mailbox of an injector that waits with its balance network connected (R24, R28). -/
def Mailbox.quiet : Mailbox := ⟨0, .domain, .connected⟩

/-- The mailbox of a tap that begins its reference cycle (R116). -/
def Mailbox.refQuiet : Mailbox := ⟨0, .ref, .floating⟩

/-- The drop of a tap: level 0, path DOMAIN, balance floating, as one step (R17). -/
def dropTap (t : Dom) (m : Meas) : Meas := writeMailbox t .rest m

/-- A mailbox with no DOMAIN-path level and a floating balance network, as the grant test asks (R98). -/
def Mailbox.clearOfDomain (b : Mailbox) : Bool :=
  (b.level == 0 || b.path == .ref) && b.balance == .floating

/-- Begin a ramp (R30, R31): it replaces any ramp on the tap; with its target away from the commanded level its step timer, which is
the refresh timer (R134), starts afresh; at its target already it ends as it begins, and `onEnd` follows at once. -/
def startRamp (t : Dom) (r : Ramp) (onEnd : Meas → Meas) (m : Meas) : Meas :=
  if (m.taps.get t).mailbox.level = r.target then onEnd (changeTap t (fun p => { p with ramp := none }) m)
  else changeTap t (fun p => { p with ramp := some r, refreshStart := some m.timebase }) m

/-- One step of a level toward a target (R30). -/
def stepLevel (level target : Int) (step : Nat) : Int :=
  if (target - level).natAbs ≤ step then target
  else if level < target then level + step else level - step

/-- A ramp step: the mailbox takes the stepped level with the requester's path and balance, and the ramp ends when the level is the
target (R30). It restarts no timer by itself (R134). -/
def rampStepTap (r : Ramp) (p : Tap) : Tap :=
  let level := stepLevel p.mailbox.level r.target r.step
  { p with
    mailbox := ⟨level, r.path, r.balance⟩
    ramp := if level = r.target then none else some r }

/-! ### Responses (R158, R159) -/

/-- The summary byte (R158, R184). -/
def summary (m : Meas) : Nat :=
  byteOfBits [(attention m, 0), (partRunning m, 1), (anyVerdict m .fault, 6), (anyVerdict m .warn, 7)]
    + m.topo.state.code * 4 + m.claim.state.code * 16

/-- A response frame with the status and summary bytes first (R158). -/
def responseFrame (address kind tag : Byte) (st : Status) (values : List Byte) (m : Meas) : Frame :=
  ⟨markerResponse, address, kind, tag, be8 st.code ++ be8 (summary m) ++ values⟩

/-- The XCLAIM response of a completing event is built and its pending record removed; it then waits for its place (R159). -/
def deferXclaim (st : Status) (values : List Byte) (m : Meas) : Meas :=
  match m.pendXclaim with
  | none => m
  | some p =>
    { m with pendXclaim := none, heldResponses := m.heldResponses ++ [responseFrame 0 p.kind p.tag st values m] }

/-- The RCHK response of a completing event is built and its pending record removed; it then waits for its place (R159). -/
def deferRchk (st : Status) (values : List Byte) (m : Meas) : Meas :=
  match m.pendRchk with
  | none => m
  | some p =>
    { m with pendRchk := none, heldResponses := m.heldResponses ++ [responseFrame 0 p.kind p.tag st values m] }

/-! ### The upstream queue (R148, R150) -/

/-- The occupancy of the upstream queue (R148). -/
def occupancy (s : State) : Nat := s.link.upQueue.length

/-- A frame joins the tail of the upstream queue while the occupancy is below its class's limit (R150). -/
def joinUp (limit : Nat) (f : Frame) (l : Link) : Link :=
  if l.upQueue.length < limit then { l with upQueue := l.upQueue ++ [f] } else l

/-- A response of the part joins the upstream queue (R150). -/
def respond (q : Frame) (st : Status) (values : List Byte) (s : State) : State :=
  s.withLink (joinUp Config.upstreamPlaces (responseFrame 0 q.kind q.tag st values s.meas))

/-- Held deferred responses take the places there are, oldest first (R159). -/
def admitHeld (s : State) : State :=
  let room := Config.upstreamPlaces - occupancy s
  { s with
    link := { s.link with upQueue := s.link.upQueue ++ s.meas.heldResponses.take room }
    meas := { s.meas with heldResponses := s.meas.heldResponses.drop room } }

/-- An idle Port U takes the head of the upstream queue (R148). -/
def beginUp (s : State) : State :=
  match s.link.txU, s.link.upQueue with
  | none, f :: rest => s.withLink fun l => { l with txU := some f, upQueue := rest }
  | _, _ => s

/-- At the end of a command: held responses are admitted, an idle Port U begins its next frame, and the place that leaves may admit
another held response (R148, R159; the moment within the command is DEDUCED, log 6). A held response takes the place within the event that
frees it, before any answer on a tap's behalf that waits for the same place; R159 allows the other order too, which the model does not show
(DESIGN CHOICE, log 32). -/
def pumpUp (s : State) : State := admitHeld (beginUp (admitHeld s))

/-! ### The downstream transmitter (R135, R136) -/

/-- The level frame to a tap, carrying its mailbox as it stands (R135, R182). -/
def levelFrame (t : Dom) (p : Tap) : Frame :=
  ⟨markerLevel, BitVec.ofNat 8 t.number, 0x02, p.levelSeq + 1,
    beInt16 p.mailbox.level ++ be8 p.mailbox.path.code ++ be8 p.mailbox.balance.code⟩

/-- The tap's level frame begins: it is due no longer, and its level sequence counts up (R135). -/
def beginLevel (t : Dom) (s : State) : State :=
  { s with
    link := { s.link with txD := some (levelFrame t (s.meas.taps.get t)) }
    meas := changeTap t (fun p => { p with due := false, levelSeq := p.levelSeq + 1 }) s.meas }

/-- The arbiter's choice on an idle Port D: the level frame of the lowest-numbered tap that has one due, else the head of the
downstream queue (R136). -/
def pumpDown (s : State) : State :=
  match s.link.txD with
  | some _ => s
  | none =>
    match Dom.all.find? fun t => (s.meas.taps.get t).due with
    | some t => beginLevel t s
    | none =>
      match s.link.downQueue with
      | f :: rest => s.withLink fun l => { l with txD := some f, downQueue := rest }
      | [] => s

/-- The end of a command that may have written mailboxes and added responses. -/
def pumpBoth (s : State) : State := pumpDown (pumpUp s)

/-! ### Requests (R156, R157) -/

/-- How many responses the request adds at once (R156). -/
def responsesOf (q : Frame) (m : Meas) : Nat :=
  if q.kind == kindXrel then (if m.claim.state == .handoff then 2 else 1)
  else if q.kind == kindRestart then
    1 + (if m.claim.state == .handoff then 1 else 0) + (if m.ref.isSome then 1 else 0)
  else 1

/-- The request unit may process the head request: no deferred response is held, and there is room for every response it adds
(R156). -/
def canProcess (q : Frame) (s : State) : Bool :=
  s.meas.heldResponses.isEmpty && decide (occupancy s + responsesOf q s.meas ≤ Config.upstreamPlaces)

/-- Process the head of the request buffer if it passes `mine` and may be processed: it leaves the buffer, a wrong payload length is
answered BADFORM, and otherwise `body` takes it (R156, R157). A request command whose request is not at the head, or must wait, is
no event: nothing changes (log 1, log 4). -/
def takeRequest (mine : Byte → Bool) (body : Frame → State → State) (s : State) : State :=
  match s.link.buffer with
  | [] => s
  | q :: rest =>
    if mine q.kind && canProcess q s then
      let s := s.withLink fun l => { l with buffer := rest }
      if formOk q.kind q.payload.length then body q s else pumpUp (respond q .badForm [] s)
    else s

end Sys2Proof.Machine
end

