-- ==== Sys2Proof/Machine/Resistance.lean ====
section
/-! DEFINITION. The resistance unit: the stages from plateau means to resistances (R54 to R61), the result record (R62, R63), and the
thresholds from ohms per volt (R67). -/

namespace Sys2Proof.Machine

/-- Clamp to the top of the range (R61). -/
def clampR (n : Nat) : Nat := min Config.openR n

/-- The INVERTED test (R55). -/
def isInverted (invMargin : Nat) (d2 : Int) : Bool := decide (d2 < -(invMargin : Int))

/-- Stage 1: Rraw from D2, the captured U and Rc, for a D2 that is not INVERTED (R56). -/
def rrawOf (u rc : Nat) (d2 : Int) : Nat :=
  if d2 ≤ 0 then 0
  else
    let d := d2.toNat
    if 2 * u ≤ d then Config.openR else clampR (rc * d / (2 * u - d))

/-- Stage 2: Riso, with the balance network removed (R57). -/
def risoOf (rraw rbal : Nat) : Nat :=
  if rraw = Config.openR then Config.openR
  else if rbal ≤ rraw then Config.openR
  else clampR (rraw * rbal / (rbal - rraw))

/-- Stage 3, raw side value: the divisor is V−q for Rp′ and V+q for Rn′ (R59). -/
def sideRawOf (rraw ubus divisor : Nat) : Nat :=
  if divisor = 0 then Config.openR
  else if rraw = Config.openR then Config.openR
  else clampR (rraw * ubus / divisor)

/-- Stage 3, a side with its balance leg of 2 × Rbal removed (R60). -/
def sideOf (raw rbal : Nat) : Nat :=
  let side := 2 * rbal
  if side ≤ raw then Config.openR else clampR (raw * side / (side - raw))

/-- D2, when both Vp and Vn are present (R54). -/
def d2Of (ms : Means) : Option Int :=
  match ms.vp, ms.vn with
  | some p, some n => some (p - n)
  | _, _ => none

/-- The split: Rp and Rn, when the quiet plateau saw at least UBUS_MIN (R58 to R60). -/
def splitOf (ms : Means) (rraw rbal : Nat) : Option (Nat × Nat) :=
  match ms.vPlusQ, ms.vMinusQ with
  | some a, some b =>
    if Config.ubusMin ≤ a + b then
      some (sideOf (sideRawOf rraw (a + b) b) rbal, sideOf (sideRawOf rraw (a + b) a) rbal)
    else none
  | _, _ => none

/-- The outcome of a hand-over (R53): TIMED_OUT keeps its own; otherwise D2 against the margin. A hand-over without D2 that is not
marked TIMED_OUT, which no run makes, is answered as TIMED_OUT (log 25). -/
def outcomeOf (timedOut : Bool) (invMargin : Nat) (d2 : Option Int) : CycleOutcome :=
  match timedOut, d2 with
  | false, some d => if isInverted invMargin d then .inverted else .valid
  | _, _ => .timedOut

/-- The result record of a hand-over, with its completion time and number (R53, R62, R63). -/
def resultOf (i : Island) (c : Captured) (timedOut : Bool) (now : Time) (number : BitVec 16) : ResultRecord :=
  let d2 := if timedOut then none else d2Of i.means
  let outcome := outcomeOf timedOut c.row.invMargin d2
  let valid := outcome == .valid
  let rraw := rrawOf c.row.injMv c.rc (d2.getD 0)
  let split := splitOf i.means rraw c.rbal
  { number := number
    members := i.members
    injector := i.injector
    profile := c.profile
    mode := i.mode
    outcome := outcome
    quality := i.quality
    time := now
    u := c.row.injMv
    means := i.means
    d2 := d2
    rraw := if valid then some rraw else none
    riso := if valid then some (risoOf rraw c.rbal) else none
    rp := if valid then split.map (·.1) else none
    rn := if valid then split.map (·.2) else none
    counts := i.counts }

/-! ### Thresholds (R67) -/

/-- The quotient of natural numbers rounded up; R67 takes every threshold so. -/
def ceilDiv (a b : Nat) : Nat := (a + (b - 1)) / b

/-- Tf, Tw, Tfc and Twc of an effective record; Tw and Twc are absent while warn_opv is 0 (R67). -/
structure Thresholds where
  tf : Nat
  tw : Option Nat
  tfc : Nat
  twc : Option Nat
  deriving DecidableEq, Repr

/-- A clear level: the threshold and its hysteresis (R67). -/
def clearLevel (t hyst : Nat) : Nat := t + ceilDiv (t * hyst) 100

/-- The thresholds of an effective record (R67). -/
def thresholdsOf (l : Limits) : Thresholds :=
  let tf := ceilDiv (l.faultOpv * l.ratedV) 1000
  let tw := if l.warnOpv = 0 then none else some (ceilDiv (l.warnOpv * l.ratedV) 1000)
  { tf := tf, tw := tw, tfc := clearLevel tf l.hystPct, twc := tw.map (clearLevel · l.hystPct) }

end Sys2Proof.Machine
end

