-- ==== Sys2Proof/Machine/VerdictUnit.lean ====
section
/-! DEFINITION. The verdict unit: result levels (R73), the verdict machine (R75 to R79), aging (R82, R83), solo results (R84), fault records
(R85, R86), and the publication of a result with its evaluation (R53, R64, R72). -/

namespace Sys2Proof.Machine

/-- The level of a VALID result for a domain; UNSETTLED caps FAULT to WARN (R73). -/
def levelOf (th : Thresholds) (riso : Nat) (unsettled : Bool) : Level :=
  if riso < th.tf then (if unsettled then .warn else .fault)
  else
    match th.tw with
    | some tw => if riso < tw then .warn else .ok
    | none => .ok

/-- The warn clear level: Twc when Tw is present, Tfc when it is not (R74). -/
def warnClear (th : Thresholds) : Nat := th.twc.getD th.tfc

/-- The better run resets; the below-clear mark goes with it (R74). -/
def resetBetter (r : DomRec) : DomRec := { r with better := 0, belowClear := false }

/-- Both runs reset (R79). -/
def resetRuns (r : DomRec) : DomRec := { r with worse := 0, better := 0, belowClear := false }

/-- The verdict changes, and both runs reset (R79). -/
def moveVerdict (v : Verdict) (r : DomRec) : DomRec := { resetRuns r with verdict := v }

/-- The worse run counts up: a run that starts takes the level; a run that goes on keeps the least severe (R74). -/
def countWorse (l : RunLevel) (r : DomRec) : DomRec :=
  { r with
    worse := r.worse + 1
    runLevel := if r.worse = 0 then l else if r.runLevel == .warn then .warn else l }

/-- The verdict a run level stands for. -/
def RunLevel.verdict : RunLevel → Verdict
  | .warn => .warn
  | .fault => .fault

/-- The verdict machine on one result, by the domain's verdict: UNKNOWN (R75), OK (R76), WARN (R77), FAULT (R78). `full` and
`unsettled` are the result's. -/
def judge (l : Limits) (riso : Nat) (full unsettled : Bool) (r : DomRec) : DomRec :=
  let th := thresholdsOf l
  let level := levelOf th riso unsettled
  match r.verdict with
  | .unknown =>
    match level with
    | .ok => moveVerdict .ok r
    | .warn => moveVerdict .warn r
    | .fault =>
      if l.faultCount = 1 then moveVerdict .fault r
      else { moveVerdict .warn r with worse := 1, runLevel := .fault }
  | .ok =>
    match level with
    | .ok => { r with worse := 0 }
    | .warn =>
      let r' := countWorse .warn r
      if l.faultCount ≤ r'.worse then moveVerdict r'.runLevel.verdict r' else r'
    | .fault =>
      let r' := countWorse .fault r
      if l.faultCount ≤ r'.worse then moveVerdict r'.runLevel.verdict r' else r'
  | .warn =>
    if level == .fault then
      let r' := countWorse .fault (resetBetter r)
      if l.faultCount ≤ r'.worse then moveVerdict .fault r' else r'
    else if warnClear th ≤ riso then
      let r' := { r with worse := 0, better := r.better + 1 }
      if l.clearCount ≤ r'.better then moveVerdict .ok r' else r'
    else resetRuns r
  | .fault =>
    if full && !unsettled && decide (th.tfc ≤ riso) then
      let below := match th.twc with
        | some twc => decide (riso < twc)
        | none => false
      let r' := { r with better := r.better + 1, belowClear := r.belowClear || below }
      if l.clearCount ≤ r'.better then moveVerdict (if r'.belowClear then .warn else .ok) r' else r'
    else resetBetter r

/-- Change what is held for a domain. -/
def changeDom (d : Dom) (f : DomRec → DomRec) (m : Meas) : Meas := { m with doms := m.doms.set d (f (m.doms.get d)) }

/-- Replace a domain's record; a change of its verdict sets VERDICT_CHANGED, and the conditions and ISO_ALERT follow (R80, R81). -/
def putVerdict (d : Dom) (r : DomRec) (m : Meas) : Meas :=
  let m' := changeDom d (fun _ => r) m
  if r.verdict == (m.doms.get d).verdict then m' else followConditions (raise .verdictChanged m')

/-- Both runs of every member of a set reset, as at the dissolution or formation of an island (R17, R19, R79). -/
def resetMemberRuns (ds : DomSet) (m : Meas) : Meas :=
  { m with doms := m.doms.mapWith fun d r => if inSet ds d then resetRuns r else r }

/-! ### Aging (R82, R83) -/

/-- The aging expiry of a domain is due (R82). -/
def agingDue (m : Meas) (d : Dom) : Bool :=
  let r := m.doms.get d
  (r.verdict == .ok || r.verdict == .warn) && !held m d &&
    match r.newest, limitsOf m d (profileInForce m d) with
    | some n, some l => decide (l.maxAge * 1000 < age m.timebase n.time)
    | _, _ => false

/-- The aging test of a domain: if its expiry is due, the verdict becomes UNKNOWN and both runs reset (R82). -/
def agingTest (d : Dom) (m : Meas) : Meas :=
  if agingDue m d then putVerdict d (moveVerdict .unknown (m.doms.get d)) m else m

/-- The aging test of each domain of a list. -/
def agingTests (ds : List Dom) (m : Meas) : Meas := ds.foldl (fun m d => agingTest d m) m

/-! ### Fault records (R85, R86) -/

/-- An age in whole seconds, truncated (R86, R163). -/
def ageSeconds (now start : Time) : Nat := age now start / 1000

/-- A domain's entry of an attribution list: its solo data counts while younger than attrib_age (R86). -/
def attribEntry (m : Meas) (attribAge : Nat) (now : Time) (d : Dom) : AttribEntry :=
  match (m.doms.get d).solo with
  | some s => if age now s.time < attribAge * 1000 then ⟨d, some (s.riso, ageSeconds now s.time)⟩ else ⟨d, none⟩
  | none => ⟨d, none⟩

/-- An entry goes before another: solo data first, ascending by Riso (R86); equal ones keep their order. -/
def entryBefore (a b : AttribEntry) : Bool :=
  match a.solo, b.solo with
  | some x, some y => decide (x.1 ≤ y.1)
  | some _, none => true
  | none, some _ => false
  | none, none => true

/-- Put an entry at its place in an ordered list. -/
def insertEntry (e : AttribEntry) : List AttribEntry → List AttribEntry
  | [] => [e]
  | x :: xs => if entryBefore e x then e :: x :: xs else x :: insertEntry e xs

/-- Entries in attribution order; a list in ascending domain order keeps it among equals (R86). -/
def sortEntries (l : List AttribEntry) : List AttribEntry := l.foldr insertEntry []

/-- The attribution list of a member set (R86). -/
def attribution (m : Meas) (attribAge : Nat) (now : Time) (ds : DomSet) : List AttribEntry :=
  sortEntries ((members ds).map (attribEntry m attribAge now))

/-- The fault record of a domain that entered FAULT on a result (R85). -/
def faultRecordOf (m : Meas) (d : Dom) (p : Profile) (attribAge : Nat) (r : ResultRecord) : FaultRecord :=
  { dom := d, time := r.time, members := r.members, injector := r.injector, profile := p, number := r.number,
    riso := r.riso.getD 0, rp := r.rp, rn := r.rn, entries := attribution m attribAge r.time r.members }

/-! ### Publication and evaluation (R53, R64, R72) -/

/-- Step 1 of R72: a VALID, FULL, settled result of one domain alone becomes its last solo result (R84). -/
def updateSolo (r : ResultRecord) (riso : Nat) (m : Meas) : Meas :=
  match members r.members with
  | [d] =>
    if r.mode == .full && !r.quality.unsettled then
      changeDom d (fun x => { x with solo := some ⟨riso, r.time⟩ }) m
    else m
  | _ => m

/-- Step 2 of R72 for one domain: the verdict machine, then the newest evaluated result. -/
def evaluateDomain (p : Profile) (r : ResultRecord) (riso : Nat) (m : Meas) (d : Dom) : Meas :=
  match limitsOf m d p with
  | none => m
  | some l =>
    let x := judge l riso (r.mode == .full) r.quality.unsettled (m.doms.get d)
    putVerdict d { x with newest := some ⟨r.number, r.time⟩ } m

/-- Step 3 of R72 for one domain: entry to FAULT writes its fault record (R85). -/
def recordFault (before : PerDom DomRec) (p : Profile) (attribAge : Nat) (r : ResultRecord) (m : Meas) (d : Dom) : Meas :=
  if (m.doms.get d).verdict == .fault && (before.get d).verdict != .fault then
    changeDom d (fun x => { x with fault := some (faultRecordOf m d p attribAge r) }) m
  else m

/-- The verdict unit takes a published record, under the island's profile in force (R72, R92). Outcomes other than VALID are left
unjudged, and so is everything while no LIMIT table is active, but for the solo result. -/
def evaluate (p : Profile) (attribAge : Nat) (r : ResultRecord) (m : Meas) : Meas :=
  match r.outcome, r.riso with
  | .valid, some riso =>
    let m1 := updateSolo r riso m
    if m1.tables.limit.isSome then
      let m2 := (members r.members).foldl (evaluateDomain p r riso) m1
      (members r.members).foldl (recordFault m1.doms p attribAge r) m2
    else m1
  | _, _ => m

/-- The resistance unit publishes an island's hand-over: the record takes the next number and the slot (R53, R64, R65); INVERTED
sets CYCLE_FAIL (R53); the record goes to the verdict unit (R72). TIMED_OUT sets CYCLE_FAIL in the cycle engine (R41). -/
def publish (ds : DomSet) (timedOut : Bool) (m : Meas) : Meas :=
  match islandAt m ds with
  | none => m
  | some i =>
    match i.captured with
    | none => m
    | some c =>
      let number := m.resultNumber + 1
      let r := resultOf i c timedOut m.timebase number
      let m1 := putIsland { i with slot := some r } { m with resultNumber := number }
      let m2 := if r.outcome == .inverted then raise .cycleFail m1 else m1
      evaluate i.profile c.row.attribAge r m2

end Sys2Proof.Machine
end

