-- ==== Sys2Proof/Machine/CycleEngine.lean ====
section
/-! DEFINITION. The cycle engine and the suspend list: samples, settling and plateaus (R33 to R41), cycle steps and ramps (R28 to R32, R42 to
R44), FORMING and STALLED (R24 to R27), demands (R46, R47), suspension and resumption (R106 to R110). -/

namespace Sys2Proof.Machine

/-! ### One sample in a SETTLE or PLATEAU step (R33 to R40); islands and the reference cycle share it (R117) -/

/-- The two sampling stages of a phase. -/
inductive Stage where
  | settle | plateau
  deriving DecidableEq, Repr

/-- The stage and phase of a step that uses samples (R33). -/
def CycleStep.sampling : CycleStep → Option (Stage × Phase)
  | .quietSettle => some (.settle, .quiet)
  | .quietPlateau => some (.plateau, .quiet)
  | .posSettle => some (.settle, .pos)
  | .posPlateau => some (.plateau, .pos)
  | .negSettle => some (.settle, .neg)
  | .negPlateau => some (.plateau, .neg)
  | .rampPos | .rampNeg | .rampHome => none

/-- The SETTLE step of a phase. -/
def settleStep : Phase → CycleStep
  | .quiet => .quietSettle | .pos => .posSettle | .neg => .negSettle

/-- The PLATEAU step of a phase. -/
def plateauStep : Phase → CycleStep
  | .quiet => .quietPlateau | .pos => .posPlateau | .neg => .negPlateau

/-- A sample's echo is the commanded level, path and balance (R34, R117). -/
def echoes (b : Mailbox) (x : Sample) : Bool :=
  x.applied == b.level && (x.ref == (b.path == .ref)) && (x.bal == (b.balance == .connected))

/-- The mean of a number of samples, rounded half upward (R38, R40). -/
def meanOf (sum : Int) (n : Nat) : Int := (sum + (n / 2 : Nat)) / (n : Int)

/-- What one used sample leaves: the accumulators, whether it set NOISY or GAPPED, and whether it completed a block, settled the
phase, or filled the plateau. -/
structure Taken where
  acc : Accum
  noisy : Bool
  gapped : Bool
  block : Bool
  settled : Bool
  full : Bool
  deriving DecidableEq, Repr

/-- The noise-rejected sample (R35): above noise_limit the step restarts (R37) and NOISY is set. -/
def takeNoise (row : CycleRow) (gapped : Bool) (a : Accum) : Taken :=
  if row.noiseLimit < a.noise + 1 then ⟨Accum.empty, true, gapped, false, false, false⟩
  else ⟨{ a with noise := a.noise + 1 }, false, gapped, false, false, false⟩

/-- The valid sample in a SETTLE step (R38). -/
def takeSettle (row : CycleRow) (run : Nat) (gapped : Bool) (vs : Int) (a : Accum) : Taken :=
  let sum := a.blockSum + vs
  let count := a.blockCount + 1
  if count < row.block then ⟨{ a with blockSum := sum, blockCount := count }, false, gapped, false, false, false⟩
  else
    let mean := meanOf sum row.block
    let stable := match a.prevMean with
      | some p => decide ((mean - p).natAbs ≤ row.settleTol)
      | none => false
    let stableRun := if stable then a.stableRun + 1 else 0
    ⟨{ a with blockSum := 0, blockCount := 0, prevMean := some mean, stableRun := stableRun }, false, gapped, true,
      decide (run ≤ stableRun), false⟩

/-- The valid sample in a PLATEAU step (R40); V+ and V− are summed in QUIET. -/
def takePlateau (n : Nat) (ph : Phase) (gapped : Bool) (x : Sample) (a : Accum) : Taken :=
  let a := { a with
    sumVs := a.sumVs + x.vs
    sumVPlus := if ph = .quiet then a.sumVPlus + x.vPlus else a.sumVPlus
    sumVMinus := if ph = .quiet then a.sumVMinus + x.vMinus else a.sumVMinus
    plateauCount := a.plateauCount + 1 }
  ⟨a, false, gapped, false, false, decide (n ≤ a.plateauCount)⟩

/-- A used sample: first its sequence gap (R36), then its class, skipped, noise-rejected or valid (R34). `n` and `run` are N and S. -/
def takeSample (st : Stage) (ph : Phase) (row : CycleRow) (n run : Nat) (b : Mailbox) (delta : Nat) (x : Sample) (a : Accum) :
    Taken :=
  let restart := decide (row.maxGap + 1 < delta)
  let gapped := decide (2 ≤ delta) && !restart
  let a := if restart then Accum.empty else a
  if !echoes b x then ⟨a, false, gapped, false, false, false⟩
  else if x.clip || x.tflt then takeNoise row gapped a
  else
    match st with
    | .settle => takeSettle row run gapped x.vs a
    | .plateau => takePlateau n ph gapped x a

/-- What entering a SETTLE step clears (R38). -/
def clearForSettle (a : Accum) : Accum :=
  { a with blockSum := 0, blockCount := 0, prevMean := none, stableRun := 0, noise := 0 }

/-- What entering a PLATEAU step clears (R40); a partly filled block is abandoned (R39). -/
def clearForPlateau (a : Accum) : Accum :=
  { a with blockSum := 0, blockCount := 0, sumVs := 0, sumVPlus := 0, sumVMinus := 0, plateauCount := 0, noise := 0 }

/-! ### The island context -/

/-- N: 16 in FAST, n_full in FULL (R28). -/
def plateauLength (md : Mode) (row : CycleRow) : Nat :=
  match md with
  | .fast => Config.fastPlateau
  | .full => row.nFull

/-- S: 2 in FAST, settle_blocks in FULL (R28). -/
def settleRun (md : Mode) (row : CycleRow) : Nat :=
  match md with
  | .fast => Config.fastSettle
  | .full => row.settleBlocks

/-- A row of zeros, read where no row is captured. -/
def CycleRow.zero : CycleRow := ⟨0, 0, 0, 0, 0, 0, 0, 0, 0, 0, 0, 0, 0, 0, 0, 0, 0⟩

/-- The CYCLE row an island's cycle captured. -/
def Island.row (i : Island) : CycleRow := (i.captured.map (·.row)).getD .zero

/-- No timer of the context runs. -/
def stopTimers (i : Island) : Island :=
  { i with phaseTimer := none, plateauTimer := none, settleTimer := .stopped, intervalTimer := none }

/-- The cycle part of a context is cleared: what R26 lists for a stall (R26, R95). -/
def clearCyclePart (i : Island) : Island :=
  { stopTimers i with captured := none, acc := .empty, means := .none, counts := .zero, quality := .clear }

/-- A context as formed: every part empty (R19, R22). -/
def newIsland (p : IslandSpec) : Island :=
  { members := p.members, injector := p.injector, profile := p.profile, state := .forming, mode := .fast, captured := none,
    acc := .empty, phaseTimer := none, plateauTimer := none, settleTimer := .stopped, intervalTimer := none, means := .none,
    counts := .zero, quality := .clear, demand := none, slot := none }

/-- A settle block count one higher, saturating at 65535 (R38). -/
def countBlock (ph : Phase) (c : Counts) : Counts :=
  match ph with
  | .quiet => { c with quiet := satInc 65535 c.quiet }
  | .pos => { c with pos := satInc 65535 c.pos }
  | .neg => { c with neg := satInc 65535 c.neg }

/-! ### The suspend list (R106, R107, R110) -/

/-- Discard the entries with a member set. -/
def dropEntry (ds : DomSet) (m : Meas) : Meas := { m with suspended := m.suspended.filter fun e => e.members != ds }

/-- The entry with a member set (R106: no two share one). -/
def entryAt (m : Meas) (ds : DomSet) : Option SuspendEntry := m.suspended.find? fun e => e.members == ds

/-- The phase of a suspended step; RAMP_HOME is not suspended (R107). -/
def suspendPhase : CycleStep → Option Phase
  | .quietSettle | .quietPlateau => some .quiet
  | .rampPos | .posSettle | .posPlateau => some .pos
  | .rampNeg | .negSettle | .negPlateau => some .neg
  | .rampHome => none

/-- The plateau means kept at a suspension in a phase (R107). -/
def keptMeans (ph : Phase) (ms : Means) : Means :=
  match ph with
  | .quiet => .none
  | .pos => { ms with vp := none, vn := none }
  | .neg => { ms with vn := none }

/-- The settle block counts kept: those of the completed phases (R107). -/
def keptCounts (ph : Phase) (c : Counts) : Counts :=
  match ph with
  | .quiet => .zero
  | .pos => { c with pos := 0, neg := 0 }
  | .neg => { c with neg := 0 }

/-- Suspend an island's cycle in a step: build its entry and put it on the list in place of one with the same member set, unless its
captured resume_age is 0 or it is in RAMP_HOME (R107). -/
def suspendCycle (i : Island) (st : CycleStep) (cause : SuspendCause) (m : Meas) : Meas :=
  match suspendPhase st, i.captured with
  | some ph, some c =>
    if c.row.resumeAge = 0 then m
    else
      let e : SuspendEntry :=
        { members := i.members, injector := i.injector, mode := i.mode, phase := ph, means := keptMeans ph i.means,
          captured := c, counts := keptCounts ph i.counts, quality := i.quality, time := m.timebase, cause := cause }
      let m' := dropEntry i.members m
      { m' with suspended := m'.suspended ++ [e] }
  | _, _ => m

/-- An entry is older than its captured resume_age allows (R108, R111). -/
def entryTooOld (e : SuspendEntry) (now : Time) : Bool := decide (e.captured.row.resumeAge * 1000 < age now e.time)

/-! ### Cycle steps -/

/-- Enter the SETTLE step of a phase (R38). -/
def enterSettle (ph : Phase) (ds : DomSet) (m : Meas) : Meas :=
  changeIsland ds (fun i => { stopTimers i with
    state := .cycle (settleStep ph), acc := clearForSettle i.acc, phaseTimer := some ⟨m.timebase, i.row.phaseTimeout⟩ }) m

/-- Enter the PLATEAU step of a phase (R40). -/
def enterPlateau (ph : Phase) (ds : DomSet) (m : Meas) : Meas :=
  changeIsland ds (fun i => { stopTimers i with
    state := .cycle (plateauStep ph), acc := clearForPlateau i.acc, plateauTimer := some ⟨m.timebase, i.row.phaseTimeout⟩ }) m

/-- Start a cycle in a mode (R28). Before any CYCLE table is active none can start (R48). -/
def startCycle (md : Mode) (ds : DomSet) (m : Meas) : Meas :=
  match islandAt m ds with
  | none => m
  | some i =>
    match cycleRow m i.profile with
    | none => m
    | some row =>
      let c : Captured := ⟨row, i.profile, domConst domRc m i.injector, domConst domRbal m i.injector⟩
      let m1 := putIsland { stopTimers i with
        mode := md, captured := some c, means := .none, counts := .zero, quality := .clear } m
      enterSettle .quiet ds (writeMailbox i.injector .quiet m1)

/-- Enter INTERVAL; an interval of 0 expires as it is started, and a FULL cycle starts (R43, R44). -/
def enterInterval (ds : DomSet) (m : Meas) : Meas :=
  match islandAt m ds with
  | none => m
  | some i =>
    let m1 := putIsland { stopTimers i with state := .interval, intervalTimer := some ⟨m.timebase, i.row.interval⟩ } m
    if i.row.interval = 0 then startCycle .full ds m1 else m1

/-- The end of RAMP_HOME: a pending demand is consumed by a new cycle, otherwise INTERVAL (R43). -/
def endCycle (ds : DomSet) (m : Meas) : Meas :=
  match islandAt m ds with
  | none => m
  | some i =>
    match i.demand with
    | some md => startCycle md ds (putIsland { i with demand := none } m)
    | none => enterInterval ds m

/-- What follows the end of a cycle's ramp, by its step (R32, R43). -/
def afterCycleRamp (ds : DomSet) (m : Meas) : Meas :=
  match islandAt m ds with
  | none => m
  | some i =>
    match i.state with
    | .cycle .rampPos => enterSettle .pos ds m
    | .cycle .rampNeg => enterSettle .neg ds m
    | .cycle .rampHome => endCycle ds m
    | _ => m

/-- The target of a cycle's ramp step, mV (R32). -/
def rampTarget (st : CycleStep) (u : Nat) : Int :=
  match st with
  | .rampPos => u
  | .rampNeg => -(u : Int)
  | _ => 0

/-- Enter a ramp step of an island's cycle at its captured slew, 20 mV for each V/s (R30, R32). -/
def enterRamp (st : CycleStep) (ds : DomSet) (m : Meas) : Meas :=
  match islandAt m ds with
  | none => m
  | some i =>
    let m1 := putIsland { stopTimers i with state := .cycle st } m
    startRamp i.injector ⟨rampTarget st i.row.injMv, i.row.slew * 20, .domain, .connected, .cycle⟩ (afterCycleRamp ds) m1

/-- A plateau completes: its means are retained and the next ramp begins; NEG is handed over first (R40, R42). -/
def completePlateau (ph : Phase) (ds : DomSet) (m : Meas) : Meas :=
  match islandAt m ds with
  | none => m
  | some i =>
    let n := plateauLength i.mode i.row
    let mean := meanOf i.acc.sumVs n
    match ph with
    | .quiet =>
      let ms := { i.means with
        vq := some mean
        vPlusQ := some (meanOf i.acc.sumVPlus n).toNat
        vMinusQ := some (meanOf i.acc.sumVMinus n).toNat }
      enterRamp .rampPos ds (putIsland { i with means := ms } m)
    | .pos => enterRamp .rampNeg ds (putIsland { i with means := { i.means with vp := some mean } } m)
    | .neg => enterRamp .rampHome ds (publish ds false (putIsland { i with means := { i.means with vn := some mean } } m))

/-- The cycle engine takes an in-service frame: it is used when it comes from the injector of an island in a SETTLE or PLATEAU step
(R33). -/
def cycleSample (t : Dom) (delta : Nat) (x : Sample) (m : Meas) : Meas :=
  match injectedBy m t with
  | none => m
  | some i =>
    match i.state with
    | .cycle st =>
      match st.sampling with
      | none => m
      | some (stage, ph) =>
        let k := takeSample stage ph i.row (plateauLength i.mode i.row) (settleRun i.mode i.row)
          (m.taps.get t).mailbox delta x i.acc
        let i' := { i with
          acc := k.acc
          quality := { i.quality with noisy := i.quality.noisy || k.noisy, gapped := i.quality.gapped || k.gapped }
          counts := if k.block then countBlock ph i.counts else i.counts }
        let m1 := putIsland i' m
        if k.settled then enterPlateau ph i.members m1
        else if k.full then completePlateau ph i.members m1
        else m1
    | _ => m

/-- The phase timer expires in a SETTLE step: the plateau begins UNSETTLED (R39). An expiry, here and below, is `none` when no such
timer has run its time (log 1). -/
def phaseExpiry (ds : DomSet) (m : Meas) : Option Meas :=
  match islandAt m ds with
  | none => none
  | some i =>
    match i.state with
    | .cycle st =>
      match st.sampling with
      | some (.settle, ph) =>
        if timerExpired i.phaseTimer m.timebase then
          some (enterPlateau ph ds (putIsland { i with quality := { i.quality with unsettled := true } } m))
        else none
      | _ => none
    | _ => none

/-- The plateau timer expires in a PLATEAU step: CYCLE_FAIL, a TIMED_OUT result, and RAMP_HOME from the level as it stands (R41). From
QUIET RAMP_HOME ends as it begins, and with a demand held or an interval of 0 a new cycle is then in QUIET_SETTLE (R43, R44); a completing
sample taken after the expiry is a sample of that step and is used there (R33), while R41 says that it is not used, because the island is
by then in RAMP_HOME; the model follows R33 (DESIGN CHOICE, log 34). -/
def plateauExpiry (ds : DomSet) (m : Meas) : Option Meas :=
  match islandAt m ds with
  | none => none
  | some i =>
    match i.state with
    | .cycle st =>
      match st.sampling with
      | some (.plateau, _) =>
        if timerExpired i.plateauTimer m.timebase then
          let m1 := putIsland { i with acc := .empty } m
          some (enterRamp .rampHome ds (publish ds true (raise .cycleFail m1)))
        else none
      | _ => none
    | _ => none

/-- The interval timer expires: a FULL cycle starts (R44). -/
def intervalExpiry (ds : DomSet) (m : Meas) : Option Meas :=
  match islandAt m ds with
  | none => none
  | some i =>
    if i.state == .interval && timerExpired i.intervalTimer m.timebase then some (startCycle .full ds m) else none

/-! ### FORMING, STALLED, resumption, demand -/

/-- An island enters STALLED: the cycle part, timers and demand go, its suspend entry is discarded, and the injector is written to
rest (R26, R110). -/
def enterStalled (ds : DomSet) (m : Meas) : Meas :=
  match islandAt m ds with
  | none => m
  | some i =>
    dropEntry ds (writeMailbox i.injector .rest (putIsland { clearCyclePart i with state := .stalled, demand := none } m))

/-- A resumed cycle takes up its entry's context at the step that begins the suspended phase (R109). -/
def resumeCycle (e : SuspendEntry) (ds : DomSet) (m : Meas) : Meas :=
  let m1 := changeIsland ds (fun i => { stopTimers i with
    mode := e.mode, captured := some e.captured, means := e.means, counts := e.counts,
    quality := { e.quality with resumed := true } }) m
  match e.phase with
  | .quiet => enterSettle .quiet ds m1
  | .pos => enterRamp .rampPos ds m1
  | .neg => enterRamp .rampNeg ds m1

/-- The end of FORMING with a PRESENT injector and nothing to resume: a new cycle in the demanded mode, which is consumed, or FAST
(R25, R29). -/
def startFirst (ds : DomSet) (m : Meas) : Meas :=
  match islandAt m ds with
  | none => m
  | some i => startCycle (i.demand.getD .fast) ds (putIsland { i with demand := none } m)

/-- FORMING ends, its timer having expired and the part being RUNNING: a stall, a resumption or a new cycle (R25, R108). Where the entry's
own expiry is due at the same moment, its age is above the limit: R111 says that the end of FORMING, taken first, resumes, and R108's
comparison says that it discards; the model follows the comparison, so a new cycle starts in either order (DESIGN CHOICE, log 31). -/
def endForming (ds : DomSet) (m : Meas) : Meas :=
  match islandAt m ds with
  | none => m
  | some i =>
    if !isPresent m i.injector then enterStalled ds m
    else
      match m.suspended.find? fun e => e.members == ds && e.injector == i.injector with
      | some e =>
        let m1 := dropEntry ds m
        if entryTooOld e m.timebase then startFirst ds m1 else resumeCycle e ds m1
      | none => startFirst ds m

/-- The settle timer has run: FORMING ends if the part is RUNNING, and otherwise waits with its timer expired (R25). -/
def settleEnd (ds : DomSet) (m : Meas) : Meas :=
  if partRunning m then endForming ds m else changeIsland ds (fun i => { i with settleTimer := .expired }) m

/-- The topology settle time of the active TOPOLOGY table (R14). -/
def settleTime (m : Meas) : Nat := (m.tables.topology.map topoSettle).getD 0

/-- An island enters FORMING: the injector is written 0, DOMAIN, connected and the settle timer starts; a settle time of 0 is over as
it begins (R24, R25). -/
def enterForming (ds : DomSet) (m : Meas) : Meas :=
  match islandAt m ds with
  | none => m
  | some i =>
    let m1 := writeMailbox i.injector .quiet
      (putIsland { stopTimers i with state := .forming, settleTimer := .running ⟨m.timebase, settleTime m⟩ } m)
    if settleTime m = 0 then settleEnd ds m1 else m1

/-- The settle timer of an island in FORMING expires (R25). -/
def settleExpiry (ds : DomSet) (m : Meas) : Option Meas :=
  match islandAt m ds with
  | none => none
  | some i =>
    match i.state, i.settleTimer with
    | .forming, .running t => if t.expired m.timebase then some (settleEnd ds m) else none
    | _, _ => none

/-- A suspend entry older than its captured resume_age is discarded (R111). -/
def suspendExpiry (ds : DomSet) (m : Meas) : Option Meas :=
  match entryAt m ds with
  | none => none
  | some e => if entryTooOld e m.timebase then some (dropEntry ds m) else none

/-- The part becomes RUNNING: every FORMING whose settle timer has expired ends (R165). -/
def endExpiredFormings (m : Meas) : Meas :=
  m.islands.foldl (fun m i => if i.state == .forming && i.settleTimer == .expired then endForming i.members m else m) m

/-- A tap's loss reaches the cycle engine: an island it injects stalls from FORMING, CYCLE or INTERVAL (R26). -/
def stallOnLoss (t : Dom) (m : Meas) : Meas :=
  match injectedBy m t with
  | none => m
  | some i =>
    match i.state with
    | .forming | .cycle _ | .interval => enterStalled i.members m
    | .stalled | .handoff | .external | .refhold => m

/-- A tap's entry to PRESENT reaches the cycle engine: a STALLED island it injects enters FORMING (R27). -/
def recoverOnPresent (t : Dom) (m : Meas) : Meas :=
  match injectedBy m t with
  | none => m
  | some i => if i.state == .stalled then enterForming i.members m else m

/-- A held demand: the bit is set, and FULL wins over FAST (R46). -/
def mergeDemand (old : Option Mode) (md : Mode) : Option Mode :=
  match old with
  | some .full => some .full
  | _ => some md

/-- A demand reaches the island that holds a domain: INTERVAL starts a cycle, FORMING and CYCLE hold it, the other states take
nothing of it (R45 to R47). -/
def demandOn (d : Dom) (md : Mode) (m : Meas) : Meas :=
  match islandOf m d with
  | none => m
  | some i =>
    match i.state with
    | .interval => startCycle md i.members m
    | .forming | .cycle _ => putIsland { i with demand := mergeDemand i.demand md } m
    | .stalled | .handoff | .external | .refhold => m

end Sys2Proof.Machine
end

