-- ==== Sys2Proof/Machine/RefUnit.lean ====
section
/-! DEFINITION. The reference check unit: preemption (R115, R116), the reference cycle (R117), its judgement (R66, R118), and its end
(R119, R120). -/

namespace Sys2Proof.Machine

/-- Change the active reference-check record. -/
def changeRef (f : RefCheck → RefCheck) (m : Meas) : Meas := { m with ref := m.ref.map f }

/-- Enter the SETTLE step of a phase of the reference cycle (R38, R117). -/
def refSettle (ph : Phase) (m : Meas) : Meas :=
  changeRef (fun r => { r with
    step := .cycle (settleStep ph), acc := clearForSettle r.acc, plateauTimer := none
    phaseTimer := some ⟨m.timebase, r.row.phaseTimeout⟩ }) m

/-- Enter the PLATEAU step of a phase of the reference cycle (R40, R117). -/
def refPlateau (ph : Phase) (m : Meas) : Meas :=
  changeRef (fun r => { r with
    step := .cycle (plateauStep ph), acc := clearForPlateau r.acc, phaseTimer := none
    plateauTimer := some ⟨m.timebase, r.row.phaseTimeout⟩ }) m

/-- The tap under check is switched to its reference path: 0, REF, floating, and QUIET_SETTLE (R116). -/
def switchToRef (t : Dom) (m : Meas) : Meas := refSettle .quiet (writeMailbox t .refQuiet m)

/-- The tap's island is released at the end of a check, if it waits in REFHOLD: to FORMING, or to STALLED when the tap is not PRESENT
(R119). -/
def releaseRefhold (t : Dom) (m : Meas) : Meas :=
  match injectedBy m t with
  | none => m
  | some i =>
    if i.state == .refhold then
      (if isPresent m t then enterForming i.members m else enterStalled i.members m)
    else m

/-- The values of an RCHK response that ends a check (R119, R186). -/
def rchkValues (t : Dom) (o : RefOutcome) (rraw : Option Nat) (r : RefCheck) (decided : Time) : List Byte :=
  be8 t.number ++ be8 o.code ++ be8 rraw.isSome.toNat ++ be16 (rraw.getD 0) ++ be16 r.rref ++ be8 r.row.refTol
    ++ be32 decided.toNat

/-- The end of a check with an outcome (R119): the tap to rest, REF_DONE and REF_FAIL, the RCHK response, the record to IDLE, and
the island released. -/
def finishRef (o : RefOutcome) (rraw : Option Nat) (decided : Time) (m : Meas) : Meas :=
  match m.ref with
  | none => m
  | some r =>
    let m1 := raise .refDone (writeMailbox r.tap .rest m)
    let m2 := if o == .fail then raise .refFail m1 else m1
    let m3 := deferRchk .ok (rchkValues r.tap o rraw r decided) m2
    releaseRefhold r.tap { m3 with ref := none }

/-- The check ends at the end of its RAMP_HOME, with the outcome that was decided (R119). -/
def endRef (m : Meas) : Meas :=
  match m.ref with
  | none => m
  | some r => finishRef (r.outcome.getD .notCompleted) r.rraw (r.decided.getD m.timebase) m

/-- The check's tap is lost: NOT_COMPLETED, now, without Rraw (R120). -/
def refLost (t : Dom) (m : Meas) : Meas :=
  if underRef m t then finishRef .notCompleted none m.timebase m else m

/-- What follows the end of a ramp of the check, by its step (R116, R117, R119). -/
def afterRefRamp (t : Dom) (m : Meas) : Meas :=
  match m.ref with
  | none => m
  | some r =>
    match r.step with
    | .preempt => switchToRef t m
    | .cycle .rampPos => refSettle .pos m
    | .cycle .rampNeg => refSettle .neg m
    | .cycle .rampHome => endRef m
    | .cycle _ => m

/-- Enter a ramp step of the reference cycle, on the REF path with the balance floating (R117). -/
def refRamp (st : CycleStep) (m : Meas) : Meas :=
  match m.ref with
  | none => m
  | some r =>
    let m1 := changeRef (fun r => { r with step := .cycle st, phaseTimer := none, plateauTimer := none }) m
    startRamp r.tap ⟨rampTarget st r.row.injMv, r.row.slew * 20, .ref, .floating, .refCheck⟩ (afterRefRamp r.tap) m1

/-- |a − b|. -/
def distance (a b : Nat) : Nat := (a - b) + (b - a)

/-- The judgement of the reference: INVERTED is FAIL with no Rraw; otherwise PASS within ref_tol of Rref, the boundary included
(R66, R118). -/
def judgeRef (row : CycleRow) (rc rref : Nat) (d2 : Int) : RefOutcome × Option Nat :=
  if isInverted row.invMargin d2 then (.fail, none)
  else
    let rraw := rrawOf row.injMv rc d2
    (if distance rraw rref * 100 ≤ rref * row.refTol then .pass else .fail, some rraw)

/-- A plateau of the reference cycle completes: QUIET's means are not kept, POS keeps Vp, NEG keeps Vn and is judged (R117, R118). -/
def refComplete (ph : Phase) (m : Meas) : Meas :=
  match m.ref with
  | none => m
  | some r =>
    let mean := meanOf r.acc.sumVs r.row.nFull
    match ph with
    | .quiet => refRamp .rampPos m
    | .pos => refRamp .rampNeg (changeRef (fun r => { r with vp := some mean }) m)
    | .neg =>
      let j := judgeRef r.row r.rc r.rref (r.vp.getD 0 - mean)
      refRamp .rampHome (changeRef (fun r => { r with
        vn := some mean, outcome := some j.1, rraw := j.2, decided := some m.timebase }) m)

/-- The reference check unit takes an in-service frame of its tap in a SETTLE or PLATEAU step (R33, R117). -/
def refSample (t : Dom) (delta : Nat) (x : Sample) (m : Meas) : Meas :=
  match m.ref with
  | none => m
  | some r =>
    if r.tap == t then
      match r.step with
      | .preempt => m
      | .cycle st =>
        match st.sampling with
        | none => m
        | some (stage, ph) =>
          let k := takeSample stage ph r.row r.row.nFull r.row.settleBlocks (m.taps.get t).mailbox delta x r.acc
          let m1 := changeRef (fun r => { r with acc := k.acc }) m
          if k.settled then refPlateau ph m1
          else if k.full then refComplete ph m1
          else m1
    else m

/-- The phase timer of the reference cycle expires: the plateau begins, and nothing records it (R117). -/
def refPhaseExpiry (m : Meas) : Option Meas :=
  match m.ref with
  | none => none
  | some r =>
    match r.step with
    | .preempt => none
    | .cycle st =>
      match st.sampling with
      | some (.settle, ph) => if timerExpired r.phaseTimer m.timebase then some (refPlateau ph m) else none
      | _ => none

/-- The plateau timer of the reference cycle expires: FAIL with no Rraw, and RAMP_HOME (R117). From QUIET RAMP_HOME ends as it begins and the
check with it; an island back in QUIET_SETTLE at once takes a sample that follows the expiry by R33, while R117 says that it is not used; the
model takes R117 to speak of the check (DESIGN CHOICE, log 34). -/
def refPlateauExpiry (m : Meas) : Option Meas :=
  match m.ref with
  | none => none
  | some r =>
    match r.step with
    | .preempt => none
    | .cycle st =>
      match st.sampling with
      | some (.plateau, _) =>
        if timerExpired r.plateauTimer m.timebase then
          some (refRamp .rampHome (changeRef (fun r => { r with
            acc := .empty, outcome := some .fail, rraw := none, decided := some m.timebase }) m))
        else none
      | _ => none

/-- PREEMPT begins on an injector: its island, changed by `f`, enters REFHOLD, and the tap walks down on the DOMAIN path at the
captured slew (R115, R116). -/
def beginPreempt (i : Island) (f : Island → Island) (m : Meas) : Meas :=
  let m1 := changeIsland i.members (fun j => { f j with state := .refhold }) m
  startRamp i.injector ⟨0, i.row.slew * 20, .domain, .connected, .refCheck⟩ (afterRefRamp i.injector)
    (changeRef (fun r => { r with step := .preempt, preemptSlew := i.captured.map (·.row.slew) }) m1)

/-- The accepted check takes its tap according to its place in the partition (R115): the injector of an island in CYCLE is preempted
with its cycle suspended, in FORMING or INTERVAL with its timer stopped; any other tap is switched at once. -/
def preemptTap (t : Dom) (m : Meas) : Meas :=
  match injectedBy m t with
  | none => switchToRef t m
  | some i =>
    match i.state with
    | .cycle st => beginPreempt i clearCyclePart (suspendCycle i st .refchk m)
    | .forming | .interval => beginPreempt i stopTimers m
    | .stalled | .handoff | .external | .refhold => switchToRef t m

/-- The record of a check at its acceptance (R114). -/
def newRef (t : Dom) (tag : Byte) (row : CycleRow) (m : Meas) : RefCheck :=
  { step := .cycle .quietSettle, tap := t, tag := tag, row := row, rc := domConst domRc m t, rref := domConst domRref m t,
    preemptSlew := none, acc := .empty, phaseTimer := none, plateauTimer := none, vp := none, vn := none, outcome := none,
    rraw := none, decided := none }

/-- An RCHK is accepted: the row of the tap's profile in force, Rc and Rref are captured, and the tap is taken (R114, R115). -/
def acceptRchk (t : Dom) (q : Frame) (m : Meas) : Meas :=
  match cycleRow m (profileInForce m t) with
  | none => m
  | some row =>
    preemptTap t { m with ref := some (newRef t q.tag row m), pendRchk := some ⟨q.kind, q.tag⟩ }

/-- PREEMPT on a tap ends where it stands: the tap is switched as a step (R116, R121). -/
def endPreemptOn (t : Dom) (m : Meas) : Meas :=
  match m.ref with
  | some r => if r.tap == t && r.step == .preempt then switchToRef t m else m
  | none => m

end Sys2Proof.Machine
end

