-- ==== Sys2Proof/Machine/ClaimUnit.lean ====
section
/-! DEFINITION. The claim unit: taking the claimed island (R95 to R97), arming, confirmation and grant (R98, R99), the forced handoff (R100),
and the release (R104). -/

namespace Sys2Proof.Machine

/-- Change the claim record. -/
def changeClaim (f : Claim → Claim) (m : Meas) : Meas := { m with claim := f m.claim }

/-- The float command: the injector is written 0, DOMAIN, floating when its ramp-down has reached 0 (R97). -/
def floatCommand (t : Dom) (m : Meas) : Meas := writeMailbox t .rest m

/-- The ramp-down of the claimed island's injector at a captured slew, with the float command at its end (R97). -/
def rampDown (t : Dom) (slew : Nat) (m : Meas) : Meas :=
  startRamp t ⟨0, slew * 20, .domain, .connected, .claim⟩ (floatCommand t) m

/-- The claimed island is taken according to its state at the acceptance (R95, R96). -/
def takeIsland (m : Meas) : Meas :=
  if m.topo.state == .known then
    match claimedIsland m with
    | none => m
    | some i =>
      let enter (f : Island → Island) (m : Meas) : Meas :=
        changeIsland i.members (fun j => { f j with state := .handoff }) m
      match i.state with
      | .cycle st => rampDown i.injector i.row.slew (enter clearCyclePart (suspendCycle i st .claim m))
      | .forming | .interval => rampDown i.injector i.row.slew (enter stopTimers m)
      | .stalled | .refhold => enter id m
      | .handoff | .external => m
  else m

/-- The grant test is armed once no covered tap's mailbox holds a DOMAIN-path level or a connected balance network, and then stays
armed (R98). -/
def armClaim (m : Meas) : Meas :=
  if m.claim.state == .none then m
  else changeClaim (fun c => { c with
    armed := c.armed || (members (coveredSet m)).all fun t => (m.taps.get t).mailbox.clearOfDomain }) m

/-- The covered taps that are not confirmed (R99, R100). -/
def unconfirmedSet (m : Meas) : DomSet := coveredSet m &&& ~~~ m.claim.confirmed

/-- The number of the claimed domain; a cleared one reads 0. -/
def claimedNumber (m : Meas) : Nat := m.claim.dom.elim 0 (·.number)

/-- The claim becomes GRANTED, the claimed island EXTERNAL, HANDOFF_DONE is set, and the XCLAIM is answered with the claimed domain
and the unconfirmed set (R99, R100). -/
def grantWith (st : Status) (m : Meas) : Meas :=
  let m1 := changeClaim (fun c => { c with state := .granted }) m
  let m2 := match claimedIsland m1 with
    | some i => changeIsland i.members (fun j => { j with state := .external }) m1
    | none => m1
  let m3 := raise .handoffDone m2
  deferXclaim st (be8 (claimedNumber m3) ++ be8 (unconfirmedSet m3).toNat) m3

/-- Every covered tap that is PRESENT is among the confirmed taps (R99). -/
def allConfirmed (m : Meas) : Bool :=
  (members (coveredSet m)).all fun t => !isPresent m t || inSet m.claim.confirmed t

/-- Arm the test if it can be, and grant a claim in HANDOFF whose test is armed and complete (R98, R99). It is made at the events
that can bring either about. -/
def claimCheck (m : Meas) : Meas :=
  let m1 := armClaim m
  if m1.claim.state == .handoff && m1.claim.armed && allConfirmed m1 then grantWith .ok m1 else m1

/-- A sample that echoes level 0 on the DOMAIN path floating, or the REF path floating (R98). -/
def confirmEcho (x : Sample) : Bool := !x.bal && (x.ref || x.applied == 0)

/-- An in-service frame of a covered tap confirms it, once the test is armed (R98). -/
def confirmSample (t : Dom) (x : Sample) (m : Meas) : Meas :=
  if m.claim.state != .none && m.claim.armed && inSet (coveredSet m) t && confirmEcho x then
    changeClaim (fun c => { c with confirmed := c.confirmed ||| single t }) m
  else m

/-- An XCLAIM is accepted: the claim record is set, the response deferred, and the claimed island taken; the grant test follows
(R94, R95, R99). -/
def acceptXclaim (d : Dom) (q : Frame) (m : Meas) : Meas :=
  let limit := ((cycleRow m (profileInForce m d)).map (·.handoffLimit)).getD 0
  claimCheck (takeIsland { m with
    claim := ⟨.handoff, some d, m.timebase, limit, q.tag, false, 0⟩
    pendXclaim := some ⟨q.kind, q.tag⟩ })

/-- The handoff timer has expired: the claim is in HANDOFF and its limit has passed since the acceptance (R94, R100). -/
def handoffExpired (m : Meas) : Bool :=
  m.claim.state == .handoff && decide (m.claim.limit ≤ age m.timebase m.claim.acceptance)

/-- A forced handoff drops one covered tap: not when it already rests, nor when it is under reference check, whose PREEMPT ends here
instead (R100, R116). -/
def forceTap (m : Meas) (t : Dom) : Meas :=
  if underRef m t then endPreemptOn t m
  else if (m.taps.get t).mailbox.clearOfDomain then m
  else dropTap t m

/-- The handoff is forced and the XCLAIM answered TIMEOUT (R100). -/
def forceHandoff (m : Meas) : Meas :=
  grantWith .timeout (armClaim ((members (coveredSet m)).foldl forceTap m))

/-- The handoff timer expires (R100). -/
def handoffExpiry (m : Meas) : Option Meas := if handoffExpired m then some (forceHandoff m) else none

/-- The claim is released: NONE with no confirmed tap, the claimed island to FORMING, or to REFHOLD while its injector is under
reference check, and the domains that were held tested for age at once (R83, R104). -/
def releaseClaim (m : Meas) : Meas :=
  let covered := coveredSet m
  let island := claimedIsland m
  let m1 := changeClaim (fun c => { c with state := .none, armed := false, confirmed := 0 }) m
  let m2 := match island with
    | none => m1
    | some i =>
      if underRef m1 i.injector then changeIsland i.members (fun j => { j with state := .refhold }) m1
      else enterForming i.members m1
  agingTests (members covered) m2

end Sys2Proof.Machine
end

