-- ==== Sys2Proof/Machine/Resolver.lean ====
section
/-! DEFINITION. The topology resolver: resolution (R8, R9, R10), the classification of a change of partition (R15 to R20, R102, R103), the
freshness expiry (R11), and the re-resolution at a TOPOLOGY activation (R5). -/

namespace Sys2Proof.Machine

/-- An island of the new partition continues one of the old: same member set, same injector (R15). -/
def continuedFrom (old : List Island) (p : IslandSpec) : Option Island :=
  old.find? fun i => i.members == p.members && i.injector == p.injector

/-- An old island is continued by some island of the new partition (R15). -/
def isContinued (parts : List IslandSpec) (i : Island) : Bool :=
  parts.any fun p => i.members == p.members && i.injector == p.injector

/-- The tap of a dissolved island: dropped, unless it is under reference check; a check in PREEMPT is switched to its reference path
instead (R17, R121). -/
def dropInjector (t : Dom) (m : Meas) : Meas := if underRef m t then endPreemptOn t m else dropTap t m

/-- An island is dissolved: its injector dropped, its context and slot discarded, its suspend entry discarded, its members' runs reset
(R17). -/
def dissolveIsland (m : Meas) (i : Island) : Meas :=
  let m1 := dropInjector i.injector m
  resetMemberRuns i.members (dropEntry i.members { m1 with islands := m1.islands.filter fun j => j.members != i.members })

/-- A claim exists and its claimed domain lies in a set (R19, R102). -/
def claimsSet (m : Meas) (ds : DomSet) : Bool :=
  m.claim.state != .none && m.claim.dom.elim false (inSet ds)

/-- A formed island enters HANDOFF or EXTERNAL with the claim, REFHOLD with a reference check on its injector, or FORMING; its
members' runs reset (R19, R102, R121). -/
def enterFormed (m : Meas) (p : IslandSpec) : Meas :=
  let m := resetMemberRuns p.members m
  if claimsSet m p.members then
    let st : IslandState := if m.claim.state == .handoff then .handoff else .external
    let m1 := changeIsland p.members (fun i => { i with state := st }) m
    if underRef m1 p.injector then m1 else writeMailbox p.injector .rest m1
  else if underRef m p.injector then changeIsland p.members (fun i => { i with state := .refhold }) m
  else enterForming p.members m

/-- A new partition takes the place of the old: a continued island keeps its whole context and takes only the profile, any other
starts anew (R16, R19, R22). -/
def placeIslands (old : List Island) (parts : List IslandSpec) : List Island :=
  parts.map fun p =>
    match continuedFrom old p with
    | some i => { i with profile := p.profile }
    | none => newIsland p

/-- Suspend entries whose member set and injector are not those of a current island are discarded (R18, R110). -/
def discardStrayEntries (m : Meas) : Meas :=
  { m with suspended := m.suspended.filter fun e =>
      m.islands.any fun i => i.members == e.members && i.injector == e.injector }

/-- Taps that left the covered set leave the confirmed taps (R98, R102). -/
def trimConfirmed (m : Meas) : Meas :=
  changeClaim (fun c => { c with confirmed := c.confirmed &&& coveredSet m }) m

/-- The domains whose hold ended, or whose profile in force changed, between two states (R82, R83). -/
def agingTouched (before after : Meas) : List Dom :=
  Dom.all.filter fun d =>
    (held before d && !held after d) || profileInForce before d != profileInForce after d

/-- The change from the partition of `before` to a new one, every dissolution before any formation (R15 to R20, R102, R103); then the
suspend entries, the covered set, the aging tests and the grant test. The aging test at the end of a hold (R83) goes before a grant that
the same classification makes (R99), which no rule orders: the summary byte of the XCLAIM's response shows the verdicts and flags after it
(DESIGN CHOICE, log 30). `m` is `before` with its topology state or table changed. -/
def changePartition (before : Meas) (parts : List IslandSpec) (m : Meas) : Meas :=
  let gone := before.islands.filter fun i => !isContinued parts i
  let fresh := parts.filter fun p => (continuedFrom before.islands p).isNone
  let m1 := gone.foldl dissolveIsland m
  let m2 := { m1 with islands := placeIslands m1.islands parts }
  let m3 := discardStrayEntries (fresh.foldl enterFormed m2)
  let m4 := trimConfirmed m3
  claimCheck (agingTests (agingTouched before m4) m4)

/-- A resolution of a report against the active TOPOLOGY table (R9, R10). It touches no island when it stays KNOWN on the same row of
the same table (R15). -/
def resolve (sameTable : Bool) (img : List Byte) (rp : Report) (m : Meas) : Meas :=
  let rows := matchingRows img rp.positions rp.inlet
  let st : TopoState := if rows.isEmpty then .nomatch else .known
  let m1 := followConditions { m with topo := { m.topo with state := st, row := rows.head?, count := rows.length } }
  let m2 := if 2 ≤ rows.length then raise .topoMulti m1 else m1
  if sameTable && m.topo.state == .known && st == .known && m.topo.row == rows.head? then m2
  else
    changePartition m (match rows.head? with
      | some r => partitionOf img r (fitted m)
      | none => []) m2

/-- The topology state becomes STALE; from KNOWN every island is dissolved (R11, R20). -/
def becomeStale (m : Meas) : Meas :=
  changePartition m [] (followConditions { m with topo := { m.topo with state := .stale, row := none } })

/-- The freshness timer expires in KNOWN or NOMATCH, when the age of the last TOPO reaches the limit (R11). -/
def freshnessExpiry (m : Meas) : Option Meas :=
  match m.tables.topology, m.topo.stored with
  | some img, some rp =>
    if (m.topo.state == .known || m.topo.state == .nomatch) && decide (topoFreshness img ≤ age m.timebase rp.time) then
      some (becomeStale m)
    else none
  | _, _ => none

/-- A TOPO is taken: the clamped report is stored, and resolved if a TOPOLOGY table is active (R6). -/
def takeTopo (positions : BitVec 16) (inlet : Nat) (m : Meas) : Meas :=
  let rp : Report := ⟨positions, min Config.inletMax inlet, m.timebase⟩
  let m1 := { m with topo := { m.topo with stored := some rp } }
  match m.tables.topology with
  | some img => resolve true img rp m1
  | none => m1

/-- What a TOPOLOGY activation does once the new table is active: fresh positions are resolved against it, positions that are not
fresh make the state STALE, and without positions it stays UNRESOLVED (R5). -/
def reresolve (img : List Byte) (m : Meas) : Meas :=
  match m.topo.stored with
  | some rp => if age m.timebase rp.time < topoFreshness img then resolve false img rp m else becomeStale m
  | none => m

end Sys2Proof.Machine
end

