-- ==== Sys2Proof/Machine/ChainUnit.lean ====
section
/-! DEFINITION. The chain interface on the measurement side: sequence and presence (R128 to R132), the asymmetry watch (R87 to R90), the
refresh timers with their ramps (R30, R134), and the loss of a tap (R130). -/

namespace Sys2Proof.Machine

/-! ### Sequence and presence -/

/-- What the chain interface makes of a fitted tap's sample frame (R128): a duplicate, a joining frame, or an in-service frame with its
delta; `joined` when it completed the tap's join (R129). -/
inductive Judged where
  | duplicate
  | joining
  | inService (delta : Nat) (joined : Bool)
  deriving DecidableEq, Repr

/-- (sequence − last) modulo 256 (R132). A record without a last sequence counts as in order (log 25). -/
def seqDelta (seq : Byte) (last : Option Byte) : Nat :=
  match last with
  | some l => (seq - l).toNat
  | none => 1

/-- The judgement of a sequence number against a presence record, and the record it leaves (R129, R130, R132). -/
def judgeSeq (seq : Byte) (now : Time) (p : Presence) : Judged × Presence :=
  let taken := { p with lastSeq := some seq, lossStart := some now }
  let delta := seqDelta seq p.lastSeq
  if p.state == .present then
    if delta = 0 then (.duplicate, p) else (.inService delta false, taken)
  else if p.joinRun = 0 then (.joining, { taken with joinRun := 1 })
  else if delta = 0 then (.duplicate, p)
  else if delta = 1 then
    if p.joinRun + 1 < Config.joinFrames then (.joining, { taken with joinRun := p.joinRun + 1 })
    else (.inService 1 true, { taken with state := .present, joinRun := 0 })
  else (.joining, { taken with joinRun := 1 })

/-- Replace a tap's presence record. -/
def putPresence (t : Dom) (p : Presence) (m : Meas) : Meas := changeTap t (fun x => { x with presence := some p }) m

/-! ### The asymmetry watch (R87 to R90) -/

/-- A sample is watched: clean, echoing its mailbox, and not injecting into its domain (R87). A tap at commanded level 0 within a ramp step
(RAMP_POS before its first step, RAMP_NEG as it passes 0) is watched by R87's definition and not by its sentence on ramp steps; the
model follows the definition (DESIGN CHOICE, log 29). -/
def watched (b : Mailbox) (x : Sample) : Bool :=
  !x.clip && !x.tflt && echoes b x && (b.level == 0 || b.path == .ref)

/-- A watched sample is asymmetric (R88). -/
def asymmetric (pct : Nat) (x : Sample) : Bool :=
  let ubus := x.vPlus + x.vMinus
  decide (Config.ubusMin ≤ ubus) && decide (min x.vPlus x.vMinus * 100 < pct * ubus)

/-- The watch takes an in-service sample of a domain's tap (R87 to R89). -/
def watchSample (d : Dom) (x : Sample) (m : Meas) : Meas :=
  if watched (m.taps.get d).mailbox x then
    match cycleRow m (profileInForce m d) with
    | none => m
    | some row =>
      if asymmetric row.asymPct x then
        let m1 := changeDom d (fun r => { r with asymRun := satInc 100 r.asymRun }) m
        let r := m1.doms.get d
        if row.asymCount ≤ r.asymRun ∧ r.asymActive = false then
          demandOn d .fast (raise .asym (changeDom d (fun r => { r with asymActive := true }) m1))
        else m1
      else changeDom d (fun r => { r with asymRun := 0, asymActive := false }) m
  else m

/-! ### Sample intake (R128) -/

/-- An in-service frame goes to the measurement blocks in the order of R128: cycle engine, reference check unit, claim unit,
asymmetry watch (DESIGN CHOICE among the orders the rule allows, log 13). -/
def serveSample (t : Dom) (delta : Nat) (x : Sample) (m : Meas) : Meas :=
  watchSample t x (claimCheck (confirmSample t x (refSample t delta x (cycleSample t delta x m))))

/-- The sample intake of a fitted tap with a presence record: what was judged, and the measurement side after it (R128 to R132). -/
def intake (t : Dom) (seq : Byte) (x : Sample) (p : Presence) (m : Meas) : Judged × Meas :=
  match judgeSeq seq m.timebase p with
  | (.duplicate, _) => (.duplicate, m)
  | (.joining, p') => (.joining, putPresence t p' m)
  | (.inService delta joined, p') =>
    let m1 := putPresence t { p' with latest := some x } m
    let m2 := if joined then recoverOnPresent t m1
      else if 2 ≤ delta then raise .sampleGap m1 else m1
    (.inService delta joined, serveSample t delta x m2)

/-! ### Loss (R130) and join timeout (R129) -/

/-- A PRESENT tap's loss timer expires: LOST, TAP_LOST, and the blocks told in the order of R130 (log 14). -/
def loseTap (t : Dom) (p : Presence) (m : Meas) : Meas :=
  let p' := { p with state := .lost, joinRun := 0, lastSeq := none, lossStart := none }
  let m1 := followConditions (putPresence t p' m)
  let m2 := claimCheck (refLost t (stallOnLoss t m1))
  changeDom t (fun r => { r with asymRun := 0, asymActive := false }) m2

/-- The loss timer of a tap expires while it is PRESENT (R130). -/
def lossExpiry (t : Dom) (m : Meas) : Option Meas :=
  match (m.taps.get t).presence with
  | some p =>
    if p.state == .present && startExpired p.lossStart Config.lossMs m.timebase then some (loseTap t p m) else none
  | none => none

/-- The loss timer of a joining tap expires: its join run becomes 0 and its last sequence absent (R129). -/
def joinExpiry (t : Dom) (m : Meas) : Option Meas :=
  match (m.taps.get t).presence with
  | some p =>
    if p.state != .present && decide (0 < p.joinRun) && startExpired p.lossStart Config.lossMs m.timebase then
      some (putPresence t { p with joinRun := 0, lastSeq := none, lossStart := none } m)
    else none
  | none => none

/-! ### Refresh (R134) -/

/-- What follows the end of a ramp, by the block that asked for it (R32, R97, R116, R117). -/
def afterRamp (t : Dom) (o : RampOwner) (m : Meas) : Meas :=
  match o with
  | .cycle =>
    match injectedBy m t with
    | some i => afterCycleRamp i.members m
    | none => m
  | .claim => floatCommand t m
  | .refCheck => afterRefRamp t m

/-- A tap's refresh timer expires: any ramp takes its step, a level frame becomes due and the timer restarts; then what follows the
ramp's end, and the grant test (R30, R98, R134). -/
def refreshTap (t : Dom) (m : Meas) : Meas :=
  match (m.taps.get t).ramp with
  | none => changeTap t (fun p => { p with due := true, refreshStart := some m.timebase }) m
  | some r =>
    let m1 := unconfirm t
      (changeTap t (fun p => { rampStepTap r p with due := true, refreshStart := some m.timebase }) m)
    if (m1.taps.get t).ramp.isNone then claimCheck (afterRamp t r.owner m1) else m1

/-- The refresh timer of a fitted tap has run its 20 ms (R134). -/
def refreshExpiry (t : Dom) (m : Meas) : Option Meas :=
  if fitted m t && startExpired (m.taps.get t).refreshStart Config.refreshMs m.timebase then some (refreshTap t m) else none

end Sys2Proof.Machine
end

