-- ==== Sys2Proof/Machine/Traffic.lean ====
section
/-! DEFINITION. The traffic unit: the host-to-tap filter (R145 to R147), tap responses (R154), decimation, admission and annotation of samples
(R150 to R153). -/

namespace Sys2Proof.Machine

/-- Raise a flag of the state's measurement side. -/
def raiseIn (f : Flag) (s : State) : State := s.withMeas (raise f)

/-- A request or an answer is lost for lack of room: REQ_OVERRUN, and the overrun counter counts up (R147, R155). -/
def countOverrun (s : State) : State :=
  raiseIn .reqOverrun (s.withLink fun l => { l with overrun := satInc 255 l.overrun })

/-- A tap response or sample is dropped: FWD_DROP, and the drop counter counts up (R151). -/
def countDrop (s : State) : State :=
  raiseIn .fwdDrop (s.withLink fun l => { l with drops := satInc 65535 l.drops })

/-- A relayed frame is offered to the upstream queue: admitted below its limit, dropped otherwise (R150, R151). -/
def offerRelayed (limit : Nat) (f : Frame) (s : State) : State :=
  if occupancy s < limit then s.withLink (joinUp limit f) else countDrop s

/-! ### Host frames to taps -/

/-- A tap is owned: its mailbox is not at rest, or it is under reference check (R146). -/
def owned (m : Meas) (t : Dom) : Bool := (m.taps.get t).mailbox != .rest || underRef m t

/-- An address is owned: its tap is, or, for the broadcast address, any fitted tap is (R146). -/
def addressOwned (m : Meas) (address : Nat) : Bool :=
  if address = 15 then Dom.all.any fun t => fitted m t && owned m t
  else (Dom.ofNumber address).elim false (owned m)

/-- What the filter makes of a host frame (R145). -/
inductive FilterResult where
  | pass
  | answer (address : Byte) (st : Status)
  deriving DecidableEq, Repr

/-- The filter, in R145's order: addresses 9 to 14, then the kind's action, BLOCK_OWNED against the owned taps, and PASS against a
full downstream queue. -/
def filterOf (f : Frame) (s : State) : FilterResult :=
  let a := f.address.toNat
  let action := if 0x80 ≤ f.kind.toNat then 1 else fwdAction (forwardImage s.meas) f.kind.toNat
  if 9 ≤ a ∧ a ≤ 14 then .answer 0 .badArg
  else if action = 1 ∨ (action = 2 ∧ addressOwned s.meas a) then .answer f.address .filtered
  else if s.link.downQueue.length < Config.downstreamPlaces then .pass
  else .answer f.address .busy

/-- An answer on a tap's behalf is offered to the upstream queue, or lost with its frame when the queue is full (R147). -/
def answerFor (address : Byte) (f : Frame) (st : Status) (s : State) : State :=
  if occupancy s < Config.upstreamPlaces then
    s.withLink (joinUp Config.upstreamPlaces (responseFrame address f.kind f.tag st [] s.meas))
  else countOverrun s

/-- A host frame addressed to taps is filtered (R145). -/
def filterFrame (f : Frame) (s : State) : State :=
  match filterOf f s with
  | .pass => s.withLink fun l => { l with downQueue := l.downQueue ++ [f] }
  | .answer a st => answerFor a f st s

/-- A request frame joins the request buffer, or is lost when it holds four (R155). -/
def bufferRequest (f : Frame) (s : State) : State :=
  if s.link.buffer.length < Config.requestPlaces then s.withLink fun l => { l with buffer := l.buffer ++ [f] }
  else countOverrun s

/-! ### Forwarded samples -/

/-- The island code of a domain (R183): 0 without an island. -/
def islandCode (m : Meas) (d : Dom) : Nat := (islandOf m d).elim 0 (·.state.code)

/-- The island mode shown for a domain: FAST without an island (R51). -/
def islandMode (m : Meas) (d : Dom) : Mode := (islandOf m d).elim .fast (·.mode)

/-- Annotation tag byte A (R181). -/
def tagA (m : Meas) (d : Dom) : Nat :=
  (m.doms.get d).verdict.code + byteOfBits [(held m d, 2), (attention m, 3)]
    + m.topo.state.code * 16 + m.claim.state.code * 64

/-- Annotation tag byte B (R181). -/
def tagB (m : Meas) (d : Dom) : Nat :=
  islandCode m d + (islandMode m d).code * 16 + byteOfBits [((m.doms.get d).asymActive, 5)]

/-- The sample frame as it is admitted: with the two tag bytes when the tap is annotated (R153). -/
def forwardedFrame (t : Dom) (f : Frame) (m : Meas) : Frame :=
  if fwdAnnotate (forwardImage m) t = 1 then { f with payload := f.payload ++ be8 (tagA m t) ++ be8 (tagB m t) } else f

/-- An eligible sample counts its tap's decimation counter, and every k-th is offered to the upstream queue (R152). -/
def forwardSample (t : Dom) (f : Frame) (s : State) : State :=
  let img := forwardImage s.meas
  let k := fwdDecimation img t
  let n := s.link.decim.get t + 1
  if k = 0 then s
  else if n < k then s.withLink fun l => { l with decim := l.decim.set t n }
  else
    offerRelayed (fwdHighMark img) (forwardedFrame t f s.meas)
      (s.withLink fun l => { l with decim := l.decim.set t 0 })

/-- The sample intake of an accepted sample frame: an unfitted tap's is discarded, a duplicate goes no further, and the others end with
the traffic unit (R128). A deferred response that an in-service frame completes, as the grant of a claim does, is offered as the claim
unit acts, before the frame is offered for forwarding (R99, R150, R159): the frame is judged at the occupancy that counts the response,
and stands behind it. That the claim unit acts before the traffic unit is DESIGN CHOICE (log 13). -/
def acceptSample (f : Frame) (s : State) : State :=
  match Dom.ofNumber f.address.toNat with
  | none => s
  | some t =>
    match (if fitted s.meas t then (s.meas.taps.get t).presence else none) with
    | none => s
    | some p =>
      let r := intake t f.tag (sampleOf f.payload) p s.meas
      match r.1 with
      | .duplicate => s
      | .joining => forwardSample t f { s with meas := r.2 }
      | .inService _ _ => forwardSample t f (admitHeld { s with meas := r.2 })

end Sys2Proof.Machine
end

