-- ==== Sys2Proof/Machine/Receivers.lean ====
section
/-! DEFINITION. The two receivers: characters, receive errors and frames received whole (R124 to R127), and the commands of the line and of
the transmitters. -/

namespace Sys2Proof.Machine

/-- A port's receiver. -/
def rxOf (p : Port) (s : State) : Receiver :=
  match p with
  | .u => s.link.rxU
  | .d => s.link.rxD

/-- Replace a port's receiver. -/
def putRx (p : Port) (r : Receiver) (s : State) : State :=
  match p with
  | .u => s.withLink fun l => { l with rxU := r }
  | .d => s.withLink fun l => { l with rxD := r }

/-- The four kinds of receive error (R125). -/
inductive RxFault where
  | parity | framing | gap | crc
  deriving DecidableEq, Repr

/-- The LINK_ERR flag of a port (R125). -/
def linkErr : Port → Flag
  | .u => .linkErrU
  | .d => .linkErrD

/-- One of the four error counters counts up, saturating at 255 (R125). -/
def countFault (e : RxFault) (r : Receiver) : Receiver :=
  match e with
  | .parity => { r with parity := satInc 255 r.parity }
  | .framing => { r with framing := satInc 255 r.framing }
  | .gap => { r with gap := satInc 255 r.gap }
  | .crc => { r with crc := satInc 255 r.crc }

/-- A receive error: the frame being received is discarded, the receiver enters RECOVERING, the error is counted and LINK_ERR set
(R125). -/
def receiveFault (p : Port) (e : RxFault) (s : State) : State :=
  raiseIn (linkErr p) (putRx p { countFault e (rxOf p s) with state := .recovering, chars := [], idle := false } s)

/-- A character in RECOVERING restarts the 100 µs measure and is no error (R124). -/
def restartIdle (p : Port) (s : State) : State := putRx p { rxOf p s with idle := false } s

/-- The start markers a port accepts (R127). -/
def markerAccepted (p : Port) (c : Byte) : Bool :=
  match p with
  | .u => c == markerRequest
  | .d => c == markerSample || c == markerResponse

/-- A frame received whole goes where its port, marker and address say; one that fails its content checks is a framing error (R127).
A Port U address above 15 is in no row of R127: it goes nowhere, and whether it counts as an error is a free choice (log 8). -/
def dispatchFrame (p : Port) (f : Frame) (s : State) : State :=
  match p with
  | .u =>
    if f.address.toNat = 0 then bufferRequest f s
    else if f.address.toNat ≤ 15 then filterFrame f s
    else if Config.strayAddressIsFramingError then receiveFault .u .framing s else s
  | .d =>
    if 1 ≤ f.address.toNat ∧ f.address.toNat ≤ 8 then
      if f.marker == markerSample then
        if f.payload.length = 9 ∧ f.kind = 0x01 then acceptSample f s else receiveFault .d .framing s
      else offerRelayed Config.tapResponseLimit f s
    else receiveFault .d .framing s

/-- The last character of a frame has been received: the receiver returns to READY, a wrong CRC is a receive error, and a frame
received whole is judged (R124, R126). The outputs follow. -/
def endFrame (p : Port) (marker : Byte) (f : RxFrame) (s : State) : State :=
  let s1 := putRx p { rxOf p s with state := .ready, chars := [], idle := false } s
  if rxCrcOk f then pumpBoth (dispatchFrame p (keptFrame marker f) s1) else receiveFault p .crc s1

/-- One character received without line error (R124, R125, R126): in READY a marker of the port begins a frame and any other is a
framing error; in IN_FRAME it is collected, a length above 120 is a framing error, and the last one ends the frame; in RECOVERING it
restarts the idle measure. -/
def receiveChar (p : Port) (c : Byte) (s : State) : State :=
  let r := rxOf p s
  match r.state with
  | .recovering => restartIdle p s
  | .ready =>
    if markerAccepted p c then putRx p { r with state := .inFrame, chars := [c], idle := false } s
    else receiveFault p .framing s
  | .inFrame =>
    let chars := r.chars ++ [c]
    if chars.length = 2 ∧ Config.maxPayload < c.toNat then receiveFault p .framing s
    else if 2 ≤ chars.length ∧ chars.length = 7 + nat8 chars 1 then
      endFrame p (chars.getD 0 0) (rxFrameOf chars) s
    else putRx p { r with chars := chars, idle := false } s

/-- A whole frame arrives: the characters that complete it, from READY or from those already collected when they begin it (R124,
R126). In RECOVERING its characters are not errors and restart the idle measure; characters that begin another frame are not
completed by this one, and nothing changes (log 5). -/
def receiveFrame (p : Port) (marker : Byte) (f : RxFrame) (s : State) : State :=
  let r := rxOf p s
  match r.state with
  | .recovering => restartIdle p s
  | _ =>
    if r.chars.isPrefixOf (rxBytes marker f) then
      if Config.maxPayload < f.payload.length then receiveFault p .framing s else endFrame p marker f s
    else s

/-! ### The commands -/

/-- REQUEST_FRAME_RECEIVED (R155): a request frame on Port U at address 0. -/
def execRequestFrameReceived (f : RxFrame) (s : State) : Result := .next (receiveFrame .u markerRequest f s)

/-- HOST_TAP_FRAME (R145): a request frame on Port U addressed to taps. -/
def execHostTapFrame (f : RxFrame) (s : State) : Result := .next (receiveFrame .u markerRequest f s)

/-- SAMPLE_FRAME (R128): a sample frame on Port D. -/
def execSampleFrame (f : RxFrame) (s : State) : Result := .next (receiveFrame .d markerSample f s)

/-- TAP_RESPONSE (R138): a response frame on Port D. -/
def execTapResponse (f : RxFrame) (s : State) : Result := .next (receiveFrame .d markerResponse f s)

/-- CHARACTER_RECEIVED (R124). -/
def execCharacterReceived (p : Port) (c : Byte) (s : State) : Result := .next (receiveChar p c s)

/-- A character is a marker or length error in the receiver's present state (R124, R125). -/
def contentFault (p : Port) (r : Receiver) (c : Byte) : Bool :=
  match r.state with
  | .ready => !markerAccepted p c
  | .inFrame => r.chars.length == 1 && decide (Config.maxPayload < c.toNat)
  | .recovering => false

/-- RECEIVE_ERROR (R125): a line character with a wrong parity, a missing stop bit, or, on a good line, a wrong marker or length. A
character with both line errors counts as parity. In RECOVERING it is no error. A character with no error is no such event (log 26). -/
def execReceiveError (p : Port) (c : BitVec 11) (s : State) : Result :=
  .next (
    if (rxOf p s).state == .recovering then restartIdle p s
    else if !parityOk c then receiveFault p .parity s
    else if !stopOk c then receiveFault p .framing s
    else if contentFault p (rxOf p s) (charData c) then receiveFault p .framing s
    else s)

/-- RX_GAP_TIMEOUT (R125): more than 100 µs of idle within a frame is a gap error. The idle that has passed counts toward the 100 µs of
RECOVERING, so the receiver is READY at once (R124). -/
def execRxGapTimeout (p : Port) (s : State) : Result :=
  .next (
    if (rxOf p s).state == .inFrame then
      let s1 := receiveFault p .gap s
      putRx p { rxOf p s1 with state := .ready, idle := true } s1
    else s)

/-- RX_RECOVERY_DONE (R124): after 100 µs of line idle a RECOVERING receiver enters READY. -/
def execRxRecoveryDone (p : Port) (s : State) : Result :=
  .next (
    if (rxOf p s).state == .recovering then putRx p { rxOf p s with state := .ready, idle := true } s else s)

/-- PORT_D_TX_DONE (R136): the frame on Port D has ended, and the arbiter chooses the next. -/
def execPortDTxDone (s : State) : Result :=
  .next (
    if s.link.txD.isSome then pumpDown (s.withLink fun l => { l with txD := none }) else s)

/-- PORT_U_TX_DONE (R148): the frame on Port U has ended, and the next begins. -/
def execPortUTxDone (s : State) : Result :=
  .next (
    if s.link.txU.isSome then pumpUp (s.withLink fun l => { l with txU := none }) else s)

end Sys2Proof.Machine
end

