-- ==== Sys2Proof/Machine/Reports.lean ====
section
/-! DEFINITION. The layouts of what the host reads out: the STAT block (R162, R187), the ISORD record (R163, R188), the result record (R63,
R189) and the fault record (R85, R190). An absent optional field reads 0 (R178). -/

namespace Sys2Proof.Machine

/-- An optional number; absent reads 0 (R178). -/
def orZero (o : Option Nat) : Nat := o.getD 0

/-- An optional signed number; absent reads 0 (R178). -/
def orZeroInt (o : Option Int) : Int := o.getD 0

/-! ### STAT (R187) -/

/-- The load field: table, bytes received, expected segment; 0 while no load is open. -/
def loadField (l : Loader) : List Byte :=
  match l.load with
  | some x => be8 x.table.code ++ be16 x.buffer.length ++ [x.expected]
  | none => be8 0 ++ be16 0 ++ be8 0

/-- The reference field: state, and while ACTIVE the tap and step. -/
def refField (m : Meas) : List Byte :=
  match m.ref with
  | some r => be8 1 ++ be8 r.tap.number ++ be8 r.step.code
  | none => be8 0 ++ be8 0 ++ be8 0

/-- The table presence byte; FORWARD is present only when loaded (R162). -/
def presenceByte (t : Tables) : Nat :=
  byteOfBits [(t.domain.isSome, 0), (t.topology.isSome, 1), (t.cycle.isSome, 2), (t.limit.isSome, 3), (t.forward.isSome, 4)]

/-- The indications EMPTY, LEVEL and FULL (R151). -/
def indications (occ high : Nat) : Nat :=
  byteOfBits [(occ == 0, 0), (decide (high ≤ occ), 1), (occ == Config.upstreamPlaces, 2)]

/-- A receiver's four error counters. -/
def counterField (r : Receiver) : List Byte := be8 r.parity ++ be8 r.framing ++ be8 r.gap ++ be8 r.crc

/-- The 42-byte STAT block (R162, R187). -/
def statBlock (s : State) : List Byte :=
  let m := s.meas
  let high := fwdHighMark (forwardImage m)
  be32 m.flags.toNat ++ be32 m.mask.toNat ++ be8 (partRunning m).toNat
    ++ be8 m.topo.state.code ++ be8 (m.topo.row.getD 0xFF) ++ be8 m.topo.count
    ++ be8 m.claim.state.code ++ be8 (claimedNumber m)
    ++ refField m ++ loadField s.loader ++ be8 (presenceByte m.tables) ++ be8 s.loader.freeze.toNat
    ++ be8 (occupancy s) ++ be8 high ++ be8 (indications (occupancy s) high)
    ++ be16 s.link.drops ++ counterField s.link.rxU ++ counterField s.link.rxD ++ be8 s.link.overrun
    ++ be32 m.timebase.toNat ++ be8 m.resetCause.code

/-! ### ISORD (R188) -/

/-- An age in whole seconds, saturating. -/
def shownAge (top : Nat) (now start : Time) : Nat := min top (ageSeconds now start)

/-- The suspend entry whose member set is the domain's island's (R163). -/
def entryFor (m : Meas) (d : Dom) : Option SuspendEntry := (islandOf m d).bind fun i => entryAt m i.members

/-- The record of a domain that is not fitted: tap state 3, no island, verdict UNKNOWN, runs 0, every optional part absent (R163). -/
def unfittedRecord (m : Meas) (d : Dom) : List Byte :=
  be8 d.number ++ be8 (tapStateCode none + byteOfBits [((m.doms.get d).asymActive, 3)]) ++ List.replicate 12 0

/-- The record of a fitted domain (R163, R188). -/
def fittedRecord (m : Meas) (d : Dom) : List Byte :=
  let r := m.doms.get d
  let e := entryFor m d
  be8 (d.number + (e.elim 0 (·.phase.code)) * 16 + (e.elim 0 (·.cause.code)) * 64)
    ++ be8 (tapStateCode (some ((tapState m d).getD .unseen)) + byteOfBits [(held m d, 2), (r.asymActive, 3),
        (r.belowClear, 4), (r.newest.isSome, 5), (r.solo.isSome, 6), (e.isSome, 7)])
    ++ be8 ((islandOf m d).elim 0 (·.members.toNat))
    ++ be8 (islandCode m d + (islandMode m d).code * 16 + r.verdict.code * 32 + r.runLevel.code * 128)
    ++ be8 (r.worse + r.better * 16)
    ++ be16 (r.newest.elim 0 (·.number.toNat)) ++ be16 (r.newest.elim 0 fun n => shownAge 65535 m.timebase n.time)
    ++ be16 (r.solo.elim 0 (·.riso)) ++ be16 (r.solo.elim 0 fun x => shownAge 65535 m.timebase x.time)
    ++ be8 (e.elim 0 fun x => shownAge 255 m.timebase x.time)

/-- The 14-byte status record of a domain (R163, R188). -/
def isordRecord (m : Meas) (d : Dom) : List Byte := if fitted m d then fittedRecord m d else unfittedRecord m d

/-! ### RESRD (R189) -/

/-- The quality byte. -/
def qualityByte (q : Quality) : Nat := byteOfBits [(q.unsettled, 0), (q.noisy, 1), (q.gapped, 2), (q.resumed, 3)]

/-- The 43-byte result record (R189). -/
def resultBytes (r : ResultRecord) : List Byte :=
  be16 r.number.toNat ++ be8 r.members.toNat ++ be8 r.injector.number ++ be8 r.profile.code ++ be8 r.mode.code
    ++ be8 r.outcome.code ++ be8 (qualityByte r.quality)
    ++ be8 (byteOfBits [(r.means.vq.isSome, 0), (r.means.vp.isSome, 1), (r.means.vn.isSome, 2), (r.d2.isSome, 3),
        (r.rraw.isSome, 4), (r.rp.isSome, 5)])
    ++ be32 r.time.toNat ++ be16 r.u
    ++ beInt16 (orZeroInt r.means.vq) ++ beInt16 (orZeroInt r.means.vp) ++ beInt16 (orZeroInt r.means.vn)
    ++ be16 (orZero r.means.vPlusQ) ++ be16 (orZero r.means.vMinusQ)
    ++ beInt32 (orZeroInt r.d2)
    ++ be16 (orZero r.rraw) ++ be16 (orZero r.riso) ++ be16 (orZero r.rp) ++ be16 (orZero r.rn)
    ++ be16 r.counts.quiet ++ be16 r.counts.pos ++ be16 r.counts.neg

/-! ### FLTRD (R190) -/

/-- One 5-byte entry of an attribution list. -/
def entryBytes (e : AttribEntry) : List Byte :=
  match e.solo with
  | some (riso, secs) => be8 (e.dom.number + 128) ++ be16 riso ++ be16 secs
  | none => be8 e.dom.number ++ be16 0 ++ be16 0

/-- The eight entries; those beyond the count read 0 (R190). -/
def entriesBytes (l : List AttribEntry) : List Byte :=
  (l.take 8).flatMap entryBytes ++ List.replicate ((8 - l.length) * 5) 0

/-- The 58-byte fault record (R190). -/
def faultBytes (r : FaultRecord) : List Byte :=
  be8 r.dom.number ++ be32 r.time.toNat ++ be8 r.members.toNat ++ be8 r.injector.number ++ be8 r.profile.code
    ++ be16 r.number.toNat ++ be16 r.riso ++ be8 r.rp.isSome.toNat ++ be16 (orZero r.rp) ++ be16 (orZero r.rn)
    ++ be8 r.entries.length ++ entriesBytes r.entries

end Sys2Proof.Machine
end

