-- ==== Sys2Proof/Machine/Requests.lean ====
section
/-! DEFINITION. The requests of the measurement chapters and of the request unit: TOPO, XCLAIM, XREL, MEAS, RCHK, STAT, MASK, ISORD, RESRD,
FLTRD, RESTART and an unknown request, each taken from the head of the request buffer (R155 to R166). -/

namespace Sys2Proof.Machine

/-- The fitted domain that a payload byte names, if it names one. -/
def fittedArg (m : Meas) (q : Frame) (i : Nat) : Option Dom :=
  (Dom.ofNumber (nat8 q.payload i)).filter (fitted m)

/-! ### TOPO (R6, R7) -/

/-- The three values that TOPO's response and STAT carry (R7). -/
def topoValues (m : Meas) : List Byte := be8 m.topo.state.code ++ be8 (m.topo.row.getD 0xFF) ++ be8 m.topo.count

/-- TOPO's effect and response (R6, R7). -/
def doTopo (q : Frame) (s : State) : State :=
  let s1 := s.withMeas (takeTopo (BitVec.ofNat 16 (nat16 q.payload 0)) (nat16 q.payload 2))
  pumpBoth (respond q .ok (topoValues s1.meas) s1)

/-- TOPO (R6). -/
def execTopo (s : State) : Result := .next (takeRequest (· == kindTopo) doTopo s)

/-! ### XCLAIM, XREL (R94, R104) -/

/-- XCLAIM's checks, and its acceptance, whose response is deferred (R94). -/
def doXclaim (q : Frame) (s : State) : State :=
  match fittedArg s.meas q 0 with
  | none => pumpUp (respond q .badArg [] s)
  | some d =>
    if !partRunning s.meas then pumpUp (respond q .wrongState [] s)
    else if s.meas.claim.state != .none then pumpUp (respond q .busy [] s)
    else pumpBoth (s.withMeas (acceptXclaim d q))

/-- XCLAIM (R94). -/
def execXclaim (s : State) : Result := .next (takeRequest (· == kindXclaim) doXclaim s)

/-- A pending XCLAIM is answered CANCELLED with the claimed domain, ahead of the request that cancels it (R104, R112, R166). -/
def cancelXclaim (s : State) : State :=
  match s.meas.pendXclaim with
  | some p =>
    (respond ⟨markerRequest, 0, p.kind, p.tag, []⟩ .cancelled (be8 (claimedNumber s.meas)) s).withMeas
      fun m => { m with pendXclaim := none }
  | none => s

/-- XREL's effect and responses, by the claim state: the XCLAIM's CANCELLED, if it is pending, goes before XREL's OK (R104). -/
def doXrel (q : Frame) (s : State) : State :=
  match s.meas.claim.state with
  | .none => pumpBoth (respond q .ok [] s)
  | .handoff => pumpBoth (respond q .ok [] (cancelXclaim (s.withMeas releaseClaim)))
  | .granted => pumpBoth (respond q .ok [] (s.withMeas releaseClaim))

/-- XREL (R104). -/
def execXrel (s : State) : Result := .next (takeRequest (· == kindXrel) doXrel s)

/-! ### MEAS (R45) -/

/-- An island state that takes a demand (R45). -/
def takesDemand : IslandState → Bool
  | .interval | .forming | .cycle _ => true
  | .stalled | .handoff | .external | .refhold => false

/-- MEAS's checks and effect (R45). -/
def doMeas (q : Frame) (s : State) : State :=
  match fittedArg s.meas q 0, Mode.ofCode (nat8 q.payload 1) with
  | some d, some md =>
    if s.meas.topo.state != .known then pumpUp (respond q .wrongState [] s)
    else if (islandOf s.meas d).elim false (takesDemand ·.state) then
      pumpBoth (respond q .ok [] (s.withMeas (demandOn d md)))
    else pumpUp (respond q .wrongState [] s)
  | _, _ => pumpUp (respond q .badArg [] s)

/-- MEAS (R45). -/
def execMeas (s : State) : Result := .next (takeRequest (· == kindMeas) doMeas s)

/-! ### RCHK (R114) -/

/-- RCHK's checks, and its acceptance, whose response is deferred (R114, R115). -/
def doRchk (q : Frame) (s : State) : State :=
  match fittedArg s.meas q 0 with
  | none => pumpUp (respond q .badArg [] s)
  | some t =>
    if !partRunning s.meas then pumpUp (respond q .wrongState [] s)
    else if s.meas.ref.isSome then pumpUp (respond q .busy [] s)
    else if !isPresent s.meas t || held s.meas t then pumpUp (respond q .wrongState [] s)
    else pumpBoth (s.withMeas (acceptRchk t q))

/-- RCHK (R114). -/
def execRchk (s : State) : Result := .next (takeRequest (· == kindRchk) doRchk s)

/-! ### STAT, MASK (R161, R162) -/

/-- The counters that STAT reads are cleared (R162). -/
def clearCounters (l : Link) : Link :=
  let clear (r : Receiver) : Receiver := { r with parity := 0, framing := 0, gap := 0, crc := 0 }
  { l with drops := 0, overrun := 0, rxU := clear l.rxU, rxD := clear l.rxD }

/-- STAT: the values are taken, then flags and counters cleared, then the summary byte formed (R158, R160, R162). -/
def doStat (q : Frame) (s : State) : State :=
  pumpUp (respond q .ok (statBlock s) ((s.withMeas clearReported).withLink clearCounters))

/-- STAT (R162). -/
def execStat (s : State) : Result := .next (takeRequest (· == kindStat) doStat s)

/-- MASK: the mask is replaced (R161). -/
def doMask (q : Frame) (s : State) : State :=
  let mask := BitVec.ofNat 32 (nat32 q.payload 0)
  pumpUp (respond q .ok (be32 mask.toNat) (s.withMeas fun m => { m with mask := mask }))

/-- MASK (R161). -/
def execMask (s : State) : Result := .next (takeRequest (· == kindMask) doMask s)

/-! ### ISORD, RESRD, FLTRD (R163, R164) -/

/-- ISORD: BADARG on an empty set, else one record for each domain of it, ascending (R163). -/
def doIsord (q : Frame) (s : State) : State :=
  let ds : DomSet := q.payload.getD 0 0
  if ds = 0 then pumpUp (respond q .badArg [] s)
  else pumpUp (respond q .ok ((members ds).flatMap (isordRecord s.meas)) s)

/-- ISORD (R163). -/
def execIsord (s : State) : Result := .next (takeRequest (· == kindIsord) doIsord s)

/-- RESRD: a copy of the record in the slot of the domain's island (R65, R164). -/
def doResrd (q : Frame) (s : State) : State :=
  match fittedArg s.meas q 0 with
  | none => pumpUp (respond q .badArg [] s)
  | some d =>
    match (islandOf s.meas d).bind (·.slot) with
    | none => pumpUp (respond q .wrongState [] s)
    | some r => pumpUp (respond q .ok (resultBytes r) s)

/-- RESRD (R164). -/
def execResrd (s : State) : Result := .next (takeRequest (· == kindResrd) doResrd s)

/-- FLTRD: the domain's fault record, or the empty indication (R164, R190). -/
def doFltrd (q : Frame) (s : State) : State :=
  match fittedArg s.meas q 0 with
  | none => pumpUp (respond q .badArg [] s)
  | some d =>
    match (s.meas.doms.get d).fault with
    | none => pumpUp (respond q .ok (be8 0) s)
    | some r => pumpUp (respond q .ok (be8 1 ++ faultBytes r) s)

/-- FLTRD (R164). -/
def execFltrd (s : State) : Result := .next (takeRequest (· == kindFltrd) doFltrd s)

/-! ### RESTART (R166) -/

/-- A pending RCHK is answered CANCELLED with the tap (R122, R166). -/
def cancelRchk (s : State) : State :=
  match s.meas.pendRchk, s.meas.ref with
  | some p, some r =>
    (respond ⟨markerRequest, 0, p.kind, p.tag, []⟩ .cancelled (be8 r.tap.number) s).withMeas
      fun m => { m with pendRchk := none }
  | _, _ => s

/-- Every mailbox is written to rest (R140). -/
def restMailboxes (m : Meas) : Meas := Dom.all.foldl (fun m t => writeMailbox t .rest m) m

/-- The resets of R166's table on the measurement side, and step 4: only RESET and the conditions that hold are set. -/
def restartMeas (m : Meas) : Meas :=
  let m1 := restMailboxes { m with
    islands := [], topo := .reset, resultNumber := 0, doms := .replicate .reset, claim := .reset, suspended := [], ref := none
    pendXclaim := none, pendRchk := none }
  followConditions { m1 with flags := Flag.reset.word, resetCause := .restart }

/-- RESTART: the CANCELLED responses, its own OK, the resets, with an open load aborted (R166, R168). -/
def doRestart (q : Frame) (s : State) : State :=
  let s0 := if s.meas.claim.state == .handoff then cancelXclaim s else s
  let s1 := respond q .ok [] (cancelRchk s0)
  pumpBoth ((s1.withMeas restartMeas).withLoader fun l => { l with load := none })

/-- RESTART (R166). -/
def execRestart (s : State) : Result := .next (takeRequest (· == kindRestart) doRestart s)

/-! ### A request of an unknown kind (R157) -/

/-- UNKNOWN_REQUEST: the head request's kind is not among the sixteen; it is answered BADKIND (R157). -/
def execUnknownRequest (s : State) : Result :=
  .next (
    match s.link.buffer with
    | [] => s
    | q :: rest =>
      if !knownKind q.kind && canProcess q s then
        pumpUp (respond q .badKind [] (s.withLink fun l => { l with buffer := rest }))
      else s)

end Sys2Proof.Machine
end

