-- ==== Sys2Proof/Machine/Validation.lean ====
section
/-! DEFINITION. The validation of table images (R2, R4, R49, R70, R143) and the frozen check (R173). A validation is a list of checks in the
order its rule gives; the first that fails decides the row and the reason, whose code counts from 1 in the order of R172 (R186). -/

namespace Sys2Proof.Machine

/-- One check of a validation: whether it passes, and the row and reason code reported when it does not. -/
structure Check where
  pass : Bool
  row : Nat
  reason : Nat
  deriving DecidableEq, Repr

/-- The row and reason of the first check that fails. -/
def firstFailure (cs : List Check) : Option (Nat × Nat) := (cs.find? fun c => !c.pass).map fun c => (c.row, c.reason)

/-- A number lies within a range, both ends included. -/
def within (lo hi n : Nat) : Bool := decide (lo ≤ n) && decide (n ≤ hi)

/-! ### DOMAIN (R2) -/

/-- A domain is named by an override row of a LIMIT image. -/
def namedByOverride (limit : List Byte) (d : Dom) : Bool :=
  (List.range (limitCount limit)).any fun j => overrideDom limit j == d.number

/-- The checks of a DOMAIN image (R2). -/
def domainChecks (m : Meas) (img : List Byte) : List Check :=
  Dom.all.map (fun d => ⟨decide (domFittedByte img d ≤ 1), d.number, 1⟩)
    ++ [⟨Dom.all.any (domFitted img), 0, 2⟩]
    ++ (Dom.all.filter (domFitted img)).flatMap (fun d =>
        [⟨within 50 2000 (domRc img d), d.number, 3⟩, ⟨within 200 10000 (domRbal img d), d.number, 4⟩,
          ⟨within 100 5000 (domRref img d), d.number, 5⟩])
    ++ Dom.all.map (fun d => ⟨m.tables.topology.isNone || domFitted img d == fitted m d, d.number, 6⟩)
    ++ Dom.all.map (fun d => ⟨m.tables.limit.elim true fun l => !namedByOverride l d || domFitted img d, d.number, 7⟩)

/-! ### TOPOLOGY (R4) -/

/-- Check 8: fitted domains carry a label 0 to 7, unfitted ones NONE. -/
def labelsOk (m : Meas) (img : List Byte) (r : Nat) : Bool :=
  Dom.all.all fun d => if fitted m d then decide (topoLabel img r d ≤ 7) else topoLabel img r d == 15

/-- Check 9: no unfitted injector, and exactly one injector for every label used. -/
def injectorsOk (m : Meas) (img : List Byte) (r : Nat) : Bool :=
  (Dom.all.all fun d => fitted m d || !inSet (topoInjectors img r) d) &&
    Dom.all.all fun d =>
      !fitted m d || ((members (labelMates img r (fitted m) d)).filter (inSet (topoInjectors img r))).length == 1

/-- Check 7: the inlet flag and range. -/
def inletOk (img : List Byte) (r : Nat) : Bool :=
  topoInletFlag img r == 0 ||
    (topoInletFlag img r == 1 && decide (topoInletLow img r ≤ topoInletHigh img r)
      && decide (topoInletHigh img r ≤ Config.inletMax))

/-- The checks of a TOPOLOGY image (R4). -/
def topologyChecks (m : Meas) (img : List Byte) : List Check :=
  [⟨m.tables.domain.isSome, 0xFF, 1⟩,
   ⟨within 1 32 (topoRows img) && topoRows img == (img.length - 6) / 16, 0xFF, 2⟩,
   ⟨decide (topoOrder img ≤ 1), 0xFF, 2⟩,
   ⟨within 100 5000 (topoFreshness img), 0xFF, 2⟩,
   ⟨within 0 10000 (topoSettle img), 0xFF, 2⟩]
    ++ (List.range (topoRows img)).flatMap fun r =>
      [⟨decide (topoKind img r ≤ 1), r, 3⟩, ⟨inletOk img r, r, 4⟩, ⟨labelsOk m img r, r, 5⟩, ⟨injectorsOk m img r, r, 6⟩,
        ⟨decide (topoProfile img r ≤ 3), r, 7⟩]

/-! ### CYCLE (R49) -/

/-- The checks of one CYCLE row, in field order, reasons 1 to 17. -/
def cycleRowChecks (img : List Byte) (p : Profile) : List Check :=
  let c := cycleRowOf img p
  [⟨within 5000 30000 c.injMv, p.code, 1⟩, ⟨within 10 500 c.slew, p.code, 2⟩,
   ⟨[16, 32, 64, 128, 256].contains c.nFull, p.code, 3⟩, ⟨[4, 8, 16].contains c.block, p.code, 4⟩,
   ⟨within 2 8 c.settleBlocks, p.code, 5⟩, ⟨within 1 500 c.settleTol, p.code, 6⟩,
   ⟨within 1000 120000 c.phaseTimeout, p.code, 7⟩, ⟨within 0 600000 c.interval, p.code, 8⟩,
   ⟨within 0 8 c.maxGap, p.code, 9⟩, ⟨within 0 255 c.noiseLimit, p.code, 10⟩, ⟨within 0 1000 c.invMargin, p.code, 11⟩,
   ⟨within 500 20000 c.handoffLimit, p.code, 12⟩, ⟨within 0 300 c.resumeAge, p.code, 13⟩,
   ⟨within 1 3600 c.attribAge, p.code, 14⟩, ⟨within 1 45 c.asymPct, p.code, 15⟩, ⟨within 1 100 c.asymCount, p.code, 16⟩,
   ⟨within 1 20 c.refTol, p.code, 17⟩]

/-- The checks of a CYCLE image (R49). -/
def cycleChecks (img : List Byte) : List Check := Profile.all.flatMap (cycleRowChecks img)

/-! ### LIMIT (R70) -/

/-- The range checks of the fields of a row that are selected, reasons 2 to 8. -/
def limitFieldChecks (row : Nat) (sel : Nat → Bool) (l : Limits) : List Check :=
  [⟨!sel 0 || l.warnOpv == 0 || within 50 5000 l.warnOpv, row, 2⟩, ⟨!sel 1 || within 50 5000 l.faultOpv, row, 3⟩,
   ⟨!sel 2 || within 100 1500 l.ratedV, row, 4⟩, ⟨!sel 3 || within 1 15 l.faultCount, row, 5⟩,
   ⟨!sel 4 || within 1 15 l.clearCount, row, 6⟩, ⟨!sel 5 || within 0 50 l.hystPct, row, 7⟩,
   ⟨!sel 6 || within 1 3600 l.maxAge, row, 8⟩]

/-- Checks 3a to 3e of override row j. -/
def overrideChecks (m : Meas) (img : List Byte) (j : Nat) : List Check :=
  [⟨(Dom.ofNumber (overrideDom img j)).elim false (fitted m), 4 + j, 9⟩,
   ⟨decide (overrideProfile img j ≤ 3), 4 + j, 10⟩,
   ⟨!(overrideMask img j).getLsbD 7, 4 + j, 11⟩]
    ++ limitFieldChecks (4 + j) (overrideMask img j).getLsbD (overrideBlock img j)
    ++ [⟨(List.range j).all fun i =>
          !(overrideDom img i == overrideDom img j && overrideProfile img i == overrideProfile img j), 4 + j, 12⟩]

/-- warn_opv is 0 or at least fault_opv. -/
def warnOrdered (l : Limits) : Bool := l.warnOpv == 0 || decide (l.faultOpv ≤ l.warnOpv)

/-- Check 4, the rows that fail it: default rows, and override rows whose effective record is out of order. -/
def warnOrderRows (img : List Byte) : List Nat :=
  ((List.range 4).filter fun p => !warnOrdered (limitBlock img (1 + 11 * p)))
    ++ ((List.range (limitCount img)).filter fun j =>
        !warnOrdered (blendLimits (overrideMask img j) (overrideBlock img j) (limitBlock img (1 + 11 * overrideProfile img j)))).map
      (4 + ·)

/-- Check 4 as one check. The rule does not order the rows within it: which failing row is reported is a free choice (log 9). -/
def warnOrderCheck (img : List Byte) : Check :=
  let rows := warnOrderRows img
  ⟨rows.isEmpty, rows.getD (Config.warnOrderPick rows % rows.length) 0, 13⟩

/-- The checks of a LIMIT image (R70). -/
def limitChecks (m : Meas) (img : List Byte) : List Check :=
  [⟨within 0 32 (limitCount img) && img.length == 45 + 14 * limitCount img, 0xFF, 1⟩]
    ++ Profile.all.flatMap (fun p => limitFieldChecks p.code (fun _ => true) (limitDefault img p))
    ++ (List.range (limitCount img)).flatMap (overrideChecks m img)
    ++ [warnOrderCheck img]

/-! ### FORWARD (R143) -/

/-- The checks of a FORWARD image (R143). -/
def forwardChecks (img : List Byte) : List Check :=
  [⟨within 8 24 (fwdHighMark img), 0xFF, 1⟩]
    ++ Dom.all.map (fun t => ⟨decide (fwdAnnotate img t ≤ 1), t.number, 2⟩)
    ++ (List.range 128).map fun k => ⟨decide (fwdAction img k ≤ 2), k, 3⟩

/-- The row and reason with which an image fails its validation, if it fails (R172, check 2). -/
def validate (m : Meas) (t : TableId) (img : List Byte) : Option (Nat × Nat) :=
  firstFailure (match t with
    | .domain => domainChecks m img
    | .topology => topologyChecks m img
    | .cycle => cycleChecks img
    | .limit => limitChecks m img
    | .forward => forwardChecks img)

/-! ### The frozen check (R173) -/

/-- The freeze bit of a table with a whole-table flag (10; R186). -/
def wholeFreeze : TableId → Option Nat
  | .domain => some 0 | .topology => some 1 | .cycle => some 2 | .limit => none | .forward => none

/-- A table's whole-table freeze flag is set. -/
def tableFrozen (l : Loader) (t : TableId) : Bool := (wholeFreeze t).elim false l.freeze.getLsbD

/-- The first frozen profile and fitted domain whose effective records differ (R173). -/
def frozenLimitPair (l : Loader) (m : Meas) (img : List Byte) : Option (Nat × Nat) :=
  m.tables.limit.bind fun old =>
    ((Profile.all.filter fun p => l.freeze.getLsbD (3 + p.code)).flatMap fun p =>
      (Dom.all.filter (fitted m)).map fun d => (p, d)).find? (fun x =>
        effectiveLimits old x.2 x.1 != effectiveLimits img x.2 x.1) |>.map fun x => (x.1.code, x.2.number)

/-- The row and reason bytes with which a freeze forbids an image, if it does (R173). -/
def frozenFailure (l : Loader) (m : Meas) (t : TableId) (img : List Byte) : Option (Nat × Nat) :=
  match t with
  | .limit => frozenLimitPair l m img
  | t => if tableFrozen l t then some (0xFF, 0) else none

end Sys2Proof.Machine
end

