-- ==== Sys2Proof/Machine/TableLoader.lean ====
section
/-! DEFINITION. The table loader: LDTAB (R169), SEG with the final segment and the activations (R170, R172, R174), TSUM (R175), FREEZE (R176),
FRLS (R177), and the load's gap timeout (R171). -/

namespace Sys2Proof.Machine

/-! ### LDTAB -/

/-- A declared length is a valid image size for a table (R169). -/
def imageSizeOk (t : TableId) (n : Nat) : Bool :=
  match t with
  | .domain => n == 56
  | .topology => within 22 518 n && (n - 6) % 16 == 0
  | .cycle => n == 124
  | .limit => within 45 493 n && (n - 45) % 14 == 0
  | .forward => n == 145

/-- LDTAB's checks and the opening of the load (R169). -/
def doLdtab (q : Frame) (s : State) : State :=
  match TableId.ofCode (nat8 q.payload 0) with
  | none => pumpUp (respond q .badArg [] s)
  | some t =>
    let len := nat16 q.payload 1
    if !imageSizeOk t len then pumpUp (respond q .badArg [] s)
    else if s.loader.load.isSome then pumpUp (respond q .busy [] s)
    else if tableFrozen s.loader t then pumpUp (respond q .locked [] s)
    else
      let l : Load := ⟨t, len, BitVec.ofNat 16 (nat16 q.payload 3), 0, [], s.meas.timebase⟩
      pumpUp (respond q .ok (be8 t.code ++ be8 0 ++ be16 0) (s.withLoader fun x => { x with load := some l }))

/-- LDTAB (R169). -/
def execLdtab (s : State) : Result := .next (takeRequest (· == kindLdtab) doLdtab s)

/-! ### Activation (R174) -/

/-- What a DOMAIN activation makes of a tap: a newly fitted one starts UNSEEN with a level frame due at once, a newly unfitted one
loses its presence record and refresh timer (R131). -/
def refitTap (was now : Bool) (time : Time) (p : Tap) : Tap :=
  if was == now then p
  else if now then { p with presence := some ⟨.unseen, none, 0, none, none⟩, refreshStart := some time, due := true }
  else { p with presence := none, refreshStart := none }

/-- A DOMAIN activation (R3, R131). -/
def activateDomain (img : List Byte) (m : Meas) : Meas :=
  followConditions { m with
    tables := { m.tables with domain := some img }
    taps := m.taps.mapWith fun t p => refitTap (fitted m t) (domFitted img t) m.timebase p }

/-- A TOPOLOGY activation (R5). -/
def activateTopology (img : List Byte) (m : Meas) : Meas :=
  reresolve img { m with tables := { m.tables with topology := some img } }

/-- A CYCLE activation (R50). -/
def activateCycle (img : List Byte) (m : Meas) : Meas := { m with tables := { m.tables with cycle := some img } }

/-- A LIMIT activation, with the aging test of every domain (R71). -/
def activateLimit (img : List Byte) (m : Meas) : Meas :=
  agingTests Dom.all { m with tables := { m.tables with limit := some img } }

/-- A FORWARD activation (R144); the decimation counters are the link's. -/
def activateForward (img : List Byte) (m : Meas) : Meas := { m with tables := { m.tables with forward := some img } }

/-- The owning chapter's effects of an activation (R174). -/
def activateTable (t : TableId) (img : List Byte) (m : Meas) : Meas :=
  match t with
  | .domain => activateDomain img m
  | .topology => activateTopology img m
  | .cycle => activateCycle img m
  | .limit => activateLimit img m
  | .forward => activateForward img m

/-- An activation whole: the table's effects, the entry to RUNNING when it completes the four tables, and TABLE_DONE (R165, R174). TABLE_DONE
is raised last, so the response of a claim that the activation's own change of partition grants has its summary byte formed before it;
no rule orders the two (R158, R172; DESIGN CHOICE, log 33). -/
def activateMeas (t : TableId) (img : List Byte) (m : Meas) : Meas :=
  let m1 := activateTable t img m
  let m2 := if !partRunning m && partRunning m1 then endExpiredFormings m1 else m1
  raise .tableDone m2

/-- Decimation counters after an activation: a FORWARD activation sets them to 0 (R144). -/
def activateLink (t : TableId) (l : Link) : Link :=
  match t with
  | .forward => { l with decim := .replicate 0 }
  | _ => l

/-! ### SEG -/

/-- The values of a SEG response that is OK or refuses the final segment: load outcome, row, reason, bytes received, expected
segment (R172, R186; log 12). -/
def segValues (outcome row reason received : Nat) (expected : Byte) : List Byte :=
  be8 outcome ++ be8 row ++ be8 reason ++ be16 received ++ [expected]

/-- What the final segment comes to (R172): status, load outcome, row and reason. -/
def judgeImage (l : Load) (img : List Byte) (s : State) : Status × Nat × Nat × Nat :=
  if crc16 img != l.crc then (.invalid, 2, 0xFF, 0)
  else
    match validate s.meas l.table img with
    | some (row, reason) => (.invalid, 3, row, reason)
    | none =>
      match frozenFailure s.loader s.meas l.table img with
      | some (row, reason) => (.locked, 4, row, reason)
      | none => (.ok, 1, 0xFF, 0)

/-- The load closes, with or without TABLE_ABORT. -/
def closeLoad (s : State) : State := s.withLoader fun x => { x with load := none }

/-- The final segment: the image is judged, then activated or discarded, and the load closes (R172). -/
def finishLoad (q : Frame) (l : Load) (img : List Byte) (expected : Byte) (s : State) : State :=
  let j := judgeImage l img s
  let s1 := closeLoad s
  let s2 := if j.1 == .ok then (s1.withMeas (activateMeas l.table img)).withLink (activateLink l.table)
    else raiseIn .tableAbort s1
  pumpBoth (respond q j.1 (segValues j.2.1 j.2.2.1 j.2.2.2 img.length expected) s2)

/-- SEG's checks and effect; every SEG that passes the generic checks while a load is open restarts the gap timer (R170). -/
def doSeg (q : Frame) (s : State) : State :=
  match s.loader.load with
  | none => pumpUp (respond q .wrongState [] s)
  | some l =>
    let data := q.payload.drop 1
    let img := l.buffer ++ data
    if q.payload.getD 0 0 != l.expected then
      pumpUp (respond q .order (l.expected :: be16 l.buffer.length)
        (s.withLoader fun x => { x with load := some { l with gapStart := s.meas.timebase } }))
    else if l.length < img.length then pumpUp (respond q .badArg [] (raiseIn .tableAbort (closeLoad s)))
    else if img.length < l.length then
      pumpUp (respond q .ok (segValues 0 0xFF 0 img.length (l.expected + 1))
        (s.withLoader fun x => { x with
          load := some { l with buffer := img, expected := l.expected + 1, gapStart := s.meas.timebase } }))
    else finishLoad q l img (l.expected + 1) s

/-- SEG (R170). -/
def execSeg (s : State) : Result := .next (takeRequest (· == kindSeg) doSeg s)

/-! ### TSUM -/

/-- TSUM: the CRC over a range of an active image (R175). -/
def doTsum (q : Frame) (s : State) : State :=
  match TableId.ofCode (nat8 q.payload 0) with
  | none => pumpUp (respond q .badArg [] s)
  | some t =>
    match activeImage s.meas t with
    | none => pumpUp (respond q .wrongState [] s)
    | some img =>
      let offset := nat16 q.payload 1
      let count := nat16 q.payload 3
      if count = 0 ∨ img.length < offset + count then pumpUp (respond q .badArg [] s)
      else
        pumpUp (respond q .ok
          (be8 t.code ++ be16 offset ++ be16 count ++ be16 (crc16 ((img.drop offset).take count)).toNat) s)

/-- TSUM (R175). -/
def execTsum (s : State) : Result := .next (takeRequest (· == kindTsum) doTsum s)

/-! ### FREEZE, FRLS -/

/-- The table that a freeze flag protects (R176, R186). -/
def freezeTable (bit : Nat) : TableId :=
  match bit with
  | 0 => .domain
  | 1 => .topology
  | 2 => .cycle
  | _ => .limit

/-- Some flag of a freeze set is for a table that is not active (R176, check 3). -/
def freezesAbsent (m : Meas) (new : BitVec 7) : Bool :=
  (List.range 7).any fun b => new.getLsbD b && (activeImage m (freezeTable b)).isNone

/-- FREEZE: flags are added, never cleared (R176). -/
def doFreeze (q : Frame) (s : State) : State :=
  let b : Byte := q.payload.getD 0 0
  let desired : BitVec 7 := b.setWidth 7
  if b.getLsbD 7 then pumpUp (respond q .badArg [] s)
  else if s.loader.freeze &&& ~~~desired != 0 then pumpUp (respond q .locked [] s)
  else if freezesAbsent s.meas (desired &&& ~~~s.loader.freeze) then pumpUp (respond q .wrongState [] s)
  else pumpUp (respond q .ok (be8 desired.toNat) (s.withLoader fun x => { x with freeze := desired }))

/-- FREEZE (R176). -/
def execFreeze (s : State) : Result := .next (takeRequest (· == kindFreeze) doFreeze s)

/-- What a fitted domain's latest sample says against FRLS: 4 NO_SAMPLE, 3 ENERGISED, or nothing (R177). -/
def frlsDomain (m : Meas) (d : Dom) : Option (Nat × Nat) :=
  match (m.taps.get d).presence.bind (·.latest) with
  | none => some (4, d.number)
  | some x => if Config.ubusMin ≤ x.vPlus + x.vMinus then some (3, d.number) else none

/-- The reason and value with which FRLS is refused, if it is: CLAIM, LOAD, then the fitted domains in ascending order (R177). -/
def frlsRefusal (s : State) : Option (Nat × Nat) :=
  if s.meas.claim.state != .none then some (1, claimedNumber s.meas)
  else
    match s.loader.load with
    | some l => some (2, l.table.code)
    | none => (Dom.all.filter (fitted s.meas)).findSome? (frlsDomain s.meas)

/-- FRLS: every freeze flag is cleared, or a reason is given (R177). -/
def doFrls (q : Frame) (s : State) : State :=
  match frlsRefusal s with
  | some (reason, value) => pumpUp (respond q .wrongState (be8 reason ++ be8 value) s)
  | none => pumpUp (respond q .ok (be8 0) (s.withLoader fun x => { x with freeze := 0 }))

/-- FRLS (R177). -/
def execFrls (s : State) : Result := .next (takeRequest (· == kindFrls) doFrls s)

/-! ### The gap timer -/

/-- LOAD_GAP_TIMEOUT: no SEG for 250 ms aborts the load and sets TABLE_ABORT (R171). -/
def execLoadGapTimeout (s : State) : Result :=
  .next (
    match s.loader.load with
    | some l =>
      if Config.loadGapMs ≤ age s.meas.timebase l.gapStart then raiseIn .tableAbort (closeLoad s) else s
    | none => s)

end Sys2Proof.Machine
end

