-- ==== Sys2Proof/Machine/Expiries.lean ====
section
/-! DEFINITION. The timer expiries of the measurement side, and power-on. An expiry command has its effect when its timer has run its
time, and is otherwise no event (log 1). -/

namespace Sys2Proof.Machine

/-- An event of the measurement side: when it happens its effect is taken and the outputs follow; when it cannot happen nothing
changes (log 1). -/
def onEvent (f : Meas → Option Meas) (s : State) : State :=
  match f s.meas with
  | some m => pumpBoth (s.withMeas fun _ => m)
  | none => s

/-- The aging expiry of a domain (R82). -/
def agingExpiryOf (d : Dom) (m : Meas) : Option Meas := if agingDue m d then some (agingTest d m) else none

/-- The phase timer of an island's cycle (R39) or of the reference cycle (R117). -/
def cyclePhaseExpiry : CycleRef → Meas → Option Meas
  | .island ds => phaseExpiry ds
  | .refCheck => refPhaseExpiry

/-- The plateau timer of an island's cycle (R41) or of the reference cycle (R117). -/
def cyclePlateauExpiry : CycleRef → Meas → Option Meas
  | .island ds => plateauExpiry ds
  | .refCheck => refPlateauExpiry

/-- FRESHNESS_EXPIRY (R11). -/
def execFreshnessExpiry (s : State) : Result := .next (onEvent freshnessExpiry s)

/-- SETTLE_TIMER_EXPIRY (R25). -/
def execSettleTimerExpiry (ds : DomSet) (s : State) : Result := .next (onEvent (settleExpiry ds) s)

/-- INTERVAL_EXPIRY (R44). -/
def execIntervalExpiry (ds : DomSet) (s : State) : Result := .next (onEvent (intervalExpiry ds) s)

/-- PHASE_TIMER_EXPIRY (R39, R117). -/
def execPhaseTimerExpiry (c : CycleRef) (s : State) : Result := .next (onEvent (cyclePhaseExpiry c) s)

/-- PLATEAU_TIMER_EXPIRY (R41, R117). -/
def execPlateauTimerExpiry (c : CycleRef) (s : State) : Result := .next (onEvent (cyclePlateauExpiry c) s)

/-- REFRESH_TIMER_EXPIRY (R134). -/
def execRefreshTimerExpiry (t : Dom) (s : State) : Result := .next (onEvent (refreshExpiry t) s)

/-- LOSS_TIMER_EXPIRY (R130). -/
def execLossTimerExpiry (t : Dom) (s : State) : Result := .next (onEvent (lossExpiry t) s)

/-- JOIN_RUN_TIMEOUT (R129). -/
def execJoinRunTimeout (t : Dom) (s : State) : Result := .next (onEvent (joinExpiry t) s)

/-- HANDOFF_TIMEOUT (R100). -/
def execHandoffTimeout (s : State) : Result := .next (onEvent handoffExpiry s)

/-- SUSPEND_ENTRY_EXPIRY (R111). -/
def execSuspendEntryExpiry (ds : DomSet) (s : State) : Result := .next (onEvent (suspendExpiry ds) s)

/-- AGING_EXPIRY (R82). -/
def execAgingExpiry (d : Dom) (s : State) : Result := .next (onEvent (agingExpiryOf d) s)

/-- POWER_ON (R167; R21, R52, R91, R112, R122, R140, R142, R148): every part takes its power-on value. The queue of commands is the
surroundings', not the part's, and stays (log 24). -/
def execPowerOn (s : State) : Result := .next { State.reset with pending := s.pending }

end Sys2Proof.Machine
end

