-- ==== Sys2Proof/Machine/Tick.lean ====
section
/-! DEFINITION. The millisecond tick that a step on an empty queue is: the timebase counts up and the events due then join the queue
(DESIGN CHOICE, log 2). Times below a millisecond are not modelled: a line's idle and a frame's end are over at the next tick
(log 3). -/

namespace Sys2Proof.Machine

/-- A command, if its event is due. -/
def dueIf (b : Bool) (i : Instr) : List Instr := if b then [i] else []

/-- The line events of a port's receiver: no character is arriving, so 100 µs of idle are over (R124, R125). -/
def rxDue (p : Port) (s : State) : List Instr :=
  match (rxOf p s).state with
  | .ready => []
  | .inFrame => [.rxGapTimeout p]
  | .recovering => [.rxRecoveryDone p]

/-- The command that takes a request (R157). -/
def requestCommand (q : Frame) : Instr :=
  match requestKinds.find? fun r => r.1 == q.kind with
  | some r => r.2.1
  | none => .unknownRequest

/-- The commands of the buffered requests, oldest first, once the head one may be processed (R156). -/
def requestsDue (s : State) : List Instr :=
  match s.link.buffer with
  | [] => []
  | q :: _ => if canProcess q s then s.link.buffer.map requestCommand else []

/-- The expiries of one tap that are due (R129, R130, R134). -/
def tapDue (m : Meas) (t : Dom) : List Instr :=
  dueIf (refreshExpiry t m).isSome (.refreshTimerExpiry t) ++ dueIf (lossExpiry t m).isSome (.lossTimerExpiry t)
    ++ dueIf (joinExpiry t m).isSome (.joinRunTimeout t)

/-- The expiries of one island that are due (R25, R39, R41, R44). -/
def islandDue (m : Meas) (i : Island) : List Instr :=
  dueIf (settleExpiry i.members m).isSome (.settleTimerExpiry i.members)
    ++ dueIf (intervalExpiry i.members m).isSome (.intervalExpiry i.members)
    ++ dueIf (phaseExpiry i.members m).isSome (.phaseTimerExpiry (.island i.members))
    ++ dueIf (plateauExpiry i.members m).isSome (.plateauTimerExpiry (.island i.members))

/-- The expiries of the measurement side that are due, in a fixed order (log 2). -/
def measDue (m : Meas) : List Instr :=
  Dom.all.flatMap (tapDue m) ++ dueIf (freshnessExpiry m).isSome .freshnessExpiry
    ++ m.islands.flatMap (islandDue m)
    ++ dueIf (refPhaseExpiry m).isSome (.phaseTimerExpiry .refCheck)
    ++ dueIf (refPlateauExpiry m).isSome (.plateauTimerExpiry .refCheck)
    ++ dueIf (handoffExpiry m).isSome .handoffTimeout
    ++ m.suspended.flatMap (fun e => dueIf (suspendExpiry e.members m).isSome (.suspendEntryExpiry e.members))
    ++ Dom.all.flatMap fun d => dueIf (agingExpiryOf d m).isSome (.agingExpiry d)

/-- The load's gap timer has run its time (R171). -/
def loadGapDue (s : State) : Bool :=
  s.loader.load.elim false fun l => decide (Config.loadGapMs ≤ age s.meas.timebase l.gapStart)

/-- Every event that is due (log 2). -/
def dueEvents (s : State) : List Instr :=
  dueIf s.link.txD.isSome .portDTxDone ++ dueIf s.link.txU.isSome .portUTxDone ++ requestsDue s
    ++ rxDue .u s ++ rxDue .d s ++ measDue s.meas ++ dueIf (loadGapDue s) .loadGapTimeout

/-- One millisecond passes (00_scope, Time): the timebase counts up modulo 2^32, and the events due join the queue. -/
def tick (s : State) : State :=
  let s1 := s.withMeas fun m => { m with timebase := m.timebase + 1 }
  { s1 with pending := s1.pending ++ dueEvents s1 }

end Sys2Proof.Machine
end

