-- ==== Sys2Proof/Machine/Dispatch.lean ====
section
/-! DEFINITION. The meaning of every command, one arm each, in the order of spec/opcode_table.json. -/

namespace Sys2Proof.Machine

/-- What a command does to the part. -/
def exec (i : Instr) (s : State) : Host.Outcome State Fault Refusal :=
  match i with
  | .powerOn => Sys2Proof.Machine.execPowerOn s
  | .requestFrameReceived f => Sys2Proof.Machine.execRequestFrameReceived f s
  | .hostTapFrame f => Sys2Proof.Machine.execHostTapFrame f s
  | .sampleFrame f => Sys2Proof.Machine.execSampleFrame f s
  | .tapResponse f => Sys2Proof.Machine.execTapResponse f s
  | .receiveError p c => Sys2Proof.Machine.execReceiveError p c s
  | .rxGapTimeout p => Sys2Proof.Machine.execRxGapTimeout p s
  | .rxRecoveryDone p => Sys2Proof.Machine.execRxRecoveryDone p s
  | .portDTxDone => Sys2Proof.Machine.execPortDTxDone s
  | .portUTxDone => Sys2Proof.Machine.execPortUTxDone s
  | .topo => Sys2Proof.Machine.execTopo s
  | .xclaim => Sys2Proof.Machine.execXclaim s
  | .xrel => Sys2Proof.Machine.execXrel s
  | .meas => Sys2Proof.Machine.execMeas s
  | .rchk => Sys2Proof.Machine.execRchk s
  | .stat => Sys2Proof.Machine.execStat s
  | .mask => Sys2Proof.Machine.execMask s
  | .isord => Sys2Proof.Machine.execIsord s
  | .resrd => Sys2Proof.Machine.execResrd s
  | .fltrd => Sys2Proof.Machine.execFltrd s
  | .ldtab => Sys2Proof.Machine.execLdtab s
  | .seg => Sys2Proof.Machine.execSeg s
  | .tsum => Sys2Proof.Machine.execTsum s
  | .freeze => Sys2Proof.Machine.execFreeze s
  | .frls => Sys2Proof.Machine.execFrls s
  | .restart => Sys2Proof.Machine.execRestart s
  | .unknownRequest => Sys2Proof.Machine.execUnknownRequest s
  | .freshnessExpiry => Sys2Proof.Machine.execFreshnessExpiry s
  | .settleTimerExpiry ds => Sys2Proof.Machine.execSettleTimerExpiry ds s
  | .intervalExpiry ds => Sys2Proof.Machine.execIntervalExpiry ds s
  | .phaseTimerExpiry c => Sys2Proof.Machine.execPhaseTimerExpiry c s
  | .plateauTimerExpiry c => Sys2Proof.Machine.execPlateauTimerExpiry c s
  | .refreshTimerExpiry t => Sys2Proof.Machine.execRefreshTimerExpiry t s
  | .lossTimerExpiry t => Sys2Proof.Machine.execLossTimerExpiry t s
  | .joinRunTimeout t => Sys2Proof.Machine.execJoinRunTimeout t s
  | .handoffTimeout => Sys2Proof.Machine.execHandoffTimeout s
  | .suspendEntryExpiry ds => Sys2Proof.Machine.execSuspendEntryExpiry ds s
  | .agingExpiry d => Sys2Proof.Machine.execAgingExpiry d s
  | .loadGapTimeout => Sys2Proof.Machine.execLoadGapTimeout s
  | .characterReceived p c => Sys2Proof.Machine.execCharacterReceived p c s

end Sys2Proof.Machine
end

