-- ==== Sys2Proof/Safety.lean ====
section
/-! DEFINITION. What the statements speak of: the frames on their way to the host, how the outputs move at the end of a command, the head
request, when an event is due, the entry of a suspended cycle, the layouts of what the host reads, of a level frame and of an effective LIMIT
record, the end of a reference check, a grant's answer, the dissolution of every island, when a table image passes its
validation and with which row and reason it is refused, and the properties that every step of a sound part keeps. -/

namespace Sys2Proof.Machine

/-! ### Outputs -/

/-- The frames on their way to the host, oldest first: the one on Port U, the upstream queue, and the deferred responses held for lack
of room (R148, R159). -/
def outgoing (s : State) : List Frame := s.link.txU.toList ++ s.link.upQueue ++ s.meas.heldResponses

/-- Between `u` and `t` the downstream arbiter chose at most once (R136): nothing moved; or an idle Port D began the level frame of
the lowest-numbered tap with one due; or, with none due, the head of the downstream queue. -/
def Arbitrated (u t : State) : Prop :=
  (t.link.txD = u.link.txD ∧ t.link.downQueue = u.link.downQueue ∧ t.meas.taps = u.meas.taps) ∨
  (u.link.txD = none ∧ t.link.downQueue = u.link.downQueue ∧ ∃ d,
    (u.meas.taps.get d).due = true ∧ (∀ e, e.index < d.index → (u.meas.taps.get e).due = false) ∧
    t.link.txD = some (levelFrame d (u.meas.taps.get d)) ∧
    t.meas.taps = u.meas.taps.set d
      { u.meas.taps.get d with due := false, levelSeq := (u.meas.taps.get d).levelSeq + 1 }) ∨
  (u.link.txD = none ∧ (∀ e, (u.meas.taps.get e).due = false) ∧ t.meas.taps = u.meas.taps ∧
    ∃ f, u.link.downQueue = f :: t.link.downQueue ∧ t.link.txD = some f)

/-- `t` is `u` with its outputs moved on and nothing else changed: held responses admitted while there is room, and each idle port
begun (R136, R148, R159). -/
structure OutputsMoved (u t : State) : Prop where
  /-- The queue of commands, the loader and the rest of the ports stay. -/
  pending : t.pending = u.pending
  loader : t.loader = u.loader
  link : t.link = { u.link with
    txU := t.link.txU, upQueue := t.link.upQueue, txD := t.link.txD, downQueue := t.link.downQueue }
  /-- The measurement side stays, but for what the transmitters move. -/
  meas : t.meas = { u.meas with taps := t.meas.taps, heldResponses := t.meas.heldResponses }
  /-- No frame to the host is lost, added or reordered. -/
  upstream : outgoing t = outgoing u
  /-- Port U is idle only when nothing waits, and a response is held only for lack of room. -/
  busy : t.link.txU = none → outgoing t = []
  held : t.meas.heldResponses = [] ∨ Config.upstreamPlaces ≤ t.link.upQueue.length
  /-- Port D moves as its arbiter chooses. -/
  downstream : Arbitrated u t

/-! ### Requests -/

/-- The request at the head of the buffer is `q`, of this kind and payload length, `rest` stands behind it, and R156 lets it be
processed: no deferred response is held and there is room for the `r` responses it adds. -/
def HeadRequest (kind : Byte) (len r : Nat) (q : Frame) (rest : List Frame) (s : State) : Prop :=
  s.link.buffer = q :: rest ∧ q.kind = kind ∧ q.payload.length = len ∧ s.meas.heldResponses = [] ∧
    s.link.upQueue.length + r ≤ Config.upstreamPlaces

/-- The head request has left the buffer. -/
def taken (rest : List Frame) (s : State) : State := { s with link := { s.link with buffer := rest } }

/-- A request has been answered: its response has joined the upstream queue, its summary byte formed from this state (R158). -/
def answered (q : Frame) (st : Status) (values : List Byte) (s : State) : State :=
  { s with link := { s.link with
      upQueue := s.link.upQueue ++ [responseFrame 0 q.kind q.tag st values s.meas] } }

/-- Commands run one after another, as long as each answers a next state. -/
def execAll : List Instr → State → Result
  | [], s => .next s
  | c :: cs, s =>
    match exec c s with
    | .next t => execAll cs t
    | .fault f => .fault f
    | .refused r => .refused r

/-! ### Events that are due -/

/-- The head request may be processed now (R156), and `c` is the command of a request in the buffer: the one of its kind (R157), or
UNKNOWN_REQUEST. -/
def RequestDue (s : State) (c : Instr) : Prop :=
  ∃ q rest, s.link.buffer = q :: rest ∧ s.meas.heldResponses = [] ∧
    s.link.upQueue.length + responsesOf q s.meas ≤ Config.upstreamPlaces ∧
    ∃ x ∈ q :: rest, (∃ lo hi, (x.kind, c, lo, hi) ∈ requestKinds) ∨
      (c = .unknownRequest ∧ ∀ y ∈ requestKinds, y.1 ≠ x.kind)

/-- The event of a command is due at the timebase of `s`: its timer has run its time (R11, R25, R39, R41, R44, R82, R100, R111, R117, R129,
R130, R134, R171), a transmission is over or a line has been idle long enough (log 3), or a request may be processed. What the host and
the taps send, and power-on, is never due by time. -/
def EventDue (s : State) : Instr → Prop
  | .refreshTimerExpiry t => fitted s.meas t = true ∧ ∃ st, (s.meas.taps.get t).refreshStart = some st ∧
      20 ≤ (s.meas.timebase - st).toNat
  | .lossTimerExpiry t => ∃ p st, (s.meas.taps.get t).presence = some p ∧ p.state = .present ∧ p.lossStart = some st ∧
      100 ≤ (s.meas.timebase - st).toNat
  | .joinRunTimeout t => ∃ p st, (s.meas.taps.get t).presence = some p ∧ p.state ≠ .present ∧ 0 < p.joinRun ∧
      p.lossStart = some st ∧ 100 ≤ (s.meas.timebase - st).toNat
  | .freshnessExpiry => ∃ img rp, s.meas.tables.topology = some img ∧ s.meas.topo.stored = some rp ∧
      (s.meas.topo.state = .known ∨ s.meas.topo.state = .nomatch) ∧ topoFreshness img ≤ (s.meas.timebase - rp.time).toNat
  | .settleTimerExpiry ds => ∃ i tm, islandAt s.meas ds = some i ∧ i.state = .forming ∧ i.settleTimer = .running tm ∧
      tm.dur ≤ (s.meas.timebase - tm.start).toNat
  | .intervalExpiry ds => ∃ i tm, islandAt s.meas ds = some i ∧ i.state = .interval ∧ i.intervalTimer = some tm ∧
      tm.dur ≤ (s.meas.timebase - tm.start).toNat
  | .phaseTimerExpiry (.island ds) => ∃ i ph tm, islandAt s.meas ds = some i ∧ i.state = .cycle (settleStep ph) ∧
      i.phaseTimer = some tm ∧ tm.dur ≤ (s.meas.timebase - tm.start).toNat
  | .plateauTimerExpiry (.island ds) => ∃ i ph tm, islandAt s.meas ds = some i ∧ i.state = .cycle (plateauStep ph) ∧
      i.plateauTimer = some tm ∧ tm.dur ≤ (s.meas.timebase - tm.start).toNat
  | .phaseTimerExpiry .refCheck => ∃ r ph tm, s.meas.ref = some r ∧ r.step = .cycle (settleStep ph) ∧ r.phaseTimer = some tm ∧
      tm.dur ≤ (s.meas.timebase - tm.start).toNat
  | .plateauTimerExpiry .refCheck => ∃ r ph tm, s.meas.ref = some r ∧ r.step = .cycle (plateauStep ph) ∧ r.plateauTimer = some tm ∧
      tm.dur ≤ (s.meas.timebase - tm.start).toNat
  | .handoffTimeout => s.meas.claim.state = .handoff ∧ s.meas.claim.limit ≤ (s.meas.timebase - s.meas.claim.acceptance).toNat
  | .suspendEntryExpiry ds => ∃ e, s.meas.suspended.find? (fun x => x.members == ds) = some e ∧
      e.captured.row.resumeAge * 1000 < (s.meas.timebase - e.time).toNat
  | .agingExpiry d => ((s.meas.doms.get d).verdict = .ok ∨ (s.meas.doms.get d).verdict = .warn) ∧
      inSet (coveredSet s.meas) d = false ∧ ∃ n l, (s.meas.doms.get d).newest = some n ∧
        limitsOf s.meas d (profileInForce s.meas d) = some l ∧ l.maxAge * 1000 < (s.meas.timebase - n.time).toNat
  | .loadGapTimeout => ∃ l, s.loader.load = some l ∧ 250 ≤ (s.meas.timebase - l.gapStart).toNat
  | .portDTxDone => s.link.txD.isSome = true
  | .portUTxDone => s.link.txU.isSome = true
  | .rxGapTimeout p => (rxOf p s).state = .inFrame
  | .rxRecoveryDone p => (rxOf p s).state = .recovering
  | .powerOn | .requestFrameReceived _ | .hostTapFrame _ | .sampleFrame _ | .tapResponse _ | .receiveError _ _
  | .characterReceived _ _ => False
  | .topo => RequestDue s .topo
  | .xclaim => RequestDue s .xclaim
  | .xrel => RequestDue s .xrel
  | .meas => RequestDue s .meas
  | .rchk => RequestDue s .rchk
  | .stat => RequestDue s .stat
  | .mask => RequestDue s .mask
  | .isord => RequestDue s .isord
  | .resrd => RequestDue s .resrd
  | .fltrd => RequestDue s .fltrd
  | .ldtab => RequestDue s .ldtab
  | .seg => RequestDue s .seg
  | .tsum => RequestDue s .tsum
  | .freeze => RequestDue s .freeze
  | .frls => RequestDue s .frls
  | .restart => RequestDue s .restart
  | .unknownRequest => RequestDue s .unknownRequest

/-! ### Suspension (R107) -/

/-- The table of R107: the entry of a cycle of island `i`, captured as `c`, suspended in a step at a time for a cause: its phase, the
retained means and the settle block counts of the completed phases. A cycle in RAMP_HOME has none. -/
def suspendedEntry (i : Island) (c : Captured) (st : CycleStep) (now : Time) (cause : SuspendCause) : Option SuspendEntry :=
  match st with
  | .quietSettle | .quietPlateau =>
    some ⟨i.members, i.injector, i.mode, .quiet, ⟨none, none, none, none, none⟩, c, ⟨0, 0, 0⟩, i.quality, now, cause⟩
  | .rampPos | .posSettle | .posPlateau =>
    some ⟨i.members, i.injector, i.mode, .pos, ⟨i.means.vq, i.means.vPlusQ, i.means.vMinusQ, none, none⟩, c,
      ⟨i.counts.quiet, 0, 0⟩, i.quality, now, cause⟩
  | .rampNeg | .negSettle | .negPlateau =>
    some ⟨i.members, i.injector, i.mode, .neg, ⟨i.means.vq, i.means.vPlusQ, i.means.vMinusQ, i.means.vp, none⟩, c,
      ⟨i.counts.quiet, i.counts.pos, 0⟩, i.quality, now, cause⟩
  | .rampHome => none

/-- The suspend list after a cycle was suspended (R106, R107): its entry in place of one with the same member set, unless its captured
resume_age is 0 or it was in RAMP_HOME. -/
def suspendedList (l : List SuspendEntry) (i : Island) (c : Captured) (st : CycleStep) (now : Time) (cause : SuspendCause) :
    List SuspendEntry :=
  match (if c.row.resumeAge = 0 then none else suspendedEntry i c st now cause) with
  | none => l
  | some e => l.filter (fun x => x.members != i.members) ++ [e]

/-! ### The end of a reference check, a grant, and the islands dissolved -/

/-- R119: from `s` to `t` the reference check `c`, whose RCHK is `p`, ends with an outcome, an Rraw and a decision time: the record is IDLE,
REF_DONE is set, and REF_FAIL on FAIL; the RCHK is answered OK; the tap is at rest, or, with its island in REFHOLD and a settle time, that
island is in FORMING and the tap at FORMING's 0, DOMAIN, connected. With a settle time of 0, FORMING is over as it begins (R25 by
inference, log 7): in a RUNNING part a suspend entry that is young enough is resumed at once (R108, R109), and otherwise a new cycle starts
(R28, R29). -/
structure CheckEnded (s t : State) (c : RefCheck) (p : PendingRec) (o : RefOutcome) (rraw : Option Nat) (decided : Time) : Prop where
  idle : t.meas.ref = none
  answered : t.meas.pendRchk = none
  done : flagSet t.meas .refDone = true
  fail : flagSet t.meas .refFail = (flagSet s.meas .refFail || decide (o = .fail))
  response : ∃ f, outgoing t = outgoing s ++ [f] ∧ f.kind = p.kind ∧ f.tag = p.tag ∧ f.payload.head? = some 0 ∧
    f.payload.drop 2 =
      be8 c.tap.number ++ [if o = .pass then 0 else if o = .fail then 1 else 2, if rraw.isSome then 1 else 0] ++
        be16 (rraw.getD 0) ++ be16 c.rref ++ be8 c.row.refTol ++ be32 decided.toNat
  noRamp : (settleTime s.meas ≠ 0 ∨ ∀ i, injectedBy s.meas c.tap = some i → i.state ≠ .refhold) →
    (t.meas.taps.get c.tap).ramp = none
  rest : (∀ i, injectedBy s.meas c.tap = some i → i.state ≠ .refhold) →
    (t.meas.taps.get c.tap).mailbox = ⟨0, .domain, .floating⟩ ∧ t.meas.islands = s.meas.islands
  released : ∀ i, injectedBy s.meas c.tap = some i → islandAt s.meas i.members = some i → i.state = .refhold →
    isPresent s.meas c.tap = true → settleTime s.meas ≠ 0 →
    (t.meas.taps.get c.tap).mailbox = ⟨0, .domain, .connected⟩ ∧
    islandAt t.meas i.members = some { i with
      state := .forming, phaseTimer := none, plateauTimer := none, intervalTimer := none,
      settleTimer := .running ⟨s.meas.timebase, settleTime s.meas⟩ }
  resumed : ∀ i e, injectedBy s.meas c.tap = some i → islandAt s.meas i.members = some i → i.state = .refhold →
    isPresent s.meas c.tap = true → settleTime s.meas = 0 → partRunning s.meas = true →
    s.meas.suspended.find? (fun e => e.members == i.members && e.injector == i.injector) = some e →
    (s.meas.timebase - e.time).toNat ≤ e.captured.row.resumeAge * 1000 →
    t.meas.suspended = s.meas.suspended.filter (fun e => e.members != i.members) ∧
    (t.meas.taps.get c.tap).mailbox = ⟨0, .domain, .connected⟩ ∧
    ∃ j, islandAt t.meas i.members = some j ∧ j.captured = some e.captured ∧ j.mode = e.mode ∧ j.means = e.means ∧
      j.counts = e.counts ∧ j.quality = { e.quality with resumed := true } ∧ j.demand = i.demand ∧ j.slot = i.slot ∧
      (e.phase = .quiet → j.state = .cycle .quietSettle ∧ (t.meas.taps.get c.tap).ramp = none) ∧
      (e.phase = .pos → e.captured.row.injMv ≠ 0 → j.state = .cycle .rampPos ∧ (t.meas.taps.get c.tap).ramp =
        some ⟨e.captured.row.injMv, e.captured.row.slew * 20, .domain, .connected, .cycle⟩) ∧
      (e.phase = .neg → e.captured.row.injMv ≠ 0 → j.state = .cycle .rampNeg ∧ (t.meas.taps.get c.tap).ramp =
        some ⟨-e.captured.row.injMv, e.captured.row.slew * 20, .domain, .connected, .cycle⟩)
  started : ∀ i row, injectedBy s.meas c.tap = some i → islandAt s.meas i.members = some i → i.state = .refhold →
    isPresent s.meas c.tap = true → settleTime s.meas = 0 → partRunning s.meas = true → cycleRow s.meas i.profile = some row →
    (∀ e, s.meas.suspended.find? (fun e => e.members == i.members && e.injector == i.injector) = some e →
      e.captured.row.resumeAge * 1000 < (s.meas.timebase - e.time).toNat) →
    (t.meas.taps.get c.tap).mailbox = ⟨0, .domain, .connected⟩ ∧ (t.meas.taps.get c.tap).ramp = none ∧
    islandAt t.meas i.members = some { i with
      state := .cycle .quietSettle, mode := i.demand.getD .fast, demand := none,
      captured := some ⟨row, i.profile, domConst domRc s.meas i.injector, domConst domRbal s.meas i.injector⟩,
      means := .none, counts := .zero, quality := .clear, acc := clearForSettle i.acc,
      phaseTimer := some ⟨s.meas.timebase, row.phaseTimeout⟩, plateauTimer := none, settleTimer := .stopped,
      intervalTimer := none }

/-- R99, R186: a frame answers the XCLAIM `p` with OK, the claimed domain, and the covered taps that are not among the confirmed ones. -/
def GrantAnswer (p : PendingRec) (m : Meas) (f : Frame) : Prop :=
  f.marker = 0xC5 ∧ f.address = 0 ∧ f.kind = p.kind ∧ f.tag = p.tag ∧ f.payload.head? = some 0 ∧
    f.payload.drop 2 = [BitVec.ofNat 8 (m.claim.dom.elim 0 (·.number)), coveredSet m &&& ~~~ m.claim.confirmed]

/-- R17, R121: the dissolution of every island of `m` writes a tap: it is the injector of one, and not under a reference check past
PREEMPT. -/
def dissolutionWrites (m : Meas) (d : Dom) : Prop :=
  (∃ i ∈ m.islands, i.injector = d) ∧ ∀ c, m.ref = some c → c.tap = d → c.step = .preempt

/-- R82, R83: a verdict of `m` lapses at the dissolution of every island: its domain was in one under another profile than PARK, or
is held no longer; it is OK or WARN and not held in `m'`, and its result is older than max_age under PARK. That the test is then made at
once also where only the profile in force changed is log 19. -/
def lapsesAtDissolution (m m' : Meas) (d : Dom) : Prop :=
  let x := m.doms.get d
  (x.verdict = .ok ∨ x.verdict = .warn) ∧ inSet (coveredSet m') d = false ∧
    (inSet (coveredSet m) d = true ∨ profileInForce m d ≠ .park) ∧
    ∃ n l, x.newest = some n ∧ limitsOf m d .park = some l ∧ l.maxAge * 1000 < (m.timebase - n.time).toNat

/-- From `m` to `m'` the topology state leaves KNOWN, or stays out of it: every island is dissolved (R17, R20), a check in PREEMPT on the
injector of one goes to its reference path and any other goes on (R121), and a claim covers every fitted domain, its test armed where no
mailbox holds it back, and granted when every PRESENT tap is confirmed (R103, R98, R99). -/
structure IslandsDissolved (m m' : Meas) : Prop where
  islands : m'.islands = []
  suspended : m'.suspended = []
  /-- R17, point 1, and R121: what is written of the taps, and nothing else. -/
  dropped : ∀ d, dissolutionWrites m d → underRef m d = false →
    (m'.taps.get d).mailbox = ⟨0, .domain, .floating⟩ ∧ (m'.taps.get d).ramp = none
  switched : ∀ c, m.ref = some c → c.step = .preempt → (∃ i ∈ m.islands, i.injector = c.tap) →
    (m'.taps.get c.tap).mailbox = ⟨0, .ref, .floating⟩ ∧ (m'.taps.get c.tap).ramp = none ∧
    m'.ref = some { c with
      step := .cycle .quietSettle, acc := clearForSettle c.acc, plateauTimer := none,
      phaseTimer := some ⟨m.timebase, c.row.phaseTimeout⟩ }
  goesOn : (∀ c, m.ref = some c → c.step = .preempt → ∀ i ∈ m.islands, i.injector ≠ c.tap) → m'.ref = m.ref
  untouched : ∀ d, ¬ dissolutionWrites m d →
    (m'.taps.get d).mailbox = (m.taps.get d).mailbox ∧ (m'.taps.get d).ramp = (m.taps.get d).ramp
  /-- R17, point 5: the runs of every member reset; verdicts stay but for the aging, and everything else of the records stays. -/
  runs : ∀ i ∈ m.islands, ∀ d, inSet i.members d = true →
    (m'.doms.get d).worse = 0 ∧ (m'.doms.get d).better = 0 ∧ (m'.doms.get d).belowClear = false
  lapsed : ∀ d, lapsesAtDissolution m m' d →
    m'.doms.get d = { m.doms.get d with verdict := .unknown, worse := 0, better := 0, belowClear := false }
  member : ∀ d, ¬ lapsesAtDissolution m m' d → (∃ i ∈ m.islands, inSet i.members d = true) →
    m'.doms.get d = { m.doms.get d with worse := 0, better := 0, belowClear := false }
  other : ∀ d, ¬ lapsesAtDissolution m m' d → (∀ i ∈ m.islands, inSet i.members d = false) → m'.doms.get d = m.doms.get d
  /-- R98, R99, R103: the claim. -/
  claim : m'.claim = { m.claim with state := m'.claim.state, armed := m'.claim.armed, confirmed := m'.claim.confirmed }
  covered : m.claim.state ≠ .none → ∀ d, inSet (coveredSet m') d = fitted m d
  confirmed : ∀ d, inSet m'.claim.confirmed d = true ↔
    inSet (coveredSet m') d = true ∧ inSet m.claim.confirmed d = true ∧ ¬ dissolutionWrites m d
  unclaimed : m.claim.state ≠ .handoff → m'.claim.state = m.claim.state ∧ m'.pendXclaim = m.pendXclaim
  armed : m.claim.state = .handoff → (m'.claim.armed = true ↔ m.claim.armed = true ∨ ∀ d, fitted m d = true →
    dissolutionWrites m d ∨ (((m.taps.get d).mailbox.level = 0 ∨ (m.taps.get d).mailbox.path = .ref) ∧
      (m.taps.get d).mailbox.balance = .floating))
  granted : m.claim.state = .handoff → m'.claim.armed = true →
    (∀ d, fitted m d = true → isPresent m d = true → inSet m'.claim.confirmed d = true) →
    m'.claim.state = .granted ∧ m'.pendXclaim = none ∧ flagSet m' .handoffDone = true
  waits : m.claim.state = .handoff →
    ¬ (m'.claim.armed = true ∧ ∀ d, fitted m d = true → isPresent m d = true → inSet m'.claim.confirmed d = true) →
    m'.claim.state = .handoff ∧ m'.pendXclaim = m.pendXclaim
  /-- What else stays. -/
  presence : ∀ d, (m'.taps.get d).presence = (m.taps.get d).presence
  kept : m'.resultNumber = m.resultNumber ∧ m'.pendRchk = m.pendRchk ∧ m'.mask = m.mask ∧ m'.timebase = m.timebase

/-! ### Table images that pass their validation, and the row and reason of one that does not -/

/-- R2: a check of a DOMAIN image at a domain, by its reason number (R172, R186), which is its order. Check 2 is the same at every domain. -/
def DomainCheckOk (m : Meas) (img : List Byte) (d : Dom) : Nat → Prop
  | 1 => domFittedByte img d ≤ 1
  | 2 => ∃ e, domFitted img e = true
  | 3 => domFitted img d = true → 50 ≤ domRc img d ∧ domRc img d ≤ 2000
  | 4 => domFitted img d = true → 200 ≤ domRbal img d ∧ domRbal img d ≤ 10000
  | 5 => domFitted img d = true → 100 ≤ domRref img d ∧ domRref img d ≤ 5000
  | 6 => m.tables.topology ≠ none → domFitted img d = fitted m d
  | 7 => ∀ limit, m.tables.limit = some limit → ∀ j, j < limitCount limit → overrideDom limit j = d.number → domFitted img d = true
  | _ => True

/-- R2: the seven checks of a DOMAIN image. -/
def DomainImageOk (m : Meas) (img : List Byte) : Prop := ∀ d k, DomainCheckOk m img d k

/-- R2: the place of a check in the order; 3 to 5 are made together, domain by domain. -/
def domainStage : Nat → Nat
  | 4 => 3
  | 5 => 3
  | k => k

/-- R2: the row and reason of the first check that fails: the domain, or 0 for check 2. -/
def DomainRefusal (m : Meas) (img : List Byte) (row reason : Nat) : Prop :=
  ∃ d, ¬ DomainCheckOk m img d reason ∧ row = (if reason = 2 then 0 else d.number) ∧
    ∀ d' k, (domainStage k < domainStage reason ∨
      (domainStage k = domainStage reason ∧ (d'.index < d.index ∨ (d' = d ∧ k < reason)))) → DomainCheckOk m img d' k

/-- R4: checks 1 to 5 of a TOPOLOGY image, its header, by their order. -/
def TopologyHeaderOk (m : Meas) (img : List Byte) : Nat → Prop
  | 1 => m.tables.domain ≠ none
  | 2 => 1 ≤ topoRows img ∧ topoRows img ≤ 32 ∧ topoRows img = (img.length - 6) / 16
  | 3 => topoOrder img ≤ 1
  | 4 => 100 ≤ topoFreshness img ∧ topoFreshness img ≤ 5000
  | 5 => topoSettle img ≤ 10000
  | _ => True

/-- R4: checks 6 to 10 of a row of a TOPOLOGY image, by their reason number, 3 to 7. -/
def TopologyRowOk (m : Meas) (img : List Byte) (r : Nat) : Nat → Prop
  | 3 => topoKind img r ≤ 1
  | 4 => topoInletFlag img r = 0 ∨
      (topoInletFlag img r = 1 ∧ topoInletLow img r ≤ topoInletHigh img r ∧ topoInletHigh img r ≤ 1500)
  | 5 => ∀ d, (fitted m d = true → topoLabel img r d ≤ 7) ∧ (fitted m d = false → topoLabel img r d = 15)
  | 6 => (∀ d, inSet (topoInjectors img r) d = true → fitted m d = true) ∧
      ∀ d, fitted m d = true → ∃ e, (fitted m e = true ∧ topoLabel img r e = topoLabel img r d ∧ inSet (topoInjectors img r) e = true) ∧
        ∀ e', fitted m e' = true → topoLabel img r e' = topoLabel img r d → inSet (topoInjectors img r) e' = true → e' = e
  | 7 => topoProfile img r ≤ 3
  | _ => True

/-- R4: the ten checks of a TOPOLOGY image. -/
def TopologyImageOk (m : Meas) (img : List Byte) : Prop :=
  (∀ k, TopologyHeaderOk m img k) ∧ ∀ r, r < topoRows img → ∀ k, TopologyRowOk m img r k

/-- R4: the row and reason of the first check that fails: 0xFF with NO_DOMAIN (1) or HEADER (2) for the header, then row by row. -/
def TopologyRefusal (m : Meas) (img : List Byte) (row reason : Nat) : Prop :=
  (row = 0xFF ∧ ∃ n, ¬ TopologyHeaderOk m img n ∧ (∀ n' < n, TopologyHeaderOk m img n') ∧ reason = if n = 1 then 1 else 2) ∨
  ((∀ n, TopologyHeaderOk m img n) ∧ row < topoRows img ∧ ¬ TopologyRowOk m img row reason ∧
    ∀ r k, (r < row ∨ (r = row ∧ k < reason)) → TopologyRowOk m img r k)

/-- R49: the check of one field of a CYCLE row, by its reason number (R186). -/
def CycleFieldOk (c : CycleRow) : Nat → Prop
  | 1 => 5000 ≤ c.injMv ∧ c.injMv ≤ 30000
  | 2 => 10 ≤ c.slew ∧ c.slew ≤ 500
  | 3 => c.nFull = 16 ∨ c.nFull = 32 ∨ c.nFull = 64 ∨ c.nFull = 128 ∨ c.nFull = 256
  | 4 => c.block = 4 ∨ c.block = 8 ∨ c.block = 16
  | 5 => 2 ≤ c.settleBlocks ∧ c.settleBlocks ≤ 8
  | 6 => 1 ≤ c.settleTol ∧ c.settleTol ≤ 500
  | 7 => 1000 ≤ c.phaseTimeout ∧ c.phaseTimeout ≤ 120000
  | 8 => c.interval ≤ 600000
  | 9 => c.maxGap ≤ 8
  | 10 => c.noiseLimit ≤ 255
  | 11 => c.invMargin ≤ 1000
  | 12 => 500 ≤ c.handoffLimit ∧ c.handoffLimit ≤ 20000
  | 13 => c.resumeAge ≤ 300
  | 14 => 1 ≤ c.attribAge ∧ c.attribAge ≤ 3600
  | 15 => 1 ≤ c.asymPct ∧ c.asymPct ≤ 45
  | 16 => 1 ≤ c.asymCount ∧ c.asymCount ≤ 100
  | 17 => 1 ≤ c.refTol ∧ c.refTol ≤ 20
  | _ => True

/-- R49: the row and reason of the first field out of its range, the rows by profile and the fields in their order. -/
def CycleRefusal (img : List Byte) (row reason : Nat) : Prop :=
  ∃ p : Profile, row = p.code ∧ ¬ CycleFieldOk (cycleRowOf img p) reason ∧
    ∀ (p' : Profile) (k : Nat), (p'.code < p.code ∨ (p' = p ∧ k < reason)) → CycleFieldOk (cycleRowOf img p') k

/-- R70, checks 2 and 3d: the range of one field of a LIMIT row, by its reason number (R186). -/
def LimitFieldOk (l : Limits) : Nat → Prop
  | 2 => l.warnOpv = 0 ∨ (50 ≤ l.warnOpv ∧ l.warnOpv ≤ 5000)
  | 3 => 50 ≤ l.faultOpv ∧ l.faultOpv ≤ 5000
  | 4 => 100 ≤ l.ratedV ∧ l.ratedV ≤ 1500
  | 5 => 1 ≤ l.faultCount ∧ l.faultCount ≤ 15
  | 6 => 1 ≤ l.clearCount ∧ l.clearCount ≤ 15
  | 7 => l.hystPct ≤ 50
  | 8 => 1 ≤ l.maxAge ∧ l.maxAge ≤ 3600
  | _ => True

/-- R70, checks 3a to 3e: a check of override row j, by its reason number; bit n of the mask selects the field of reason n + 2. -/
def OverrideCheckOk (m : Meas) (img : List Byte) (j : Nat) : Nat → Prop
  | 9 => ∃ d, overrideDom img j = d.number ∧ fitted m d = true
  | 10 => overrideProfile img j ≤ 3
  | 11 => (overrideMask img j).getLsbD 7 = false
  | 12 => ∀ i, i < j → ¬ (overrideDom img i = overrideDom img j ∧ overrideProfile img i = overrideProfile img j)
  | k => (overrideMask img j).getLsbD (k - 2) = true → LimitFieldOk (overrideBlock img j) k

/-- R70: the place of a check in an override row: DOMAIN, PROFILE, MASK, the fields, DUPLICATE. -/
def overrideStage : Nat → Nat
  | 9 => 0
  | 10 => 1
  | 11 => 2
  | 12 => 4
  | _ => 3

/-- R70, check 1. -/
def LimitHeaderOk (img : List Byte) : Prop := limitCount img ≤ 32 ∧ img.length = 45 + 14 * limitCount img

/-- R70, checks 1 to 3. -/
def LimitRowsOk (m : Meas) (img : List Byte) : Prop :=
  LimitHeaderOk img ∧ (∀ p k, LimitFieldOk (limitDefault img p) k) ∧ ∀ j, j < limitCount img → ∀ k, OverrideCheckOk m img j k

/-- R70, check 4: a row that fails it: a default row, or the override row of a domain and profile whose effective record is out of
order. -/
def WarnOrderFails (img : List Byte) (row : Nat) : Prop :=
  let ordered := fun l : Limits => l.warnOpv = 0 ∨ l.faultOpv ≤ l.warnOpv
  (∃ p : Profile, row = p.code ∧ ¬ ordered (limitDefault img p)) ∨
  ∃ (j : Nat) (d : Dom) (p : Profile), j < limitCount img ∧ overrideDom img j = d.number ∧ overrideProfile img j = p.code ∧
    row = 4 + j ∧ ¬ ordered (effectiveLimits img d p)

/-- R70: the checks of a LIMIT image. -/
def LimitImageOk (m : Meas) (img : List Byte) : Prop := LimitRowsOk m img ∧ ∀ row, ¬ WarnOrderFails img row

/-- R70: the row and reason of the first of checks 1 to 3 that fails: the header, the default rows, the override rows. -/
def LimitRefusal (m : Meas) (img : List Byte) (row reason : Nat) : Prop :=
  (¬ LimitHeaderOk img ∧ row = 0xFF ∧ reason = 1) ∨
  (LimitHeaderOk img ∧ ∃ p : Profile, row = p.code ∧ ¬ LimitFieldOk (limitDefault img p) reason ∧
    ∀ (p' : Profile) (k : Nat), (p'.code < p.code ∨ (p' = p ∧ k < reason)) → LimitFieldOk (limitDefault img p') k) ∨
  (LimitHeaderOk img ∧ (∀ p k, LimitFieldOk (limitDefault img p) k) ∧
    ∃ j, j < limitCount img ∧ row = 4 + j ∧ ¬ OverrideCheckOk m img j reason ∧
      ∀ i k, (i < j ∨ (i = j ∧ (overrideStage k < overrideStage reason ∨ (overrideStage k = overrideStage reason ∧ k < reason)))) →
        OverrideCheckOk m img i k)

/-- R143: the check of the high mark. -/
def HighMarkOk (img : List Byte) : Prop := 8 ≤ fwdHighMark img ∧ fwdHighMark img ≤ 24

/-- R143: the three checks of a FORWARD image. -/
def ForwardImageOk (img : List Byte) : Prop :=
  HighMarkOk img ∧ (∀ t, fwdAnnotate img t ≤ 1) ∧ ∀ k, k < 128 → fwdAction img k ≤ 2

/-- R143: the row and reason of the first check that fails: the high mark, the taps from 1, the kinds from 0x00. -/
def ForwardRefusal (img : List Byte) (row reason : Nat) : Prop :=
  (¬ HighMarkOk img ∧ row = 0xFF ∧ reason = 1) ∨
  (HighMarkOk img ∧ reason = 2 ∧ ∃ t, row = t.number ∧ 1 < fwdAnnotate img t ∧ ∀ t', t'.index < t.index → fwdAnnotate img t' ≤ 1) ∨
  (HighMarkOk img ∧ reason = 3 ∧ (∀ t, fwdAnnotate img t ≤ 1) ∧ row < 128 ∧ 2 < fwdAction img row ∧
    ∀ k < row, fwdAction img k ≤ 2)

/-! ### Layouts of what the host reads (R181, R187 to R190) -/

/-- R187: the STAT block of a state, field by offset. A number wider than its field shows its low bits. -/
structure StatLayout (s : State) (b : List Byte) : Prop where
  length : b.length = 42
  flags : nat32 b 0 = s.meas.flags.toNat
  mask : nat32 b 4 = s.meas.mask.toNat
  part : nat8 b 8 = if partRunning s.meas = true then 1 else 0
  topology : nat8 b 9 = s.meas.topo.state.code ∧ nat8 b 10 = s.meas.topo.row.getD 255 % 256 ∧ nat8 b 11 = s.meas.topo.count % 256
  claim : nat8 b 12 = s.meas.claim.state.code ∧ nat8 b 13 = s.meas.claim.dom.elim 0 (·.number)
  idle : s.meas.ref = none → nat8 b 14 = 0 ∧ nat8 b 15 = 0 ∧ nat8 b 16 = 0
  active : ∀ r, s.meas.ref = some r → nat8 b 14 = 1 ∧ nat8 b 15 = r.tap.number ∧
    (r.step = .preempt → nat8 b 16 = 1) ∧ ∀ st, r.step = .cycle st → nat8 b 16 = st.code
  noLoad : s.loader.load = none → nat8 b 17 = 0 ∧ nat16 b 18 = 0 ∧ nat8 b 20 = 0
  load : ∀ l, s.loader.load = some l → nat8 b 17 = l.table.code ∧ nat16 b 18 = l.buffer.length % 65536 ∧ nat8 b 20 = l.expected.toNat
  tables : ∀ k, (b.getD 21 0).getLsbD k =
    ((decide (k = 0) && s.meas.tables.domain.isSome) || (decide (k = 1) && s.meas.tables.topology.isSome) ||
     (decide (k = 2) && s.meas.tables.cycle.isSome) || (decide (k = 3) && s.meas.tables.limit.isSome) ||
     (decide (k = 4) && s.meas.tables.forward.isSome))
  freeze : nat8 b 22 = s.loader.freeze.toNat
  queue : nat8 b 23 = s.link.upQueue.length % 256 ∧ nat8 b 24 = fwdHighMark (forwardImage s.meas)
  indications : ∀ k, (b.getD 25 0).getLsbD k =
    ((decide (k = 0) && decide (s.link.upQueue.length = 0)) ||
     (decide (k = 1) && decide (fwdHighMark (forwardImage s.meas) ≤ s.link.upQueue.length)) ||
     (decide (k = 2) && decide (s.link.upQueue.length = 32)))
  drops : nat16 b 26 = s.link.drops % 65536
  portU : nat8 b 28 = s.link.rxU.parity % 256 ∧ nat8 b 29 = s.link.rxU.framing % 256 ∧ nat8 b 30 = s.link.rxU.gap % 256 ∧
    nat8 b 31 = s.link.rxU.crc % 256
  portD : nat8 b 32 = s.link.rxD.parity % 256 ∧ nat8 b 33 = s.link.rxD.framing % 256 ∧ nat8 b 34 = s.link.rxD.gap % 256 ∧
    nat8 b 35 = s.link.rxD.crc % 256
  overrun : nat8 b 36 = s.link.overrun % 256
  timebase : nat32 b 37 = s.meas.timebase.toNat
  resetCause : nat8 b 41 = s.meas.resetCause.code

/-- R163, R188: the ISORD record of a fitted domain, field by offset. -/
structure IsordLayout (m : Meas) (d : Dom) (b : List Byte) : Prop where
  length : b.length = 14
  dom : nat8 b 0 % 16 = d.number
  tap : ∀ p, (m.taps.get d).presence = some p →
    (p.state = .unseen → nat8 b 1 % 4 = 0) ∧ (p.state = .present → nat8 b 1 % 4 = 1) ∧ (p.state = .lost → nat8 b 1 % 4 = 2)
  marks : (b.getD 1 0).getLsbD 2 = inSet (coveredSet m) d ∧ (b.getD 1 0).getLsbD 3 = (m.doms.get d).asymActive ∧
    (b.getD 1 0).getLsbD 4 = (m.doms.get d).belowClear ∧ (b.getD 1 0).getLsbD 5 = (m.doms.get d).newest.isSome ∧
    (b.getD 1 0).getLsbD 6 = (m.doms.get d).solo.isSome
  island : ∀ i, islandOf m d = some i →
    b.getD 2 0 = i.members ∧ nat8 b 3 % 16 = i.state.code ∧ (b.getD 3 0).getLsbD 4 = decide (i.mode = .full)
  noIsland : islandOf m d = none → nat8 b 2 = 0 ∧ nat8 b 3 % 32 = 0
  verdict : nat8 b 3 / 32 % 4 = (m.doms.get d).verdict.code ∧ (b.getD 3 0).getLsbD 7 = decide ((m.doms.get d).runLevel = .fault)
  runs : (m.doms.get d).worse ≤ 15 → (m.doms.get d).better ≤ 15 →
    nat8 b 4 % 16 = (m.doms.get d).worse ∧ nat8 b 4 / 16 = (m.doms.get d).better
  newest : ∀ n, (m.doms.get d).newest = some n →
    nat16 b 5 = n.number.toNat ∧ nat16 b 7 = min 65535 ((m.timebase - n.time).toNat / 1000)
  noNewest : (m.doms.get d).newest = none → nat16 b 5 = 0 ∧ nat16 b 7 = 0
  solo : ∀ x, (m.doms.get d).solo = some x →
    nat16 b 9 = x.riso % 65536 ∧ nat16 b 11 = min 65535 ((m.timebase - x.time).toNat / 1000)
  noSolo : (m.doms.get d).solo = none → nat16 b 9 = 0 ∧ nat16 b 11 = 0
  entry : ∀ i e, islandOf m d = some i → m.suspended.find? (fun x => x.members == i.members) = some e →
    (b.getD 1 0).getLsbD 7 = true ∧ nat8 b 0 / 16 % 4 = e.phase.code ∧ (b.getD 0 0).getLsbD 6 = decide (e.cause = .refchk) ∧
    nat8 b 13 = min 255 ((m.timebase - e.time).toNat / 1000)
  noEntry : (∀ i, islandOf m d = some i → ∀ e ∈ m.suspended, e.members ≠ i.members) →
    (b.getD 1 0).getLsbD 7 = false ∧ nat8 b 0 / 16 = 0 ∧ nat8 b 13 = 0

/-- R163, R188: the ISORD record of a domain that is not fitted: tap state 3, no island, verdict UNKNOWN, runs 0, every optional part
absent. -/
structure UnfittedLayout (d : Dom) (b : List Byte) : Prop where
  length : b.length = 14
  dom : nat8 b 0 = d.number
  tap : nat8 b 1 % 4 = 3
  marks : (b.getD 1 0).getLsbD 2 = false ∧ nat8 b 1 / 16 = 0
  rest : b.drop 2 = List.replicate 12 0

/-- R189: a result record, field by offset; an absent number reads 0, and one wider than its field shows its low bits. -/
structure ResultLayout (r : ResultRecord) (b : List Byte) : Prop where
  length : b.length = 43
  number : nat16 b 0 = r.number.toNat
  who : b.getD 2 0 = r.members ∧ nat8 b 3 = r.injector.number ∧ nat8 b 4 = r.profile.code ∧ nat8 b 5 = r.mode.code
  outcome : nat8 b 6 = r.outcome.code
  quality : ∀ k, (b.getD 7 0).getLsbD k =
    ((decide (k = 0) && r.quality.unsettled) || (decide (k = 1) && r.quality.noisy) || (decide (k = 2) && r.quality.gapped) ||
     (decide (k = 3) && r.quality.resumed))
  presence : ∀ k, (b.getD 8 0).getLsbD k =
    ((decide (k = 0) && r.means.vq.isSome) || (decide (k = 1) && r.means.vp.isSome) || (decide (k = 2) && r.means.vn.isSome) ||
     (decide (k = 3) && r.d2.isSome) || (decide (k = 4) && r.rraw.isSome) || (decide (k = 5) && r.rp.isSome))
  time : nat32 b 9 = r.time.toNat
  level : nat16 b 13 = r.u % 65536
  means : int16 b 15 = (BitVec.ofInt 16 (r.means.vq.getD 0)).toInt ∧ int16 b 17 = (BitVec.ofInt 16 (r.means.vp.getD 0)).toInt ∧
    int16 b 19 = (BitVec.ofInt 16 (r.means.vn.getD 0)).toInt ∧ nat16 b 21 = r.means.vPlusQ.getD 0 % 65536 ∧
    nat16 b 23 = r.means.vMinusQ.getD 0 % 65536
  d2 : BitVec.ofNat 32 (nat32 b 25) = BitVec.ofInt 32 (r.d2.getD 0)
  resistances : nat16 b 29 = r.rraw.getD 0 % 65536 ∧ nat16 b 31 = r.riso.getD 0 % 65536 ∧ nat16 b 33 = r.rp.getD 0 % 65536 ∧
    nat16 b 35 = r.rn.getD 0 % 65536
  counts : nat16 b 37 = r.counts.quiet % 65536 ∧ nat16 b 39 = r.counts.pos % 65536 ∧ nat16 b 41 = r.counts.neg % 65536

/-- R190: a fault record of at most eight entries, field by offset. -/
structure FaultLayout (r : FaultRecord) (b : List Byte) : Prop where
  length : b.length = 58
  dom : nat8 b 0 = r.dom.number
  time : nat32 b 1 = r.time.toNat
  who : b.getD 5 0 = r.members ∧ nat8 b 6 = r.injector.number ∧ nat8 b 7 = r.profile.code
  number : nat16 b 8 = r.number.toNat
  riso : nat16 b 10 = r.riso % 65536
  sides : nat8 b 12 = (if r.rp.isSome = true then 1 else 0) ∧ nat16 b 13 = r.rp.getD 0 % 65536 ∧ nat16 b 15 = r.rn.getD 0 % 65536
  count : nat8 b 17 = r.entries.length
  entries : ∀ k e, r.entries[k]? = some e → nat8 b (18 + 5 * k) % 16 = e.dom.number ∧
    (b.getD (18 + 5 * k) 0).getLsbD 7 = e.solo.isSome ∧ nat16 b (19 + 5 * k) = (e.solo.elim 0 (·.1)) % 65536 ∧
    nat16 b (21 + 5 * k) = (e.solo.elim 0 (·.2)) % 65536
  beyond : ∀ n, 18 + 5 * r.entries.length ≤ n → nat8 b n = 0

/-- R135, R182: the level frame to a tap whose mailbox holds a level of sixteen bits. Its tag is the tap's next level sequence, and its
payload the level, the path and the balance. -/
structure LevelLayout (t : Dom) (p : Tap) (f : Frame) : Prop where
  marker : f.marker = 0xCA
  address : f.address.toNat = t.number
  kind : f.kind = 0x02
  tag : f.tag.toNat = (p.levelSeq.toNat + 1) % 256
  length : f.payload.length = 4
  level : (f.payload.getD 0 0 ++ f.payload.getD 1 0 : BitVec 16).toInt = p.mailbox.level
  path : f.payload.getD 2 0 = if p.mailbox.path = .ref then 1 else 0
  balance : f.payload.getD 3 0 = if p.mailbox.balance = .connected then 1 else 0

/-- R194: the 11-byte field block at an offset of a LIMIT image. -/
def limitFieldsAt (img : List Byte) (o : Nat) : Limits :=
  let b := fun n => (img.getD (o + n) 0).toNat
  ⟨256 * b 0 + b 1, 256 * b 2 + b 3, 256 * b 4 + b 5, b 6, b 7, b 8, 256 * b 9 + b 10⟩

/-- R69, R194: the effective record of a domain under a profile: each field from the override row that names the two, when its mask bit is
set, and otherwise from the default row. Where two rows name them, which no image that passed R70 has, the first counts (log 25). -/
structure EffectiveRecord (img : List Byte) (d : Dom) (p : Profile) (e : Limits) : Prop where
  noRow : (∀ j, j < (img.getD 0 0).toNat →
      ¬ ((img.getD (45 + 14 * j) 0).toNat = d.number ∧ (img.getD (46 + 14 * j) 0).toNat = p.code)) →
    e = limitFieldsAt img (1 + 11 * p.code)
  row : ∀ j, j < (img.getD 0 0).toNat →
    (img.getD (45 + 14 * j) 0).toNat = d.number → (img.getD (46 + 14 * j) 0).toNat = p.code →
    (∀ i, i < j → ¬ ((img.getD (45 + 14 * i) 0).toNat = d.number ∧ (img.getD (46 + 14 * i) 0).toNat = p.code)) →
    ∀ x ∈ [(0, Limits.warnOpv), (1, Limits.faultOpv), (2, Limits.ratedV), (3, Limits.faultCount), (4, Limits.clearCount),
        (5, Limits.hystPct), (6, Limits.maxAge)],
      x.2 e = if (img.getD (47 + 14 * j) 0).getLsbD x.1 then x.2 (limitFieldsAt img (48 + 14 * j))
        else x.2 (limitFieldsAt img (1 + 11 * p.code))

/-- R181: the two bytes of the annotation tag of a domain's sample. -/
structure TagLayout (m : Meas) (d : Dom) (a b : Byte) : Prop where
  verdict : a.toNat % 4 = (m.doms.get d).verdict.code
  external : a.getLsbD 2 = inSet (coveredSet m) d
  attention : a.getLsbD 3 = decide (m.flags &&& m.mask ≠ 0)
  topology : a.toNat / 16 % 4 = m.topo.state.code
  claim : a.toNat / 64 = m.claim.state.code
  island : ∀ i, islandOf m d = some i → b.toNat % 16 = i.state.code ∧ b.getLsbD 4 = decide (i.mode = .full)
  noIsland : islandOf m d = none → b.toNat % 32 = 0
  asym : b.getLsbD 5 = (m.doms.get d).asymActive
  unused : b.toNat / 64 = 0

/-! ### Properties that every step keeps -/

/-- A receiver's four counters are within 0 to 255 (R125). -/
def Receiver.Bounded (r : Receiver) : Prop := r.parity ≤ 255 ∧ r.framing ≤ 255 ∧ r.gap ≤ 255 ∧ r.crc ≤ 255

/-- The queues and counters of the ports are within their places (R125, R137, R148, R151, R155). -/
structure LinkBounded (l : Link) : Prop where
  upQueue : l.upQueue.length ≤ 32
  downQueue : l.downQueue.length ≤ 16
  buffer : l.buffer.length ≤ 4
  overrun : l.overrun ≤ 255
  drops : l.drops ≤ 65535
  rxU : l.rxU.Bounded
  rxD : l.rxD.Bounded

/-- Every condition that holds has its flag set (R160). -/
def FlagsFollow (m : Meas) : Prop := ∀ f, conditionHolds m f = true → flagSet m f = true

/-- ISO_ALERT is low exactly while some fitted domain's verdict is FAULT (R81). -/
def AlertFollows (m : Meas) : Prop :=
  m.isoAlert = .low ↔ ∃ d, fitted m d = true ∧ (m.doms.get d).verdict = .fault

/-- No two suspend entries have the same member set (R106). -/
def EntriesDistinct (m : Meas) : Prop := (m.suspended.map (·.members)).Nodup

/-- The islands are those of the resolved row while the topology state is KNOWN, in ascending order of lowest member, and there is
none while it is not; in KNOWN there are positions, a row, and a TOPOLOGY table that gave them (R12). -/
def PartitionFollows (m : Meas) : Prop :=
  (m.topo.state = .known → ∃ img r, m.tables.topology = some img ∧ m.topo.row = some r ∧ m.topo.stored.isSome = true ∧
    m.islands.map (fun i => (i.members, i.injector, i.profile)) =
      (partitionOf img r (fitted m)).map fun p => (p.members, p.injector, p.profile)) ∧
  (m.topo.state ≠ .known → m.islands = [])

end Sys2Proof.Machine
end

