-- ==== Sys2Proof/Certificates/Slice0/Obligations.lean ====
section
/-! DEFINITION. The statements for the provers. Each docstring names the rule it formalises; a clause that rests on a choice of the model
names the log entry (what waits for a port is sent at the end of the event, in
`OutputsMoved`: log 6). Of a state `s`, `taken rest s` is `s` with the head request gone, and `OutputsMoved u t` says that `t` is `u` with
its outputs moved on (Safety.lean). -/

open Sys2Proof Sys2Proof.Machine

/-! ### Steps, power-on, responses -/

/-- 95: each step is one command taken whole. One step takes the command at the front of the queue and is `exec` of it, with the rest
of the queue behind it. Whatever the command and the state, it answers a next state: no rule gives the part a fault that stops it, and
that a command answers next also where its event cannot happen is the model's choice (log 1). -/
def Obligations.StepTakesFrontCommand : Prop :=
  (∀ (s : State) (c : Instr) (rest : List Instr), s.pending = c :: rest → step s = exec c { s with pending := rest }) ∧
  ∀ (c : Instr) (s : State), ∃ t, exec c s = .next t

/-- The model's choice (log 2), on 00_scope, Time: a step on an empty queue is one millisecond. The timebase counts up, nothing else
of the part changes, and the commands that are queued are exactly those of the events then due: the expiries whose timers have run
their times, a transmission that has ended and a line that has been idle long enough (log 3), and the buffered requests once the head
one may be processed. -/
def Obligations.EmptyQueueIsOneMillisecond : Prop :=
  ∀ s : State, s.pending = [] →
    let later : State := { s with meas := { s.meas with timebase := s.meas.timebase + 1 } }
    ∃ cs, step s = .next { later with pending := cs } ∧ ∀ c, c ∈ cs ↔ EventDue later c

/-- R167, R21, R52, R64, R91, R112, R122, R140, R142, R148, R151, R152, R168: what power-on leaves. R112's claimed domain, acceptance
time, handoff limit and tag are cleared; that the cleared values are none and 0 is log 11. That the freeze flags are clear is log 23; the
queue of commands stays (log 24). -/
def Obligations.PowerOnValues : Prop :=
  ∀ s : State, ∃ t, exec .powerOn s = .next t ∧ t.pending = s.pending ∧
    -- request unit
    t.link.buffer = [] ∧ t.meas.pendXclaim = none ∧ t.meas.pendRchk = none ∧ t.meas.heldResponses = [] ∧
    (∀ f, flagSet t.meas f = decide (f = .reset)) ∧ t.meas.mask = BitVec.allOnes 32 ∧ t.link.overrun = 0 ∧
    t.meas.timebase = 0 ∧ t.meas.resetCause = .powerOn ∧ partRunning t.meas = false ∧
    -- chain interface
    t.link.rxU.state = .recovering ∧ t.link.rxD.state = .recovering ∧
    (t.link.rxU.parity, t.link.rxU.framing, t.link.rxU.gap, t.link.rxU.crc) = (0, 0, 0, 0) ∧
    (t.link.rxD.parity, t.link.rxD.framing, t.link.rxD.gap, t.link.rxD.crc) = (0, 0, 0, 0) ∧
    t.link.downQueue = [] ∧
    (∀ d, fitted t.meas d = false ∧ (t.meas.taps.get d).presence = none ∧ (t.meas.taps.get d).refreshStart = none ∧
      (t.meas.taps.get d).mailbox = ⟨0, .domain, .floating⟩ ∧ (t.meas.taps.get d).levelSeq = 0 ∧
      (t.meas.taps.get d).due = false ∧ (t.meas.taps.get d).ramp = none) ∧
    -- tables and traffic
    (t.meas.tables.domain, t.meas.tables.topology, t.meas.tables.cycle, t.meas.tables.limit) = (none, none, none, none) ∧
    forwardImage t.meas = builtinForward ∧ t.link.upQueue = [] ∧ t.link.drops = 0 ∧
    (∀ d, t.link.decim.get d = 0) ∧ t.loader.load = none ∧ t.loader.freeze = 0 ∧
    -- resolver, islands, results, verdicts
    t.meas.topo.stored = none ∧ t.meas.topo.state = .unresolved ∧ t.meas.topo.row = none ∧ t.meas.topo.count = 0 ∧
    t.meas.islands = [] ∧ t.meas.resultNumber = 0 ∧ t.meas.isoAlert = .released ∧
    (∀ d, (t.meas.doms.get d).verdict = .unknown ∧ (t.meas.doms.get d).worse = 0 ∧ (t.meas.doms.get d).better = 0 ∧
      (t.meas.doms.get d).belowClear = false ∧ (t.meas.doms.get d).newest = none ∧ (t.meas.doms.get d).solo = none ∧
      (t.meas.doms.get d).fault = none ∧ (t.meas.doms.get d).asymRun = 0 ∧ (t.meas.doms.get d).asymActive = false) ∧
    -- claim, suspend list, reference check
    t.meas.claim.state = .none ∧ t.meas.claim.dom = none ∧ t.meas.claim.acceptance = 0 ∧ t.meas.claim.limit = 0 ∧
    t.meas.claim.tag = 0 ∧ t.meas.claim.armed = false ∧ t.meas.claim.confirmed = 0 ∧ t.meas.suspended = [] ∧
    t.meas.ref = none

/-- R158, R184: a response of the part is a frame 0xC5 at address 0 with the request's kind and tag, its payload the status code, the
summary byte and the values; and the summary byte is laid out so. -/
def Obligations.ResponseLayout : Prop :=
  ∀ (kind tag : Byte) (st : Status) (values : List Byte) (m : Meas), ∃ sum : Byte,
    responseFrame 0 kind tag st values m = ⟨0xC5, 0, kind, tag, BitVec.ofNat 8 st.code :: sum :: values⟩ ∧
    sum.getLsbD 0 = decide (m.flags &&& m.mask ≠ 0) ∧
    sum.getLsbD 1 = partRunning m ∧
    (sum.extractLsb' 2 2).toNat = m.topo.state.code ∧
    (sum.extractLsb' 4 2).toNat = m.claim.state.code ∧
    sum.getLsbD 6 = anyVerdict m .fault ∧
    sum.getLsbD 7 = anyVerdict m .warn

/-! ### Topology -/

/-- R8: when a row matches positions and an inlet voltage: an ALL row (match kind code 0, R192) when every cared position equals its
expected value, an ANY row (code 1) when one does, and either only within its inlet range when its inlet flag is 1. That bit n of the
care and expected masks is switch position n, as in the TOPO payload, is log 17. -/
def Obligations.RowMatch : Prop :=
  ∀ (img : List Byte) (positions : BitVec 16) (inlet r : Nat),
    let cared := fun n => n < 16 ∧ (topoCare img r).getLsbD n = true
    let agrees := fun n => positions.getLsbD n = (topoExpected img r).getLsbD n
    let inRange := topoInletFlag img r = 1 → topoInletLow img r ≤ inlet ∧ inlet ≤ topoInletHigh img r
    (topoKind img r = 0 → (rowMatches img positions inlet r = true ↔ (∀ n, cared n → agrees n) ∧ inRange)) ∧
    (topoKind img r = 1 → (rowMatches img positions inlet r = true ↔ (∃ n, cared n ∧ agrees n) ∧ inRange))

/-- R9: the resolved row is the first matching row in search order (UPWARD from row 0, DOWNWARD from row n − 1), there is none exactly
when no row matches, and the match count is over the whole table. -/
def Obligations.ResolvedRow : Prop :=
  ∀ (img : List Byte) (positions : BitVec 16) (inlet : Nat),
    let hit := fun r => r < topoRows img ∧ rowMatches img positions inlet r = true
    let rows := matchingRows img positions inlet
    (∀ r, rows.head? = some r → hit r ∧
      (topoOrder img = 0 → ∀ r', hit r' → r ≤ r') ∧ (topoOrder img ≠ 0 → ∀ r', hit r' → r' ≤ r)) ∧
    (rows.head? = none ↔ ∀ r, ¬ hit r) ∧
    rows.length = (List.range (topoRows img)).countP (rowMatches img positions inlet)

/-- R12: the partition of a row. Every fitted domain belongs to exactly one island and no unfitted one to any; the members of one island
are the fitted domains that carry one label; its injector is its one member in the row's injector set, and its profile the row's (codes
of R183); the islands are at most eight and in ascending order of lowest member. -/
def Obligations.PartitionOfRow : Prop :=
  ∀ (img : List Byte) (r : Nat) (fit : Dom → Bool),
    (∀ d, fit d = true → ∃ p ∈ partitionOf img r fit, inSet p.members d = true ∧
      ∀ p' ∈ partitionOf img r fit, inSet p'.members d = true → p' = p) ∧
    (∀ p ∈ partitionOf img r fit, p.members ≠ 0 ∧ ∃ d, fit d = true ∧
      ∀ e, inSet p.members e = true ↔ fit e = true ∧ topoLabel img r e = topoLabel img r d) ∧
    (∀ p ∈ partitionOf img r fit,
      (∀ e, inSet p.members e = true → inSet (topoInjectors img r) e = true →
        (∀ e', inSet p.members e' = true → inSet (topoInjectors img r) e' = true → e' = e) → p.injector = e) ∧
      (topoProfile img r = 0 → p.profile = .park) ∧ (topoProfile img r = 1 → p.profile = .drive) ∧
      (topoProfile img r = 2 → p.profile = .charge) ∧ (topoProfile img r = 3 → p.profile = .service)) ∧
    (partitionOf img r fit).length ≤ 8 ∧
    (partitionOf img r fit).Pairwise fun p p' =>
      ∃ d, inSet p.members d = true ∧ ∀ e, inSet p'.members e = true → d.index < e.index

/-- R6, R7, R9, R10: what TOPO stores, the topology state, row and match count it leaves, the flags, and its response, which goes before
the response of a claim that its change of partition grants (R159). -/
def Obligations.TopoResolves : Prop :=
  ∀ (s : State) (q : Frame) (rest : List Frame), HeadRequest 0x10 4 1 q rest s →
    let rp : Report := ⟨BitVec.ofNat 16 (nat16 q.payload 0), min 1500 (nat16 q.payload 2), s.meas.timebase⟩
    ∃ t more, exec .topo s = .next t ∧ t.meas.topo.stored = some rp ∧
      (match s.meas.tables.topology with
       | none => t.meas.topo = { s.meas.topo with stored := some rp }
       | some img =>
         let rows := matchingRows img rp.positions rp.inlet
         t.meas.topo = ⟨some rp, if rows = [] then .nomatch else .known, rows.head?, rows.length⟩ ∧
         (rows = [] → flagSet t.meas .topoNomatch = true) ∧
         (2 ≤ rows.length → flagSet t.meas .topoMulti = true)) ∧
      outgoing t = outgoing s ++ responseFrame 0 q.kind q.tag .ok
        [BitVec.ofNat 8 t.meas.topo.state.code, BitVec.ofNat 8 (t.meas.topo.row.getD 0xFF),
          BitVec.ofNat 8 t.meas.topo.count] t.meas :: more ∧
      (s.meas.claim.state ≠ .handoff → more = []) ∧
      t.loader = s.loader ∧ t.pending = s.pending ∧ t.meas.tables = s.meas.tables ∧
      t.link = { s.link with buffer := rest, txU := t.link.txU, upQueue := t.link.upQueue, txD := t.link.txD,
                             downQueue := t.link.downQueue }

/-- R15, R6: a TOPO that leaves the state KNOWN on the same row restarts the freshness timer and touches no island. -/
def Obligations.TopoSameRowTouchesNoIsland : Prop :=
  ∀ (s : State) (q : Frame) (rest : List Frame) (img : List Byte), HeadRequest 0x10 4 1 q rest s →
    let rp : Report := ⟨BitVec.ofNat 16 (nat16 q.payload 0), min 1500 (nat16 q.payload 2), s.meas.timebase⟩
    let rows := matchingRows img rp.positions rp.inlet
    s.meas.tables.topology = some img → s.meas.topo.state = .known → rows ≠ [] → rows.head? = s.meas.topo.row →
    ∃ t fl al, exec .topo s = .next t ∧
      OutputsMoved (answered q .ok [1, BitVec.ofNat 8 (rows.head?.getD 0xFF), BitVec.ofNat 8 rows.length]
        { taken rest s with meas := { s.meas with
            topo := ⟨some rp, .known, rows.head?, rows.length⟩, flags := fl, isoAlert := al } }) t

/-- R15 to R20, R22, R24, R102, R110, R121: the change of partition that a TOPO makes. First, from no island, claim or check: each island of
the resolved row is formed in FORMING. Then from any islands that are those of their row, with a settle time, to another row: (1) an island
with the same members and injector continues, and takes only the profile, and EXTERNAL when its claim is granted; its injector's mailbox and
ramp stay, and under one profile its members' records; (2) any other is formed with a fresh context: in HANDOFF or EXTERNAL, its tap at
rest, when it holds the claimed domain, in REFHOLD when its injector is under check, else in FORMING at 0, DOMAIN, connected; its members'
runs reset; (3) the injector of a dissolved island is at rest, unless a new island has it or a check, whose PREEMPT is switched to the
reference path; (4) just the suspend entries of continued islands stay. Last, a TOPO that matches no row dissolves every island (R20, R103;
that a verdict lapses at once where only its profile changed is the model's choice, log 19), and the answer of a claim that it grants
follows its own. -/
def Obligations.TopoFormsIslands : Prop :=
  let formed := fun (p : IslandSpec) (st : IslandState) (tm : SettleTimer) =>
    ({ members := p.members, injector := p.injector, profile := p.profile, state := st, mode := .fast,
       captured := none, acc := .empty, phaseTimer := none, plateauTimer := none, settleTimer := tm, intervalTimer := none,
       means := .none, counts := .zero, quality := .clear, demand := none, slot := none } : Island)
  (∀ (s : State) (q : Frame) (rest : List Frame) (img : List Byte) (r : Nat), HeadRequest 0x10 4 1 q rest s →
    s.meas.tables.topology = some img → s.meas.topo.state ≠ .known → s.meas.islands = [] → s.meas.claim.state = .none →
    s.meas.ref = none → topoSettle img ≠ 0 →
    (matchingRows img (BitVec.ofNat 16 (nat16 q.payload 0)) (min 1500 (nat16 q.payload 2))).head? = some r →
    let parts := partitionOf img r (fitted s.meas)
    ∃ t, exec .topo s = .next t ∧
      t.meas.islands = parts.map (fun p => formed p .forming (.running ⟨s.meas.timebase, topoSettle img⟩)) ∧
      (∀ p ∈ parts, (t.meas.taps.get p.injector).mailbox = ⟨0, .domain, .connected⟩ ∧
        ∀ d, inSet p.members d = true → (t.meas.doms.get d).worse = 0 ∧ (t.meas.doms.get d).better = 0 ∧
          (t.meas.doms.get d).belowClear = false) ∧
      ∀ d, (∀ p ∈ parts, p.injector ≠ d) → (t.meas.taps.get d).mailbox = (s.meas.taps.get d).mailbox) ∧
  (∀ (s : State) (q : Frame) (rest : List Frame) (img : List Byte) (r : Nat), HeadRequest 0x10 4 1 q rest s →
    s.meas.tables.topology = some img → PartitionFollows s.meas → topoSettle img ≠ 0 →
    (matchingRows img (BitVec.ofNat 16 (nat16 q.payload 0)) (min 1500 (nat16 q.payload 2))).head? = some r →
    ¬ (s.meas.topo.state = .known ∧ s.meas.topo.row = some r) →
    let parts := partitionOf img r (fitted s.meas)
    let same := fun (i : Island) (p : IslandSpec) => i.members = p.members ∧ i.injector = p.injector
    let claims := fun p : IslandSpec => s.meas.claim.state ≠ .none ∧ ∃ c, s.meas.claim.dom = some c ∧ inSet p.members c = true
    ∃ t, exec .topo s = .next t ∧
      t.meas.islands.map (fun i => (i.members, i.injector, i.profile)) = parts.map (fun p => (p.members, p.injector, p.profile)) ∧
      (∀ i ∈ s.meas.islands, ∀ p ∈ parts, same i p →
        (∃ j, islandAt t.meas p.members = some j ∧ j = { i with profile := p.profile, state := j.state } ∧
          (¬ (claims p ∧ s.meas.claim.state = .handoff ∧ t.meas.claim.state = .granted) → j.state = i.state) ∧
          (claims p ∧ s.meas.claim.state = .handoff ∧ t.meas.claim.state = .granted → j.state = .external)) ∧
        (t.meas.taps.get i.injector).mailbox = (s.meas.taps.get i.injector).mailbox ∧
        (t.meas.taps.get i.injector).ramp = (s.meas.taps.get i.injector).ramp ∧
        (i.profile = p.profile → ∀ d, inSet p.members d = true → t.meas.doms.get d = s.meas.doms.get d)) ∧
      (∀ p ∈ parts, (∀ i ∈ s.meas.islands, ¬ same i p) →
        (claims p → (t.meas.claim.state = .handoff → islandAt t.meas p.members = some (formed p .handoff .stopped)) ∧
          (t.meas.claim.state = .granted → islandAt t.meas p.members = some (formed p .external .stopped)) ∧
          (underRef s.meas p.injector = false → (t.meas.taps.get p.injector).mailbox = ⟨0, .domain, .floating⟩)) ∧
        (¬ claims p → underRef s.meas p.injector = true → islandAt t.meas p.members = some (formed p .refhold .stopped)) ∧
        (¬ claims p → underRef s.meas p.injector = false →
          islandAt t.meas p.members = some (formed p .forming (.running ⟨s.meas.timebase, topoSettle img⟩)) ∧
          (t.meas.taps.get p.injector).mailbox = ⟨0, .domain, .connected⟩) ∧
        ∀ d, inSet p.members d = true → (t.meas.doms.get d).worse = 0 ∧ (t.meas.doms.get d).better = 0 ∧
          (t.meas.doms.get d).belowClear = false) ∧
      (∀ i ∈ s.meas.islands, (∀ p ∈ parts, ¬ same i p) →
        (underRef s.meas i.injector = false → (∀ p ∈ parts, p.injector ≠ i.injector) →
          (t.meas.taps.get i.injector).mailbox = ⟨0, .domain, .floating⟩ ∧ (t.meas.taps.get i.injector).ramp = none) ∧
        ∀ c, s.meas.ref = some c → c.tap = i.injector →
          (c.step = .preempt → (t.meas.taps.get i.injector).mailbox = ⟨0, .ref, .floating⟩ ∧
            ∃ c', t.meas.ref = some c' ∧ c'.step = .cycle .quietSettle) ∧
          (c.step ≠ .preempt → (t.meas.taps.get i.injector).mailbox = (s.meas.taps.get i.injector).mailbox ∧ t.meas.ref = some c)) ∧
      ∀ e, e ∈ t.meas.suspended ↔ e ∈ s.meas.suspended ∧ (∃ p ∈ parts, p.members = e.members ∧ p.injector = e.injector) ∧
        ∀ i ∈ s.meas.islands, i.members = e.members → i.injector = e.injector) ∧
  (∀ (s : State) (q : Frame) (rest : List Frame) (img : List Byte), HeadRequest 0x10 4 1 q rest s →
    s.meas.tables.topology = some img →
    matchingRows img (BitVec.ofNat 16 (nat16 q.payload 0)) (min 1500 (nat16 q.payload 2)) = [] →
    ∃ t f, exec .topo s = .next t ∧ t.meas.topo.state = .nomatch ∧ t.meas.topo.row = none ∧ IslandsDissolved s.meas t.meas ∧
      f.kind = q.kind ∧ f.tag = q.tag ∧
      (t.meas.claim.state = s.meas.claim.state → outgoing t = outgoing s ++ [f]) ∧
      ∀ p, s.meas.pendXclaim = some p → t.meas.claim.state ≠ s.meas.claim.state →
        ∃ g, outgoing t = outgoing s ++ [f, g] ∧ GrantAnswer p t.meas g)

/-- R11, R17, R20, R103, R121: the freshness expiry in KNOWN or NOMATCH. The state becomes STALE, TOPO_STALE is set, and every island is
dissolved: its suspend entry gone, its injector at rest, its members' runs reset, and their verdicts (but for those that lapse, R82, R83;
that one lapses at once also where only its profile changed is the model's choice, log 19), newest and solo results and fault records kept.
A check in PREEMPT on an injector is switched to 0, REF, floating and enters QUIET_SETTLE; any other goes on. A claim covers every fitted
domain; one in HANDOFF is armed where no mailbox holds it back, and granted when every PRESENT tap is confirmed, with its answer. -/
def Obligations.FreshnessExpiryDissolves : Prop :=
  ∀ (s : State) (img : List Byte) (rp : Report),
    s.meas.tables.topology = some img → s.meas.topo.stored = some rp →
    (s.meas.topo.state = .known ∨ s.meas.topo.state = .nomatch) →
    topoFreshness img ≤ (s.meas.timebase - rp.time).toNat →
    ∃ t, exec .freshnessExpiry s = .next t ∧
      t.meas.topo = { s.meas.topo with state := .stale, row := none } ∧ flagSet t.meas .topoStale = true ∧
      IslandsDissolved s.meas t.meas ∧
      (t.meas.claim.state = s.meas.claim.state → outgoing t = outgoing s) ∧
      (∀ p, s.meas.pendXclaim = some p → t.meas.claim.state ≠ s.meas.claim.state →
        ∃ f, outgoing t = outgoing s ++ [f] ∧ GrantAnswer p t.meas f) ∧
      t.meas.tables = s.meas.tables ∧ t.loader = s.loader ∧ t.pending = s.pending ∧
      t.link = { s.link with txU := t.link.txU, upQueue := t.link.upQueue, txD := t.link.txD,
                             downQueue := t.link.downQueue }

/-! ### Mailboxes, ramps, refresh -/

/-- R31, R133, R134: a write of a mailbox other than a ramp step. It names all three parts and ends any ramp; a change makes a level frame
of a fitted tap due and restarts its refresh timer; a covered tap loses its confirmation (R98); nothing else changes. -/
def Obligations.MailboxWrite : Prop :=
  ∀ (t : Dom) (b : Mailbox) (m : Meas),
    let old := m.taps.get t
    let changed := fitted m t = true ∧ old.mailbox ≠ b
    ∃ tap : Tap, ∃ c : DomSet,
      writeMailbox t b m = { m with taps := m.taps.set t tap, claim := { m.claim with confirmed := c } } ∧
      tap = { old with mailbox := b, ramp := none, due := tap.due, refreshStart := tap.refreshStart } ∧
      (changed → tap.due = true ∧ tap.refreshStart = some m.timebase) ∧
      (¬ changed → tap.due = old.due ∧ tap.refreshStart = old.refreshStart) ∧
      ∀ d, inSet c d = (inSet m.claim.confirmed d && decide (d ≠ t))

/-- R30: a ramp over a distance takes ceil(|distance| / step) steps: after that many steps, and not before, the level is the target; and
no step leaves the interval between level and target. -/
def Obligations.RampTakesCeilSteps : Prop :=
  ∀ (level target : Int) (step n : Nat), 0 < step →
    let walk := fun k => (fun l => stepLevel l target step)^[k] level
    (walk n = target ↔ (target - level).natAbs ≤ n * step) ∧
    min level target ≤ walk n ∧ walk n ≤ max level target

/-- R134, R30, R32, R135: the refresh expiry of a fitted tap whose timer has run 20 ms. Without a ramp a level frame becomes due and the
timer restarts; with a ramp that does not end here, the mailbox also takes the stepped level with the ramp's path and balance. A ramp that
reaches its target also ends: a cycle's RAMP_POS or RAMP_NEG, with no claim, enters POS_SETTLE or NEG_SETTLE with its phase timer started
(R38); its RAMP_HOME consumes a held demand in a new cycle, and otherwise enters INTERVAL, or at an interval of 0, over as it begins (log
7), a new FULL cycle (R43, R44, R28); a claim's floats the injector, and arms the grant test when no other covered mailbox holds it back
(R97, R98); a check's PREEMPT switches the tap to 0, REF, floating and enters QUIET_SETTLE (R116), its RAMP_POS or RAMP_NEG enters
POS_SETTLE or NEG_SETTLE (R117), whether a claim exists or not, and its RAMP_HOME after the judgement ends the check with REF_DONE,
REF_FAIL on FAIL, its response and the tap at rest, or with its PRESENT tap's island back from REFHOLD in FORMING (R119), or, at a settle
time of 0, over as it begins (log 7), in its resumed or a new cycle (R108, R109). A ramp step clears the confirmation too (log 16). -/
def Obligations.RefreshTimerSteps : Prop :=
  ∀ (s : State) (t : Dom) (st : Time),
    fitted s.meas t = true → (s.meas.taps.get t).refreshStart = some st → 20 ≤ (s.meas.timebase - st).toNat →
    let p := s.meas.taps.get t
    let ended := fun r : Ramp => ({ s.meas with
      taps := s.meas.taps.set t { p with
        mailbox := ⟨r.target, r.path, r.balance⟩, ramp := none, due := true, refreshStart := some s.meas.timebase },
      claim := { s.meas.claim with confirmed := s.meas.claim.confirmed &&& ~~~ (single t) } } : Meas)
    ∃ u, exec (.refreshTimerExpiry t) s = .next u ∧
      (p.ramp = none → OutputsMoved { s with meas := { s.meas with
          taps := s.meas.taps.set t { p with due := true, refreshStart := some s.meas.timebase } } } u) ∧
      (∀ r, p.ramp = some r → stepLevel p.mailbox.level r.target r.step ≠ r.target →
        OutputsMoved { s with meas := { s.meas with
          taps := s.meas.taps.set t { p with
            mailbox := ⟨stepLevel p.mailbox.level r.target r.step, r.path, r.balance⟩,
            due := true, refreshStart := some s.meas.timebase },
          claim := { s.meas.claim with confirmed := s.meas.claim.confirmed &&& ~~~ (single t) } } } u) ∧
      (∀ r i ph, p.ramp = some r → stepLevel p.mailbox.level r.target r.step = r.target → r.owner = .cycle →
        injectedBy s.meas t = some i → islandAt s.meas i.members = some i →
        ((i.state = .cycle .rampPos ∧ ph = .pos) ∨ (i.state = .cycle .rampNeg ∧ ph = .neg)) →
        s.meas.claim.state = .none →
        OutputsMoved { s with meas := changeIsland i.members (fun j => { j with
            state := .cycle (settleStep ph), acc := clearForSettle j.acc,
            phaseTimer := some ⟨s.meas.timebase, j.row.phaseTimeout⟩, plateauTimer := none, settleTimer := .stopped,
            intervalTimer := none }) (ended r) } u) ∧
      (∀ r i c, p.ramp = some r → stepLevel p.mailbox.level r.target r.step = r.target → r.owner = .cycle →
        injectedBy s.meas t = some i → islandAt s.meas i.members = some i → i.state = .cycle .rampHome →
        i.captured = some c → s.meas.claim.state = .none →
        (i.demand = none → c.row.interval ≠ 0 →
          OutputsMoved { s with meas := putIsland { i with
            state := .interval, phaseTimer := none, plateauTimer := none, settleTimer := .stopped,
            intervalTimer := some ⟨s.meas.timebase, c.row.interval⟩ } (ended r) } u) ∧
        ∀ md row, (i.demand = some md ∨ (i.demand = none ∧ c.row.interval = 0 ∧ md = .full)) → cycleRow s.meas i.profile = some row →
          OutputsMoved { s with meas := putIsland { i with
            state := .cycle .quietSettle, mode := md, demand := none,
            captured := some ⟨row, i.profile, domConst domRc s.meas i.injector, domConst domRbal s.meas i.injector⟩,
            means := .none, counts := .zero, quality := .clear, acc := clearForSettle i.acc,
            phaseTimer := some ⟨s.meas.timebase, row.phaseTimeout⟩, plateauTimer := none, settleTimer := .stopped,
            intervalTimer := none } (writeMailbox t ⟨0, .domain, .connected⟩ (ended r)) } u) ∧
      (∀ r, p.ramp = some r → stepLevel p.mailbox.level r.target r.step = r.target → r.owner = .claim →
        s.meas.claim.state = .handoff → inSet (coveredSet s.meas) t = true → isPresent s.meas t = true →
        ∃ a : Bool, (a = true ↔ s.meas.claim.armed = true ∨ ∀ d, inSet (coveredSet s.meas) d = true → d ≠ t →
            ((s.meas.taps.get d).mailbox.level = 0 ∨ (s.meas.taps.get d).mailbox.path = .ref) ∧
            (s.meas.taps.get d).mailbox.balance = .floating) ∧
          OutputsMoved { s with meas := { s.meas with
            taps := s.meas.taps.set t { p with
              mailbox := ⟨0, .domain, .floating⟩, ramp := none, due := true, refreshStart := some s.meas.timebase },
            claim := { s.meas.claim with confirmed := s.meas.claim.confirmed &&& ~~~ (single t), armed := a } } } u) ∧
      (∀ r c ph, p.ramp = some r → stepLevel p.mailbox.level r.target r.step = r.target → r.owner = .refCheck →
        s.meas.ref = some c → c.tap = t →
        let settling := fun x : Phase => { c with
          step := .cycle (settleStep x), acc := clearForSettle c.acc, plateauTimer := none,
          phaseTimer := some ⟨s.meas.timebase, c.row.phaseTimeout⟩ }
        (c.step = .preempt →
          u.meas.ref = some (settling .quiet) ∧ (u.meas.taps.get t).mailbox = ⟨0, .ref, .floating⟩ ∧
          (u.meas.taps.get t).ramp = none ∧
          (s.meas.claim.state = .none → OutputsMoved { s with meas := { ended { r with target := 0, path := .ref, balance := .floating } with
            ref := some (settling .quiet) } } u)) ∧
        (((c.step = .cycle .rampPos ∧ ph = .pos) ∨ (c.step = .cycle .rampNeg ∧ ph = .neg)) →
          u.meas.ref = some (settling ph) ∧ (u.meas.taps.get t).mailbox = ⟨r.target, r.path, r.balance⟩ ∧
          (u.meas.taps.get t).ramp = none ∧
          (s.meas.claim.state = .none → OutputsMoved { s with meas := { ended r with ref := some (settling ph) } } u))) ∧
      ∀ r c o at_ pr, p.ramp = some r → stepLevel p.mailbox.level r.target r.step = r.target → r.owner = .refCheck →
        s.meas.ref = some c → c.tap = t → c.step = .cycle .rampHome → c.outcome = some o → c.decided = some at_ →
        s.meas.pendRchk = some pr → s.meas.claim.state = .none → CheckEnded s u c pr o c.rraw at_

/-! ### The cycle -/

/-- R25, R28, R29, R44: the two timers that start a cycle. At the settle expiry of a FORMING island in a RUNNING part, its injector PRESENT
and no suspend entry waiting, its mode is the demanded one, or FAST; at the interval expiry it is FULL. -/
def Obligations.TimersStartCycles : Prop :=
  (∀ (s : State) (ds : DomSet) (i : Island) (tm : Timer) (row : CycleRow),
    islandAt s.meas ds = some i → i.state = .forming → i.settleTimer = .running tm →
    tm.dur ≤ (s.meas.timebase - tm.start).toNat → partRunning s.meas = true →
    isPresent s.meas i.injector = true →
    (∀ e ∈ s.meas.suspended, ¬ (e.members = ds ∧ e.injector = i.injector)) →
    cycleRow s.meas i.profile = some row →
    ∃ t, exec (.settleTimerExpiry ds) s = .next t ∧
      OutputsMoved { s with meas := putIsland { i with
          state := .cycle .quietSettle, mode := i.demand.getD .fast, demand := none,
          captured := some ⟨row, i.profile, domConst domRc s.meas i.injector, domConst domRbal s.meas i.injector⟩,
          means := .none, counts := .zero, quality := .clear, acc := clearForSettle i.acc,
          phaseTimer := some ⟨s.meas.timebase, row.phaseTimeout⟩, plateauTimer := none, settleTimer := .stopped,
          intervalTimer := none } (writeMailbox i.injector ⟨0, .domain, .connected⟩ s.meas) } t) ∧
  (∀ (s : State) (ds : DomSet) (i : Island) (tm : Timer) (row : CycleRow),
    islandAt s.meas ds = some i → i.state = .interval → i.intervalTimer = some tm →
    tm.dur ≤ (s.meas.timebase - tm.start).toNat → cycleRow s.meas i.profile = some row →
    ∃ t, exec (.intervalExpiry ds) s = .next t ∧
      OutputsMoved { s with meas := putIsland { i with
          state := .cycle .quietSettle, mode := .full,
          captured := some ⟨row, i.profile, domConst domRc s.meas i.injector, domConst domRbal s.meas i.injector⟩,
          means := .none, counts := .zero, quality := .clear, acc := clearForSettle i.acc,
          phaseTimer := some ⟨s.meas.timebase, row.phaseTimeout⟩, plateauTimer := none, settleTimer := .stopped,
          intervalTimer := none } (writeMailbox i.injector ⟨0, .domain, .connected⟩ s.meas) } t)

/-- R25, R26, R108, R109: the other ends of the settle timer. While UNCONFIGURED the island waits with its timer expired; without its
injector it stalls, its cycle part, demand and suspend entry gone and the injector at rest (that its mode stays is log 20); an entry that
is young enough is taken off the list and resumed; one that is older than its resume_age is discarded, and a new cycle starts. -/
def Obligations.SettleTimerWaitsStallsResumes : Prop :=
  ∀ (s : State) (ds : DomSet) (i : Island) (tm : Timer),
    islandAt s.meas ds = some i → i.state = .forming → i.settleTimer = .running tm →
    tm.dur ≤ (s.meas.timebase - tm.start).toNat →
    ∃ t, exec (.settleTimerExpiry ds) s = .next t ∧
      (partRunning s.meas = false →
        OutputsMoved { s with meas := changeIsland ds (fun j => { j with settleTimer := .expired }) s.meas } t) ∧
      (partRunning s.meas = true → isPresent s.meas i.injector = false →
        OutputsMoved { s with meas := dropEntry ds (writeMailbox i.injector ⟨0, .domain, .floating⟩
          (putIsland { i with
            state := .stalled, captured := none, acc := .empty, means := .none, counts := .zero, quality := .clear,
            phaseTimer := none, plateauTimer := none, settleTimer := .stopped, intervalTimer := none, demand := none }
          s.meas)) } t) ∧
      (∀ e row, partRunning s.meas = true → isPresent s.meas i.injector = true →
        s.meas.suspended.find? (fun e => e.members == ds && e.injector == i.injector) = some e →
        e.captured.row.resumeAge * 1000 < (s.meas.timebase - e.time).toNat → cycleRow s.meas i.profile = some row →
        OutputsMoved { s with meas := dropEntry ds (putIsland { i with
          state := .cycle .quietSettle, mode := i.demand.getD .fast, demand := none,
          captured := some ⟨row, i.profile, domConst domRc s.meas i.injector, domConst domRbal s.meas i.injector⟩,
          means := .none, counts := .zero, quality := .clear, acc := clearForSettle i.acc,
          phaseTimer := some ⟨s.meas.timebase, row.phaseTimeout⟩, plateauTimer := none, settleTimer := .stopped,
          intervalTimer := none } (writeMailbox i.injector ⟨0, .domain, .connected⟩ s.meas)) } t) ∧
      ∀ e, partRunning s.meas = true → isPresent s.meas i.injector = true →
        s.meas.suspended.find? (fun e => e.members == ds && e.injector == i.injector) = some e →
        (s.meas.timebase - e.time).toNat ≤ e.captured.row.resumeAge * 1000 →
        t.meas.suspended = s.meas.suspended.filter (fun e => e.members != ds) ∧
        ∃ j, islandAt t.meas ds = some j ∧ j.captured = some e.captured ∧ j.mode = e.mode ∧ j.means = e.means ∧
          j.counts = e.counts ∧ j.quality = { e.quality with resumed := true } ∧ j.demand = i.demand ∧
          j.slot = i.slot ∧
          (e.phase = .quiet → j.state = .cycle .quietSettle) ∧
          (e.phase = .pos → e.captured.row.injMv ≠ 0 → (s.meas.taps.get i.injector).mailbox.level = 0 →
            j.state = .cycle .rampPos ∧ (t.meas.taps.get i.injector).ramp =
              some ⟨e.captured.row.injMv, e.captured.row.slew * 20, .domain, .connected, .cycle⟩) ∧
          (e.phase = .neg → e.captured.row.injMv ≠ 0 → (s.meas.taps.get i.injector).mailbox.level = 0 →
            j.state = .cycle .rampNeg ∧ (t.meas.taps.get i.injector).ramp =
              some ⟨-e.captured.row.injMv, e.captured.row.slew * 20, .domain, .connected, .cycle⟩)

/-- R39, R40, R117: the phase timer of a SETTLE step begins the phase's plateau, UNSETTLED for an island's cycle and unrecorded for the
reference cycle. -/
def Obligations.PhaseTimerBeginsPlateau : Prop :=
  (∀ (s : State) (ds : DomSet) (i : Island) (c : Captured) (ph : Phase) (tm : Timer),
    islandAt s.meas ds = some i → i.state = .cycle (settleStep ph) → i.captured = some c → i.phaseTimer = some tm →
    tm.dur ≤ (s.meas.timebase - tm.start).toNat →
    ∃ t, exec (.phaseTimerExpiry (.island ds)) s = .next t ∧
      OutputsMoved { s with meas := putIsland { i with
          state := .cycle (plateauStep ph), quality := { i.quality with unsettled := true }, acc := clearForPlateau i.acc,
          phaseTimer := none, plateauTimer := some ⟨s.meas.timebase, c.row.phaseTimeout⟩, settleTimer := .stopped,
          intervalTimer := none } s.meas } t) ∧
  (∀ (s : State) (r : RefCheck) (ph : Phase) (tm : Timer),
    s.meas.ref = some r → r.step = .cycle (settleStep ph) → r.phaseTimer = some tm →
    tm.dur ≤ (s.meas.timebase - tm.start).toNat →
    ∃ t, exec (.phaseTimerExpiry .refCheck) s = .next t ∧
      OutputsMoved { s with meas := { s.meas with ref := some { r with
          step := .cycle (plateauStep ph), acc := clearForPlateau r.acc, phaseTimer := none,
          plateauTimer := some ⟨s.meas.timebase, r.row.phaseTimeout⟩ } } } t)

/-- R41, R42, R62, R64, R117: the plateau timer. In an island's PLATEAU step CYCLE_FAIL is set; a TIMED_OUT record with the next number,
the means so far and no resistance takes the slot; no verdict record changes; and RAMP_HOME begins at the captured slew, or is already
over at level 0, where the island enters INTERVAL unless it holds a demand (R43). In the reference cycle it decides FAIL with no Rraw,
now, and begins RAMP_HOME on the REF path, or at level 0, where RAMP_HOME ends as it begins, ends the check at once (R119; a settle time
of 0 is over as it begins, log 7). -/
def Obligations.PlateauTimerEndsCycle : Prop :=
  (∀ (s : State) (ds : DomSet) (i : Island) (c : Captured) (ph : Phase) (tm : Timer),
    islandAt s.meas ds = some i → i.state = .cycle (plateauStep ph) → i.captured = some c → i.plateauTimer = some tm →
    tm.dur ≤ (s.meas.timebase - tm.start).toNat →
    ∃ t j, exec (.plateauTimerExpiry (.island ds)) s = .next t ∧ islandAt t.meas ds = some j ∧
      flagSet t.meas .cycleFail = true ∧ t.meas.resultNumber = s.meas.resultNumber + 1 ∧
      j.slot = some ⟨s.meas.resultNumber + 1, ds, i.injector, c.profile, i.mode, .timedOut, i.quality, s.meas.timebase,
        c.row.injMv, i.means, none, none, none, none, none, i.counts⟩ ∧
      t.meas.doms = s.meas.doms ∧ t.meas.suspended = s.meas.suspended ∧ t.meas.topo = s.meas.topo ∧
      t.loader = s.loader ∧ t.pending = s.pending ∧ outgoing t = outgoing s ∧
      ((s.meas.taps.get i.injector).mailbox.level ≠ 0 → j.state = .cycle .rampHome ∧
        (t.meas.taps.get i.injector).ramp = some ⟨0, c.row.slew * 20, .domain, .connected, .cycle⟩ ∧
        (t.meas.taps.get i.injector).mailbox = (s.meas.taps.get i.injector).mailbox) ∧
      ((s.meas.taps.get i.injector).mailbox.level = 0 → s.meas.tables.cycle.isSome = true →
        j.state ≠ .cycle .rampHome) ∧
      ((s.meas.taps.get i.injector).mailbox.level = 0 → i.demand = none → c.row.interval ≠ 0 →
        j.state = .interval ∧ j.intervalTimer = some ⟨s.meas.timebase, c.row.interval⟩ ∧
        (t.meas.taps.get i.injector).ramp = none)) ∧
  (∀ (s : State) (r : RefCheck) (ph : Phase) (tm : Timer),
    s.meas.ref = some r → r.step = .cycle (plateauStep ph) → r.plateauTimer = some tm →
    tm.dur ≤ (s.meas.timebase - tm.start).toNat → (s.meas.taps.get r.tap).mailbox.level ≠ 0 →
    ∃ t, exec (.plateauTimerExpiry .refCheck) s = .next t ∧
      OutputsMoved { s with meas := { s.meas with
        ref := some { r with
          step := .cycle .rampHome, acc := .empty, phaseTimer := none, plateauTimer := none, outcome := some .fail,
          rraw := none, decided := some s.meas.timebase },
        taps := s.meas.taps.set r.tap { s.meas.taps.get r.tap with
          ramp := some ⟨0, r.row.slew * 20, .ref, .floating, .refCheck⟩, refreshStart := some s.meas.timebase } } } t) ∧
  ∀ (s : State) (r : RefCheck) (ph : Phase) (tm : Timer) (p : PendingRec),
    s.meas.ref = some r → r.step = .cycle (plateauStep ph) → r.plateauTimer = some tm →
    tm.dur ≤ (s.meas.timebase - tm.start).toNat → (s.meas.taps.get r.tap).mailbox.level = 0 → s.meas.pendRchk = some p →
    ∃ t, exec (.plateauTimerExpiry .refCheck) s = .next t ∧ CheckEnded s t r p .fail none s.meas.timebase ∧
      t.meas.doms = s.meas.doms ∧ t.meas.topo = s.meas.topo ∧ t.meas.resultNumber = s.meas.resultNumber ∧
      t.meas.pendXclaim = s.meas.pendXclaim ∧ t.loader = s.loader ∧ t.pending = s.pending

/-- R45, R46: MEAS. BADARG on a domain or a mode that does not exist, WRONGSTATE while not KNOWN. Otherwise by its island's state: INTERVAL
starts a cycle in the requested mode; FORMING and CYCLE hold the demand, FULL winning; the other four answer WRONGSTATE and change
nothing. -/
def Obligations.MeasDemand : Prop :=
  (∀ (s : State) (q : Frame) (rest : List Frame) (d : Dom) (md : Mode) (i : Island), HeadRequest 0x13 2 1 q rest s →
    Dom.ofNumber (nat8 q.payload 0) = some d → fitted s.meas d = true → Mode.ofCode (nat8 q.payload 1) = some md →
    s.meas.topo.state = .known → islandOf s.meas d = some i → islandAt s.meas i.members = some i →
    ∃ t, exec .meas s = .next t ∧
      (∀ row, i.state = .interval → cycleRow s.meas i.profile = some row →
        OutputsMoved (answered q .ok [] { taken rest s with
          meas := putIsland { i with
            state := .cycle .quietSettle, mode := md,
            captured := some ⟨row, i.profile, domConst domRc s.meas i.injector, domConst domRbal s.meas i.injector⟩,
            means := .none, counts := .zero, quality := .clear, acc := clearForSettle i.acc,
            phaseTimer := some ⟨s.meas.timebase, row.phaseTimeout⟩, plateauTimer := none, settleTimer := .stopped,
            intervalTimer := none } (writeMailbox i.injector ⟨0, .domain, .connected⟩ s.meas) }) t) ∧
      ((i.state = .forming ∨ ∃ st, i.state = .cycle st) →
        OutputsMoved (answered q .ok [] { taken rest s with meas := putIsland { i with
          demand := some (if i.demand = some .full then .full else md) } s.meas }) t) ∧
      ((i.state = .stalled ∨ i.state = .handoff ∨ i.state = .external ∨ i.state = .refhold) →
        OutputsMoved (answered q .wrongState [] (taken rest s)) t)) ∧
  (∀ (s : State) (q : Frame) (rest : List Frame), HeadRequest 0x13 2 1 q rest s →
    ∃ t, exec .meas s = .next t ∧
      (((∀ d, Dom.ofNumber (nat8 q.payload 0) = some d → fitted s.meas d = false) ∨ Mode.ofCode (nat8 q.payload 1) = none) →
        OutputsMoved (answered q .badArg [] (taken rest s)) t) ∧
      ∀ d md, Dom.ofNumber (nat8 q.payload 0) = some d → fitted s.meas d = true →
        Mode.ofCode (nat8 q.payload 1) = some md → s.meas.topo.state ≠ .known →
        OutputsMoved (answered q .wrongState [] (taken rest s)) t)

/-- R33 to R38: one used sample. A gap above max_gap restarts the step and a smaller one is GAPPED; then the sample is taken as one in
order is, by what the restart or the step left (R36): one that does not echo its command counts for nothing; one that echoes with CLIP or
TFLT counts as noise, and the one that exceeds noise_limit restarts the step and is NOISY. A valid sample of a SETTLE step joins its
block, and the B-th completes it: its mean is rounded half upward, it is stable when it lies within settle_tol of the previous block's,
the stable run counts or resets, and the phase settles when the run has reached S; at an injector, NOISY and GAPPED are set in the
island's quality flags whatever the gap and the class, a completed block counts the phase's settle block count, and a settled phase enters
its PLATEAU (S is 2 in FAST, settle_blocks in FULL). R40, R42: a valid sample of a PLATEAU is summed, V+ and V− in QUIET alone, and the
N-th completes it (N is 16 in FAST, n_full in FULL); at an injector, the completed QUIET or POS plateau retains its means, rounded half
upward, and begins RAMP_POS or RAMP_NEG at the captured slew (R32). R33: the sample of a tap that is no island's injector, or whose island
is in another state or step, changes nothing of the cycle engine. -/
def Obligations.SampleTaken : Prop :=
  (∀ (st : Stage) (ph : Phase) (row : CycleRow) (n run : Nat) (b : Mailbox) (delta : Nat) (x : Sample) (a : Accum),
    let k := takeSample st ph row n run b delta x a
    let a1 := if row.maxGap + 1 < delta then Accum.empty else a
    let echoed := x.applied = b.level ∧ (x.ref = true ↔ b.path = .ref) ∧ (x.bal = true ↔ b.balance = .connected)
    (k.gapped = true ↔ 2 ≤ delta ∧ delta ≤ row.maxGap + 1) ∧
    k = { takeSample st ph row n run b 1 x a1 with gapped := decide (2 ≤ delta ∧ delta ≤ row.maxGap + 1) } ∧
    (¬ echoed → k.acc = a1 ∧ k.noisy = false ∧ k.block = false ∧ k.settled = false ∧ k.full = false) ∧
    (echoed → (x.clip = true ∨ x.tflt = true) →
      k.block = false ∧ k.settled = false ∧ k.full = false ∧
      (a1.noise + 1 ≤ row.noiseLimit → k.acc = { a1 with noise := a1.noise + 1 } ∧ k.noisy = false) ∧
      (row.noiseLimit < a1.noise + 1 → k.acc = Accum.empty ∧ k.noisy = true))) ∧
  (∀ (ph : Phase) (row : CycleRow) (n run : Nat) (b : Mailbox) (x : Sample) (a : Accum),
    echoes b x = true → x.clip = false → x.tflt = false → a.blockCount + 1 < row.block →
    takeSample .settle ph row n run b 1 x a =
      ⟨{ a with blockSum := a.blockSum + x.vs, blockCount := a.blockCount + 1 }, false, false, false, false, false⟩) ∧
  (∀ (ph : Phase) (row : CycleRow) (n run : Nat) (b : Mailbox) (x : Sample) (a : Accum),
    echoes b x = true → x.clip = false → x.tflt = false → 0 < row.block → a.blockCount + 1 = row.block →
    let k := takeSample .settle ph row n run b 1 x a
    let sum := a.blockSum + x.vs
    ∃ mean : Int, k.acc.prevMean = some mean ∧
      row.block * mean ≤ sum + (row.block / 2 : Nat) ∧ sum + (row.block / 2 : Nat) < row.block * (mean + 1) ∧
      k.block = true ∧ k.noisy = false ∧ k.gapped = false ∧
      k.acc = { a with blockSum := 0, blockCount := 0, prevMean := some mean, stableRun := k.acc.stableRun } ∧
      (∀ p, a.prevMean = some p → (mean - p).natAbs ≤ row.settleTol → k.acc.stableRun = a.stableRun + 1) ∧
      (∀ p, a.prevMean = some p → row.settleTol < (mean - p).natAbs → k.acc.stableRun = 0) ∧
      (a.prevMean = none → k.acc.stableRun = 0) ∧
      (k.settled = true ↔ run ≤ k.acc.stableRun) ∧ k.full = false) ∧
  (∀ (ph : Phase) (row : CycleRow) (n run : Nat) (b : Mailbox) (x : Sample) (a : Accum),
    echoes b x = true → x.clip = false → x.tflt = false →
    let k := takeSample .plateau ph row n run b 1 x a
    k.acc = { a with
      sumVs := a.sumVs + x.vs, sumVPlus := if ph = .quiet then a.sumVPlus + x.vPlus else a.sumVPlus,
      sumVMinus := if ph = .quiet then a.sumVMinus + x.vMinus else a.sumVMinus, plateauCount := a.plateauCount + 1 } ∧
    k.noisy = false ∧ k.gapped = false ∧ k.block = false ∧ k.settled = false ∧ (k.full = true ↔ n ≤ a.plateauCount + 1)) ∧
  (∀ (m : Meas) (d : Dom) (i : Island) (c : Captured) (delta : Nat) (x : Sample) (st : Stage) (ph : Phase),
    injectedBy m d = some i → islandAt m i.members = some i → i.captured = some c →
    ((st = .settle ∧ i.state = .cycle (settleStep ph)) ∨ (st = .plateau ∧ i.state = .cycle (plateauStep ph))) →
    let k := takeSample st ph c.row (if i.mode = .fast then 16 else c.row.nFull) (if i.mode = .fast then 2 else c.row.settleBlocks)
      (m.taps.get d).mailbox delta x i.acc
    let up := fun n : Nat => min 65535 (n + 1)
    let counted : Counts :=
      ⟨if ph = .quiet then up i.counts.quiet else i.counts.quiet, if ph = .pos then up i.counts.pos else i.counts.pos,
        if ph = .neg then up i.counts.neg else i.counts.neg⟩
    let j := { i with
      acc := k.acc, counts := if k.block = true then counted else i.counts,
      quality := { i.quality with noisy := i.quality.noisy || k.noisy, gapped := i.quality.gapped || k.gapped } }
    (k.settled = false → k.full = false → cycleSample d delta x m = putIsland j m) ∧
    (k.settled = true → cycleSample d delta x m = putIsland { j with
      state := .cycle (plateauStep ph), acc := clearForPlateau k.acc, phaseTimer := none,
      plateauTimer := some ⟨m.timebase, c.row.phaseTimeout⟩, settleTimer := .stopped, intervalTimer := none } m)) ∧
  (∀ (m : Meas) (d : Dom) (delta : Nat) (x : Sample),
    (∀ i ph, injectedBy m d = some i → i.state ≠ .cycle (settleStep ph) ∧ i.state ≠ .cycle (plateauStep ph)) →
    cycleSample d delta x m = m) ∧
  (∀ (m : Meas) (d : Dom) (i : Island) (c : Captured) (delta : Nat) (x : Sample),
    injectedBy m d = some i → islandAt m i.members = some i → i.captured = some c →
    echoes (m.taps.get d).mailbox x = true → x.clip = false → x.tflt = false →
    let n := if i.mode = .fast then 16 else c.row.nFull
    let a1 := if c.row.maxGap + 1 < delta then Accum.empty else i.acc
    let rounds := fun (q sum : Int) => n * q ≤ sum + (n / 2 : Nat) ∧ sum + (n / 2 : Nat) < n * (q + 1)
    let acc := (takeSample .plateau (if i.state = .cycle .quietPlateau then .quiet else .pos) c.row n 0
      (m.taps.get d).mailbox delta x i.acc).acc
    let ramping := fun (st : CycleStep) (target : Int) (ms : Means) =>
      putIsland { i with
        quality := { i.quality with gapped := i.quality.gapped || decide (2 ≤ delta ∧ delta ≤ c.row.maxGap + 1) },
        state := .cycle st, means := ms, acc := acc, phaseTimer := none, plateauTimer := none, settleTimer := .stopped,
        intervalTimer := none } { m with taps := m.taps.set d { m.taps.get d with
          ramp := some ⟨target, c.row.slew * 20, .domain, .connected, .cycle⟩, refreshStart := some m.timebase } }
    0 < n → a1.plateauCount + 1 = n →
    (i.state = .cycle .quietPlateau → (m.taps.get d).mailbox.level ≠ c.row.injMv →
      ∃ (q : Int) (vp vm : Nat), rounds q (a1.sumVs + x.vs) ∧ rounds vp (a1.sumVPlus + x.vPlus : Nat) ∧
        rounds vm (a1.sumVMinus + x.vMinus : Nat) ∧
        cycleSample d delta x m =
          ramping .rampPos c.row.injMv { i.means with vq := some q, vPlusQ := some vp, vMinusQ := some vm }) ∧
    (i.state = .cycle .posPlateau → (m.taps.get d).mailbox.level ≠ -(c.row.injMv : Int) →
      ∃ q : Int, rounds q (a1.sumVs + x.vs) ∧
        cycleSample d delta x m = ramping .rampNeg (-(c.row.injMv : Int)) { i.means with vp := some q }))

/-! ### Insulation arithmetic -/

/-- R56, R57, R59, R60: Rraw of a VALID outcome; Riso from Rraw and Rbal; a raw side value; a side; and which divisor each side takes. Each
decides its cases in order. -/
def Obligations.ResistanceStages : Prop :=
  (∀ (u rc invMargin : Nat) (d2 : Int), isInverted invMargin d2 = false →
    (d2 ≤ 0 → rrawOf u rc d2 = 0) ∧
    (0 < d2 → 2 * (u : Int) ≤ d2 → rrawOf u rc d2 = 65535) ∧
    (0 < d2 → d2 < 2 * (u : Int) → (rrawOf u rc d2 : Int) = min 65535 ((rc : Int) * d2 / (2 * u - d2)))) ∧
  (∀ rraw rbal : Nat,
    risoOf rraw rbal =
      if rraw = 65535 then 65535
      else if rbal ≤ rraw then 65535
      else min 65535 (rraw * rbal / (rbal - rraw))) ∧
  (∀ rraw ubus divisor : Nat, sideRawOf rraw ubus divisor =
    if divisor = 0 then 65535 else if rraw = 65535 then 65535 else min 65535 (rraw * ubus / divisor)) ∧
  (∀ raw rbal : Nat, sideOf raw rbal =
    if 2 * rbal ≤ raw then 65535 else min 65535 (raw * (2 * rbal) / (2 * rbal - raw))) ∧
  ∀ (ms : Means) (rraw rbal vPlus vMinus : Nat),
    ms.vPlusQ = some vPlus → ms.vMinusQ = some vMinus → 1200 ≤ vPlus + vMinus →
    splitOf ms rraw rbal = some (sideOf (sideRawOf rraw (vPlus + vMinus) vMinus) rbal,
      sideOf (sideRawOf rraw (vPlus + vMinus) vPlus) rbal)

/-- R53, R55, R58, R61, R63: a result record. It carries what its island and the captured row give it, its number and its time. The outcome
is TIMED_OUT when marked so, and otherwise, both means being there, INVERTED when D2 is below −inv_margin, and VALID when not. A VALID
record's Rraw, Riso, Rp and Rn are what R56 to R60 (the stages of ResistanceStages) make of D2, the captured U, Rc and Rbal and the quiet
means. Rraw and Riso are present exactly when it is VALID; Rp and Rn exactly when it is VALID and the quiet plateau saw 1200 counts; and
every resistance lies within 0 to 65535. -/
def Obligations.ResultOutcomes : Prop :=
  ∀ (i : Island) (c : Captured) (timedOut : Bool) (now : Time) (number : BitVec 16),
    let r := resultOf i c timedOut now number
    (r.number = number ∧ r.time = now ∧ r.members = i.members ∧ r.injector = i.injector ∧ r.profile = c.profile ∧
      r.mode = i.mode ∧ r.quality = i.quality ∧ r.u = c.row.injMv ∧ r.means = i.means ∧ r.counts = i.counts) ∧
    (timedOut = true → r.outcome = .timedOut ∧ r.d2 = none) ∧
    (∀ p n, timedOut = false → i.means.vp = some p → i.means.vn = some n → r.d2 = some (p - n) ∧
      (p - n < -(c.row.invMargin : Int) → r.outcome = .inverted) ∧
      (-(c.row.invMargin : Int) ≤ p - n → r.outcome = .valid ∧
        let rraw := rrawOf c.row.injMv c.rc (p - n)
        r.rraw = some rraw ∧ r.riso = some (risoOf rraw c.rbal) ∧
        ∀ a b, i.means.vPlusQ = some a → i.means.vMinusQ = some b → 1200 ≤ a + b →
          r.rp = some (sideOf (sideRawOf rraw (a + b) b) c.rbal) ∧ r.rn = some (sideOf (sideRawOf rraw (a + b) a) c.rbal))) ∧
    (r.rraw.isSome = true ↔ r.outcome = .valid) ∧ (r.riso.isSome = true ↔ r.outcome = .valid) ∧
    (r.rp.isSome = r.rn.isSome) ∧
    (r.rp.isSome = true ↔ r.outcome = .valid ∧
      ∃ a b, i.means.vPlusQ = some a ∧ i.means.vMinusQ = some b ∧ 1200 ≤ a + b) ∧
    ∀ x, (r.rraw = some x ∨ r.riso = some x ∨ r.rp = some x ∨ r.rn = some x) → x ≤ 65535

/-- R69, R194: the record that the verdict unit reads for a domain under a profile is the effective one of the active LIMIT image, blended
field by field; that of two override rows that name one domain and profile the first counts, which R70's DUPLICATE check rules out of an
active table, is the model's choice (log 25). R67: the thresholds are the quotients rounded up, Tw is present exactly when warn_opv is not
0, and then an ordered record gives Tf ≤ Tw and Tfc ≤ Twc. -/
def Obligations.ThresholdsRoundUp : Prop :=
  (∀ (m : Meas) (img : List Byte) (d : Dom) (p : Profile), m.tables.limit = some img →
    EffectiveRecord img d p (effectiveLimits img d p) ∧ limitsOf m d p = some (effectiveLimits img d p)) ∧
  ∀ l : Limits,
    let th := thresholdsOf l
    let isCeil := fun q a b : Nat => a ≤ q * b ∧ q * b < a + b
    isCeil th.tf (l.faultOpv * l.ratedV) 1000 ∧
    (∃ x, isCeil x (th.tf * l.hystPct) 100 ∧ th.tfc = th.tf + x) ∧
    (th.tw = none ↔ l.warnOpv = 0) ∧ (th.twc = none ↔ l.warnOpv = 0) ∧
    ∀ tw twc, th.tw = some tw → th.twc = some twc →
      isCeil tw (l.warnOpv * l.ratedV) 1000 ∧ (∃ x, isCeil x (tw * l.hystPct) 100 ∧ twc = tw + x) ∧
      (l.faultOpv ≤ l.warnOpv → th.tf ≤ tw ∧ th.tfc ≤ twc)

/-! ### Verdicts -/

/-- R73: the level of a VALID result, and the cap: an UNSETTLED result does not, on its own or in a run, move a verdict to FAULT. -/
def Obligations.ResultLevel : Prop :=
  (∀ (th : Thresholds) (riso : Nat) (unsettled : Bool),
    (riso < th.tf → levelOf th riso unsettled = if unsettled then .warn else .fault) ∧
    (th.tf ≤ riso → ∀ tw, th.tw = some tw → riso < tw → levelOf th riso unsettled = .warn) ∧
    (th.tf ≤ riso → (∀ tw, th.tw = some tw → tw ≤ riso) → levelOf th riso unsettled = .ok)) ∧
  (∀ (l : Limits) (riso : Nat) (full : Bool) (r : DomRec), r.verdict ≠ .fault →
    (judge l riso full true r).verdict ≠ .fault)

/-- R75, R76: fault_count FAULT results in a row take a domain from UNKNOWN or OK (with its runs at 0) to FAULT, on the last of them and not
before, whatever their modes. -/
def Obligations.FaultRunReachesFault : Prop :=
  ∀ (l : Limits) (r : DomRec) (rs : List (Nat × Bool)),
    1 ≤ l.faultCount → (r.verdict = .unknown ∨ r.verdict = .ok) → r.worse = 0 → r.better = 0 →
    (∀ x ∈ rs, x.1 < (thresholdsOf l).tf) → rs.length ≤ l.faultCount →
    ((rs.foldl (fun r x => judge l x.1 x.2 false r) r).verdict = .fault ↔ rs.length = l.faultCount)

/-- R78: a domain leaves FAULT only through clear_count consecutive settled FULL results at or above its fault clear level. Over any
sequence of evaluated results (Riso, FULL, UNSETTLED) that first leaves FAULT at its last one, the last clear_count all qualify. -/
def Obligations.FaultLeftOnlyByClearRun : Prop :=
  ∀ (l : Limits) (r : DomRec) (rs : List (Nat × Bool × Bool)),
    let go := fun xs : List (Nat × Bool × Bool) => xs.foldl (fun r x => judge l x.1 x.2.1 x.2.2 r) r
    r.verdict = .fault → r.better = 0 → rs ≠ [] → (go rs).verdict ≠ .fault → (∀ n < rs.length, (go (rs.take n)).verdict = .fault) →
    l.clearCount ≤ rs.length ∧
    ∀ x ∈ rs.drop (rs.length - l.clearCount), x.2.1 = true ∧ x.2.2 = false ∧ (thresholdsOf l).tfc ≤ x.1

/-- R75 to R78: the verdict machine from UNKNOWN, OK and WARN, by the result's level and Riso, and from FAULT. A worse run keeps the least
severe level of its results (R74). From FAULT a settled FULL result at or above Tfc counts the better run, and sets the below-clear mark
when Tw is present and it lies below Twc; at clear_count the verdict becomes WARN with the mark and OK without it; every other result
resets the better run and its mark. Nothing but the verdict, the two runs with their level and the mark changes. -/
def Obligations.VerdictMachine : Prop :=
  ∀ (l : Limits) (riso : Nat) (full unsettled : Bool) (r : DomRec),
    let th := thresholdsOf l
    let level := levelOf th riso unsettled
    let r' := judge l riso full unsettled r
    let clear := th.twc.getD th.tfc
    let least : RunLevel := if level = .warn ∨ (0 < r.worse ∧ r.runLevel = .warn) then .warn else .fault
    let runsReset := r'.worse = 0 ∧ r'.better = 0 ∧ r'.belowClear = false
    r' = { r with verdict := r'.verdict, worse := r'.worse, runLevel := r'.runLevel, better := r'.better, belowClear := r'.belowClear } ∧
    (r.verdict = .unknown →
      (level = .ok → r'.verdict = .ok ∧ runsReset) ∧ (level = .warn → r'.verdict = .warn ∧ runsReset) ∧
      (level = .fault →
        if l.faultCount = 1 then r'.verdict = .fault ∧ runsReset
        else r'.verdict = .warn ∧ r'.worse = 1 ∧ r'.runLevel = .fault ∧ r'.better = 0)) ∧
    (r.verdict = .ok →
      (level = .ok → r'.verdict = .ok ∧ r'.worse = 0) ∧
      (level ≠ .ok →
        if l.faultCount ≤ r.worse + 1 then r'.verdict = (if least = .warn then .warn else .fault) ∧ runsReset
        else r'.verdict = .ok ∧ r'.worse = r.worse + 1 ∧ r'.runLevel = least) ∧
      (r.better = 0 → r'.better = 0)) ∧
    (r.verdict = .warn →
      (level = .fault →
        if l.faultCount ≤ r.worse + 1 then r'.verdict = .fault ∧ runsReset
        else r'.verdict = .warn ∧ r'.worse = r.worse + 1 ∧ r'.better = 0) ∧
      (level ≠ .fault → clear ≤ riso →
        if l.clearCount ≤ r.better + 1 then r'.verdict = .ok ∧ runsReset
        else r'.verdict = .warn ∧ r'.worse = 0 ∧ r'.better = r.better + 1) ∧
      (level ≠ .fault → riso < clear → r'.verdict = .warn ∧ runsReset) ∧
      ((0 < r.worse → r.runLevel = .fault) → 0 < r'.worse → r'.runLevel = .fault)) ∧
    (r.verdict = .fault →
      let counts := full = true ∧ unsettled = false ∧ th.tfc ≤ riso
      let marked := r.belowClear = true ∨ ∃ twc, th.twc = some twc ∧ riso < twc
      (counts → l.clearCount ≤ r.better + 1 →
        runsReset ∧ (marked → r'.verdict = .warn) ∧ (¬ marked → r'.verdict = .ok)) ∧
      (counts → r.better + 1 < l.clearCount →
        r'.verdict = .fault ∧ r'.worse = r.worse ∧ r'.better = r.better + 1 ∧ (r'.belowClear = true ↔ marked)) ∧
      (¬ counts → r'.verdict = .fault ∧ r'.worse = r.worse ∧ r'.better = 0 ∧ r'.belowClear = false))

/-- R72, R84, R85, R86: the evaluation of a VALID result, for a domain `d`, under the island's profile in force `p` and the captured
attrib_age. A member takes the verdict machine's answer and the newest result; a settled FULL result of `d` alone becomes its solo
result; entry to FAULT, and nothing else, writes the fault record, whose attribution list holds every member once, with the solo
data younger than attrib_age, in order. A domain outside the member set keeps its whole record. -/
def Obligations.EvaluationUpdatesRecords : Prop :=
  ∀ (m : Meas) (p : Profile) (attribAge riso : Nat) (r : ResultRecord) (d : Dom) (l : Limits),
    r.outcome = .valid → r.riso = some riso → limitsOf m d p = some l →
    let t := evaluate p attribAge r m
    let x := m.doms.get d
    let y := t.doms.get d
    let j := judge l riso (r.mode == .full) r.quality.unsettled x
    let alone := r.members = single d ∧ r.mode = .full ∧ r.quality.unsettled = false
    let enters := x.verdict ≠ .fault ∧ j.verdict = .fault
    t = { m with doms := t.doms, flags := t.flags, isoAlert := t.isoAlert } ∧
    (inSet r.members d = false → y = x) ∧
    (inSet r.members d = true →
      y = { j with newest := some ⟨r.number, r.time⟩, solo := y.solo, fault := y.fault } ∧
      (j.verdict ≠ x.verdict → flagSet t .verdictChanged = true) ∧
      (alone → y.solo = some ⟨riso, r.time⟩) ∧ (¬ alone → y.solo = x.solo) ∧ (¬ enters → y.fault = x.fault) ∧
      (enters → ∃ entries, y.fault = some ⟨d, r.time, r.members, r.injector, p, r.number, riso, r.rp, r.rn, entries⟩ ∧
        (entries.map (·.dom)).Perm (members r.members) ∧
        (∀ e ∈ entries, ∀ v, e.solo = some v ↔ ∃ o, (t.doms.get e.dom).solo = some o ∧
          (r.time - o.time).toNat < attribAge * 1000 ∧ v = (o.riso, (r.time - o.time).toNat / 1000)) ∧
        entries.Pairwise fun a b =>
          match a.solo, b.solo with
          | some u, some v => u.1 < v.1 ∨ (u.1 = v.1 ∧ a.dom.index < b.dom.index)
          | some _, none => True
          | none, some _ => False
          | none, none => a.dom.index < b.dom.index))

/-- R87, R88, R89, R47: the asymmetry watch on an in-service sample of a domain. That a sample is watched by R87's definition alone, so that
one at commanded level 0 in a ramp step is watched too, against R87's sentence on ramp steps, is the model's choice (log 29). A sample that
is not watched changes nothing; one that is
not asymmetric clears the run and the marker; an asymmetric one counts the run, and where that stands at asym_count with the marker
clear, the marker and ASYM are set and an island in FORMING or CYCLE holds a FAST demand, one in INTERVAL starts a FAST cycle, and any
other takes nothing of it. -/
def Obligations.AsymmetryWatch : Prop :=
  ∀ (m : Meas) (d : Dom) (x : Sample) (row : CycleRow), cycleRow m (profileInForce m d) = some row →
    let b := (m.taps.get d).mailbox
    let dom := m.doms.get d
    let u := watchSample d x m
    let echoed := x.applied = b.level ∧ (x.ref = true ↔ b.path = .ref) ∧ (x.bal = true ↔ b.balance = .connected)
    let isWatched := x.clip = false ∧ x.tflt = false ∧ echoed ∧ (b.level = 0 ∨ b.path = .ref)
    let asym := 1200 ≤ x.vPlus + x.vMinus ∧ min x.vPlus x.vMinus * 100 < row.asymPct * (x.vPlus + x.vMinus)
    let run := min 100 (dom.asymRun + 1)
    let marked : Meas := { m with
      doms := m.doms.set d { dom with asymRun := run, asymActive := true }, flags := m.flags ||| BitVec.twoPow 32 9 }
    (¬ isWatched → u = m) ∧
    (isWatched → ¬ asym → u = { m with doms := m.doms.set d { dom with asymRun := 0, asymActive := false } }) ∧
    (isWatched → asym → (run < row.asymCount ∨ dom.asymActive = true) →
      u = { m with doms := m.doms.set d { dom with asymRun := run } }) ∧
    (isWatched → asym → row.asymCount ≤ run → dom.asymActive = false →
      (∀ i, islandOf m d = some i → (i.state = .forming ∨ ∃ st, i.state = .cycle st) →
        u = putIsland { i with demand := some (if i.demand = some .full then .full else .fast) } marked) ∧
      (∀ i, islandOf m d = some i → i.state = .interval → u = startCycle .fast i.members marked) ∧
      ((∀ i, islandOf m d = some i →
        i.state = .stalled ∨ i.state = .handoff ∨ i.state = .external ∨ i.state = .refhold) → u = marked))

/-- R82: the aging expiry of a domain in OK or WARN whose newest result is older than max_age and which no claim holds: UNKNOWN, both runs
reset (that the level of the reset worse run stays is the model's choice, log 10), VERDICT_CHANGED set, and the newest result, solo result
and fault record kept. No other domain and nothing else changes, but
for the flags and ISO_ALERT that follow the verdicts. -/
def Obligations.AgingExpiryForgets : Prop :=
  ∀ (s : State) (d : Dom) (n : Newest) (l : Limits),
    ((s.meas.doms.get d).verdict = .ok ∨ (s.meas.doms.get d).verdict = .warn) →
    (s.meas.doms.get d).newest = some n → limitsOf s.meas d (profileInForce s.meas d) = some l →
    l.maxAge * 1000 < (s.meas.timebase - n.time).toNat → inSet (coveredSet s.meas) d = false →
    ∃ t fl al, exec (.agingExpiry d) s = .next t ∧
      OutputsMoved { s with meas := { s.meas with
        flags := fl, isoAlert := al,
        doms := s.meas.doms.set d
          { s.meas.doms.get d with verdict := .unknown, worse := 0, better := 0, belowClear := false } } } t ∧
      fl.getLsbD 8 = true ∧ s.meas.flags &&& fl = s.meas.flags

/-! ### Claim and suspend list -/

/-- R94, R95, R97 to R99, R107: XCLAIM. Its checks in order: BADARG, WRONGSTATE while UNCONFIGURED, BUSY. Accepted, the record takes the
domain, the time, the limit of the domain's profile, the tag and no confirmed tap; the grant test is armed at once when no covered
mailbox holds a DOMAIN-path level or a connected balance network; the claim is granted at once when, armed, no covered tap is PRESENT, and
answered OK with its domain and the covered set, HANDOFF_DONE being set; else it is in HANDOFF with its response deferred. While KNOWN the
claimed island is in HANDOFF, or EXTERNAL when granted; one in CYCLE, FORMING or INTERVAL whose injector is at level 0 has it floated, and
one in CYCLE away from it walks down at the captured slew, its cycle suspended with an entry of now and cause CLAIM; no other entry is
made. While not KNOWN no mailbox is written. -/
def Obligations.XclaimTaken : Prop :=
  (∀ (s : State) (q : Frame) (rest : List Frame) (d : Dom) (row : CycleRow), HeadRequest 0x11 1 1 q rest s →
    Dom.ofNumber (nat8 q.payload 0) = some d → fitted s.meas d = true → partRunning s.meas = true →
    s.meas.claim.state = .none → cycleRow s.meas (profileInForce s.meas d) = some row →
    ∃ t, exec .xclaim s = .next t ∧ t.meas.claim.dom = some d ∧ t.meas.claim.acceptance = s.meas.timebase ∧
      t.meas.claim.limit = row.handoffLimit ∧ t.meas.claim.tag = q.tag ∧
      (t.meas.claim.state = .handoff ∧ t.meas.pendXclaim = some ⟨q.kind, q.tag⟩ ∧ outgoing t = outgoing s ∨
       t.meas.claim.state = .granted ∧ t.meas.pendXclaim = none ∧ flagSet t.meas .handoffDone = true ∧
         ∃ f, outgoing t = outgoing s ++ [f] ∧ f.kind = q.kind ∧ f.tag = q.tag ∧ f.payload.head? = some 0 ∧
           f.payload.drop 2 = [BitVec.ofNat 8 d.number, coveredSet t.meas]) ∧
      t.meas.claim.confirmed = 0 ∧
      (t.meas.claim.armed = true ↔ ∀ e, inSet (coveredSet t.meas) e = true →
        ((t.meas.taps.get e).mailbox.level = 0 ∨ (t.meas.taps.get e).mailbox.path = .ref) ∧
        (t.meas.taps.get e).mailbox.balance = .floating) ∧
      (t.meas.claim.state = .granted ↔ t.meas.claim.armed = true ∧
        ∀ e, inSet (coveredSet t.meas) e = true → isPresent s.meas e = false) ∧
      (∀ i st c, s.meas.topo.state = .known → islandOf s.meas d = some i → i.state = .cycle st → i.captured = some c →
        t.meas.suspended = suspendedList s.meas.suspended i c st s.meas.timebase .claim ∧
        ((s.meas.taps.get i.injector).mailbox.level ≠ 0 →
          (t.meas.taps.get i.injector).mailbox = (s.meas.taps.get i.injector).mailbox ∧
          (t.meas.taps.get i.injector).ramp = some ⟨0, c.row.slew * 20, .domain, .connected, .claim⟩)) ∧
      ((∀ i st c, s.meas.topo.state = .known → islandOf s.meas d = some i → i.state = .cycle st → i.captured = some c → False) →
        t.meas.suspended = s.meas.suspended) ∧
      (∀ i, s.meas.topo.state = .known → islandOf s.meas d = some i →
        (i.state = .forming ∨ i.state = .interval ∨ ∃ st, i.state = .cycle st) →
        (s.meas.taps.get i.injector).mailbox.level = 0 →
        (t.meas.taps.get i.injector).mailbox = ⟨0, .domain, .floating⟩ ∧ (t.meas.taps.get i.injector).ramp = none) ∧
      (∀ i, s.meas.topo.state = .known → islandOf s.meas d = some i → i.state ≠ .handoff → i.state ≠ .external →
        ∃ j, islandOf t.meas d = some j ∧ j.members = i.members ∧ j.demand = i.demand ∧ j.slot = i.slot ∧
        j.state = if t.meas.claim.state = .handoff then .handoff else .external) ∧
      (s.meas.topo.state ≠ .known → ∀ e, (t.meas.taps.get e).mailbox = (s.meas.taps.get e).mailbox) ∧
      t.meas.doms = s.meas.doms ∧ t.meas.topo = s.meas.topo ∧ t.meas.ref = s.meas.ref ∧
      t.loader = s.loader ∧ t.pending = s.pending) ∧
  (∀ (s : State) (q : Frame) (rest : List Frame), HeadRequest 0x11 1 1 q rest s →
    ∃ t, exec .xclaim s = .next t ∧
      ((∀ d, Dom.ofNumber (nat8 q.payload 0) = some d → fitted s.meas d = false) →
        OutputsMoved (answered q .badArg [] (taken rest s)) t) ∧
      ∀ d, Dom.ofNumber (nat8 q.payload 0) = some d → fitted s.meas d = true →
        (partRunning s.meas = false → OutputsMoved (answered q .wrongState [] (taken rest s)) t) ∧
        (partRunning s.meas = true → s.meas.claim.state ≠ .none →
          OutputsMoved (answered q .busy [] (taken rest s)) t))

/-- R104, R112: XREL by the claim state. NONE: only its OK. HANDOFF: the XCLAIM's CANCELLED with the claimed domain, then its own OK.
GRANTED: its own OK. The claim becomes NONE with no confirmed tap, and a claimed island whose injector is under reference check goes to
REFHOLD, any other (with a settle time) to FORMING with its injector at 0, DOMAIN, connected. R83, R82: every domain that was held is tested
for age at once; the one in OK or WARN whose newest result is older than max_age becomes UNKNOWN with both runs reset (run level kept: log
10) and sets VERDICT_CHANGED, and every other record stays. That the CANCELLED's summary byte is formed after the release is the model's
choice (log 15). -/
def Obligations.XrelReleases : Prop :=
  ∀ (s : State) (q : Frame) (rest : List Frame), HeadRequest 0x12 0 (if s.meas.claim.state = .handoff then 2 else 1) q rest s →
    ∃ t, exec .xrel s = .next t ∧
      (s.meas.claim.state = .none → OutputsMoved (answered q .ok [] (taken rest s)) t) ∧
      (∀ p, s.meas.claim.state = .handoff → s.meas.pendXclaim = some p → t.meas.pendXclaim = none ∧
        outgoing t = outgoing s ++
          [responseFrame 0 p.kind p.tag .cancelled [BitVec.ofNat 8 (s.meas.claim.dom.elim 0 (·.number))] t.meas,
           responseFrame 0 q.kind q.tag .ok [] t.meas]) ∧
      (s.meas.claim.state = .granted → outgoing t = outgoing s ++ [responseFrame 0 q.kind q.tag .ok [] t.meas]) ∧
      (s.meas.claim.state ≠ .none → t.meas.claim.state = .none ∧ t.meas.claim.confirmed = 0 ∧
        ∀ i, s.meas.topo.state = .known → claimedIsland s.meas = some i → islandAt s.meas i.members = some i →
          (underRef s.meas i.injector = true → islandAt t.meas i.members = some { i with state := .refhold }) ∧
          (underRef s.meas i.injector = false → settleTime s.meas ≠ 0 →
            (t.meas.taps.get i.injector).mailbox = ⟨0, .domain, .connected⟩ ∧
            islandAt t.meas i.members = some { i with
              state := .forming, phaseTimer := none, plateauTimer := none, intervalTimer := none,
              settleTimer := .running ⟨s.meas.timebase, settleTime s.meas⟩ })) ∧
      (s.meas.claim.state ≠ .none → ∀ d,
        let x := s.meas.doms.get d
        let lapses := inSet (coveredSet s.meas) d = true ∧ (x.verdict = .ok ∨ x.verdict = .warn) ∧ ∃ n l, x.newest = some n ∧
          limitsOf s.meas d (profileInForce s.meas d) = some l ∧ l.maxAge * 1000 < (s.meas.timebase - n.time).toNat
        (lapses → t.meas.doms.get d = { x with verdict := .unknown, worse := 0, better := 0, belowClear := false } ∧
          flagSet t.meas .verdictChanged = true) ∧
        (¬ lapses → t.meas.doms.get d = x)) ∧
      t.meas.topo = s.meas.topo ∧ t.meas.ref = s.meas.ref ∧ t.loader = s.loader ∧ t.pending = s.pending

/-- R100, R116, R98: the handoff expiry. The claim is GRANTED, HANDOFF_DONE is set, the XCLAIM is answered TIMEOUT with the claimed domain
and the covered taps not confirmed, and the claimed island is EXTERNAL. A covered tap that holds a DOMAIN-path level or a connected balance
network is dropped to 0, DOMAIN, floating, unless it is under reference check; a covered one in PREEMPT of its check is switched to 0, REF,
floating, and its check enters QUIET_SETTLE; no other mailbox, ramp or check changes. The taps so written are confirmed no longer, and the
others are as they were. -/
def Obligations.HandoffTimeoutForces : Prop :=
  ∀ (s : State) (p : PendingRec), s.meas.claim.state = .handoff → s.meas.pendXclaim = some p →
    s.meas.claim.limit ≤ (s.meas.timebase - s.meas.claim.acceptance).toNat →
    ∃ t, exec .handoffTimeout s = .next t ∧ t.meas.claim.state = .granted ∧ t.meas.pendXclaim = none ∧
      flagSet t.meas .handoffDone = true ∧
      outgoing t = outgoing s ++ [responseFrame 0 p.kind p.tag .timeout
        [BitVec.ofNat 8 (s.meas.claim.dom.elim 0 (·.number)), coveredSet s.meas &&& ~~~ t.meas.claim.confirmed] t.meas] ∧
      (∀ i, claimedIsland s.meas = some i →
        islandAt t.meas i.members = (islandAt s.meas i.members).map fun j => { j with state := .external }) ∧
      (∀ d,
        let x := s.meas.taps.get d
        let y := t.meas.taps.get d
        let dropped := inSet (coveredSet s.meas) d = true ∧ underRef s.meas d = false ∧
          ((x.mailbox.level ≠ 0 ∧ x.mailbox.path = .domain) ∨ x.mailbox.balance = .connected)
        let switched := inSet (coveredSet s.meas) d = true ∧ ∃ c, s.meas.ref = some c ∧ c.tap = d ∧ c.step = .preempt
        (dropped → y.mailbox = ⟨0, .domain, .floating⟩ ∧ y.ramp = none) ∧
        (switched → y.mailbox = ⟨0, .ref, .floating⟩ ∧ y.ramp = none) ∧
        (¬ dropped → ¬ switched → y.mailbox = x.mailbox ∧ y.ramp = x.ramp) ∧
        (inSet t.meas.claim.confirmed d = true ↔ inSet s.meas.claim.confirmed d = true ∧ ¬ dropped ∧ ¬ switched)) ∧
      (∀ c, s.meas.ref = some c → inSet (coveredSet s.meas) c.tap = true → c.step = .preempt →
        t.meas.ref = some { c with
          step := .cycle .quietSettle, acc := clearForSettle c.acc, plateauTimer := none,
          phaseTimer := some ⟨s.meas.timebase, c.row.phaseTimeout⟩ }) ∧
      ((∀ c, s.meas.ref = some c → inSet (coveredSet s.meas) c.tap = true → c.step ≠ .preempt) → t.meas.ref = s.meas.ref) ∧
      t.meas.doms = s.meas.doms ∧ t.meas.topo = s.meas.topo ∧ t.meas.suspended = s.meas.suspended ∧
      t.loader = s.loader ∧ t.pending = s.pending

/-- R111: a suspend entry older than its captured resume_age is discarded, and nothing else changes. -/
def Obligations.SuspendEntryExpires : Prop :=
  ∀ (s : State) (e : SuspendEntry),
    s.meas.suspended.find? (fun x => x.members == e.members) = some e →
    e.captured.row.resumeAge * 1000 < (s.meas.timebase - e.time).toNat →
    ∃ t, exec (.suspendEntryExpiry e.members) s = .next t ∧
      OutputsMoved { s with meas := { s.meas with
        suspended := s.meas.suspended.filter fun x => x.members != e.members } } t

/-! ### Reference check -/

/-- R114, R115, R116, R107: RCHK. Its checks in order: BADARG, WRONGSTATE while UNCONFIGURED, BUSY, WRONGSTATE for a tap that is not PRESENT
or is covered. Accepted, the record is ACTIVE with the tap, the tag, the row of the tap's profile, Rc and Rref, and the response is
deferred. A tap that injects no island is switched to 0, REF, floating at once and enters QUIET_SETTLE; so is the injector, at level 0, of
an island in FORMING, INTERVAL or CYCLE, whose PREEMPT ends as it begins; that of an island in CYCLE away from level 0 walks down at the
captured slew; and the island is in REFHOLD with its demand and slot kept and no cycle in progress. A cycle is suspended with an entry of
now and cause REFCHK; no other entry is made. -/
def Obligations.RchkTaken : Prop :=
  (∀ (s : State) (q : Frame) (rest : List Frame) (d : Dom) (row : CycleRow), HeadRequest 0x14 1 1 q rest s →
    Dom.ofNumber (nat8 q.payload 0) = some d → fitted s.meas d = true → partRunning s.meas = true →
    s.meas.ref = none → isPresent s.meas d = true → inSet (coveredSet s.meas) d = false →
    cycleRow s.meas (profileInForce s.meas d) = some row →
    ∃ t r, exec .rchk s = .next t ∧ t.meas.ref = some r ∧ r.tap = d ∧ r.tag = q.tag ∧ r.row = row ∧
      r.rc = domConst domRc s.meas d ∧ r.rref = domConst domRref s.meas d ∧ r.outcome = none ∧ r.rraw = none ∧
      t.meas.pendRchk = some ⟨q.kind, q.tag⟩ ∧ outgoing t = outgoing s ∧ t.loader = s.loader ∧ t.pending = s.pending ∧
      t.meas.doms = s.meas.doms ∧ t.meas.flags = s.meas.flags ∧
      (∀ i st c, injectedBy s.meas d = some i → i.state = .cycle st → i.captured = some c →
        t.meas.suspended = suspendedList s.meas.suspended i c st s.meas.timebase .refchk) ∧
      ((∀ i st c, injectedBy s.meas d = some i → i.state = .cycle st → i.captured = some c → False) →
        t.meas.suspended = s.meas.suspended) ∧
      (injectedBy s.meas d = none → r.step = .cycle .quietSettle ∧ t.meas.islands = s.meas.islands ∧
        (t.meas.taps.get d).mailbox = ⟨0, .ref, .floating⟩ ∧
        r.phaseTimer = some ⟨s.meas.timebase, row.phaseTimeout⟩) ∧
      (∀ i, injectedBy s.meas d = some i → islandAt s.meas i.members = some i →
        (i.state = .forming ∨ i.state = .interval ∨ ∃ st, i.state = .cycle st) → (s.meas.taps.get d).mailbox.level = 0 →
        r.step = .cycle .quietSettle ∧ (t.meas.taps.get d).mailbox = ⟨0, .ref, .floating⟩ ∧ (t.meas.taps.get d).ramp = none ∧
        r.phaseTimer = some ⟨s.meas.timebase, row.phaseTimeout⟩ ∧
        ∃ j, islandAt t.meas i.members = some j ∧ j.state = .refhold ∧ j.demand = i.demand ∧ j.slot = i.slot ∧
          ((∃ st, i.state = .cycle st) → j.captured = none)) ∧
      ∀ i st c, injectedBy s.meas d = some i → islandAt s.meas i.members = some i → i.state = .cycle st →
        i.captured = some c → (s.meas.taps.get d).mailbox.level ≠ 0 →
        r.step = .preempt ∧ (t.meas.taps.get d).mailbox = (s.meas.taps.get d).mailbox ∧
        (t.meas.taps.get d).ramp = some ⟨0, c.row.slew * 20, .domain, .connected, .refCheck⟩ ∧
        ∃ j, islandAt t.meas i.members = some j ∧ j.state = .refhold ∧ j.demand = i.demand ∧ j.slot = i.slot ∧
          j.captured = none) ∧
  (∀ (s : State) (q : Frame) (rest : List Frame), HeadRequest 0x14 1 1 q rest s →
    ∃ t, exec .rchk s = .next t ∧
      ((∀ d, Dom.ofNumber (nat8 q.payload 0) = some d → fitted s.meas d = false) →
        OutputsMoved (answered q .badArg [] (taken rest s)) t) ∧
      ∀ d, Dom.ofNumber (nat8 q.payload 0) = some d → fitted s.meas d = true →
        (partRunning s.meas = false → OutputsMoved (answered q .wrongState [] (taken rest s)) t) ∧
        (partRunning s.meas = true → s.meas.ref.isSome = true → OutputsMoved (answered q .busy [] (taken rest s)) t) ∧
        (partRunning s.meas = true → s.meas.ref = none → (isPresent s.meas d = false ∨ inSet (coveredSet s.meas) d = true) →
          OutputsMoved (answered q .wrongState [] (taken rest s)) t))

/-- R66, R118: the judgement of the reference. R117, R33 to R38, R40: what a sample of the tap under check does, whatever its gap and
class (the accumulators kept, or the phase's PLATEAU entered when it settled), that it does nothing in another step and that no other
tap's sample does anything; and what a valid one does when it completes a plateau: QUIET's means are not kept, POS keeps Vp, rounded half
upward, and each begins its ramp on the REF path at the captured slew; NEG keeps Vn, and the outcome, Rraw and the time now are recorded,
and RAMP_HOME begins. -/
def Obligations.ReferenceJudgement : Prop :=
  (∀ (m : Meas) (t : Dom) (r : RefCheck) (delta : Nat) (x : Sample) (st : Stage) (ph : Phase),
    m.ref = some r → r.tap = t →
    ((st = .settle ∧ r.step = .cycle (settleStep ph)) ∨ (st = .plateau ∧ r.step = .cycle (plateauStep ph))) →
    let k := takeSample st ph r.row r.row.nFull r.row.settleBlocks (m.taps.get t).mailbox delta x r.acc
    (k.settled = false → k.full = false → refSample t delta x m = { m with ref := some { r with acc := k.acc } }) ∧
    (k.settled = true → refSample t delta x m = { m with ref := some { r with
      step := .cycle (plateauStep ph), acc := clearForPlateau k.acc, phaseTimer := none,
      plateauTimer := some ⟨m.timebase, r.row.phaseTimeout⟩ } })) ∧
  (∀ (m : Meas) (t : Dom) (delta : Nat) (x : Sample),
    (∀ r ph, m.ref = some r → r.tap = t → r.step ≠ .cycle (settleStep ph) ∧ r.step ≠ .cycle (plateauStep ph)) →
    refSample t delta x m = m) ∧
  (∀ (m : Meas) (t : Dom) (r : RefCheck) (delta : Nat) (x : Sample) (ph : Phase),
    m.ref = some r → r.tap = t → r.step = .cycle (plateauStep ph) →
    echoes (m.taps.get t).mailbox x = true → x.clip = false → x.tflt = false →
    let n := r.row.nFull
    let a1 := if r.row.maxGap + 1 < delta then Accum.empty else r.acc
    0 < n → a1.plateauCount + 1 = n →
    let acc := (takeSample .plateau ph r.row n 0 (m.taps.get t).mailbox delta x r.acc).acc
    let target : Int := if ph = .quiet then r.row.injMv else if ph = .pos then -(r.row.injMv : Int) else 0
    let ramping := fun (st : CycleStep) (c : RefCheck) => { m with
      ref := some { c with step := .cycle st, acc := acc, phaseTimer := none, plateauTimer := none },
      taps := m.taps.set t { m.taps.get t with
        ramp := some ⟨target, r.row.slew * 20, .ref, .floating, .refCheck⟩, refreshStart := some m.timebase } }
    (m.taps.get t).mailbox.level ≠ target →
    (ph = .quiet → refSample t delta x m = ramping .rampPos r) ∧
    ∃ q : Int, n * q ≤ a1.sumVs + x.vs + (n / 2 : Nat) ∧ a1.sumVs + x.vs + (n / 2 : Nat) < n * (q + 1) ∧
      (ph = .pos → refSample t delta x m = ramping .rampNeg { r with vp := some q }) ∧
      ∀ p, ph = .neg → r.vp = some p → refSample t delta x m = ramping .rampHome { r with
        vn := some q, outcome := some (judgeRef r.row r.rc r.rref (p - q)).1,
        rraw := (judgeRef r.row r.rc r.rref (p - q)).2, decided := some m.timebase }) ∧
  ∀ (row : CycleRow) (rc rref : Nat) (d2 : Int),
    (d2 < -(row.invMargin : Int) → judgeRef row rc rref d2 = (.fail, none)) ∧
    (-(row.invMargin : Int) ≤ d2 →
      (judgeRef row rc rref d2).2 = some (rrawOf row.injMv rc d2) ∧
      ((judgeRef row rc rref d2).1 = .pass ↔
        ((rrawOf row.injMv rc d2 : Int) - rref).natAbs * 100 ≤ rref * row.refTol) ∧
      ((judgeRef row rc rref d2).1 = .pass ∨ (judgeRef row rc rref d2).1 = .fail))

/-! ### The chain -/

/-- R130, R26, R90: the loss expiry of a PRESENT tap. LOST with join run 0, no last sequence, no loss timer and its latest sample kept;
TAP_LOST set; its asymmetry run and marker cleared; an island that it injects in FORMING, CYCLE or INTERVAL stalls, with its slot kept
and its injector at rest; no other tap's presence changes, and no result is published. R99: under a claim in HANDOFF that is armed, the
loss of a covered tap grants the claim when no other covered PRESENT tap is unconfirmed, with HANDOFF_DONE, EXTERNAL and the XCLAIM's OK,
and else it waits on; a lost tap that was confirmed stays so. R120, R119: the loss of the tap under check
ends the check NOT_COMPLETED at once: the tap at rest, REF_DONE set, REF_FAIL as it was, the RCHK answered with no Rraw and the time now,
and the record IDLE; the same grant test follows (the order is the model's choice, log 14). -/
def Obligations.LossTimerLoses : Prop :=
  (∀ (s : State) (d : Dom) (p : Presence) (st : Time),
    (s.meas.taps.get d).presence = some p → p.state = .present → p.lossStart = some st →
    100 ≤ (s.meas.timebase - st).toNat → fitted s.meas d = true →
    ∃ t, exec (.lossTimerExpiry d) s = .next t ∧
      (t.meas.taps.get d).presence = some { p with state := .lost, joinRun := 0, lastSeq := none, lossStart := none } ∧
      (∀ e, e ≠ d → (t.meas.taps.get e).presence = (s.meas.taps.get e).presence) ∧
      flagSet t.meas .tapLost = true ∧ t.meas.doms = s.meas.doms.set d
        { s.meas.doms.get d with asymRun := 0, asymActive := false } ∧
      t.meas.resultNumber = s.meas.resultNumber ∧ t.meas.topo = s.meas.topo ∧ t.meas.tables = s.meas.tables ∧
      t.loader = s.loader ∧ t.pending = s.pending ∧
      ∀ i, injectedBy s.meas d = some i → islandAt s.meas i.members = some i →
        (i.state = .forming ∨ i.state = .interval ∨ ∃ x, i.state = .cycle x) → underRef s.meas d = false →
        (t.meas.taps.get d).mailbox = ⟨0, .domain, .floating⟩ ∧
        ∃ j, islandAt t.meas i.members = some j ∧ j.slot = i.slot ∧ j.demand = none ∧ j.captured = none ∧
          j.means = .none ∧ (s.meas.claim.state = .none → j.state = .stalled)) ∧
  (∀ (s : State) (d : Dom) (p : Presence) (st : Time),
    (s.meas.taps.get d).presence = some p → p.state = .present → p.lossStart = some st →
    100 ≤ (s.meas.timebase - st).toNat → s.meas.claim.state = .handoff → s.meas.claim.armed = true →
    inSet (coveredSet s.meas) d = true → (∀ i, injectedBy s.meas d = some i → i.state = .handoff) → underRef s.meas d = false →
    let waits := fun e => inSet (coveredSet s.meas) e = true ∧ isPresent s.meas e = true ∧ e ≠ d ∧
      inSet s.meas.claim.confirmed e = false
    ∃ t, exec (.lossTimerExpiry d) s = .next t ∧ t.meas.claim.confirmed = s.meas.claim.confirmed ∧
      (∀ e, (t.meas.taps.get e).mailbox = (s.meas.taps.get e).mailbox ∧ (t.meas.taps.get e).ramp = (s.meas.taps.get e).ramp) ∧
      t.meas.suspended = s.meas.suspended ∧
      ((∃ e, waits e) → t.meas.claim.state = .handoff ∧ t.meas.pendXclaim = s.meas.pendXclaim ∧
        t.meas.islands = s.meas.islands ∧ outgoing t = outgoing s) ∧
      ((∀ e, ¬ waits e) → t.meas.claim.state = .granted ∧ t.meas.pendXclaim = none ∧ flagSet t.meas .handoffDone = true ∧
        (∀ i, claimedIsland s.meas = some i →
          islandAt t.meas i.members = (islandAt s.meas i.members).map fun j => { j with state := .external }) ∧
        ∀ pr, s.meas.pendXclaim = some pr → ∃ f, outgoing t = outgoing s ++ [f] ∧ GrantAnswer pr t.meas f)) ∧
  (∀ (s : State) (p : Presence) (st : Time) (r : RefCheck) (pr : PendingRec),
    s.meas.ref = some r → s.meas.pendRchk = some pr → (s.meas.taps.get r.tap).presence = some p → p.state = .present →
    p.lossStart = some st → 100 ≤ (s.meas.timebase - st).toNat →
    ∃ t, exec (.lossTimerExpiry r.tap) s = .next t ∧ t.meas.ref = none ∧ t.meas.pendRchk = none ∧
      (t.meas.taps.get r.tap).mailbox = ⟨0, .domain, .floating⟩ ∧
      flagSet t.meas .refDone = true ∧ flagSet t.meas .refFail = flagSet s.meas .refFail ∧
      (s.meas.claim.state = .handoff → s.meas.claim.armed = true →
        (∀ i, injectedBy s.meas r.tap = some i → islandAt s.meas i.members = some i) →
        (t.meas.claim.state = .granted ↔ ∀ e, inSet (coveredSet s.meas) e = true → isPresent s.meas e = true → e ≠ r.tap →
          inSet s.meas.claim.confirmed e = true)) ∧
      ∃ f more, outgoing t = outgoing s ++ f :: more ∧ f.kind = pr.kind ∧ f.tag = pr.tag ∧
        f.payload.drop 2 = be8 r.tap.number ++ [2, 0, 0, 0] ++ be16 r.rref ++ be8 r.row.refTol ++ be32 s.meas.timebase.toNat ∧
        (t.meas.claim.state = s.meas.claim.state → more = []) ∧
        ∀ x, s.meas.pendXclaim = some x → t.meas.claim.state ≠ s.meas.claim.state → ∃ g, more = [g] ∧ GrantAnswer x t.meas g)

/-- R129, R132: how a sample frame's sequence number is judged, and the presence record it leaves; and the loss timer of a tap that is
joining: its join run becomes 0 and its last sequence absent, it stays in its state, and nothing else changes. R129, R27: the third
frame of a join, received whole, makes its tap PRESENT with its latest sample, and (with no claim, and the tap not under check) a STALLED
island that it injects enters FORMING with a settle timer started now, its slot kept and its injector at 0, DOMAIN, connected. -/
def Obligations.SequenceAndJoin : Prop :=
  (∀ (seq : Byte) (now : Time) (p : Presence),
    let out := judgeSeq seq now p
    let taken := { p with lastSeq := some seq, lossStart := some now }
    (∀ l, p.state = .present → p.lastSeq = some l →
      (seq = l → out = (.duplicate, p)) ∧
      (seq ≠ l → out = (.inService (seq - l).toNat false, taken))) ∧
    (p.state ≠ .present → p.joinRun = 0 → out = (.joining, { taken with joinRun := 1 })) ∧
    (∀ l, p.state ≠ .present → 0 < p.joinRun → p.lastSeq = some l →
      (seq = l → out = (.duplicate, p)) ∧
      (seq = l + 1 → p.joinRun = 1 → out = (.joining, { taken with joinRun := 2 })) ∧
      (seq = l + 1 → p.joinRun = 2 → out = (.inService 1 true, { taken with state := .present, joinRun := 0 })) ∧
      (seq ≠ l → seq ≠ l + 1 → out = (.joining, { taken with joinRun := 1 })))) ∧
  (∀ (s : State) (d : Dom) (p : Presence) (st : Time),
    (s.meas.taps.get d).presence = some p → p.state ≠ .present → 0 < p.joinRun → p.lossStart = some st →
    100 ≤ (s.meas.timebase - st).toNat →
    ∃ t, exec (.joinRunTimeout d) s = .next t ∧
      OutputsMoved { s with meas := { s.meas with taps := s.meas.taps.set d { s.meas.taps.get d with
        presence := some { p with joinRun := 0, lastSeq := none, lossStart := none } } } } t) ∧
  (∀ (s : State) (f : RxFrame) (d : Dom) (p : Presence) (l : Byte),
    s.link.rxD.state = .ready → s.link.rxD.chars = [] → rxCrcOk f = true → f.payload.length = 9 → f.kind = 0x01 →
    f.address = BitVec.ofNat 8 d.number → fitted s.meas d = true → (s.meas.taps.get d).presence = some p →
    p.state ≠ .present → p.joinRun = 2 → p.lastSeq = some l → f.tag = l + 1 → s.meas.claim.state = .none →
    underRef s.meas d = false →
    ∃ t, exec (.sampleFrame f) s = .next t ∧
      (t.meas.taps.get d).presence =
        some ⟨.present, some f.tag, 0, some s.meas.timebase, some (sampleOf f.payload)⟩ ∧
      (∀ e, e ≠ d → (t.meas.taps.get e).presence = (s.meas.taps.get e).presence) ∧
      ∀ i, injectedBy s.meas d = some i → islandAt s.meas i.members = some i → i.state = .stalled → settleTime s.meas ≠ 0 →
        (t.meas.taps.get d).mailbox = ⟨0, .domain, .connected⟩ ∧ (t.meas.taps.get d).ramp = none ∧
        ∃ j, islandAt t.meas i.members = some j ∧ j = { i with
          state := .forming, phaseTimer := none, plateauTimer := none, intervalTimer := none,
          settleTimer := .running ⟨s.meas.timebase, settleTime s.meas⟩, demand := j.demand })

/-- R127 to R130, R132, R152, R153: a sample frame received whole on Port D from READY. An unfitted tap's is discarded; a duplicate of a
PRESENT tap changes nothing; its other frames renew its last sequence, loss timer and latest sample, and a gap sets SAMPLE_GAP; the first
frame of a join starts the run. R33, R87, R117, R27: a frame in service, one that completes a join among them, is taken by the cycle
engine, the reference check unit, the claim unit (without a claim it does nothing) and the asymmetry watch, in this order (log 13), and
nothing else changes but for what is sent. Every frame but a duplicate, of a join or in service, that completes no deferred response goes
to the traffic unit as it came: not forwarded at decimation 0, counted below k, and on the k-th admitted below the high mark, its tag
(R181) that of the state after the frame (log 13), or dropped and counted with FWD_DROP. R40, R42, R53, R64, R65, R72: a frame that
completes a NEG_PLATEAU (no claim, the tap not under check) retains Vn, publishes the result with the next number in its island's slot,
sets CYCLE_FAIL on INVERTED, has it evaluated under the island's profile in force, and begins RAMP_HOME. R98, R99: with the test armed and
its island in HANDOFF, a covered tap's frame confirms it exactly when it echoes floating at level 0 or on the REF path; that of the last
PRESENT one not confirmed grants the claim: EXTERNAL, HANDOFF_DONE, and the XCLAIM's OK with the taps not confirmed, which joins the queue
before the frame (the order is log 13). R181: an annotated tap's forwarded frame ends with the tag. -/
def Obligations.SampleFrameIntake : Prop :=
  (∀ (s : State) (f : RxFrame) (d : Dom),
    s.link.rxD.state = .ready → s.link.rxD.chars = [] → rxCrcOk f = true → f.payload.length = 9 → f.kind = 0x01 →
    f.address = BitVec.ofNat 8 d.number →
    let s1 : State := { s with link := { s.link with rxD := { s.link.rxD with idle := false } } }
    ∃ t, exec (.sampleFrame f) s = .next t ∧
      (fitted s.meas d = false → OutputsMoved s1 t) ∧
      (∀ p, fitted s.meas d = true → (s.meas.taps.get d).presence = some p → p.state = .present →
        p.lastSeq = some f.tag → OutputsMoved s1 t) ∧
      (∀ p l, fitted s.meas d = true → (s.meas.taps.get d).presence = some p → p.state = .present →
        p.lastSeq = some l → f.tag ≠ l →
        (t.meas.taps.get d).presence = some { p with
          lastSeq := some f.tag, lossStart := some s.meas.timebase, latest := some (sampleOf f.payload) } ∧
        (∀ e, e ≠ d → (t.meas.taps.get e).presence = (s.meas.taps.get e).presence) ∧
        (f.tag ≠ l + 1 → flagSet t.meas .sampleGap = true) ∧
        t.meas.tables = s.meas.tables ∧ t.meas.topo = s.meas.topo ∧ t.loader = s.loader ∧ t.pending = s.pending) ∧
      (∀ p delta joined p', fitted s.meas d = true → (s.meas.taps.get d).presence = some p →
        judgeSeq f.tag s.meas.timebase p = (.inService delta joined, p') →
        let x := sampleOf f.payload
        let m1 := putPresence d { p' with latest := some x } s.meas
        let m2 := if joined = true then recoverOnPresent d m1 else if 2 ≤ delta then raise .sampleGap m1 else m1
        let m3 := watchSample d x (claimCheck (confirmSample d x (refSample d delta x (cycleSample d delta x m2))))
        t.meas = { m3 with taps := t.meas.taps, flags := t.meas.flags, heldResponses := t.meas.heldResponses } ∧
        (∀ g, g ≠ .fwdDrop → flagSet t.meas g = flagSet m3 g) ∧
        ∀ e, (t.meas.taps.get e).mailbox = (m3.taps.get e).mailbox ∧ (t.meas.taps.get e).ramp = (m3.taps.get e).ramp ∧
          (t.meas.taps.get e).presence = (m3.taps.get e).presence ∧
          (t.meas.taps.get e).refreshStart = (m3.taps.get e).refreshStart) ∧
      (∀ p, fitted s.meas d = true → (s.meas.taps.get d).presence = some p → p.state ≠ .present → p.joinRun = 0 →
        let m1 := putPresence d { p with lastSeq := some f.tag, lossStart := some s.meas.timebase, joinRun := 1 } s.meas
        let k := fwdDecimation (forwardImage s.meas) d
        let n := s.link.decim.get d + 1
        (k = 0 → OutputsMoved { s1 with meas := m1 } t) ∧
        (n < k → OutputsMoved { s1 with link := { s1.link with decim := s1.link.decim.set d n }, meas := m1 } t) ∧
        (0 < k → k ≤ n → s.link.upQueue.length < fwdHighMark (forwardImage s.meas) →
          OutputsMoved { s1 with
            link := { s1.link with
              decim := s1.link.decim.set d 0,
              upQueue := s1.link.upQueue ++ [forwardedFrame d ⟨0xC9, f.address, f.kind, f.tag, f.payload⟩ m1] },
            meas := m1 } t) ∧
        (0 < k → k ≤ n → fwdHighMark (forwardImage s.meas) ≤ s.link.upQueue.length →
          OutputsMoved { s1 with
            link := { s1.link with decim := s1.link.decim.set d 0, drops := min 65535 (s.link.drops + 1) },
            meas := raise .fwdDrop m1 } t)) ∧
      (∀ p, fitted s.meas d = true → (s.meas.taps.get d).presence = some p →
        ¬ (p.lastSeq = some f.tag ∧ (p.state = .present ∨ p.joinRun ≠ 0)) → s.meas.heldResponses = [] →
        t.meas.pendXclaim = s.meas.pendXclaim → t.meas.pendRchk = s.meas.pendRchk →
        let k := fwdDecimation (forwardImage s.meas) d
        let n := s.link.decim.get d + 1
        let f1 : Frame := ⟨0xC9, f.address, f.kind, f.tag, f.payload⟩
        (k = 0 → t.link.decim = s.link.decim ∧ t.link.drops = s.link.drops ∧ outgoing t = outgoing s) ∧
        (n < k → t.link.decim = s.link.decim.set d n ∧ t.link.drops = s.link.drops ∧ outgoing t = outgoing s) ∧
        (0 < k → k ≤ n → s.link.upQueue.length < fwdHighMark (forwardImage s.meas) →
          t.link.decim = s.link.decim.set d 0 ∧ t.link.drops = s.link.drops ∧ ∃ g, outgoing t = outgoing s ++ [g] ∧
            (fwdAnnotate (forwardImage s.meas) d ≠ 1 → g = f1) ∧
            (fwdAnnotate (forwardImage s.meas) d = 1 →
              ∃ a b, g = { f1 with payload := f.payload ++ [a, b] } ∧ TagLayout t.meas d a b)) ∧
        (0 < k → k ≤ n → fwdHighMark (forwardImage s.meas) ≤ s.link.upQueue.length →
          t.link.decim = s.link.decim.set d 0 ∧ t.link.drops = min 65535 (s.link.drops + 1) ∧ outgoing t = outgoing s ∧
          flagSet t.meas .fwdDrop = true)) ∧
      (∀ p l i c vp, fitted s.meas d = true → (s.meas.taps.get d).presence = some p → p.state = .present →
        p.lastSeq = some l → f.tag ≠ l → injectedBy s.meas d = some i → islandAt s.meas i.members = some i →
        i.state = .cycle .negPlateau → i.captured = some c → i.means.vp = some vp → s.meas.claim.state = .none →
        underRef s.meas d = false → (s.meas.taps.get d).mailbox.level ≠ 0 → (s.meas.taps.get d).mailbox.path = .domain →
        let x := sampleOf f.payload
        let n := if i.mode = .fast then 16 else c.row.nFull
        let delta := (f.tag - l).toNat
        let a1 := if c.row.maxGap + 1 < delta then Accum.empty else i.acc
        let quality := { i.quality with gapped := i.quality.gapped || decide (2 ≤ delta ∧ delta ≤ c.row.maxGap + 1) }
        echoes (s.meas.taps.get d).mailbox x = true → x.clip = false → x.tflt = false → 0 < n → a1.plateauCount + 1 = n →
        ∃ vn : Int, n * vn ≤ a1.sumVs + x.vs + (n / 2 : Nat) ∧ a1.sumVs + x.vs + (n / 2 : Nat) < n * (vn + 1) ∧
          let r := resultOf { i with quality := quality, means := { i.means with vn := some vn } } c
            false s.meas.timebase (s.meas.resultNumber + 1)
          t.meas.resultNumber = s.meas.resultNumber + 1 ∧
          (∃ j, islandAt t.meas i.members = some j ∧ j.slot = some r ∧ j.state = .cycle .rampHome ∧ j.demand = i.demand ∧
            j.means = { i.means with vn := some vn }) ∧
          (t.meas.taps.get d).ramp = some ⟨0, c.row.slew * 20, .domain, .connected, .cycle⟩ ∧
          (t.meas.taps.get d).mailbox = (s.meas.taps.get d).mailbox ∧
          flagSet t.meas .cycleFail = (flagSet s.meas .cycleFail || decide (r.outcome = .inverted)) ∧
          t.meas.doms = (evaluate i.profile c.row.attribAge r s.meas).doms) ∧
      (∀ p l, fitted s.meas d = true → (s.meas.taps.get d).presence = some p → p.state = .present →
        p.lastSeq = some l → f.tag ≠ l → s.meas.claim.state = .handoff → s.meas.claim.armed = true →
        inSet (coveredSet s.meas) d = true → underRef s.meas d = false →
        (∀ i ∈ s.meas.islands, i.injector = d ∨ inSet i.members d = true → i.state = .handoff) →
        let x := sampleOf f.payload
        let ok := x.bal = false ∧ (x.ref = true ∨ x.applied = 0)
        let waits := fun e => inSet (coveredSet s.meas) e = true ∧ isPresent s.meas e = true ∧ e ≠ d ∧
          inSet s.meas.claim.confirmed e = false
        (¬ ok → t.meas.claim.confirmed = s.meas.claim.confirmed) ∧
        (ok → t.meas.claim.confirmed = s.meas.claim.confirmed ||| single d) ∧
        (ok → (∃ e, waits e) → t.meas.claim.state = .handoff ∧ t.meas.pendXclaim = s.meas.pendXclaim) ∧
        ∀ pr, ok → (∀ e, ¬ waits e) → s.meas.pendXclaim = some pr → s.meas.heldResponses = [] → s.link.upQueue.length < 32 →
          t.meas.claim.state = .granted ∧ t.meas.pendXclaim = none ∧ flagSet t.meas .handoffDone = true ∧
          (∀ i, claimedIsland s.meas = some i → islandAt s.meas i.members = some i →
            islandAt t.meas i.members = some { i with state := .external }) ∧
          ∃ g more, outgoing t = outgoing s ++ g :: more ∧ g.kind = pr.kind ∧ g.tag = pr.tag ∧ g.payload.head? = some 0 ∧
            g.payload.drop 2 = [BitVec.ofNat 8 (s.meas.claim.dom.elim 0 (·.number)),
              coveredSet s.meas &&& ~~~ (s.meas.claim.confirmed ||| single d)] ∧
            more.length ≤ 1 ∧ (fwdHighMark (forwardImage s.meas) ≤ s.link.upQueue.length + 1 → more = []))) ∧
  (∀ (d : Dom) (x : Sample) (m : Meas), m.claim.state = .none → claimCheck (confirmSample d x m) = m) ∧
  ∀ (d : Dom) (f : Frame) (m : Meas),
    (fwdAnnotate (forwardImage m) d ≠ 1 → forwardedFrame d f m = f) ∧
    (fwdAnnotate (forwardImage m) d = 1 →
      ∃ a b, forwardedFrame d f m = { f with payload := f.payload ++ [a, b] } ∧ TagLayout m d a b)

/-- R138, R150, R151, R154, R155: two whole frames received from READY. A tap response on Port D is admitted as received while the occupancy
is below 24, and otherwise dropped and counted with FWD_DROP; a request frame on Port U joins the buffer of four, or is lost with
REQ_OVERRUN. -/
def Obligations.ResponseAndRequestIntake : Prop :=
  (∀ (s : State) (f : RxFrame),
    s.link.rxD.state = .ready → s.link.rxD.chars = [] → rxCrcOk f = true → f.payload.length ≤ 120 →
    1 ≤ f.address.toNat → f.address.toNat ≤ 8 →
    let s1 : State := { s with link := { s.link with rxD := { s.link.rxD with idle := false } } }
    ∃ t, exec (.tapResponse f) s = .next t ∧
      (s.link.upQueue.length < 24 → OutputsMoved { s1 with link := { s1.link with
        upQueue := s1.link.upQueue ++ [⟨0xC5, f.address, f.kind, f.tag, f.payload⟩] } } t) ∧
      (24 ≤ s.link.upQueue.length → OutputsMoved { s1 with
        link := { s1.link with drops := min 65535 (s.link.drops + 1) }, meas := raise .fwdDrop s.meas } t)) ∧
  (∀ (s : State) (f : RxFrame),
    s.link.rxU.state = .ready → s.link.rxU.chars = [] → rxCrcOk f = true → f.payload.length ≤ 120 → f.address = 0 →
    let s1 : State := { s with link := { s.link with rxU := { s.link.rxU with idle := false } } }
    ∃ t, exec (.requestFrameReceived f) s = .next t ∧
      (s.link.buffer.length < 4 → OutputsMoved { s1 with link := { s1.link with
        buffer := s1.link.buffer ++ [⟨0xC3, 0, f.kind, f.tag, f.payload⟩] } } t) ∧
      (4 ≤ s.link.buffer.length → OutputsMoved { s1 with
        link := { s1.link with overrun := min 255 (s.link.overrun + 1) }, meas := raise .reqOverrun s.meas } t))

/-! ### Traffic and requests -/

/-- R145, R146, R147: a host frame addressed to taps, received whole on Port U from READY. Addresses 9 to 14 are answered BADARG from
address 0; a kind above 0x7F or with action BLOCK, or BLOCK_OWNED while the tap is owned (its mailbox is not at 0, DOMAIN, floating, or it
is under reference check; address 15 while any fitted tap is), is answered FILTERED from its address; any other joins the downstream queue,
or is answered BUSY when that holds 16; and an answer without room is lost with REQ_OVERRUN. -/
def Obligations.HostTapFrameFilter : Prop :=
  ∀ (s : State) (f : RxFrame),
    s.link.rxU.state = .ready → s.link.rxU.chars = [] → rxCrcOk f = true → f.payload.length ≤ 120 →
    1 ≤ f.address.toNat → f.address.toNat ≤ 15 →
    let s1 : State := { s with link := { s.link with rxU := { s.link.rxU with idle := false } } }
    let a := f.address.toNat
    let action := fwdAction (forwardImage s.meas) f.kind.toNat
    let owned := ∃ e : Dom, (a = e.number ∨ (a = 15 ∧ fitted s.meas e = true)) ∧
      ((s.meas.taps.get e).mailbox ≠ ⟨0, .domain, .floating⟩ ∨ ∃ r, s.meas.ref = some r ∧ r.tap = e)
    let blocked := 0x80 ≤ f.kind.toNat ∨ action = 1 ∨ (action = 2 ∧ owned)
    let answer := fun (address : Byte) (st : Status) (t : State) =>
      (s.link.upQueue.length < 32 → OutputsMoved { s1 with link := { s1.link with
        upQueue := s1.link.upQueue ++ [responseFrame address f.kind f.tag st [] s.meas] } } t) ∧
      (32 ≤ s.link.upQueue.length → OutputsMoved { s1 with
        link := { s1.link with overrun := min 255 (s.link.overrun + 1) }, meas := raise .reqOverrun s.meas } t)
    ∃ t, exec (.hostTapFrame f) s = .next t ∧
      (9 ≤ a → a ≤ 14 → answer 0 .badArg t) ∧
      ((a ≤ 8 ∨ a = 15) → blocked → answer f.address .filtered t) ∧
      ((a ≤ 8 ∨ a = 15) → ¬ blocked → s.link.downQueue.length < 16 → OutputsMoved { s1 with link := { s1.link with
        downQueue := s1.link.downQueue ++ [⟨0xC3, f.address, f.kind, f.tag, f.payload⟩] } } t) ∧
      ((a ≤ 8 ∨ a = 15) → ¬ blocked → 16 ≤ s.link.downQueue.length → answer f.address .busy t)

/-- R125, R124, R126: a receive error, on either port. A wrong parity counts as parity, whatever the stop bit; otherwise a missing stop bit,
a character that begins no frame, or a length above 120 counts as framing; the last character of a frame whose CRC differs from the CRC
computed over it counts as CRC, and so does such a frame received as one (log 5); a frame received whole on Port D with a right CRC that
fails R127's content checks (an address of 0 or above 8, a sample frame whose length is not 9 or whose kind is not 0x01) counts as framing.
The frame is discarded, the receiver is RECOVERING, the port's LINK_ERR is set, and nothing else changes. A RECOVERING receiver counts
nothing. That RECEIVE_ERROR carries the line character in
which the error is found is log 26. -/
def Obligations.ReceiveErrorCounts : Prop :=
  let failed := fun (p : Port) (r : Receiver) (s : State) =>
    raiseIn (linkErr p) (putRx p { r with state := .recovering, chars := [], idle := false } s)
  (∀ (s : State) (p : Port) (c : BitVec 11),
    let r := rxOf p s
    let wrongHere := (r.state = .ready ∧ markerAccepted p (charData c) = false) ∨
      (r.state = .inFrame ∧ r.chars.length = 1 ∧ 120 < (charData c).toNat)
    (r.state ≠ .recovering → parityOk c = false →
      exec (.receiveError p c) s = .next (failed p { r with parity := min 255 (r.parity + 1) } s)) ∧
    (r.state ≠ .recovering → parityOk c = true → stopOk c = false →
      exec (.receiveError p c) s = .next (failed p { r with framing := min 255 (r.framing + 1) } s)) ∧
    (parityOk c = true → stopOk c = true → wrongHere →
      exec (.receiveError p c) s = .next (failed p { r with framing := min 255 (r.framing + 1) } s)) ∧
    (r.state = .recovering → exec (.receiveError p c) s = .next (putRx p { r with idle := false } s))) ∧
  (∀ (s : State) (p : Port) (c : Byte) (len : Byte) (body : List Byte) (marker high : Byte),
    let r := rxOf p s
    r.state = .inFrame → r.chars = marker :: len :: (body ++ [high]) → body.length = 3 + len.toNat → len.toNat ≤ 120 →
    crc16 (len :: body) ≠ high ++ c →
    exec (.characterReceived p c) s = .next (failed p { r with crc := min 255 (r.crc + 1) } s)) ∧
  (∀ (s : State) (f : RxFrame), f.payload.length ≤ 120 →
    f.crc ≠ crc16 (BitVec.ofNat 8 f.payload.length :: f.address :: f.kind :: f.tag :: f.payload) →
    (s.link.rxU.state = .ready → s.link.rxU.chars = [] →
      exec (.requestFrameReceived f) s = .next (failed .u { s.link.rxU with crc := min 255 (s.link.rxU.crc + 1) } s) ∧
      exec (.hostTapFrame f) s = .next (failed .u { s.link.rxU with crc := min 255 (s.link.rxU.crc + 1) } s)) ∧
    (s.link.rxD.state = .ready → s.link.rxD.chars = [] →
      exec (.sampleFrame f) s = .next (failed .d { s.link.rxD with crc := min 255 (s.link.rxD.crc + 1) } s) ∧
      exec (.tapResponse f) s = .next (failed .d { s.link.rxD with crc := min 255 (s.link.rxD.crc + 1) } s))) ∧
  ∀ (s : State) (f : RxFrame), f.payload.length ≤ 120 → rxCrcOk f = true →
    let stray := f.address = 0 ∨ 8 < f.address.toNat
    let noSample := f.payload.length ≠ 9 ∨ f.kind ≠ 0x01
    let framing := failed .d { s.link.rxD with framing := min 255 (s.link.rxD.framing + 1) } s
    (s.link.rxD.state = .ready → s.link.rxD.chars = [] →
      ∃ t u, exec (.sampleFrame f) s = .next t ∧ (stray ∨ noSample → OutputsMoved framing t) ∧
        exec (.tapResponse f) s = .next u ∧ (stray → OutputsMoved framing u)) ∧
    ∀ (marker c : Byte), s.link.rxD.state = .inFrame → s.link.rxD.chars ++ [c] = rxBytes marker f →
      (stray ∨ (marker = 0xC9 ∧ noSample)) →
      ∃ t, exec (.characterReceived .d c) s = .next t ∧ OutputsMoved framing t

/-- R124 to R127: the receive states. More than 100 µs of idle within a frame is a gap error after which the receiver is READY at once;
100 µs of idle end RECOVERING. A character without line error begins a frame in READY when it is a marker of the port, is collected in
IN_FRAME when it neither is a length above 120 nor ends the frame, and is no error in RECOVERING. -/
def Obligations.ReceiverStates : Prop :=
  (∀ (s : State) (p : Port),
    let r := rxOf p s
    (r.state = .inFrame → exec (.rxGapTimeout p) s = .next (raiseIn (linkErr p)
      (putRx p { r with state := .ready, chars := [], idle := true, gap := min 255 (r.gap + 1) } s))) ∧
    (r.state = .recovering → exec (.rxRecoveryDone p) s = .next (putRx p { r with state := .ready, idle := true } s))) ∧
  (∀ (s : State) (p : Port) (c : Byte),
    let r := rxOf p s
    let chars := r.chars ++ [c]
    ∃ t, exec (.characterReceived p c) s = .next t ∧
      (r.state = .ready → markerAccepted p c = true →
        t = putRx p { r with state := .inFrame, chars := [c], idle := false } s) ∧
      (r.state = .inFrame → ¬ (chars.length = 2 ∧ 120 < c.toNat) →
        ¬ (2 ≤ chars.length ∧ chars.length = 7 + (chars.getD 1 0).toNat) →
        t = putRx p { r with chars := chars, idle := false } s) ∧
      (r.state = .recovering → t = putRx p { r with idle := false } s) ∧
      (r.state = .ready → markerAccepted p c = false → exec (.receiveError p (lineChar c)) s = .next t))

/-- R124, R126: a READY receiver that is given a frame's characters one by one, its length at most 120, does what the frame command of that
frame does: the 7 + length characters spell the frame (log 5: how the two spellings of an arrival meet). -/
def Obligations.CharactersMakeFrame : Prop :=
  ∀ (s : State) (f : RxFrame), f.payload.length ≤ 120 →
    (s.link.rxU.state = .ready → s.link.rxU.chars = [] →
      execAll ((rxBytes 0xC3 f).map (.characterReceived .u)) s = exec (.requestFrameReceived f) s ∧
      execAll ((rxBytes 0xC3 f).map (.characterReceived .u)) s = exec (.hostTapFrame f) s) ∧
    (s.link.rxD.state = .ready → s.link.rxD.chars = [] →
      execAll ((rxBytes 0xC9 f).map (.characterReceived .d)) s = exec (.sampleFrame f) s ∧
      execAll ((rxBytes 0xC5 f).map (.characterReceived .d)) s = exec (.tapResponse f) s)

/-- R123: the line character of a byte has its data in bits 1 to 8, least significant first, after a start bit 0, then an odd parity, then a
stop bit 1; the receiver reads the byte back without error. -/
def Obligations.LineCharacters : Prop :=
  ∀ b : Byte,
    (lineChar b).getLsbD 0 = false ∧ (∀ k, k < 8 → (lineChar b).getLsbD (k + 1) = b.getLsbD k) ∧
    ((List.range 9).countP fun k => (lineChar b).getLsbD (k + 1)) % 2 = 1 ∧ (lineChar b).getLsbD 10 = true ∧
    charData (lineChar b) = b ∧ parityOk (lineChar b) = true ∧ stopOk (lineChar b) = true

/-- R136, R148: the end of a transmission. On Port D the arbiter chooses the next frame; on Port U the head of the queue begins. Nothing is
lost, and a port is left idle only when nothing waits for it. R135, R182: what `levelFrame`, by which the arbiter's level frames are given,
holds, byte by byte. -/
def Obligations.TransmittersGoOn : Prop :=
  (∀ s : State, s.link.txD.isSome = true → (s.link.txU = none → outgoing s = []) →
    (s.meas.heldResponses = [] ∨ 32 ≤ s.link.upQueue.length) →
    ∃ t, exec .portDTxDone s = .next t ∧ OutputsMoved { s with link := { s.link with txD := none } } t ∧
      (t.link.txD = none → t.link.downQueue = [] ∧ ∀ d, (t.meas.taps.get d).due = false)) ∧
  (∀ (s : State) (f : Frame) (more : List Frame), s.link.txU = some f → outgoing s = f :: more →
    ∃ t, exec .portUTxDone s = .next t ∧ OutputsMoved { s with link := { s.link with txU := none } } t ∧
      outgoing t = more ∧ t.link.txU = more.head?) ∧
  ∀ (d : Dom) (p : Tap), -32768 ≤ p.mailbox.level → p.mailbox.level ≤ 32767 → LevelLayout d p (levelFrame d p)

/-- R160, R161, R162, R187: STAT is answered OK with the 42-byte block of the state before the clearing, laid out field by field. That the
tap and step read 0 while no check is active, and the bytes received and expected segment while no load is open, is the model's choice (log
18), and so is the claimed domain shown beside the state NONE (log 11). Then every flag is clear but a condition flag that was set and whose
condition holds, and the drop, receive error and overrun counters are 0. MASK replaces the mask and is answered OK with it, the attention
bit under the new mask. -/
def Obligations.StatAndMask : Prop :=
  (∀ (s : State) (q : Frame) (rest : List Frame), HeadRequest 0x20 0 1 q rest s →
    let zero := fun r : Receiver => { r with parity := 0, framing := 0, gap := 0, crc := 0 }
    ∃ t w, exec .stat s = .next t ∧ StatLayout (taken rest s) (statBlock (taken rest s)) ∧
      OutputsMoved (answered q .ok (statBlock (taken rest s)) { s with
        link := { s.link with buffer := rest, rxU := zero s.link.rxU, rxD := zero s.link.rxD, drops := 0, overrun := 0 },
        meas := { s.meas with flags := w } }) t ∧
      ∀ f, w.getLsbD f.bit = (flagSet s.meas f && conditionHolds s.meas f)) ∧
  (∀ (s : State) (q : Frame) (rest : List Frame), HeadRequest 0x21 4 1 q rest s →
    ∃ t, exec .mask s = .next t ∧
      OutputsMoved (answered q .ok q.payload { taken rest s with
        meas := { s.meas with mask := BitVec.ofNat 32 (nat32 q.payload 0) } }) t)

/-- R163, R164, R183, R185, R188, R189, R190: the read-outs change nothing but the buffer. ISORD: BADARG on an empty set, else one 14-byte
record for each domain of the set in ascending order. RESRD: the island's 43-byte record, or WRONGSTATE. FLTRD: the fault record of 58
bytes, or the empty indication. Each record is laid out field by field, with the codes of R183 and R185. -/
def Obligations.ReadOuts : Prop :=
  (∀ (s : State) (q : Frame) (rest : List Frame), HeadRequest 0x22 1 1 q rest s →
    ∃ t, exec .isord s = .next t ∧ (q.payload = [0] → OutputsMoved (answered q .badArg [] (taken rest s)) t) ∧
      ∀ b, q.payload = [b] → b ≠ 0 →
        OutputsMoved (answered q .ok ((members b).flatMap (isordRecord s.meas)) (taken rest s)) t ∧
        (∀ d, d ∈ members b ↔ inSet b d = true) ∧ (members b).Pairwise (fun d e => d.index < e.index) ∧
        ∀ d, (fitted s.meas d = true → IsordLayout s.meas d (isordRecord s.meas d)) ∧
          (fitted s.meas d = false → UnfittedLayout d (isordRecord s.meas d))) ∧
  (∀ (s : State) (q : Frame) (rest : List Frame),
    (∀ d, Dom.ofNumber (nat8 q.payload 0) = some d → fitted s.meas d = false) →
    (HeadRequest 0x23 1 1 q rest s →
      ∃ t, exec .resrd s = .next t ∧ OutputsMoved (answered q .badArg [] (taken rest s)) t) ∧
    (HeadRequest 0x24 1 1 q rest s →
      ∃ t, exec .fltrd s = .next t ∧ OutputsMoved (answered q .badArg [] (taken rest s)) t)) ∧
  (∀ (s : State) (q : Frame) (rest : List Frame) (d : Dom), HeadRequest 0x23 1 1 q rest s →
    Dom.ofNumber (nat8 q.payload 0) = some d → fitted s.meas d = true →
    ∃ t, exec .resrd s = .next t ∧
      (∀ i r, islandOf s.meas d = some i → i.slot = some r → ResultLayout r (resultBytes r) ∧
        OutputsMoved (answered q .ok (resultBytes r) (taken rest s)) t) ∧
      ((∀ i r, islandOf s.meas d = some i → i.slot = some r → False) →
        OutputsMoved (answered q .wrongState [] (taken rest s)) t)) ∧
  (∀ (s : State) (q : Frame) (rest : List Frame) (d : Dom), HeadRequest 0x24 1 1 q rest s →
    Dom.ofNumber (nat8 q.payload 0) = some d → fitted s.meas d = true →
    ∃ t, exec .fltrd s = .next t ∧
      (∀ r, (s.meas.doms.get d).fault = some r → (r.entries.length ≤ 8 → FaultLayout r (faultBytes r)) ∧
        OutputsMoved (answered q .ok (1 :: faultBytes r) (taken rest s)) t) ∧
      ((s.meas.doms.get d).fault = none → OutputsMoved (answered q .ok [0] (taken rest s)) t)) ∧
  ([Verdict.unknown, .ok, .warn, .fault].map (·.code) = [0, 1, 2, 3] ∧
   [TopoState.unresolved, .known, .nomatch, .stale].map (·.code) = [0, 1, 2, 3] ∧
   [ClaimState.none, .handoff, .granted].map (·.code) = [0, 1, 2] ∧
   [IslandState.forming, .cycle .quietSettle, .cycle .quietPlateau, .cycle .rampPos, .cycle .posSettle, .cycle .posPlateau,
     .cycle .rampNeg, .cycle .negSettle, .cycle .negPlateau, .cycle .rampHome, .interval, .stalled, .handoff, .external,
     .refhold].map (·.code) = [1, 2, 3, 4, 5, 6, 7, 8, 9, 10, 11, 12, 13, 14, 15] ∧
   (∀ st, (IslandState.cycle st).code = st.code) ∧
   [Mode.fast, .full].map (·.code) = [0, 1] ∧ [Profile.park, .drive, .charge, .service].map (·.code) = [0, 1, 2, 3] ∧
   [CycleOutcome.valid, .inverted, .timedOut].map (·.code) = [0, 1, 2] ∧ [Phase.quiet, .pos, .neg].map (·.code) = [0, 1, 2] ∧
   [TableId.domain, .topology, .cycle, .limit, .forward].map (·.code) = [1, 2, 3, 4, 5] ∧
   [ResetCause.powerOn, .restart].map (·.code) = [0, 1] ∧
   [Status.ok, .badKind, .badForm, .badArg, .busy, .locked, .wrongState, .order, .invalid, .timeout, .filtered,
     .cancelled].map (·.code) = List.range 12 ∧
   [Flag.reset, .topoNomatch, .topoStale, .tapLost, .faultPresent, .warnPresent, .topoMulti, .sampleGap, .verdictChanged,
     .asym, .cycleFail, .handoffDone, .refDone, .refFail, .linkErrU, .linkErrD, .reqOverrun, .fwdDrop, .tableDone,
     .tableAbort].map (·.bit) = List.range 20)

/-- R157: a request of a wrong payload length is answered BADFORM, whichever of the sixteen it is, and one of another kind is answered
BADKIND; neither has another effect. -/
def Obligations.BadRequestsOnlyAnswered : Prop :=
  (∀ (s : State) (q : Frame) (rest : List Frame) (kind : Byte) (c : Instr) (lo hi : Nat),
    (kind, c, lo, hi) ∈ requestKinds → HeadRequest kind q.payload.length (responsesOf q s.meas) q rest s →
    (q.payload.length < lo ∨ hi < q.payload.length) →
    ∃ t, exec c s = .next t ∧ OutputsMoved (answered q .badForm [] (taken rest s)) t) ∧
  (∀ (s : State) (q : Frame) (rest : List Frame),
    HeadRequest q.kind q.payload.length 1 q rest s → (∀ x ∈ requestKinds, x.1 ≠ q.kind) →
    ∃ t, exec .unknownRequest s = .next t ∧ OutputsMoved (answered q .badKind [] (taken rest s)) t)

/-- R166, R140, R148: RESTART answers a pending XCLAIM, then a pending RCHK, CANCELLED, then itself OK, the three with the summary of the
state before the reset, behind the frames already on their way. Then the blocks hold what the table of R166 gives, and the flags are RESET
and the conditions that hold; an open load is aborted. Every mailbox is at rest and its ramp ended; one of a fitted tap that was elsewhere
makes a level frame due and restarts its refresh timer. All else is kept and moves on as its outputs do: tables, presence, level sequences
and other refresh timers, mask, timebase, freeze flags, the receivers, every counter, the downstream queue, and the frames in transmission.
Where R166 gives no value, the run level is WARN (the model's choice, log 10) and the claim's cleared fields are none and 0 (log 11). -/
def Obligations.RestartResets : Prop :=
  ∀ (s : State) (q : Frame) (rest : List Frame),
    HeadRequest 0x3F 0 (responsesOf q s.meas) q rest s →
    (s.meas.claim.state = .handoff ↔ s.meas.pendXclaim.isSome = true) → (s.meas.ref.isSome = true ↔ s.meas.pendRchk.isSome = true) →
    let responses :=
      (s.meas.pendXclaim.toList.map fun p => responseFrame 0 p.kind p.tag .cancelled
        [BitVec.ofNat 8 (s.meas.claim.dom.elim 0 (·.number))] s.meas) ++
      (s.meas.pendRchk.toList.map fun p => responseFrame 0 p.kind p.tag .cancelled
        [BitVec.ofNat 8 (s.meas.ref.elim 0 (·.tap.number))] s.meas) ++
      [responseFrame 0 q.kind q.tag .ok [] s.meas]
    ∃ (t : State) (m : Meas), exec .restart s = .next t ∧ outgoing t = outgoing s ++ responses ∧
      OutputsMoved { s with
        link := { s.link with buffer := rest, upQueue := s.link.upQueue ++ responses }
        loader := ⟨none, s.loader.freeze⟩
        meas := m } t ∧
      m = { s.meas with
        topo := .reset, islands := [], resultNumber := 0, doms := .replicate .reset, claim := .reset, suspended := [], ref := none,
        pendXclaim := none, pendRchk := none, isoAlert := .released, resetCause := .restart, flags := m.flags, taps := m.taps } ∧
      (∀ f, flagSet m f = (decide (f = .reset) || (decide (f = .tapLost) && anyLost s.meas))) ∧
      ∀ d,
        let old := s.meas.taps.get d
        let tap := m.taps.get d
        let changed := fitted s.meas d = true ∧ old.mailbox ≠ ⟨0, .domain, .floating⟩
        tap = { old with mailbox := ⟨0, .domain, .floating⟩, ramp := none, due := tap.due, refreshStart := tap.refreshStart } ∧
        (changed → tap.due = true ∧ tap.refreshStart = some s.meas.timebase) ∧
        (¬ changed → tap.due = old.due ∧ tap.refreshStart = old.refreshStart)

/-- R169, R171: the valid image sizes and the whole-table freeze flags; LDTAB in the order of its checks, and the load it opens; no SEG
for 250 ms closes a load and sets TABLE_ABORT, and nothing else changes. -/
def Obligations.LoadOpensAndTimesOut : Prop :=
  (∀ n, (imageSizeOk .domain n = true ↔ n = 56) ∧ (imageSizeOk .topology n = true ↔ ∃ k, 1 ≤ k ∧ k ≤ 32 ∧ n = 6 + 16 * k) ∧
    (imageSizeOk .cycle n = true ↔ n = 124) ∧ (imageSizeOk .limit n = true ↔ ∃ k, k ≤ 32 ∧ n = 45 + 14 * k) ∧
    (imageSizeOk .forward n = true ↔ n = 145)) ∧
  (∀ l : Loader, tableFrozen l .domain = l.freeze.getLsbD 0 ∧ tableFrozen l .topology = l.freeze.getLsbD 1 ∧
    tableFrozen l .cycle = l.freeze.getLsbD 2 ∧ tableFrozen l .limit = false ∧ tableFrozen l .forward = false) ∧
  (∀ (s : State) (q : Frame) (rest : List Frame), HeadRequest 0x30 5 1 q rest s →
    let len := nat16 q.payload 1
    ∃ u, exec .ldtab s = .next u ∧
      ((∀ t, TableId.ofCode (nat8 q.payload 0) = some t → imageSizeOk t len = false) →
        OutputsMoved (answered q .badArg [] (taken rest s)) u) ∧
      ∀ t, TableId.ofCode (nat8 q.payload 0) = some t → imageSizeOk t len = true →
        (s.loader.load.isSome = true → OutputsMoved (answered q .busy [] (taken rest s)) u) ∧
        (s.loader.load = none → tableFrozen s.loader t = true → OutputsMoved (answered q .locked [] (taken rest s)) u) ∧
        (s.loader.load = none → tableFrozen s.loader t = false →
          OutputsMoved (answered q .ok [BitVec.ofNat 8 t.code, 0, 0, 0] { taken rest s with loader := { s.loader with
            load := some ⟨t, len, BitVec.ofNat 16 (nat16 q.payload 3), 0, [], s.meas.timebase⟩ } }) u)) ∧
  (∀ (s : State) (l : Load), s.loader.load = some l → 250 ≤ (s.meas.timebase - l.gapStart).toNat →
    exec .loadGapTimeout s = .next { s with
      loader := { s.loader with load := none }, meas := { s.meas with flags := s.meas.flags ||| BitVec.twoPow 32 19 } })

/-- R170: a SEG that is not the final one: WRONGSTATE without a load; ORDER with the expected segment and the bytes received, the load
staying open; BADARG and the load aborted when it carries too much; else its data appended. The row and reason shown while a load goes on
are the model's choice (log 12). -/
def Obligations.SegmentTaken : Prop :=
  ∀ (s : State) (q : Frame) (rest : List Frame) (n : Byte) (data : List Byte),
    HeadRequest 0x31 q.payload.length 1 q rest s → q.payload = n :: data → 1 ≤ data.length → data.length ≤ 96 →
    ∃ u, exec .seg s = .next u ∧
      (s.loader.load = none → OutputsMoved (answered q .wrongState [] (taken rest s)) u) ∧
      ∀ l, s.loader.load = some l →
        let got := l.buffer.length + data.length
        let still := { l with gapStart := s.meas.timebase }
        (n ≠ l.expected → OutputsMoved (answered q .order (l.expected :: be16 l.buffer.length)
          { taken rest s with loader := { s.loader with load := some still } }) u) ∧
        (n = l.expected → l.length < got → OutputsMoved (answered q .badArg []
          { taken rest s with loader := { s.loader with load := none }, meas := raise .tableAbort s.meas }) u) ∧
        (n = l.expected → got < l.length → OutputsMoved
          (answered q .ok ([0, 0xFF, 0] ++ be16 got ++ [l.expected + 1]) { taken rest s with loader := { s.loader with
            load := some { still with buffer := l.buffer ++ data, expected := l.expected + 1 } } }) u)

/-- R172, R174, R165, R144: the final segment. A wrong CRC, a failed validation or a freeze refuses the image, with TABLE_ABORT, and leaves
all but the loader and the flag; one that passes becomes the active table, with TABLE_DONE, and is answered OK and ACTIVATED; the answer of
a claim that a TOPOLOGY activation grants follows. R131, R3: a DOMAIN activation starts a newly fitted tap UNSEEN with a level frame due,
drops an unfitted one's presence and refresh timer, and changes no island, cycle, check or verdict record, nor anything else but flags and
ISO_ALERT. R5: a TOPOLOGY activation leaves topology and partition as they are without a report, re-resolves a fresh one, which dissolves
every island where no row matches, and makes the state STALE and dissolves every island on one that is not (which verdicts then lapse at
once: the model's choice, log 19). R71: a LIMIT activation tests each domain's age under its new record (run level kept: log 10). R50: a
CYCLE one, in a RUNNING part, and a FORWARD one change nothing more. R165: no FORMING whose settle timer has expired outlives the entry to
RUNNING. The expected segment shown after the final one is log 12. Of a validation: the images that pass, and the row and reason of the
first check that fails (R2, R4, R49, R70, R143); within R70's check 4 only that the row reported is one that fails it (log 9). R173: what a
freeze forbids. -/
def Obligations.FinalSegmentJudged : Prop :=
  (∀ (s : State) (q : Frame) (rest : List Frame) (l : Load) (data : List Byte),
    HeadRequest 0x31 q.payload.length 1 q rest s → q.payload = l.expected :: data → 1 ≤ data.length → data.length ≤ 96 →
    s.loader.load = some l → l.buffer.length + data.length = l.length →
    let img := l.buffer ++ data
    let closed : State := { taken rest s with loader := { s.loader with load := none } }
    let refused := fun (st : Status) (outcome row reason : Nat) (u : State) =>
      OutputsMoved (answered q st (segValues outcome row reason img.length (l.expected + 1))
        { closed with meas := raise .tableAbort s.meas }) u
    let shape := fun m : Meas => m.islands.map fun i => (i.members, i.injector, i.profile)
    ∃ u, exec .seg s = .next u ∧ u.loader = { s.loader with load := none } ∧
      (crc16 img ≠ l.crc → refused .invalid 2 0xFF 0 u) ∧
      (crc16 img = l.crc →
        (∀ row reason, validate s.meas l.table img = some (row, reason) → refused .invalid 3 row reason u) ∧
        (∀ row reason, validate s.meas l.table img = none → frozenFailure s.loader s.meas l.table img = some (row, reason) →
          refused .locked 4 row reason u) ∧
        (validate s.meas l.table img = none → frozenFailure s.loader s.meas l.table img = none →
          flagSet u.meas .tableDone = true ∧ activeImage u.meas l.table = some img ∧
          (∃ more, outgoing u = outgoing s ++ responseFrame 0 q.kind q.tag .ok
              (segValues 1 0xFF 0 img.length (l.expected + 1)) u.meas :: more ∧
            (l.table ≠ .topology ∨ s.meas.claim.state ≠ .handoff ∨ u.meas.claim.state = .handoff → more = []) ∧
            ∀ p, s.meas.pendXclaim = some p → s.meas.claim.state = .handoff → u.meas.claim.state ≠ .handoff →
              ∃ f, more = [f] ∧ GrantAnswer p u.meas f) ∧
          (l.table = .domain → ∀ d,
            (domFitted img d = true → fitted s.meas d = false →
              (u.meas.taps.get d).presence = some ⟨.unseen, none, 0, none, none⟩ ∧
              (u.meas.taps.get d).refreshStart = some s.meas.timebase) ∧
            (domFitted img d = false → fitted s.meas d = true →
              (u.meas.taps.get d).presence = none ∧ (u.meas.taps.get d).refreshStart = none) ∧
            (domFitted img d = fitted s.meas d → (u.meas.taps.get d).presence = (s.meas.taps.get d).presence)) ∧
          (l.table = .domain →
            ∃ m : Meas, OutputsMoved (answered q .ok (segValues 1 0xFF 0 img.length (l.expected + 1)) { closed with meas := m }) u ∧
              m = { s.meas with
                tables := { s.meas.tables with domain := some img }, taps := m.taps, flags := m.flags, isoAlert := m.isoAlert } ∧
              (∀ f, flagSet s.meas f = true → flagSet m f = true) ∧
              ∀ d, m.taps.get d =
                if domFitted img d = fitted s.meas d then s.meas.taps.get d
                else if domFitted img d = true then { s.meas.taps.get d with
                  presence := some ⟨.unseen, none, 0, none, none⟩, refreshStart := some s.meas.timebase, due := true }
                else { s.meas.taps.get d with presence := none, refreshStart := none }) ∧
          (l.table = .topology →
            (s.meas.topo.stored = none → u.meas.topo = s.meas.topo ∧
              ((s.meas.islands.map (·.members)).Nodup → shape u.meas = shape s.meas)) ∧
            ∀ rp, s.meas.topo.stored = some rp →
              let rows := matchingRows img rp.positions rp.inlet
              ((s.meas.timebase - rp.time).toNat < topoFreshness img →
                u.meas.topo = ⟨some rp, if rows = [] then .nomatch else .known, rows.head?, rows.length⟩ ∧
                (shape u.meas = (rows.head?.elim [] fun r => partitionOf img r (fitted s.meas)).map fun p =>
                  (p.members, p.injector, p.profile)) ∧
                (rows = [] → IslandsDissolved s.meas u.meas)) ∧
              (topoFreshness img ≤ (s.meas.timebase - rp.time).toNat →
                u.meas.topo = { s.meas.topo with state := .stale, row := none } ∧ IslandsDissolved s.meas u.meas)) ∧
          (l.table = .limit → ∀ d,
            let x := s.meas.doms.get d
            let aged := (x.verdict = .ok ∨ x.verdict = .warn) ∧ inSet (coveredSet s.meas) d = false ∧
              ∃ n, x.newest = some n ∧
                (effectiveLimits img d (profileInForce s.meas d)).maxAge * 1000 < (s.meas.timebase - n.time).toNat
            (aged → u.meas.doms.get d =
              { x with verdict := .unknown, worse := 0, better := 0, belowClear := false }) ∧
            (¬ aged → u.meas.doms.get d = x) ∧ (partRunning s.meas = true → u.meas.islands = s.meas.islands)) ∧
          (l.table = .cycle → partRunning s.meas = true → OutputsMoved (answered q .ok
            (segValues 1 0xFF 0 img.length (l.expected + 1)) { closed with
              meas := raise .tableDone { s.meas with tables := { s.meas.tables with cycle := some img } } }) u) ∧
          (l.table = .forward → OutputsMoved (answered q .ok
            (segValues 1 0xFF 0 img.length (l.expected + 1)) { closed with
              link := { closed.link with decim := .replicate 0 },
              meas := raise .tableDone { s.meas with tables := { s.meas.tables with forward := some img } } }) u) ∧
          (partRunning s.meas = false → partRunning u.meas = true →
            ∀ i ∈ u.meas.islands, ¬ (i.state = .forming ∧ i.settleTimer = .expired))))) ∧
  (∀ (m : Meas) (img : List Byte),
    (validate m .domain img = none ↔ DomainImageOk m img) ∧ (validate m .topology img = none ↔ TopologyImageOk m img) ∧
    (validate m .cycle img = none ↔ ∀ p k, CycleFieldOk (cycleRowOf img p) k) ∧
    (validate m .limit img = none ↔ LimitImageOk m img) ∧ (validate m .forward img = none ↔ ForwardImageOk img) ∧
    (∀ row reason, (validate m .domain img = some (row, reason) ↔ DomainRefusal m img row reason) ∧
      (validate m .topology img = some (row, reason) ↔ TopologyRefusal m img row reason) ∧
      (validate m .cycle img = some (row, reason) ↔ CycleRefusal img row reason) ∧
      (reason ≠ 13 → (validate m .limit img = some (row, reason) ↔ LimitRefusal m img row reason)) ∧
      (validate m .limit img = some (row, 13) → WarnOrderFails img row) ∧
      (validate m .forward img = some (row, reason) ↔ ForwardRefusal img row reason)) ∧
    ((∃ row, validate m .limit img = some (row, 13)) ↔ LimitRowsOk m img ∧ ∃ row, WarnOrderFails img row)) ∧
  (∀ (outcome row reason received : Nat) (expected : Byte), segValues outcome row reason received expected =
    [BitVec.ofNat 8 outcome, BitVec.ofNat 8 row, BitVec.ofNat 8 reason, BitVec.ofNat 8 (received / 256), BitVec.ofNat 8 received,
      expected]) ∧
  ∀ (l : Loader) (m : Meas) (img : List Byte),
    frozenFailure l m .domain img = (if l.freeze.getLsbD 0 = true then some (0xFF, 0) else none) ∧
    frozenFailure l m .topology img = (if l.freeze.getLsbD 1 = true then some (0xFF, 0) else none) ∧
    frozenFailure l m .cycle img = (if l.freeze.getLsbD 2 = true then some (0xFF, 0) else none) ∧
    frozenFailure l m .forward img = none ∧ (m.tables.limit = none → frozenFailure l m .limit img = none) ∧
    ∀ old, m.tables.limit = some old →
      let differs := fun (p : Profile) (d : Dom) => l.freeze.getLsbD (3 + p.code) = true ∧ fitted m d = true ∧
        effectiveLimits old d p ≠ effectiveLimits img d p
      (frozenFailure l m .limit img = none ↔ ∀ p d, ¬ differs p d) ∧
      ∀ row reason, frozenFailure l m .limit img = some (row, reason) ↔ ∃ p d, row = p.code ∧ reason = d.number ∧ differs p d ∧
        ∀ p' d', (p'.code < p.code ∨ (p' = p ∧ d'.index < d.index)) → ¬ differs p' d'

/-- R175: TSUM in the order of its checks: the CRC over a range of an active image; nothing else changes. -/
def Obligations.TsumReadsActiveImage : Prop :=
  ∀ (s : State) (q : Frame) (rest : List Frame), HeadRequest 0x32 5 1 q rest s →
    let offset := nat16 q.payload 1
    let count := nat16 q.payload 3
    ∃ u, exec .tsum s = .next u ∧
      (TableId.ofCode (nat8 q.payload 0) = none → OutputsMoved (answered q .badArg [] (taken rest s)) u) ∧
      ∀ t, TableId.ofCode (nat8 q.payload 0) = some t →
        (activeImage s.meas t = none → OutputsMoved (answered q .wrongState [] (taken rest s)) u) ∧
        ∀ img, activeImage s.meas t = some img →
          ((count = 0 ∨ img.length < offset + count) → OutputsMoved (answered q .badArg [] (taken rest s)) u) ∧
          (0 < count → offset + count ≤ img.length → OutputsMoved (answered q .ok
            (q.payload ++ be16 (crc16 ((img.drop offset).take count)).toNat) (taken rest s)) u)

/-- R176, R177: FREEZE only adds flags, each for a table that is active; FRLS clears them all when no claim exists, no load is open and
every fitted tap's latest sample shows less than 1200 counts, and otherwise changes nothing and gives the first reason that applies. -/
def Obligations.FreezeAndRelease : Prop :=
  (∀ (s : State) (q : Frame) (rest : List Frame) (b : Byte), HeadRequest 0x33 1 1 q rest s → q.payload = [b] →
    let want : BitVec 7 := b.setWidth 7
    let clears := ∃ k, k < 7 ∧ s.loader.freeze.getLsbD k = true ∧ want.getLsbD k = false
    let absent := ∃ k, k < 7 ∧ s.loader.freeze.getLsbD k = false ∧ want.getLsbD k = true ∧
      activeImage s.meas (freezeTable k) = none
    ∃ u, exec .freeze s = .next u ∧
      (b.getLsbD 7 = true → OutputsMoved (answered q .badArg [] (taken rest s)) u) ∧
      (b.getLsbD 7 = false → clears → OutputsMoved (answered q .locked [] (taken rest s)) u) ∧
      (b.getLsbD 7 = false → ¬ clears → absent → OutputsMoved (answered q .wrongState [] (taken rest s)) u) ∧
      (b.getLsbD 7 = false → ¬ clears → ¬ absent →
        OutputsMoved (answered q .ok [b] { taken rest s with loader := { s.loader with freeze := want } }) u)) ∧
  (∀ (s : State) (q : Frame) (rest : List Frame), HeadRequest 0x34 0 1 q rest s →
    let calm := fun d => ∃ p x, (s.meas.taps.get d).presence = some p ∧ p.latest = some x ∧ x.vPlus + x.vMinus < 1200
    ∃ u, exec .frls s = .next u ∧
      (s.meas.claim.state = .none → s.loader.load = none → (∀ d, fitted s.meas d = true → calm d) →
        OutputsMoved (answered q .ok [0] { taken rest s with loader := { s.loader with freeze := 0 } }) u) ∧
      (¬ (s.meas.claim.state = .none ∧ s.loader.load = none ∧ ∀ d, fitted s.meas d = true → calm d) →
        ∃ reason value, OutputsMoved (answered q .wrongState [reason, value] (taken rest s)) u ∧
          (s.meas.claim.state ≠ .none → reason = 1 ∧ value = BitVec.ofNat 8 (s.meas.claim.dom.elim 0 (·.number))) ∧
          (∀ l, s.meas.claim.state = .none → s.loader.load = some l → reason = 2 ∧ value = BitVec.ofNat 8 l.table.code) ∧
          (s.meas.claim.state = .none → s.loader.load = none → ∃ d, fitted s.meas d = true ∧
            value = BitVec.ofNat 8 d.number ∧ ¬ calm d ∧ (∀ e, e.index < d.index → fitted s.meas e = true → calm e) ∧
            (reason = 3 ∨ reason = 4) ∧ (reason = 4 ↔ ∀ p, (s.meas.taps.get d).presence = some p → p.latest = none))))

/-! ### What every step keeps -/

/-- R125, R137, R148, R150, R151, R155, R143: at every step the upstream queue stays within 32 frames, the downstream queue within 16, the
request buffer within four, and every link counter within its range, while the active FORWARD table's high mark lies within 24, which
every step keeps too. -/
def Obligations.StepKeepsLinkBounds : Prop :=
  ∀ s t : State, LinkBounded s.link → fwdHighMark (forwardImage s.meas) ≤ 24 → step s = .next t →
    LinkBounded t.link ∧ fwdHighMark (forwardImage t.meas) ≤ 24

/-- R160, R81: at every step each condition flag whose condition holds stays set (no event begins a condition without its flag, and STAT
clears none that holds), and ISO_ALERT stays low exactly while some fitted domain's verdict is FAULT. -/
def Obligations.StepKeepsFlagsAndAlert : Prop :=
  ∀ s t : State, FlagsFollow s.meas → AlertFollows s.meas → step s = .next t → FlagsFollow t.meas ∧ AlertFollows t.meas

/-- R106: at every step no two suspend entries share a member set. -/
def Obligations.StepKeepsSuspendListDistinct : Prop :=
  ∀ s t : State, EntriesDistinct s.meas → step s = .next t → EntriesDistinct t.meas

/-- R12, R16, R20: at every step the islands stay those of the resolved row of the active TOPOLOGY table over the fitted set while the
topology state is KNOWN, and none while it is not. -/
def Obligations.StepKeepsPartition : Prop :=
  ∀ s t : State, PartitionFollows s.meas → step s = .next t → PartitionFollows t.meas

/-- The five properties hold at power-on (R91, R112, R140, R148, R167, R21). -/
def Obligations.ResetMeetsProperties : Prop :=
  LinkBounded State.reset.link ∧ fwdHighMark (forwardImage State.reset.meas) ≤ 24 ∧ FlagsFollow State.reset.meas ∧
    AlertFollows State.reset.meas ∧
    EntriesDistinct State.reset.meas ∧ PartitionFollows State.reset.meas
end

