-- ==== Sys2Proof/Laws/State.lean ====
section
/-! SUPPORT. The small lemmas of the state: stores of one value a domain, the parts of the state, and what each plain update of the
measurement side leaves in each field, all by definition. -/

namespace Sys2Proof.Machine

/-! ### One value for each domain -/

@[simp] theorem PerDom.get_replicate {α : Type} (x : α) (d : Dom) : (PerDom.replicate x).get d = x := by cases d <;> rfl

@[simp] theorem PerDom.get_set_self {α : Type} (t : PerDom α) (d : Dom) (x : α) : (t.set d x).get d = x := by cases d <;> rfl

theorem PerDom.get_set_of_ne {α : Type} (t : PerDom α) {d e : Dom} (x : α) (h : e ≠ d) : (t.set d x).get e = t.get e := by
  cases d <;> cases e <;> first | rfl | exact absurd rfl h

theorem PerDom.get_set {α : Type} (t : PerDom α) (d e : Dom) (x : α) :
    (t.set d x).get e = if e = d then x else t.get e := by
  by_cases h : e = d
  · subst h; simp
  · simp [h, PerDom.get_set_of_ne t x h]

@[simp] theorem PerDom.get_mapWith {α : Type} (f : Dom → α → α) (t : PerDom α) (d : Dom) :
    (t.mapWith f).get d = f d (t.get d) := by cases d <;> rfl

@[ext] theorem PerDom.ext_get {α : Type} {t u : PerDom α} (h : ∀ d, t.get d = u.get d) : t = u := by
  obtain ⟨a1, a2, a3, a4, a5, a6, a7, a8⟩ := t
  obtain ⟨b1, b2, b3, b4, b5, b6, b7, b8⟩ := u
  simp only [PerDom.mk.injEq]
  exact ⟨h .d1, h .d2, h .d3, h .d4, h .d5, h .d6, h .d7, h .d8⟩

/-- Every domain is listed. -/
@[simp] theorem Dom.mem_all (d : Dom) : d ∈ Dom.all := by cases d <;> decide

/-! ### The parts of the state -/

variable (s : State) (m : Meas)

@[simp] theorem State.withMeas_pending (f : Meas → Meas) : (s.withMeas f).pending = s.pending := rfl
@[simp] theorem State.withMeas_link (f : Meas → Meas) : (s.withMeas f).link = s.link := rfl
@[simp] theorem State.withMeas_loader (f : Meas → Meas) : (s.withMeas f).loader = s.loader := rfl
@[simp] theorem State.withMeas_meas (f : Meas → Meas) : (s.withMeas f).meas = f s.meas := rfl
@[simp] theorem State.withLink_pending (f : Link → Link) : (s.withLink f).pending = s.pending := rfl
@[simp] theorem State.withLink_link (f : Link → Link) : (s.withLink f).link = f s.link := rfl
@[simp] theorem State.withLink_loader (f : Link → Link) : (s.withLink f).loader = s.loader := rfl
@[simp] theorem State.withLink_meas (f : Link → Link) : (s.withLink f).meas = s.meas := rfl
@[simp] theorem State.withLoader_pending (f : Loader → Loader) : (s.withLoader f).pending = s.pending := rfl
@[simp] theorem State.withLoader_link (f : Loader → Loader) : (s.withLoader f).link = s.link := rfl
@[simp] theorem State.withLoader_loader (f : Loader → Loader) : (s.withLoader f).loader = f s.loader := rfl
@[simp] theorem State.withLoader_meas (f : Loader → Loader) : (s.withLoader f).meas = s.meas := rfl

/-! ### The measurement side -/

@[simp] theorem raise_timebase (f : Flag) : (raise f m).timebase = m.timebase := rfl
@[simp] theorem raise_resetCause (f : Flag) : (raise f m).resetCause = m.resetCause := rfl
@[simp] theorem raise_flags (f : Flag) : (raise f m).flags = m.flags ||| f.word := rfl
@[simp] theorem raise_mask (f : Flag) : (raise f m).mask = m.mask := rfl
@[simp] theorem raise_pendXclaim (f : Flag) : (raise f m).pendXclaim = m.pendXclaim := rfl
@[simp] theorem raise_pendRchk (f : Flag) : (raise f m).pendRchk = m.pendRchk := rfl
@[simp] theorem raise_heldResponses (f : Flag) : (raise f m).heldResponses = m.heldResponses := rfl
@[simp] theorem raise_tables (f : Flag) : (raise f m).tables = m.tables := rfl
@[simp] theorem raise_taps (f : Flag) : (raise f m).taps = m.taps := rfl
@[simp] theorem raise_doms (f : Flag) : (raise f m).doms = m.doms := rfl
@[simp] theorem raise_isoAlert (f : Flag) : (raise f m).isoAlert = m.isoAlert := rfl
@[simp] theorem raise_topo (f : Flag) : (raise f m).topo = m.topo := rfl
@[simp] theorem raise_islands (f : Flag) : (raise f m).islands = m.islands := rfl
@[simp] theorem raise_resultNumber (f : Flag) : (raise f m).resultNumber = m.resultNumber := rfl
@[simp] theorem raise_claim (f : Flag) : (raise f m).claim = m.claim := rfl
@[simp] theorem raise_suspended (f : Flag) : (raise f m).suspended = m.suspended := rfl
@[simp] theorem raise_ref (f : Flag) : (raise f m).ref = m.ref := rfl

@[simp] theorem followConditions_timebase : (followConditions m).timebase = m.timebase := rfl
@[simp] theorem followConditions_resetCause : (followConditions m).resetCause = m.resetCause := rfl
@[simp] theorem followConditions_flags : (followConditions m).flags = m.flags ||| conditionWord m := rfl
@[simp] theorem followConditions_mask : (followConditions m).mask = m.mask := rfl
@[simp] theorem followConditions_pendXclaim : (followConditions m).pendXclaim = m.pendXclaim := rfl
@[simp] theorem followConditions_pendRchk : (followConditions m).pendRchk = m.pendRchk := rfl
@[simp] theorem followConditions_heldResponses : (followConditions m).heldResponses = m.heldResponses := rfl
@[simp] theorem followConditions_tables : (followConditions m).tables = m.tables := rfl
@[simp] theorem followConditions_taps : (followConditions m).taps = m.taps := rfl
@[simp] theorem followConditions_doms : (followConditions m).doms = m.doms := rfl
@[simp] theorem followConditions_isoAlert : (followConditions m).isoAlert = alertOf m := rfl
@[simp] theorem followConditions_topo : (followConditions m).topo = m.topo := rfl
@[simp] theorem followConditions_islands : (followConditions m).islands = m.islands := rfl
@[simp] theorem followConditions_resultNumber : (followConditions m).resultNumber = m.resultNumber := rfl
@[simp] theorem followConditions_claim : (followConditions m).claim = m.claim := rfl
@[simp] theorem followConditions_suspended : (followConditions m).suspended = m.suspended := rfl
@[simp] theorem followConditions_ref : (followConditions m).ref = m.ref := rfl

@[simp] theorem clearReported_timebase : (clearReported m).timebase = m.timebase := rfl
@[simp] theorem clearReported_resetCause : (clearReported m).resetCause = m.resetCause := rfl
@[simp] theorem clearReported_flags : (clearReported m).flags = m.flags &&& conditionWord m := rfl
@[simp] theorem clearReported_mask : (clearReported m).mask = m.mask := rfl
@[simp] theorem clearReported_pendXclaim : (clearReported m).pendXclaim = m.pendXclaim := rfl
@[simp] theorem clearReported_pendRchk : (clearReported m).pendRchk = m.pendRchk := rfl
@[simp] theorem clearReported_heldResponses : (clearReported m).heldResponses = m.heldResponses := rfl
@[simp] theorem clearReported_tables : (clearReported m).tables = m.tables := rfl
@[simp] theorem clearReported_taps : (clearReported m).taps = m.taps := rfl
@[simp] theorem clearReported_doms : (clearReported m).doms = m.doms := rfl
@[simp] theorem clearReported_isoAlert : (clearReported m).isoAlert = m.isoAlert := rfl
@[simp] theorem clearReported_topo : (clearReported m).topo = m.topo := rfl
@[simp] theorem clearReported_islands : (clearReported m).islands = m.islands := rfl
@[simp] theorem clearReported_resultNumber : (clearReported m).resultNumber = m.resultNumber := rfl
@[simp] theorem clearReported_claim : (clearReported m).claim = m.claim := rfl
@[simp] theorem clearReported_suspended : (clearReported m).suspended = m.suspended := rfl
@[simp] theorem clearReported_ref : (clearReported m).ref = m.ref := rfl

@[simp] theorem putIsland_timebase (i : Island) : (putIsland i m).timebase = m.timebase := rfl
@[simp] theorem putIsland_resetCause (i : Island) : (putIsland i m).resetCause = m.resetCause := rfl
@[simp] theorem putIsland_flags (i : Island) : (putIsland i m).flags = m.flags := rfl
@[simp] theorem putIsland_mask (i : Island) : (putIsland i m).mask = m.mask := rfl
@[simp] theorem putIsland_pendXclaim (i : Island) : (putIsland i m).pendXclaim = m.pendXclaim := rfl
@[simp] theorem putIsland_pendRchk (i : Island) : (putIsland i m).pendRchk = m.pendRchk := rfl
@[simp] theorem putIsland_heldResponses (i : Island) : (putIsland i m).heldResponses = m.heldResponses := rfl
@[simp] theorem putIsland_tables (i : Island) : (putIsland i m).tables = m.tables := rfl
@[simp] theorem putIsland_taps (i : Island) : (putIsland i m).taps = m.taps := rfl
@[simp] theorem putIsland_doms (i : Island) : (putIsland i m).doms = m.doms := rfl
@[simp] theorem putIsland_isoAlert (i : Island) : (putIsland i m).isoAlert = m.isoAlert := rfl
@[simp] theorem putIsland_topo (i : Island) : (putIsland i m).topo = m.topo := rfl
@[simp] theorem putIsland_islands (i : Island) :
    (putIsland i m).islands = m.islands.map fun j => if j.members == i.members then i else j := rfl
@[simp] theorem putIsland_resultNumber (i : Island) : (putIsland i m).resultNumber = m.resultNumber := rfl
@[simp] theorem putIsland_claim (i : Island) : (putIsland i m).claim = m.claim := rfl
@[simp] theorem putIsland_suspended (i : Island) : (putIsland i m).suspended = m.suspended := rfl
@[simp] theorem putIsland_ref (i : Island) : (putIsland i m).ref = m.ref := rfl

@[simp] theorem changeIsland_timebase (ds : DomSet) (f : Island → Island) : (changeIsland ds f m).timebase = m.timebase := rfl
@[simp] theorem changeIsland_resetCause (ds : DomSet) (f : Island → Island) :
    (changeIsland ds f m).resetCause = m.resetCause := rfl
@[simp] theorem changeIsland_flags (ds : DomSet) (f : Island → Island) : (changeIsland ds f m).flags = m.flags := rfl
@[simp] theorem changeIsland_mask (ds : DomSet) (f : Island → Island) : (changeIsland ds f m).mask = m.mask := rfl
@[simp] theorem changeIsland_pendXclaim (ds : DomSet) (f : Island → Island) :
    (changeIsland ds f m).pendXclaim = m.pendXclaim := rfl
@[simp] theorem changeIsland_pendRchk (ds : DomSet) (f : Island → Island) : (changeIsland ds f m).pendRchk = m.pendRchk := rfl
@[simp] theorem changeIsland_heldResponses (ds : DomSet) (f : Island → Island) :
    (changeIsland ds f m).heldResponses = m.heldResponses := rfl
@[simp] theorem changeIsland_tables (ds : DomSet) (f : Island → Island) : (changeIsland ds f m).tables = m.tables := rfl
@[simp] theorem changeIsland_taps (ds : DomSet) (f : Island → Island) : (changeIsland ds f m).taps = m.taps := rfl
@[simp] theorem changeIsland_doms (ds : DomSet) (f : Island → Island) : (changeIsland ds f m).doms = m.doms := rfl
@[simp] theorem changeIsland_isoAlert (ds : DomSet) (f : Island → Island) : (changeIsland ds f m).isoAlert = m.isoAlert := rfl
@[simp] theorem changeIsland_topo (ds : DomSet) (f : Island → Island) : (changeIsland ds f m).topo = m.topo := rfl
@[simp] theorem changeIsland_islands (ds : DomSet) (f : Island → Island) :
    (changeIsland ds f m).islands = m.islands.map fun j => if j.members == ds then f j else j := rfl
@[simp] theorem changeIsland_resultNumber (ds : DomSet) (f : Island → Island) :
    (changeIsland ds f m).resultNumber = m.resultNumber := rfl
@[simp] theorem changeIsland_claim (ds : DomSet) (f : Island → Island) : (changeIsland ds f m).claim = m.claim := rfl
@[simp] theorem changeIsland_suspended (ds : DomSet) (f : Island → Island) :
    (changeIsland ds f m).suspended = m.suspended := rfl
@[simp] theorem changeIsland_ref (ds : DomSet) (f : Island → Island) : (changeIsland ds f m).ref = m.ref := rfl

@[simp] theorem changeTap_timebase (t : Dom) (f : Tap → Tap) : (changeTap t f m).timebase = m.timebase := rfl
@[simp] theorem changeTap_resetCause (t : Dom) (f : Tap → Tap) : (changeTap t f m).resetCause = m.resetCause := rfl
@[simp] theorem changeTap_flags (t : Dom) (f : Tap → Tap) : (changeTap t f m).flags = m.flags := rfl
@[simp] theorem changeTap_mask (t : Dom) (f : Tap → Tap) : (changeTap t f m).mask = m.mask := rfl
@[simp] theorem changeTap_pendXclaim (t : Dom) (f : Tap → Tap) : (changeTap t f m).pendXclaim = m.pendXclaim := rfl
@[simp] theorem changeTap_pendRchk (t : Dom) (f : Tap → Tap) : (changeTap t f m).pendRchk = m.pendRchk := rfl
@[simp] theorem changeTap_heldResponses (t : Dom) (f : Tap → Tap) : (changeTap t f m).heldResponses = m.heldResponses := rfl
@[simp] theorem changeTap_tables (t : Dom) (f : Tap → Tap) : (changeTap t f m).tables = m.tables := rfl
@[simp] theorem changeTap_taps (t : Dom) (f : Tap → Tap) : (changeTap t f m).taps = m.taps.set t (f (m.taps.get t)) := rfl
@[simp] theorem changeTap_doms (t : Dom) (f : Tap → Tap) : (changeTap t f m).doms = m.doms := rfl
@[simp] theorem changeTap_isoAlert (t : Dom) (f : Tap → Tap) : (changeTap t f m).isoAlert = m.isoAlert := rfl
@[simp] theorem changeTap_topo (t : Dom) (f : Tap → Tap) : (changeTap t f m).topo = m.topo := rfl
@[simp] theorem changeTap_islands (t : Dom) (f : Tap → Tap) : (changeTap t f m).islands = m.islands := rfl
@[simp] theorem changeTap_resultNumber (t : Dom) (f : Tap → Tap) : (changeTap t f m).resultNumber = m.resultNumber := rfl
@[simp] theorem changeTap_claim (t : Dom) (f : Tap → Tap) : (changeTap t f m).claim = m.claim := rfl
@[simp] theorem changeTap_suspended (t : Dom) (f : Tap → Tap) : (changeTap t f m).suspended = m.suspended := rfl
@[simp] theorem changeTap_ref (t : Dom) (f : Tap → Tap) : (changeTap t f m).ref = m.ref := rfl

@[simp] theorem putPresence_timebase (t : Dom) (p : Presence) : (putPresence t p m).timebase = m.timebase := rfl
@[simp] theorem putPresence_resetCause (t : Dom) (p : Presence) : (putPresence t p m).resetCause = m.resetCause := rfl
@[simp] theorem putPresence_flags (t : Dom) (p : Presence) : (putPresence t p m).flags = m.flags := rfl
@[simp] theorem putPresence_mask (t : Dom) (p : Presence) : (putPresence t p m).mask = m.mask := rfl
@[simp] theorem putPresence_pendXclaim (t : Dom) (p : Presence) : (putPresence t p m).pendXclaim = m.pendXclaim := rfl
@[simp] theorem putPresence_pendRchk (t : Dom) (p : Presence) : (putPresence t p m).pendRchk = m.pendRchk := rfl
@[simp] theorem putPresence_heldResponses (t : Dom) (p : Presence) : (putPresence t p m).heldResponses = m.heldResponses := rfl
@[simp] theorem putPresence_tables (t : Dom) (p : Presence) : (putPresence t p m).tables = m.tables := rfl
@[simp] theorem putPresence_taps (t : Dom) (p : Presence) :
    (putPresence t p m).taps = m.taps.set t { m.taps.get t with presence := some p } := rfl
@[simp] theorem putPresence_doms (t : Dom) (p : Presence) : (putPresence t p m).doms = m.doms := rfl
@[simp] theorem putPresence_isoAlert (t : Dom) (p : Presence) : (putPresence t p m).isoAlert = m.isoAlert := rfl
@[simp] theorem putPresence_topo (t : Dom) (p : Presence) : (putPresence t p m).topo = m.topo := rfl
@[simp] theorem putPresence_islands (t : Dom) (p : Presence) : (putPresence t p m).islands = m.islands := rfl
@[simp] theorem putPresence_resultNumber (t : Dom) (p : Presence) : (putPresence t p m).resultNumber = m.resultNumber := rfl
@[simp] theorem putPresence_claim (t : Dom) (p : Presence) : (putPresence t p m).claim = m.claim := rfl
@[simp] theorem putPresence_suspended (t : Dom) (p : Presence) : (putPresence t p m).suspended = m.suspended := rfl
@[simp] theorem putPresence_ref (t : Dom) (p : Presence) : (putPresence t p m).ref = m.ref := rfl

@[simp] theorem unconfirm_timebase (t : Dom) : (unconfirm t m).timebase = m.timebase := rfl
@[simp] theorem unconfirm_resetCause (t : Dom) : (unconfirm t m).resetCause = m.resetCause := rfl
@[simp] theorem unconfirm_flags (t : Dom) : (unconfirm t m).flags = m.flags := rfl
@[simp] theorem unconfirm_mask (t : Dom) : (unconfirm t m).mask = m.mask := rfl
@[simp] theorem unconfirm_pendXclaim (t : Dom) : (unconfirm t m).pendXclaim = m.pendXclaim := rfl
@[simp] theorem unconfirm_pendRchk (t : Dom) : (unconfirm t m).pendRchk = m.pendRchk := rfl
@[simp] theorem unconfirm_heldResponses (t : Dom) : (unconfirm t m).heldResponses = m.heldResponses := rfl
@[simp] theorem unconfirm_tables (t : Dom) : (unconfirm t m).tables = m.tables := rfl
@[simp] theorem unconfirm_taps (t : Dom) : (unconfirm t m).taps = m.taps := rfl
@[simp] theorem unconfirm_doms (t : Dom) : (unconfirm t m).doms = m.doms := rfl
@[simp] theorem unconfirm_isoAlert (t : Dom) : (unconfirm t m).isoAlert = m.isoAlert := rfl
@[simp] theorem unconfirm_topo (t : Dom) : (unconfirm t m).topo = m.topo := rfl
@[simp] theorem unconfirm_islands (t : Dom) : (unconfirm t m).islands = m.islands := rfl
@[simp] theorem unconfirm_resultNumber (t : Dom) : (unconfirm t m).resultNumber = m.resultNumber := rfl
@[simp] theorem unconfirm_claim (t : Dom) :
    (unconfirm t m).claim = { m.claim with confirmed := m.claim.confirmed &&& ~~~ (single t) } := rfl
@[simp] theorem unconfirm_suspended (t : Dom) : (unconfirm t m).suspended = m.suspended := rfl
@[simp] theorem unconfirm_ref (t : Dom) : (unconfirm t m).ref = m.ref := rfl

@[simp] theorem writeMailbox_timebase (t : Dom) (b : Mailbox) : (writeMailbox t b m).timebase = m.timebase := rfl
@[simp] theorem writeMailbox_resetCause (t : Dom) (b : Mailbox) : (writeMailbox t b m).resetCause = m.resetCause := rfl
@[simp] theorem writeMailbox_flags (t : Dom) (b : Mailbox) : (writeMailbox t b m).flags = m.flags := rfl
@[simp] theorem writeMailbox_mask (t : Dom) (b : Mailbox) : (writeMailbox t b m).mask = m.mask := rfl
@[simp] theorem writeMailbox_pendXclaim (t : Dom) (b : Mailbox) : (writeMailbox t b m).pendXclaim = m.pendXclaim := rfl
@[simp] theorem writeMailbox_pendRchk (t : Dom) (b : Mailbox) : (writeMailbox t b m).pendRchk = m.pendRchk := rfl
@[simp] theorem writeMailbox_heldResponses (t : Dom) (b : Mailbox) : (writeMailbox t b m).heldResponses = m.heldResponses := rfl
@[simp] theorem writeMailbox_tables (t : Dom) (b : Mailbox) : (writeMailbox t b m).tables = m.tables := rfl
@[simp] theorem writeMailbox_taps (t : Dom) (b : Mailbox) :
    (writeMailbox t b m).taps = m.taps.set t (writeTap b (fitted m t) m.timebase (m.taps.get t)) := rfl
@[simp] theorem writeMailbox_doms (t : Dom) (b : Mailbox) : (writeMailbox t b m).doms = m.doms := rfl
@[simp] theorem writeMailbox_isoAlert (t : Dom) (b : Mailbox) : (writeMailbox t b m).isoAlert = m.isoAlert := rfl
@[simp] theorem writeMailbox_topo (t : Dom) (b : Mailbox) : (writeMailbox t b m).topo = m.topo := rfl
@[simp] theorem writeMailbox_islands (t : Dom) (b : Mailbox) : (writeMailbox t b m).islands = m.islands := rfl
@[simp] theorem writeMailbox_resultNumber (t : Dom) (b : Mailbox) : (writeMailbox t b m).resultNumber = m.resultNumber := rfl
@[simp] theorem writeMailbox_claim (t : Dom) (b : Mailbox) :
    (writeMailbox t b m).claim = { m.claim with confirmed := m.claim.confirmed &&& ~~~ (single t) } := rfl
@[simp] theorem writeMailbox_suspended (t : Dom) (b : Mailbox) : (writeMailbox t b m).suspended = m.suspended := rfl
@[simp] theorem writeMailbox_ref (t : Dom) (b : Mailbox) : (writeMailbox t b m).ref = m.ref := rfl

@[simp] theorem dropEntry_timebase (ds : DomSet) : (dropEntry ds m).timebase = m.timebase := rfl
@[simp] theorem dropEntry_resetCause (ds : DomSet) : (dropEntry ds m).resetCause = m.resetCause := rfl
@[simp] theorem dropEntry_flags (ds : DomSet) : (dropEntry ds m).flags = m.flags := rfl
@[simp] theorem dropEntry_mask (ds : DomSet) : (dropEntry ds m).mask = m.mask := rfl
@[simp] theorem dropEntry_pendXclaim (ds : DomSet) : (dropEntry ds m).pendXclaim = m.pendXclaim := rfl
@[simp] theorem dropEntry_pendRchk (ds : DomSet) : (dropEntry ds m).pendRchk = m.pendRchk := rfl
@[simp] theorem dropEntry_heldResponses (ds : DomSet) : (dropEntry ds m).heldResponses = m.heldResponses := rfl
@[simp] theorem dropEntry_tables (ds : DomSet) : (dropEntry ds m).tables = m.tables := rfl
@[simp] theorem dropEntry_taps (ds : DomSet) : (dropEntry ds m).taps = m.taps := rfl
@[simp] theorem dropEntry_doms (ds : DomSet) : (dropEntry ds m).doms = m.doms := rfl
@[simp] theorem dropEntry_isoAlert (ds : DomSet) : (dropEntry ds m).isoAlert = m.isoAlert := rfl
@[simp] theorem dropEntry_topo (ds : DomSet) : (dropEntry ds m).topo = m.topo := rfl
@[simp] theorem dropEntry_islands (ds : DomSet) : (dropEntry ds m).islands = m.islands := rfl
@[simp] theorem dropEntry_resultNumber (ds : DomSet) : (dropEntry ds m).resultNumber = m.resultNumber := rfl
@[simp] theorem dropEntry_claim (ds : DomSet) : (dropEntry ds m).claim = m.claim := rfl
@[simp] theorem dropEntry_suspended (ds : DomSet) :
    (dropEntry ds m).suspended = m.suspended.filter fun e => e.members != ds := rfl
@[simp] theorem dropEntry_ref (ds : DomSet) : (dropEntry ds m).ref = m.ref := rfl

@[simp] theorem changeDom_timebase (d : Dom) (f : DomRec → DomRec) : (changeDom d f m).timebase = m.timebase := rfl
@[simp] theorem changeDom_resetCause (d : Dom) (f : DomRec → DomRec) : (changeDom d f m).resetCause = m.resetCause := rfl
@[simp] theorem changeDom_flags (d : Dom) (f : DomRec → DomRec) : (changeDom d f m).flags = m.flags := rfl
@[simp] theorem changeDom_mask (d : Dom) (f : DomRec → DomRec) : (changeDom d f m).mask = m.mask := rfl
@[simp] theorem changeDom_pendXclaim (d : Dom) (f : DomRec → DomRec) : (changeDom d f m).pendXclaim = m.pendXclaim := rfl
@[simp] theorem changeDom_pendRchk (d : Dom) (f : DomRec → DomRec) : (changeDom d f m).pendRchk = m.pendRchk := rfl
@[simp] theorem changeDom_heldResponses (d : Dom) (f : DomRec → DomRec) :
    (changeDom d f m).heldResponses = m.heldResponses := rfl
@[simp] theorem changeDom_tables (d : Dom) (f : DomRec → DomRec) : (changeDom d f m).tables = m.tables := rfl
@[simp] theorem changeDom_taps (d : Dom) (f : DomRec → DomRec) : (changeDom d f m).taps = m.taps := rfl
@[simp] theorem changeDom_doms (d : Dom) (f : DomRec → DomRec) : (changeDom d f m).doms = m.doms.set d (f (m.doms.get d)) := rfl
@[simp] theorem changeDom_isoAlert (d : Dom) (f : DomRec → DomRec) : (changeDom d f m).isoAlert = m.isoAlert := rfl
@[simp] theorem changeDom_topo (d : Dom) (f : DomRec → DomRec) : (changeDom d f m).topo = m.topo := rfl
@[simp] theorem changeDom_islands (d : Dom) (f : DomRec → DomRec) : (changeDom d f m).islands = m.islands := rfl
@[simp] theorem changeDom_resultNumber (d : Dom) (f : DomRec → DomRec) : (changeDom d f m).resultNumber = m.resultNumber := rfl
@[simp] theorem changeDom_claim (d : Dom) (f : DomRec → DomRec) : (changeDom d f m).claim = m.claim := rfl
@[simp] theorem changeDom_suspended (d : Dom) (f : DomRec → DomRec) : (changeDom d f m).suspended = m.suspended := rfl
@[simp] theorem changeDom_ref (d : Dom) (f : DomRec → DomRec) : (changeDom d f m).ref = m.ref := rfl

@[simp] theorem resetMemberRuns_timebase (ds : DomSet) : (resetMemberRuns ds m).timebase = m.timebase := rfl
@[simp] theorem resetMemberRuns_resetCause (ds : DomSet) : (resetMemberRuns ds m).resetCause = m.resetCause := rfl
@[simp] theorem resetMemberRuns_flags (ds : DomSet) : (resetMemberRuns ds m).flags = m.flags := rfl
@[simp] theorem resetMemberRuns_mask (ds : DomSet) : (resetMemberRuns ds m).mask = m.mask := rfl
@[simp] theorem resetMemberRuns_pendXclaim (ds : DomSet) : (resetMemberRuns ds m).pendXclaim = m.pendXclaim := rfl
@[simp] theorem resetMemberRuns_pendRchk (ds : DomSet) : (resetMemberRuns ds m).pendRchk = m.pendRchk := rfl
@[simp] theorem resetMemberRuns_heldResponses (ds : DomSet) : (resetMemberRuns ds m).heldResponses = m.heldResponses := rfl
@[simp] theorem resetMemberRuns_tables (ds : DomSet) : (resetMemberRuns ds m).tables = m.tables := rfl
@[simp] theorem resetMemberRuns_taps (ds : DomSet) : (resetMemberRuns ds m).taps = m.taps := rfl
@[simp] theorem resetMemberRuns_doms (ds : DomSet) :
    (resetMemberRuns ds m).doms = m.doms.mapWith fun d r => if inSet ds d then resetRuns r else r := rfl
@[simp] theorem resetMemberRuns_isoAlert (ds : DomSet) : (resetMemberRuns ds m).isoAlert = m.isoAlert := rfl
@[simp] theorem resetMemberRuns_topo (ds : DomSet) : (resetMemberRuns ds m).topo = m.topo := rfl
@[simp] theorem resetMemberRuns_islands (ds : DomSet) : (resetMemberRuns ds m).islands = m.islands := rfl
@[simp] theorem resetMemberRuns_resultNumber (ds : DomSet) : (resetMemberRuns ds m).resultNumber = m.resultNumber := rfl
@[simp] theorem resetMemberRuns_claim (ds : DomSet) : (resetMemberRuns ds m).claim = m.claim := rfl
@[simp] theorem resetMemberRuns_suspended (ds : DomSet) : (resetMemberRuns ds m).suspended = m.suspended := rfl
@[simp] theorem resetMemberRuns_ref (ds : DomSet) : (resetMemberRuns ds m).ref = m.ref := rfl

@[simp] theorem changeClaim_timebase (f : Claim → Claim) : (changeClaim f m).timebase = m.timebase := rfl
@[simp] theorem changeClaim_resetCause (f : Claim → Claim) : (changeClaim f m).resetCause = m.resetCause := rfl
@[simp] theorem changeClaim_flags (f : Claim → Claim) : (changeClaim f m).flags = m.flags := rfl
@[simp] theorem changeClaim_mask (f : Claim → Claim) : (changeClaim f m).mask = m.mask := rfl
@[simp] theorem changeClaim_pendXclaim (f : Claim → Claim) : (changeClaim f m).pendXclaim = m.pendXclaim := rfl
@[simp] theorem changeClaim_pendRchk (f : Claim → Claim) : (changeClaim f m).pendRchk = m.pendRchk := rfl
@[simp] theorem changeClaim_heldResponses (f : Claim → Claim) : (changeClaim f m).heldResponses = m.heldResponses := rfl
@[simp] theorem changeClaim_tables (f : Claim → Claim) : (changeClaim f m).tables = m.tables := rfl
@[simp] theorem changeClaim_taps (f : Claim → Claim) : (changeClaim f m).taps = m.taps := rfl
@[simp] theorem changeClaim_doms (f : Claim → Claim) : (changeClaim f m).doms = m.doms := rfl
@[simp] theorem changeClaim_isoAlert (f : Claim → Claim) : (changeClaim f m).isoAlert = m.isoAlert := rfl
@[simp] theorem changeClaim_topo (f : Claim → Claim) : (changeClaim f m).topo = m.topo := rfl
@[simp] theorem changeClaim_islands (f : Claim → Claim) : (changeClaim f m).islands = m.islands := rfl
@[simp] theorem changeClaim_resultNumber (f : Claim → Claim) : (changeClaim f m).resultNumber = m.resultNumber := rfl
@[simp] theorem changeClaim_claim (f : Claim → Claim) : (changeClaim f m).claim = f m.claim := rfl
@[simp] theorem changeClaim_suspended (f : Claim → Claim) : (changeClaim f m).suspended = m.suspended := rfl
@[simp] theorem changeClaim_ref (f : Claim → Claim) : (changeClaim f m).ref = m.ref := rfl

@[simp] theorem changeRef_timebase (f : RefCheck → RefCheck) : (changeRef f m).timebase = m.timebase := rfl
@[simp] theorem changeRef_resetCause (f : RefCheck → RefCheck) : (changeRef f m).resetCause = m.resetCause := rfl
@[simp] theorem changeRef_flags (f : RefCheck → RefCheck) : (changeRef f m).flags = m.flags := rfl
@[simp] theorem changeRef_mask (f : RefCheck → RefCheck) : (changeRef f m).mask = m.mask := rfl
@[simp] theorem changeRef_pendXclaim (f : RefCheck → RefCheck) : (changeRef f m).pendXclaim = m.pendXclaim := rfl
@[simp] theorem changeRef_pendRchk (f : RefCheck → RefCheck) : (changeRef f m).pendRchk = m.pendRchk := rfl
@[simp] theorem changeRef_heldResponses (f : RefCheck → RefCheck) : (changeRef f m).heldResponses = m.heldResponses := rfl
@[simp] theorem changeRef_tables (f : RefCheck → RefCheck) : (changeRef f m).tables = m.tables := rfl
@[simp] theorem changeRef_taps (f : RefCheck → RefCheck) : (changeRef f m).taps = m.taps := rfl
@[simp] theorem changeRef_doms (f : RefCheck → RefCheck) : (changeRef f m).doms = m.doms := rfl
@[simp] theorem changeRef_isoAlert (f : RefCheck → RefCheck) : (changeRef f m).isoAlert = m.isoAlert := rfl
@[simp] theorem changeRef_topo (f : RefCheck → RefCheck) : (changeRef f m).topo = m.topo := rfl
@[simp] theorem changeRef_islands (f : RefCheck → RefCheck) : (changeRef f m).islands = m.islands := rfl
@[simp] theorem changeRef_resultNumber (f : RefCheck → RefCheck) : (changeRef f m).resultNumber = m.resultNumber := rfl
@[simp] theorem changeRef_claim (f : RefCheck → RefCheck) : (changeRef f m).claim = m.claim := rfl
@[simp] theorem changeRef_suspended (f : RefCheck → RefCheck) : (changeRef f m).suspended = m.suspended := rfl
@[simp] theorem changeRef_ref (f : RefCheck → RefCheck) : (changeRef f m).ref = m.ref.map f := rfl

end Sys2Proof.Machine
end

