-- ==== Sys2Proof/Laws/Outputs.lean ====
section
/-! SUPPORT. What the end of a command does to the outputs: `pumpUp` and `pumpBoth` move frames on and change nothing else. -/

namespace Sys2Proof.Machine

theorem outgoing_admitHeld (s : State) : outgoing (admitHeld s) = outgoing s := by
  simp [outgoing, admitHeld, List.append_assoc]

theorem outgoing_beginUp (s : State) : outgoing (beginUp s) = outgoing s := by
  unfold beginUp; split <;> simp_all [outgoing, State.withLink]

theorem outgoing_pumpUp (s : State) : outgoing (pumpUp s) = outgoing s := by
  simp [pumpUp, outgoing_admitHeld, outgoing_beginUp]

/-- Port U begins the head of the queue when it is idle and something waits, and nothing happens otherwise. -/
theorem beginUp_cases (s : State) :
    (s.link.txU = none ∧ ∃ f rest, s.link.upQueue = f :: rest ∧
      beginUp s = { s with link := { s.link with txU := some f, upQueue := rest } }) ∨
    ((s.link.txU = none → s.link.upQueue = []) ∧ beginUp s = s) := by
  unfold beginUp
  split
  · rename_i f rest h1 h2; exact .inl ⟨h1, f, rest, h2, rfl⟩
  · rename_i h
    refine .inr ⟨fun h1 => ?_, rfl⟩
    cases h2 : s.link.upQueue with
    | nil => rfl
    | cons f rest => exact absurd h2 (h f rest h1)

/-- After `admitHeld` a response is held only for lack of room. -/
theorem admitHeld_held (s : State) :
    (admitHeld s).meas.heldResponses = [] ∨ Config.upstreamPlaces ≤ (admitHeld s).link.upQueue.length := by
  by_cases h : s.meas.heldResponses.length ≤ Config.upstreamPlaces - occupancy s
  · left; simp [admitHeld, List.drop_eq_nil_iff, h]
  · right
    simp only [admitHeld, List.length_append, List.length_take, occupancy] at *
    omega

/-- What `pumpUp` does: everything but Port U, the upstream queue and the held responses stays; no frame is lost or reordered; Port U
is idle only when nothing waits; and a response is held only for lack of room. -/
theorem pumpUp_spec (s : State) :
    pumpUp s = { s with
      link := { s.link with txU := (pumpUp s).link.txU, upQueue := (pumpUp s).link.upQueue }
      meas := { s.meas with heldResponses := (pumpUp s).meas.heldResponses } } ∧
    outgoing (pumpUp s) = outgoing s ∧
    ((pumpUp s).link.txU = none → outgoing (pumpUp s) = []) ∧
    ((pumpUp s).meas.heldResponses = [] ∨ Config.upstreamPlaces ≤ (pumpUp s).link.upQueue.length) := by
  refine ⟨?_, outgoing_pumpUp s, ?_, admitHeld_held _⟩
  · rcases beginUp_cases (admitHeld s) with ⟨-, f, rest, -, h⟩ | ⟨-, h⟩ <;> rw [pumpUp, h] <;> rfl
  · intro h
    rw [outgoing_pumpUp]
    rcases beginUp_cases (admitHeld s) with ⟨-, f, rest, -, h'⟩ | ⟨h1, h'⟩
    · rw [pumpUp, h'] at h; exact absurd h (by simp [admitHeld])
    · rw [pumpUp, h'] at h
      have ht : (admitHeld s).link.txU = none := h
      have hq := h1 ht
      have : s.meas.heldResponses = [] := by
        rcases admitHeld_held s with h2 | h2
        · have := congrArg List.length hq
          simp only [admitHeld, List.length_append, List.length_take, List.length_nil, occupancy] at this
          have h3 := h2
          simp only [admitHeld, List.drop_eq_nil_iff, occupancy] at h3
          have : s.meas.heldResponses.length = 0 := by omega
          exact List.eq_nil_of_length_eq_zero this
        · rw [hq] at h2; simp [Config.upstreamPlaces] at h2
      rw [← outgoing_admitHeld]
      simp [outgoing, ht, hq]
      simp [admitHeld, this]

theorem pumpUp_moved (s : State) : OutputsMoved s (pumpUp s) := by
  obtain ⟨h1, h2, h3, h4⟩ := pumpUp_spec s
  exact {
    pending := by rw [h1]
    loader := by rw [h1]
    link := by rw [h1]
    meas := by rw [h1]
    upstream := h2
    busy := h3
    held := h4
    downstream := .inl (by rw [h1]; exact ⟨rfl, rfl, rfl⟩) }

/-- The lowest domain that passes a test comes first in the search. -/
theorem find_all_lowest {p : Dom → Bool} {d : Dom} (h : Dom.all.find? p = some d) :
    p d = true ∧ ∀ e, e.index < d.index → p e = false := by
  refine ⟨List.find?_some h, fun e he => ?_⟩
  have key : ∀ q : Dom → Bool, Dom.all.find? q = some d → e.index < d.index → q e = false := by
    intro q hq hlt
    by_contra hne
    have hqe : q e = true := by simpa using hne
    simp only [Dom.all, List.find?] at hq
    cases d <;> cases e <;> simp [Dom.index] at hlt <;> simp [hqe] at hq <;> (repeat' split at hq) <;> simp_all
  exact key p h he

theorem find_all_none {p : Dom → Bool} (h : Dom.all.find? p = none) (d : Dom) : p d = false := by
  have := List.find?_eq_none.mp h d (Dom.mem_all d)
  simpa using this

/-- What `pumpDown` does to a state whose upstream side has moved already. -/
theorem pumpDown_moved {u t : State} (h : OutputsMoved u t) (hd : t.link.txD = u.link.txD)
    (hq : t.link.downQueue = u.link.downQueue) (ht : t.meas.taps = u.meas.taps) : OutputsMoved u (pumpDown t) := by
  unfold pumpDown
  split
  · exact h
  · rename_i hidle
    have hidle' : u.link.txD = none := by rw [← hd]; exact hidle
    split
    · rename_i d hf
      obtain ⟨hd1, hd2⟩ := find_all_lowest hf
      exact {
        pending := by simpa [beginLevel] using h.pending
        loader := by simpa [beginLevel] using h.loader
        link := by simp only [beginLevel]; rw [h.link]
        meas := by simp only [beginLevel, changeTap]; rw [h.meas]
        upstream := by simpa [beginLevel, outgoing] using h.upstream
        busy := by simpa [beginLevel, outgoing] using h.busy
        held := by simpa [beginLevel] using h.held
        downstream := .inr (.inl ⟨hidle', by simpa [beginLevel] using hq, d, by rw [← ht]; exact hd1,
          fun e he => by rw [← ht]; exact hd2 e he, by simp [beginLevel, ht], by simp [beginLevel, ht]⟩) }
    · rename_i hf
      split
      · rename_i f rest hq'
        exact {
          pending := by simpa using h.pending
          loader := by simpa using h.loader
          link := by simp only [State.withLink_link]; rw [h.link]
          meas := by simpa using h.meas
          upstream := by simpa [outgoing] using h.upstream
          busy := by simpa [outgoing] using h.busy
          held := by simpa using h.held
          downstream := .inr (.inr ⟨hidle', fun e => by rw [← ht]; exact find_all_none hf e, by simpa using ht,
            f, by simp [← hq, hq'], by simp⟩) }
      · exact h

theorem pumpBoth_moved (s : State) : OutputsMoved s (pumpBoth s) := by
  have h := pumpUp_spec s
  exact pumpDown_moved (pumpUp_moved s) (by rw [h.1]) (by rw [h.1]) (by rw [h.1])

theorem pumpDown_self_moved (s : State) (hb : s.link.txU = none → outgoing s = [])
    (hh : s.meas.heldResponses = [] ∨ Config.upstreamPlaces ≤ s.link.upQueue.length) : OutputsMoved s (pumpDown s) :=
  pumpDown_moved ⟨rfl, rfl, rfl, rfl, rfl, hb, hh, .inl ⟨rfl, rfl, rfl⟩⟩ rfl rfl rfl

/-- The outputs move no tap's record but its due frame and its level sequence. -/
theorem OutputsMoved.tap {u t : State} (h : OutputsMoved u t) (d : Dom) :
    t.meas.taps.get d = { u.meas.taps.get d with due := (t.meas.taps.get d).due, levelSeq := (t.meas.taps.get d).levelSeq } := by
  rcases h.downstream with ⟨_, _, h⟩ | ⟨_, _, e, _, _, _, h⟩ | ⟨_, _, h, _⟩
  · rw [h]
  · rw [h, PerDom.get_set]; split
    · subst_vars; rfl
    · rfl
  · rw [h]

theorem OutputsMoved.mailbox {u t : State} (h : OutputsMoved u t) (d : Dom) :
    (t.meas.taps.get d).mailbox = (u.meas.taps.get d).mailbox := by rw [h.tap d]

theorem OutputsMoved.ramp {u t : State} (h : OutputsMoved u t) (d : Dom) :
    (t.meas.taps.get d).ramp = (u.meas.taps.get d).ramp := by rw [h.tap d]

theorem OutputsMoved.presence {u t : State} (h : OutputsMoved u t) (d : Dom) :
    (t.meas.taps.get d).presence = (u.meas.taps.get d).presence := by rw [h.tap d]

theorem OutputsMoved.islandAt {u t : State} (h : OutputsMoved u t) (ds : DomSet) : islandAt t.meas ds = islandAt u.meas ds := by
  rw [h.meas]; rfl

theorem OutputsMoved.flagSet {u t : State} (h : OutputsMoved u t) (f : Flag) : flagSet t.meas f = flagSet u.meas f := by
  rw [h.meas]; rfl

/-! ### The head request -/

/-- A command of one request kind takes a head request of that kind whose payload length is right. -/
theorem takeRequest_of_head {kind : Byte} {len r : Nat} {q : Frame} {rest : List Frame} {s : State}
    {mine : Byte → Bool} {body : Frame → State → State} (h : HeadRequest kind len r q rest s)
    (hr : responsesOf q s.meas ≤ r) (hm : mine kind = true) (hf : formOk kind len = true) :
    takeRequest mine body s = body q (taken rest s) := by
  obtain ⟨hb, rfl, rfl, hh, ho⟩ := h
  have ho' : s.link.upQueue.length + responsesOf q s.meas ≤ Config.upstreamPlaces := by omega
  have hc : canProcess q s = true := by simp [canProcess, hh, occupancy, ho']
  simp [takeRequest, hb, hm, hc, hf, State.withLink, taken]

/-- A response of the part joins a queue with room. -/
theorem respond_of_room {q : Frame} {st : Status} {values : List Byte} {s : State}
    (h : s.link.upQueue.length < Config.upstreamPlaces) : respond q st values s = answered q st values s := by
  simp [respond, answered, State.withLink, joinUp, h]

/-- A response into a queue with room, then the upstream outputs. -/
theorem respond_up_moved {q : Frame} {st : Status} {values : List Byte} {s : State}
    (h : s.link.upQueue.length < Config.upstreamPlaces) : OutputsMoved (answered q st values s) (pumpUp (respond q st values s)) := by
  rw [respond_of_room h]; exact pumpUp_moved _

/-- A response into a queue with room, then the outputs. -/
theorem respond_both_moved {q : Frame} {st : Status} {values : List Byte} {s : State}
    (h : s.link.upQueue.length < Config.upstreamPlaces) : OutputsMoved (answered q st values s) (pumpBoth (respond q st values s)) := by
  rw [respond_of_room h]; exact pumpBoth_moved _

/-- A head request that may be processed leaves room. -/
theorem HeadRequest.room {kind : Byte} {len r : Nat} {q : Frame} {rest : List Frame} {s : State} (h : HeadRequest kind len r q rest s)
    (hr : 0 < r) : (taken rest s).link.upQueue.length < Config.upstreamPlaces := by
  have := h.2.2.2.2
  show s.link.upQueue.length < _
  omega

end Sys2Proof.Machine
end

