-- ==== Sys2Proof/Laws/Sets.lean ====
section
/-! SUPPORT. Sets of domains: membership in the sets the model builds, and the order of a set's members. -/

namespace Sys2Proof

theorem Dom.index_lt (d : Dom) : d.index < 8 := by cases d <;> decide

theorem Dom.index_inj {d e : Dom} : d.index = e.index ↔ d = e := by
  constructor
  · cases d <;> cases e <;> simp [Dom.index]
  · rintro rfl; rfl

theorem Dom.ofNumber_number (d : Dom) : Dom.ofNumber d.number = some d := by cases d <;> rfl

theorem Dom.number_of_ofNumber {n : Nat} {d : Dom} (h : Dom.ofNumber n = some d) : d.number = n := by
  unfold Dom.ofNumber at h
  split at h <;> simp at h <;> subst h <;> rfl

@[simp] theorem inSet_zero (d : Dom) : inSet 0#8 d = false := by simp [inSet]

theorem inSet_single (d e : Dom) : inSet (single d) e = decide (e = d) := by cases d <;> cases e <;> decide

theorem inSet_or (a b : DomSet) (d : Dom) : inSet (a ||| b) d = (inSet a d || inSet b d) := by simp [inSet]

theorem inSet_and (a b : DomSet) (d : Dom) : inSet (a &&& b) d = (inSet a d && inSet b d) := by simp [inSet]

theorem inSet_not (a : DomSet) (d : Dom) : inSet (~~~a) d = !inSet a d := by
  simp [inSet, Dom.index_lt]

/-- Two sets with the same members are equal. -/
theorem DomSet.ext {a b : DomSet} (h : ∀ d, inSet a d = inSet b d) : a = b := by
  apply BitVec.eq_of_getLsbD_eq
  intro n hn
  obtain ⟨d, rfl⟩ : ∃ d : Dom, d.index = n := by
    interval_cases n
    exacts [⟨.d1, rfl⟩, ⟨.d2, rfl⟩, ⟨.d3, rfl⟩, ⟨.d4, rfl⟩, ⟨.d5, rfl⟩, ⟨.d6, rfl⟩, ⟨.d7, rfl⟩, ⟨.d8, rfl⟩]
  exact h d

/-- A set with a member is not empty. -/
theorem DomSet.ne_zero_of_mem {a : DomSet} {d : Dom} (h : inSet a d = true) : a ≠ 0 := by
  rintro rfl; simp at h

theorem inSet_foldl (p : Dom → Bool) (l : List Dom) (a : DomSet) (e : Dom) :
    inSet (l.foldl (fun ds d => if p d then ds ||| single d else ds) a) e = (inSet a e || (decide (e ∈ l) && p e)) := by
  induction l generalizing a with
  | nil => simp
  | cons d l ih =>
    rw [List.foldl_cons, ih]
    by_cases hp : p d = true
    · rw [if_pos hp, inSet_or, inSet_single]
      by_cases hed : e = d
      · subst hed; simp [hp]
      · simp [hed]
    · rw [if_neg hp]
      by_cases hed : e = d
      · subst hed; simp [hp]
      · simp [hed]

/-- The set of the domains that pass a test has exactly those. -/
@[simp] theorem inSet_setOf (p : Dom → Bool) (d : Dom) : inSet (setOf p) d = p d := by simp [setOf, inSet_foldl]

@[simp] theorem mem_members {ds : DomSet} {d : Dom} : d ∈ members ds ↔ inSet ds d = true := by simp [members]

theorem Dom.all_pairwise : Dom.all.Pairwise fun d e => d.index < e.index := by decide

theorem Dom.all_nodup : Dom.all.Nodup := by decide

/-- A set's members stand in ascending order. -/
theorem members_pairwise (ds : DomSet) : (members ds).Pairwise fun d e => d.index < e.index := Dom.all_pairwise.filter _

/-- The first member of a set is the lowest. -/
theorem members_head {ds : DomSet} {d : Dom} (h : (members ds).head? = some d) :
    inSet ds d = true ∧ ∀ e, inSet ds e = true → d.index ≤ e.index := by
  have hd : d ∈ members ds := List.mem_of_head? h
  refine ⟨mem_members.1 hd, fun e he => ?_⟩
  have hp := members_pairwise ds
  have he' : e ∈ members ds := mem_members.2 he
  cases hm : members ds with
  | nil => simp [hm] at h
  | cons a l =>
    rw [hm] at h hp he'
    obtain rfl : a = d := by simpa using h
    rcases List.mem_cons.1 he' with h' | h'
    · exact (congrArg Dom.index h').ge
    · exact (List.rel_of_pairwise_cons hp h').le

/-- A set with a member has a lowest one. -/
theorem members_head_exists {ds : DomSet} {e : Dom} (h : inSet ds e = true) : ∃ d, (members ds).head? = some d := by
  cases hm : members ds with
  | nil => have := mem_members.2 h; simp [hm] at this
  | cons a l => exact ⟨a, by simp⟩

end Sys2Proof
end

