-- ==== Sys2Proof/Laws/Frames.lean ====
section
/-! SUPPORT. What the shared operations of the measurement side leave unchanged, said once for each: `Rearranged` for what the cycle
engine, the claim unit, the reference check unit and the resolver do to taps and islands, `Steady` where the partition and the verdict
records stay as well, `Kept` for what every operation but a table activation or a resolution keeps. -/

namespace Sys2Proof.Machine

/-! ### Islands -/

/-- What tells one island from another, and its slot. -/
def Island.kept (i : Island) : DomSet × Dom × Profile × Option ResultRecord := (i.members, i.injector, i.profile, i.slot)

/-- What the partition says of an island. -/
def Island.shape (i : Island) : DomSet × Dom × Profile := (i.members, i.injector, i.profile)

/-- No two islands share a member set (R12). -/
def Parted (m : Meas) : Prop := (m.islands.map (·.members)).Nodup

theorem islandAt_mem {m : Meas} {ds : DomSet} {i : Island} (h : islandAt m ds = some i) : i ∈ m.islands :=
  List.mem_of_find?_eq_some h

theorem islandAt_members {m : Meas} {ds : DomSet} {i : Island} (h : islandAt m ds = some i) : i.members = ds := by
  simpa using List.find?_some h

theorem islandOf_mem {m : Meas} {d : Dom} {i : Island} (h : islandOf m d = some i) : i ∈ m.islands :=
  List.mem_of_find?_eq_some h

theorem injectedBy_mem {m : Meas} {t : Dom} {i : Island} (h : injectedBy m t = some i) : i ∈ m.islands :=
  List.mem_of_find?_eq_some h

theorem injectedBy_injector {m : Meas} {t : Dom} {i : Island} (h : injectedBy m t = some i) : i.injector = t := by
  simpa using List.find?_some h

/-- Islands with distinct member sets that share one are the same. -/
theorem Parted.eq_of_members {m : Meas} (h : Parted m) {i j : Island} (hi : i ∈ m.islands) (hj : j ∈ m.islands)
    (he : j.members = i.members) : j = i :=
  List.inj_on_of_nodup_map h hj hi he

/-- The island with a member set is found, whichever island it is. -/
theorem Parted.islandAt_eq {m : Meas} (h : Parted m) {i : Island} (hi : i ∈ m.islands) : Machine.islandAt m i.members = some i := by
  have hs : (islandAt m i.members).isSome = true := by
    rw [Machine.islandAt, List.find?_isSome]; exact ⟨i, hi, by simp⟩
  obtain ⟨j, hj⟩ := Option.isSome_iff_exists.1 hs
  rw [hj, h.eq_of_members hi (islandAt_mem hj) (islandAt_members hj)]

/-- After a change of the island with a member set, that island is the changed one. -/
theorem islandAt_changeIsland {m : Meas} {ds : DomSet} {f : Island → Island} (hf : ∀ i, (f i).members = i.members) :
    islandAt (changeIsland ds f m) ds = (islandAt m ds).map f := by
  simp only [islandAt, changeIsland_islands, List.find?_map]
  have : ((fun i : Island => i.members == ds) ∘ fun j => if (j.members == ds) = true then f j else j)
      = fun i : Island => i.members == ds := by
    funext j; simp only [Function.comp]; split <;> simp_all
  rw [this]
  cases h : List.find? (fun i : Island => i.members == ds) m.islands with
  | none => rfl
  | some i =>
    have := List.find?_some h
    simp only [Option.map_some, this, if_true]

/-- A change of the island with one member set leaves the island with another. -/
theorem islandAt_changeIsland_of_ne {m : Meas} {ds es : DomSet} {f : Island → Island}
    (hf : ∀ i, (f i).members = i.members) (h : es ≠ ds) : islandAt (changeIsland ds f m) es = islandAt m es := by
  simp only [islandAt, changeIsland_islands, List.find?_map]
  have : ((fun i : Island => i.members == es) ∘ fun j => if (j.members == ds) = true then f j else j)
      = fun i : Island => i.members == es := by
    funext j; simp only [Function.comp]; split <;> simp_all
  rw [this]
  cases h' : List.find? (fun i : Island => i.members == es) m.islands with
  | none => rfl
  | some i =>
    have := List.find?_some h'
    simp only [beq_iff_eq] at this
    simp [this, h]

/-- An island that was put is found. -/
theorem islandAt_putIsland {m : Meas} {ds : DomSet} {i j : Island} (h : islandAt m ds = some j) (hi : i.members = ds) :
    islandAt (putIsland i m) ds = some i := by
  have : putIsland i m = changeIsland ds (fun _ => i) m := by rw [putIsland, changeIsland, hi]
  subst hi
  simp only [islandAt, putIsland_islands, List.find?_map] at *
  have : ((fun k : Island => k.members == i.members) ∘ fun k => if (k.members == i.members) = true then i else k)
      = fun k : Island => k.members == i.members := by
    funext k; simp only [Function.comp]; split <;> simp_all
  rw [this, h]
  have := List.find?_some h
  simp only [Option.map_some, this, if_true]

/-- Putting the island that is found, changed, is a change of the island. -/
theorem putIsland_eq_changeIsland {m : Meas} {i : Island} : putIsland i m = changeIsland i.members (fun _ => i) m := rfl

theorem putIsland_putIsland (i j : Island) (m : Meas) (h : i.members = j.members) : putIsland i (putIsland j m) = putIsland i m := by
  simp only [putIsland, List.map_map]
  congr 1
  apply List.map_congr_left
  intro k _
  simp only [Function.comp]
  split
  · rename_i hk; simp [h] at hk ⊢; simp [hk]
  · rename_i hk; rfl

theorem changeIsland_putIsland (f : Island → Island) (i : Island) (m : Meas) (hf : ∀ j, (f j).members = j.members) :
    changeIsland i.members f (putIsland i m) = putIsland (f i) m := by
  simp only [putIsland, changeIsland, List.map_map]
  congr 1
  apply List.map_congr_left
  intro k _
  simp only [Function.comp, hf]
  split <;> simp_all

/-! ### Distinct suspend entries -/

theorem entriesDistinct_filter {m : Meas} (p : SuspendEntry → Bool) (h : EntriesDistinct m) :
    EntriesDistinct { m with suspended := m.suspended.filter p } :=
  h.sublist (List.filter_sublist.map _)

/-! ### The relations -/

/-- From `m` to `m'` only mailboxes, ramps, due frames and refresh timers, the islands, the verdict runs, the suspend list, the arming
and the confirmed taps of the claim, and the reference-check record may change. -/
structure Rearranged (m m' : Meas) : Prop where
  timebase : m'.timebase = m.timebase
  resetCause : m'.resetCause = m.resetCause
  flags : m'.flags = m.flags
  mask : m'.mask = m.mask
  pendXclaim : m'.pendXclaim = m.pendXclaim
  pendRchk : m'.pendRchk = m.pendRchk
  held : m'.heldResponses = m.heldResponses
  tables : m'.tables = m.tables
  isoAlert : m'.isoAlert = m.isoAlert
  topo : m'.topo = m.topo
  resultNumber : m'.resultNumber = m.resultNumber
  claim : m'.claim = { m.claim with armed := m'.claim.armed, confirmed := m'.claim.confirmed }
  presence : ∀ d, (m'.taps.get d).presence = (m.taps.get d).presence
  doms : ∀ d, m'.doms.get d = { m.doms.get d with
    worse := (m'.doms.get d).worse, better := (m'.doms.get d).better, belowClear := (m'.doms.get d).belowClear }
  entries : EntriesDistinct m → EntriesDistinct m'

/-- From `m` to `m'` the partition and the verdict records stay as well; the slots too. -/
structure Steady (m m' : Meas) : Prop extends Rearranged m m' where
  domsEq : m'.doms = m.doms
  islands : Parted m → m'.islands.map Island.kept = m.islands.map Island.kept

/-- What every operation keeps but a table activation and a resolution. -/
structure Kept (m m' : Meas) : Prop where
  timebase : m'.timebase = m.timebase
  resetCause : m'.resetCause = m.resetCause
  mask : m'.mask = m.mask
  tables : m'.tables = m.tables
  topo : m'.topo = m.topo
  flags : ∀ n, m.flags.getLsbD n = true → m'.flags.getLsbD n = true
  follow : FlagsFollow m → FlagsFollow m'
  alert : AlertFollows m → AlertFollows m'
  entries : EntriesDistinct m → EntriesDistinct m'

/-- `Kept`, with the partition. -/
structure Sound (m m' : Meas) : Prop extends Kept m m' where
  islands : Parted m → m'.islands.map Island.shape = m.islands.map Island.shape

theorem Rearranged.refl (m : Meas) : Rearranged m m :=
  ⟨rfl, rfl, rfl, rfl, rfl, rfl, rfl, rfl, rfl, rfl, rfl, rfl, fun _ => rfl, fun _ => rfl, id⟩

theorem Rearranged.trans {a b c : Meas} (h : Rearranged a b) (k : Rearranged b c) : Rearranged a c where
  timebase := k.timebase.trans h.timebase
  resetCause := k.resetCause.trans h.resetCause
  flags := k.flags.trans h.flags
  mask := k.mask.trans h.mask
  pendXclaim := k.pendXclaim.trans h.pendXclaim
  pendRchk := k.pendRchk.trans h.pendRchk
  held := k.held.trans h.held
  tables := k.tables.trans h.tables
  isoAlert := k.isoAlert.trans h.isoAlert
  topo := k.topo.trans h.topo
  resultNumber := k.resultNumber.trans h.resultNumber
  claim := by rw [k.claim, h.claim]
  presence d := (k.presence d).trans (h.presence d)
  doms d := by rw [k.doms d, h.doms d]
  entries e := k.entries (h.entries e)

theorem Rearranged.fitted {m m' : Meas} (h : Rearranged m m') : Machine.fitted m' = Machine.fitted m := by
  funext d; simp [Machine.fitted, h.tables]

theorem Rearranged.verdict {m m' : Meas} (h : Rearranged m m') (d : Dom) : (m'.doms.get d).verdict = (m.doms.get d).verdict := by
  rw [h.doms d]

theorem Rearranged.anyVerdict {m m' : Meas} (h : Rearranged m m') (v : Verdict) : Machine.anyVerdict m' v = Machine.anyVerdict m v := by
  simp [Machine.anyVerdict, h.fitted, h.verdict]

theorem Rearranged.tapState {m m' : Meas} (h : Rearranged m m') (d : Dom) : Machine.tapState m' d = Machine.tapState m d := by
  simp [Machine.tapState, h.presence]

theorem Rearranged.isPresent {m m' : Meas} (h : Rearranged m m') (d : Dom) : Machine.isPresent m' d = Machine.isPresent m d := by
  simp [Machine.isPresent, h.tapState]

theorem Rearranged.conditionHolds {m m' : Meas} (h : Rearranged m m') (f : Flag) :
    Machine.conditionHolds m' f = Machine.conditionHolds m f := by
  cases f <;> simp [Machine.conditionHolds, h.topo, h.anyVerdict, anyLost, h.fitted, h.tapState]

theorem Rearranged.kept {m m' : Meas} (h : Rearranged m m') : Kept m m' where
  timebase := h.timebase
  resetCause := h.resetCause
  mask := h.mask
  tables := h.tables
  topo := h.topo
  flags n hn := by rw [h.flags]; exact hn
  follow hf f hc := by rw [flagSet, h.flags]; rw [h.conditionHolds] at hc; exact hf f hc
  alert ha := by simpa [AlertFollows, h.isoAlert, h.fitted, h.verdict] using ha
  entries := h.entries

theorem Steady.refl (m : Meas) : Steady m m := ⟨.refl m, rfl, fun _ => rfl⟩

/-- Islands that keep their kept parts stay apart. -/
theorem parted_of_kept {m m' : Meas} (h : m'.islands.map Island.kept = m.islands.map Island.kept) (hp : Parted m) : Parted m' := by
  have := congrArg (List.map fun x : DomSet × Dom × Profile × Option ResultRecord => x.1) h
  simp only [List.map_map] at this
  unfold Parted at *
  have h1 : (fun x : DomSet × Dom × Profile × Option ResultRecord => x.1) ∘ Island.kept = fun i => i.members := rfl
  rw [h1] at this
  rw [this]; exact hp

theorem parted_of_shape {m m' : Meas} (h : m'.islands.map Island.shape = m.islands.map Island.shape) (hp : Parted m) : Parted m' := by
  have := congrArg (List.map fun x : DomSet × Dom × Profile => x.1) h
  simp only [List.map_map] at this
  unfold Parted at *
  have h1 : (fun x : DomSet × Dom × Profile => x.1) ∘ Island.shape = fun i => i.members := rfl
  rw [h1] at this
  rw [this]; exact hp

theorem shape_of_kept {l l' : List Island} (h : l'.map Island.kept = l.map Island.kept) : l'.map Island.shape = l.map Island.shape := by
  have := congrArg (List.map fun x : DomSet × Dom × Profile × Option ResultRecord => (x.1, x.2.1, x.2.2.1)) h
  simp only [List.map_map] at this
  exact this

theorem Steady.trans {a b c : Meas} (h : Steady a b) (k : Steady b c) : Steady a c where
  toRearranged := h.toRearranged.trans k.toRearranged
  domsEq := k.domsEq.trans h.domsEq
  islands hp := (k.islands (parted_of_kept (h.islands hp) hp)).trans (h.islands hp)

theorem Steady.after {a b c : Meas} (k : Steady b c) (h : Steady a b) : Steady a c := h.trans k

theorem Steady.parted {m m' : Meas} (h : Steady m m') (hp : Parted m) : Parted m' := parted_of_kept (h.islands hp) hp

theorem Steady.sound {m m' : Meas} (h : Steady m m') : Sound m m' :=
  ⟨h.toRearranged.kept, fun hp => shape_of_kept (h.islands hp)⟩

theorem Kept.refl (m : Meas) : Kept m m := (Rearranged.refl m).kept

theorem Kept.trans {a b c : Meas} (h : Kept a b) (k : Kept b c) : Kept a c where
  timebase := k.timebase.trans h.timebase
  resetCause := k.resetCause.trans h.resetCause
  mask := k.mask.trans h.mask
  tables := k.tables.trans h.tables
  topo := k.topo.trans h.topo
  flags n hn := k.flags n (h.flags n hn)
  follow f := k.follow (h.follow f)
  alert f := k.alert (h.alert f)
  entries f := k.entries (h.entries f)

theorem Kept.fitted {m m' : Meas} (h : Kept m m') : Machine.fitted m' = Machine.fitted m := by
  funext d; simp [Machine.fitted, h.tables]

theorem Sound.refl (m : Meas) : Sound m m := (Steady.refl m).sound

theorem Sound.trans {a b c : Meas} (h : Sound a b) (k : Sound b c) : Sound a c where
  toKept := h.toKept.trans k.toKept
  islands hp := (k.islands (parted_of_shape (h.islands hp) hp)).trans (h.islands hp)

theorem Sound.parted {m m' : Meas} (h : Sound m m') (hp : Parted m) : Parted m' := parted_of_shape (h.islands hp) hp

/-! ### The primitives -/

/-- A change of taps that leaves their presence. -/
theorem steady_taps {m : Meas} {taps : PerDom Tap} (h : ∀ d, (taps.get d).presence = (m.taps.get d).presence) :
    Steady m { m with taps := taps } :=
  ⟨⟨rfl, rfl, rfl, rfl, rfl, rfl, rfl, rfl, rfl, rfl, rfl, rfl, h, fun _ => rfl, id⟩, rfl, fun _ => rfl⟩

theorem steady_changeTap (t : Dom) (f : Tap → Tap) (m : Meas) (h : ∀ p, (f p).presence = p.presence) : Steady m (changeTap t f m) := by
  apply steady_taps
  intro d
  rw [PerDom.get_set]; split
  · subst_vars; exact h _
  · rfl

theorem steady_unconfirm (t : Dom) (m : Meas) : Steady m (unconfirm t m) :=
  ⟨⟨rfl, rfl, rfl, rfl, rfl, rfl, rfl, rfl, rfl, rfl, rfl, rfl, fun _ => rfl, fun _ => rfl, id⟩, rfl, fun _ => rfl⟩

theorem steady_writeMailbox (t : Dom) (b : Mailbox) (m : Meas) : Steady m (writeMailbox t b m) :=
  (steady_unconfirm t _).after (steady_changeTap t _ m fun _ => rfl)

/-- A change of the islands that leaves their kept parts while their member sets are distinct. -/
theorem steady_islands {m : Meas} {is : List Island} (h : Parted m → is.map Island.kept = m.islands.map Island.kept) :
    Steady m { m with islands := is } :=
  ⟨⟨rfl, rfl, rfl, rfl, rfl, rfl, rfl, rfl, rfl, rfl, rfl, rfl, fun _ => rfl, fun _ => rfl, id⟩, rfl, h⟩

theorem steady_changeIsland (ds : DomSet) (f : Island → Island) (m : Meas) (h : ∀ i, (f i).kept = i.kept) :
    Steady m (changeIsland ds f m) := by
  apply steady_islands
  intro _
  rw [List.map_map]
  apply List.map_congr_left
  intro i _
  simp only [Function.comp]; split
  · exact h i
  · rfl

theorem steady_putIsland {i j : Island} {m : Meas} (hj : j ∈ m.islands) (h : i.kept = j.kept) : Steady m (putIsland i m) := by
  apply steady_islands
  intro hp
  rw [List.map_map]
  apply List.map_congr_left
  intro k hk
  simp only [Function.comp]; split
  · rename_i he
    have hm : i.members = j.members := congrArg Prod.fst h
    have : k = j := hp.eq_of_members hj hk (by rw [← hm]; simpa using he)
    rw [h, this]
  · rfl

theorem steady_suspended {m : Meas} {l : List SuspendEntry} (h : EntriesDistinct m → EntriesDistinct { m with suspended := l }) :
    Steady m { m with suspended := l } :=
  ⟨⟨rfl, rfl, rfl, rfl, rfl, rfl, rfl, rfl, rfl, rfl, rfl, rfl, fun _ => rfl, fun _ => rfl, h⟩, rfl, fun _ => rfl⟩

theorem steady_dropEntry (ds : DomSet) (m : Meas) : Steady m (dropEntry ds m) := steady_suspended (entriesDistinct_filter _)

/-- A change of the claim record's arming or confirmed taps. -/
theorem steady_changeClaim (f : Claim → Claim) (m : Meas)
    (h : f m.claim = { m.claim with armed := (f m.claim).armed, confirmed := (f m.claim).confirmed }) : Steady m (changeClaim f m) :=
  ⟨⟨rfl, rfl, rfl, rfl, rfl, rfl, rfl, rfl, rfl, rfl, rfl, h, fun _ => rfl, fun _ => rfl, id⟩, rfl, fun _ => rfl⟩

theorem steady_changeRef (f : RefCheck → RefCheck) (m : Meas) : Steady m (changeRef f m) :=
  ⟨⟨rfl, rfl, rfl, rfl, rfl, rfl, rfl, rfl, rfl, rfl, rfl, rfl, fun _ => rfl, fun _ => rfl, id⟩, rfl, fun _ => rfl⟩

theorem sound_raise (f : Flag) (m : Meas) : Sound m (raise f m) where
  timebase := rfl
  resetCause := rfl
  mask := rfl
  tables := rfl
  topo := rfl
  flags n hn := by simp [hn]
  follow hf g hg := by
    have h1 : conditionHolds (raise f m) g = conditionHolds m g := by cases g <;> rfl
    rw [h1] at hg
    have := hf g hg
    simp only [flagSet] at this
    simp [flagSet, this]
  alert := id
  entries := id
  islands _ := rfl

/-! ### Ramps and the cycle engine -/

theorem steady_startRamp (t : Dom) (r : Ramp) (onEnd : Meas → Meas) (m : Meas) (h : ∀ m, Steady m (onEnd m)) :
    Steady m (startRamp t r onEnd m) := by
  unfold startRamp; split
  · exact (h _).after (steady_changeTap t _ m fun _ => rfl)
  · exact steady_changeTap t _ m fun _ => rfl

theorem steady_enterSettle (ph : Phase) (ds : DomSet) (m : Meas) : Steady m (enterSettle ph ds m) :=
  steady_changeIsland ds _ m fun _ => rfl

theorem steady_enterPlateau (ph : Phase) (ds : DomSet) (m : Meas) : Steady m (enterPlateau ph ds m) :=
  steady_changeIsland ds _ m fun _ => rfl

theorem steady_startCycle (md : Mode) (ds : DomSet) (m : Meas) : Steady m (startCycle md ds m) := by
  unfold startCycle; split
  · exact .refl m
  · rename_i i hi; split
    · exact .refl m
    · exact (steady_enterSettle ..).after ((steady_writeMailbox ..).after (steady_putIsland (islandAt_mem hi) rfl))

theorem steady_enterInterval (ds : DomSet) (m : Meas) : Steady m (enterInterval ds m) := by
  unfold enterInterval; split
  · exact .refl m
  · rename_i i hi
    dsimp only; split
    · exact (steady_startCycle ..).after (steady_putIsland (islandAt_mem hi) rfl)
    · exact steady_putIsland (islandAt_mem hi) rfl

theorem steady_endCycle (ds : DomSet) (m : Meas) : Steady m (endCycle ds m) := by
  unfold endCycle; split
  · exact .refl m
  · rename_i i hi; split
    · exact (steady_startCycle ..).after (steady_putIsland (islandAt_mem hi) rfl)
    · exact steady_enterInterval ..

theorem steady_afterCycleRamp (ds : DomSet) (m : Meas) : Steady m (afterCycleRamp ds m) := by
  unfold afterCycleRamp; split
  · exact .refl m
  · split
    · exact steady_enterSettle ..
    · exact steady_enterSettle ..
    · exact steady_endCycle ..
    · exact .refl m

theorem steady_enterRamp (st : CycleStep) (ds : DomSet) (m : Meas) : Steady m (enterRamp st ds m) := by
  unfold enterRamp; split
  · exact .refl m
  · rename_i i hi
    exact (steady_startRamp _ _ _ _ (steady_afterCycleRamp ds)).after (steady_putIsland (islandAt_mem hi) rfl)

theorem steady_enterStalled (ds : DomSet) (m : Meas) : Steady m (enterStalled ds m) := by
  unfold enterStalled; split
  · exact .refl m
  · rename_i i hi
    exact (steady_dropEntry ..).after ((steady_writeMailbox ..).after (steady_putIsland (islandAt_mem hi) rfl))

theorem steady_suspendCycle (i : Island) (st : CycleStep) (cause : SuspendCause) (m : Meas) : Steady m (suspendCycle i st cause m) := by
  unfold suspendCycle; split
  · rename_i ph c _ _; split
    · exact .refl m
    · apply steady_suspended
      intro h
      have h1 := entriesDistinct_filter (fun e => e.members != i.members) h
      simp only [EntriesDistinct, dropEntry, List.map_append, List.map_cons, List.map_nil] at *
      rw [List.nodup_append]
      refine ⟨h1, by simp, ?_⟩
      intro a ha b hb
      simp only [List.mem_singleton] at hb
      subst hb
      simp only [List.mem_map, List.mem_filter] at ha
      obtain ⟨e, ⟨_, he⟩, rfl⟩ := ha
      simpa using he
  · exact .refl m

theorem steady_resumeCycle (e : SuspendEntry) (ds : DomSet) (m : Meas) : Steady m (resumeCycle e ds m) := by
  unfold resumeCycle
  dsimp only
  split
  · exact (steady_enterSettle ..).after (steady_changeIsland ds _ m fun _ => rfl)
  · exact (steady_enterRamp ..).after (steady_changeIsland ds _ m fun _ => rfl)
  · exact (steady_enterRamp ..).after (steady_changeIsland ds _ m fun _ => rfl)

theorem steady_startFirst (ds : DomSet) (m : Meas) : Steady m (startFirst ds m) := by
  unfold startFirst; split
  · exact .refl m
  · rename_i i hi
    exact (steady_startCycle ..).after (steady_putIsland (islandAt_mem hi) rfl)

theorem steady_endForming (ds : DomSet) (m : Meas) : Steady m (endForming ds m) := by
  unfold endForming; split
  · exact .refl m
  · split
    · exact steady_enterStalled ..
    · split
      · dsimp only; split
        · exact (steady_startFirst ..).after (steady_dropEntry ..)
        · exact (steady_resumeCycle ..).after (steady_dropEntry ..)
      · exact steady_startFirst ..

theorem steady_settleEnd (ds : DomSet) (m : Meas) : Steady m (settleEnd ds m) := by
  unfold settleEnd; split
  · exact steady_endForming ..
  · exact steady_changeIsland ds _ m fun _ => rfl

theorem steady_enterForming (ds : DomSet) (m : Meas) : Steady m (enterForming ds m) := by
  unfold enterForming; split
  · exact .refl m
  · rename_i i hi
    have h := (steady_putIsland (m := m) (i := { stopTimers i with
      state := .forming, settleTimer := .running ⟨m.timebase, settleTime m⟩ }) (islandAt_mem hi) rfl).trans
      (steady_writeMailbox i.injector .quiet _)
    dsimp only; split
    · exact (steady_settleEnd ..).after h
    · exact h

theorem steady_foldl {α : Type} {f : Meas → α → Meas} (h : ∀ m a, Steady m (f m a)) (l : List α) (m : Meas) :
    Steady m (l.foldl f m) := by
  induction l generalizing m with
  | nil => exact .refl m
  | cons a l ih => exact (h m a).trans (ih _)

theorem steady_endExpiredFormings (m : Meas) : Steady m (endExpiredFormings m) :=
  steady_foldl (fun m i => by split; exacts [steady_endForming .., .refl m]) _ _

theorem steady_stallOnLoss (t : Dom) (m : Meas) : Steady m (stallOnLoss t m) := by
  unfold stallOnLoss
  split
  · exact .refl m
  · split <;> first | exact steady_enterStalled .. | exact .refl m

theorem steady_recoverOnPresent (t : Dom) (m : Meas) : Steady m (recoverOnPresent t m) := by
  unfold recoverOnPresent
  split
  · exact .refl m
  · split; exacts [steady_enterForming .., .refl m]

theorem steady_demandOn (d : Dom) (md : Mode) (m : Meas) : Steady m (demandOn d md m) := by
  unfold demandOn
  split
  · exact .refl m
  · rename_i i hi
    split <;> first
      | exact steady_startCycle ..
      | exact steady_putIsland (islandOf_mem hi) rfl
      | exact .refl m

end Sys2Proof.Machine
end

