-- ==== Sys2Proof/Laws/Units.lean ====
section
/-! SUPPORT. What the operations of the verdict unit, the reference check unit, the claim unit, the resolver and the chain interface
leave unchanged. -/

namespace Sys2Proof.Machine

theorem Sound.after {a b c : Meas} (k : Sound b c) (h : Sound a b) : Sound a c := h.trans k

theorem Kept.after {a b c : Meas} (k : Kept b c) (h : Kept a b) : Kept a c := h.trans k

theorem Rearranged.after {a b c : Meas} (k : Rearranged b c) (h : Rearranged a b) : Rearranged a c := h.trans k

theorem sound_foldl {α : Type} {f : Meas → α → Meas} (h : ∀ m a, Sound m (f m a)) (l : List α) (m : Meas) :
    Sound m (l.foldl f m) := by
  induction l generalizing m with
  | nil => exact .refl m
  | cons a l ih => exact (h m a).trans (ih _)

theorem rearranged_foldl {α : Type} {f : Meas → α → Meas} (h : ∀ m a, Rearranged m (f m a)) (l : List α) (m : Meas) :
    Rearranged m (l.foldl f m) := by
  induction l generalizing m with
  | nil => exact .refl m
  | cons a l ih => exact (h m a).trans (ih _)

/-! ### Flags that follow their conditions -/

theorem getLsbD_twoPow32 {f : Flag} (n : Nat) : f.word.getLsbD n = decide (n = f.bit) := by
  have : f.bit < 32 := by cases f <;> decide
  rw [Flag.word, BitVec.getLsbD_twoPow]
  rw [Bool.eq_iff_iff]; simp; omega

theorem Flag.bit_inj {f g : Flag} : f.bit = g.bit ↔ f = g := by
  constructor
  · cases f <;> cases g <;> simp [Flag.bit]
  · rintro rfl; rfl

/-- The word of the conditions that hold has exactly their bits. -/
theorem getLsbD_conditionWord (m : Meas) (f : Flag) : (conditionWord m).getLsbD f.bit = conditionHolds m f := by
  have key : ∀ (l : List Flag) (w : BitVec 32),
      (l.foldl (fun w g => if conditionHolds m g then w ||| g.word else w) w).getLsbD f.bit
        = (w.getLsbD f.bit || (decide (f ∈ l) && conditionHolds m f)) := by
    intro l
    induction l with
    | nil => simp
    | cons g l ih =>
      intro w
      rw [List.foldl_cons, ih]
      by_cases hg : conditionHolds m g = true
      · rw [if_pos hg, BitVec.getLsbD_or, getLsbD_twoPow32]
        by_cases hfg : f = g
        · subst hfg; simp [hg]
        · simp [Flag.bit_inj, hfg]
      · rw [if_neg hg]
        by_cases hfg : f = g
        · subst hfg; simp [hg]
        · simp [hfg]
  rw [conditionWord, key]
  cases f <;> simp [conditionFlags, conditionHolds]

theorem flagSet_raise (f g : Flag) (m : Meas) : flagSet (raise f m) g = (flagSet m g || decide (g = f)) := by
  simp only [flagSet, raise_flags, BitVec.getLsbD_or, getLsbD_twoPow32, Flag.bit_inj]

theorem flagSet_followConditions (f : Flag) (m : Meas) : flagSet (followConditions m) f = (flagSet m f || conditionHolds m f) := by
  simp only [flagSet, followConditions_flags, BitVec.getLsbD_or, getLsbD_conditionWord]

theorem flagSet_clearReported (f : Flag) (m : Meas) : flagSet (clearReported m) f = (flagSet m f && conditionHolds m f) := by
  simp only [flagSet, clearReported, BitVec.getLsbD_and, getLsbD_conditionWord]

theorem conditionHolds_followConditions (m : Meas) (f : Flag) : conditionHolds (followConditions m) f = conditionHolds m f := by
  cases f <;> rfl

theorem anyVerdict_iff (m : Meas) (v : Verdict) :
    anyVerdict m v = true ↔ ∃ d, fitted m d = true ∧ (m.doms.get d).verdict = v := by
  simp [anyVerdict]

/-- After `followConditions` every condition that holds has its flag. -/
theorem flagsFollow_followConditions (m : Meas) : FlagsFollow (followConditions m) := by
  intro f hf
  rw [conditionHolds_followConditions] at hf
  rw [flagSet_followConditions, hf, Bool.or_true]

/-- After `followConditions` ISO_ALERT is as the verdicts ask. -/
theorem alertFollows_followConditions (m : Meas) : AlertFollows (followConditions m) := by
  have h := anyVerdict_iff m .fault
  show alertOf m = .low ↔ _
  rw [alertOf]
  split
  · rename_i h'; simp only [true_iff]; exact h.1 h'
  · rename_i h'; simp only [reduceCtorEq, false_iff]; exact fun hx => h' (h.2 hx)

/-- An update that only moves verdicts, followed by `followConditions`. -/
theorem sound_followed {m m' : Meas} (h1 : m'.timebase = m.timebase) (h2 : m'.resetCause = m.resetCause)
    (h3 : m'.mask = m.mask) (h4 : m'.tables = m.tables) (h5 : m'.topo = m.topo)
    (h7 : ∀ n, m.flags.getLsbD n = true → m'.flags.getLsbD n = true)
    (h8 : EntriesDistinct m → EntriesDistinct m') (h9 : Parted m → m'.islands.map Island.shape = m.islands.map Island.shape) :
    Sound m (followConditions m') where
  timebase := h1
  resetCause := h2
  mask := h3
  tables := h4
  topo := h5
  flags n hn := by rw [followConditions_flags, BitVec.getLsbD_or, h7 n hn, Bool.true_or]
  follow _ := flagsFollow_followConditions m'
  alert _ := alertFollows_followConditions m'
  entries := h8
  islands := h9

/-! ### Verdicts -/

/-- A change of a domain's record that leaves its verdict. -/
theorem sound_changeDom (d : Dom) (f : DomRec → DomRec) (m : Meas) (h : (f (m.doms.get d)).verdict = (m.doms.get d).verdict) :
    Sound m (changeDom d f m) := by
  have hv : ∀ e, ((changeDom d f m).doms.get e).verdict = (m.doms.get e).verdict := by
    intro e
    show ((m.doms.set d (f (m.doms.get d))).get e).verdict = _
    rw [PerDom.get_set]; split
    · subst_vars; exact h
    · rfl
  have ha : ∀ v, anyVerdict (changeDom d f m) v = anyVerdict m v := by
    intro v; simp only [anyVerdict, hv]; rfl
  have hc : ∀ g, conditionHolds (changeDom d f m) g = conditionHolds m g := by
    intro g; cases g <;> first | rfl | exact ha _
  exact {
    timebase := rfl
    resetCause := rfl
    mask := rfl
    tables := rfl
    topo := rfl
    flags := fun _ h => h
    follow := fun hf g hg => hf g (by rw [← hc]; exact hg)
    alert := fun hf => by
      simp only [AlertFollows, hv] at *; exact hf
    entries := id
    islands := fun _ => rfl }

theorem sound_putVerdict (d : Dom) (r : DomRec) (m : Meas) : Sound m (putVerdict d r m) := by
  unfold putVerdict
  dsimp only
  split
  · rename_i h; exact sound_changeDom d _ m (by simpa using h)
  · exact sound_followed rfl rfl rfl rfl rfl (fun n hn => by
      simp only [raise_flags, BitVec.getLsbD_or, Bool.or_eq_true]; exact .inl hn) id fun _ => rfl

theorem sound_agingTest (d : Dom) (m : Meas) : Sound m (agingTest d m) := by
  unfold agingTest; split
  · exact sound_putVerdict ..
  · exact .refl m

theorem sound_agingTests (ds : List Dom) (m : Meas) : Sound m (agingTests ds m) := sound_foldl (fun m d => sound_agingTest d m) _ _

theorem sound_updateSolo (r : ResultRecord) (riso : Nat) (m : Meas) : Sound m (updateSolo r riso m) := by
  unfold updateSolo; split
  · split
    · exact sound_changeDom _ _ m rfl
    · exact .refl m
  · exact .refl m

theorem sound_evaluateDomain (p : Profile) (r : ResultRecord) (riso : Nat) (m : Meas) (d : Dom) :
    Sound m (evaluateDomain p r riso m d) := by
  unfold evaluateDomain; split
  · exact .refl m
  · exact sound_putVerdict ..

theorem sound_recordFault (before : PerDom DomRec) (p : Profile) (a : Nat) (r : ResultRecord) (m : Meas) (d : Dom) :
    Sound m (recordFault before p a r m d) := by
  unfold recordFault; split
  · exact sound_changeDom _ _ m rfl
  · exact .refl m

theorem sound_evaluate (p : Profile) (a : Nat) (r : ResultRecord) (m : Meas) : Sound m (evaluate p a r m) := by
  unfold evaluate; split
  · dsimp only; split
    · exact (sound_foldl (sound_recordFault _ p a r) _ _).after
        ((sound_foldl (sound_evaluateDomain p r _) _ _).after (sound_updateSolo ..))
    · exact sound_updateSolo ..
  · exact .refl m

/-- A change of the islands that leaves their shapes, and of the result number. -/
theorem sound_slot {m : Meas} {i j : Island} (n : BitVec 16) (hj : j ∈ m.islands) (h : i.shape = j.shape) :
    Sound m (putIsland i { m with resultNumber := n }) where
  timebase := rfl
  resetCause := rfl
  mask := rfl
  tables := rfl
  topo := rfl
  flags _ h := h
  follow hf g hg := hf g (by cases g <;> exact hg)
  alert h := h
  entries h := h
  islands hp := by
    rw [putIsland_islands, List.map_map]
    apply List.map_congr_left
    intro k hk
    simp only [Function.comp]; split
    · rename_i he
      have hm : i.members = j.members := congrArg Prod.fst h
      have : k = j := hp.eq_of_members hj hk (by rw [← hm]; simpa using he)
      rw [h, this]
    · rfl

theorem sound_publish (ds : DomSet) (timedOut : Bool) (m : Meas) : Sound m (publish ds timedOut m) := by
  unfold publish; split
  · exact .refl m
  · rename_i i hi; split
    · exact .refl m
    · dsimp only; split
      · exact (sound_evaluate ..).after ((sound_raise ..).after (sound_slot _ (islandAt_mem hi) rfl))
      · exact (sound_evaluate ..).after (sound_slot _ (islandAt_mem hi) rfl)

/-! ### The cycle engine's plateaus -/

theorem sound_completePlateau (ph : Phase) (ds : DomSet) (m : Meas) : Sound m (completePlateau ph ds m) := by
  unfold completePlateau; split
  · exact .refl m
  · rename_i i hi
    have hput := fun ms : Means => (Steady.sound (steady_putIsland (m := m) (i := { i with means := ms }) (islandAt_mem hi) rfl))
    dsimp only; split
    · exact (steady_enterRamp ..).sound.after (hput _)
    · exact (steady_enterRamp ..).sound.after (hput _)
    · exact (steady_enterRamp ..).sound.after ((sound_publish ..).after (hput _))

theorem sound_cycleSample (t : Dom) (delta : Nat) (x : Sample) (m : Meas) : Sound m (cycleSample t delta x m) := by
  unfold cycleSample; split
  · exact .refl m
  · rename_i i hi; split
    · split
      · exact .refl m
      · have hput := fun (a : Accum) (q : Quality) (c : Counts) =>
          (Steady.sound (steady_putIsland (m := m) (i := { i with acc := a, quality := q, counts := c }) (injectedBy_mem hi) rfl))
        dsimp only; split
        · exact (steady_enterPlateau ..).sound.after (hput ..)
        · split
          · exact (sound_completePlateau ..).after (hput ..)
          · exact hput ..
    · exact .refl m

theorem sound_phaseExpiry {ds : DomSet} {m m' : Meas} (h : phaseExpiry ds m = some m') : Sound m m' := by
  unfold phaseExpiry at h
  split at h
  · simp at h
  · rename_i i hi
    (repeat' split at h) <;> simp at h
    subst h
    exact (Steady.sound ((steady_enterPlateau ..).after (steady_putIsland (islandAt_mem hi) rfl)))

theorem sound_plateauExpiry {ds : DomSet} {m m' : Meas} (h : plateauExpiry ds m = some m') : Sound m m' := by
  unfold plateauExpiry at h
  split at h
  · simp at h
  · rename_i i hi
    (repeat' split at h) <;> simp at h
    subst h
    exact (steady_enterRamp ..).sound.after ((sound_publish ..).after ((sound_raise ..).after
      (Steady.sound (steady_putIsland (islandAt_mem hi) rfl))))

theorem steady_intervalExpiry {ds : DomSet} {m m' : Meas} (h : intervalExpiry ds m = some m') : Steady m m' := by
  unfold intervalExpiry at h
  (repeat' split at h) <;> simp at h
  subst h
  exact steady_startCycle ..

theorem steady_settleExpiry {ds : DomSet} {m m' : Meas} (h : settleExpiry ds m = some m') : Steady m m' := by
  unfold settleExpiry at h
  (repeat' split at h) <;> simp at h
  subst h
  exact steady_settleEnd ..

theorem steady_suspendExpiry {ds : DomSet} {m m' : Meas} (h : suspendExpiry ds m = some m') : Steady m m' := by
  unfold suspendExpiry at h
  (repeat' split at h) <;> simp at h
  subst h
  exact steady_dropEntry ..

/-! ### The reference check unit -/

theorem steady_switchToRef (t : Dom) (m : Meas) : Steady m (switchToRef t m) :=
  (steady_changeRef ..).after (steady_writeMailbox ..)

theorem steady_releaseRefhold (t : Dom) (m : Meas) : Steady m (releaseRefhold t m) := by
  unfold releaseRefhold
  (repeat' split) <;> first | exact .refl m | exact steady_enterForming .. | exact steady_enterStalled ..

/-- A change of the deferred requests and responses, the claim record and the reference-check record alone. -/
theorem sound_records {m : Meas} (px pr : Option PendingRec) (h : List Frame) (c : Claim) (r : Option RefCheck) :
    Sound m { m with pendXclaim := px, pendRchk := pr, heldResponses := h, claim := c, ref := r } where
  timebase := rfl
  resetCause := rfl
  mask := rfl
  tables := rfl
  topo := rfl
  flags _ h := h
  follow hf g hg := hf g (by cases g <;> exact hg)
  alert h := h
  entries h := h
  islands _ := rfl

theorem sound_deferRchk (st : Status) (vs : List Byte) (m : Meas) : Sound m (deferRchk st vs m) := by
  unfold deferRchk; split
  · exact .refl m
  · exact sound_records ..

theorem sound_deferXclaim (st : Status) (vs : List Byte) (m : Meas) : Sound m (deferXclaim st vs m) := by
  unfold deferXclaim; split
  · exact .refl m
  · exact sound_records ..

theorem sound_finishRef (o : RefOutcome) (rraw : Option Nat) (decided : Time) (m : Meas) : Sound m (finishRef o rraw decided m) := by
  unfold finishRef; split
  · exact .refl m
  · refine (steady_releaseRefhold ..).sound.after ((sound_records _ _ _ _ none).after ((sound_deferRchk ..).after ?_))
    have h := (sound_raise .refDone _).after (Steady.sound (steady_writeMailbox (m := m) ‹RefCheck›.tap .rest))
    split
    · exact (sound_raise ..).after h
    · exact h

theorem sound_endRef (m : Meas) : Sound m (endRef m) := by
  unfold endRef; split
  · exact .refl m
  · exact sound_finishRef ..

theorem sound_refLost (t : Dom) (m : Meas) : Sound m (refLost t m) := by
  unfold refLost; split
  · exact sound_finishRef ..
  · exact .refl m

theorem sound_afterRefRamp (t : Dom) (m : Meas) : Sound m (afterRefRamp t m) := by
  unfold afterRefRamp; split
  · exact .refl m
  · split <;> first
      | exact (Steady.sound (steady_switchToRef ..))
      | exact (Steady.sound (steady_changeRef ..))
      | exact sound_endRef ..
      | exact .refl m

theorem sound_startRamp (t : Dom) (r : Ramp) (onEnd : Meas → Meas) (m : Meas) (h : ∀ m, Sound m (onEnd m)) :
    Sound m (startRamp t r onEnd m) := by
  unfold startRamp; split
  · exact (h _).after (Steady.sound (steady_changeTap t _ m fun _ => rfl))
  · exact (Steady.sound (steady_changeTap t _ m fun _ => rfl))

theorem sound_refRamp (st : CycleStep) (m : Meas) : Sound m (refRamp st m) := by
  unfold refRamp; split
  · exact .refl m
  · exact (sound_startRamp _ _ _ _ (sound_afterRefRamp _)).after (Steady.sound (steady_changeRef ..))

theorem sound_refComplete (ph : Phase) (m : Meas) : Sound m (refComplete ph m) := by
  unfold refComplete; split
  · exact .refl m
  · dsimp only; split
    · exact sound_refRamp ..
    · exact (sound_refRamp ..).after (Steady.sound (steady_changeRef ..))
    · exact (sound_refRamp ..).after (Steady.sound (steady_changeRef ..))

theorem sound_refSample (t : Dom) (delta : Nat) (x : Sample) (m : Meas) : Sound m (refSample t delta x m) := by
  unfold refSample; split
  · exact .refl m
  · split
    · split
      · exact .refl m
      · split
        · exact .refl m
        · dsimp only; split
          · exact (Steady.sound ((steady_changeRef ..).after (steady_changeRef ..)))
          · split
            · exact (sound_refComplete ..).after (Steady.sound (steady_changeRef ..))
            · exact (Steady.sound (steady_changeRef ..))
    · exact .refl m

theorem steady_refPhaseExpiry {m m' : Meas} (h : refPhaseExpiry m = some m') : Steady m m' := by
  unfold refPhaseExpiry at h
  (repeat' split at h) <;> simp at h
  subst h
  exact steady_changeRef ..

theorem sound_refPlateauExpiry {m m' : Meas} (h : refPlateauExpiry m = some m') : Sound m m' := by
  unfold refPlateauExpiry at h
  (repeat' split at h) <;> simp at h
  subst h
  exact (sound_refRamp ..).after (Steady.sound (steady_changeRef ..))

theorem sound_beginPreempt (i : Island) (f : Island → Island) (m : Meas) (h : ∀ j, (f j).kept = j.kept) :
    Sound m (beginPreempt i f m) :=
  (sound_startRamp _ _ _ _ (sound_afterRefRamp _)).after
    (Steady.sound ((steady_changeRef ..).after (steady_changeIsland _ _ m fun j => h j)))

theorem sound_preemptTap (t : Dom) (m : Meas) : Sound m (preemptTap t m) := by
  unfold preemptTap; split
  · exact (Steady.sound (steady_switchToRef ..))
  · split <;> first
      | exact (sound_beginPreempt _ clearCyclePart _ fun _ => rfl).after (Steady.sound (steady_suspendCycle ..))
      | exact sound_beginPreempt _ stopTimers _ fun _ => rfl
      | exact (Steady.sound (steady_switchToRef ..))

theorem sound_acceptRchk (t : Dom) (q : Frame) (m : Meas) : Sound m (acceptRchk t q m) := by
  unfold acceptRchk; split
  · exact .refl m
  · exact (sound_preemptTap ..).after (sound_records ..)

theorem steady_endPreemptOn (t : Dom) (m : Meas) : Steady m (endPreemptOn t m) := by
  unfold endPreemptOn
  (repeat' split) <;> first | exact .refl m | exact steady_switchToRef ..

/-! ### The claim unit -/

theorem steady_rampDown (t : Dom) (slew : Nat) (m : Meas) : Steady m (rampDown t slew m) :=
  steady_startRamp _ _ _ _ fun _ => steady_writeMailbox ..

theorem steady_takeIsland (m : Meas) : Steady m (takeIsland m) := by
  unfold takeIsland; split
  · split
    · exact .refl m
    · dsimp only
      split <;> first
        | exact Steady.after (steady_rampDown ..) (Steady.after (steady_changeIsland _ _ _ fun _ => rfl) (steady_suspendCycle ..))
        | exact Steady.after (steady_rampDown ..) (steady_changeIsland _ _ _ fun _ => rfl)
        | exact steady_changeIsland _ _ _ fun _ => rfl
        | exact .refl m
  · exact .refl m

theorem steady_armClaim (m : Meas) : Steady m (armClaim m) := by
  unfold armClaim; split
  · exact .refl m
  · exact steady_changeClaim _ _ rfl

theorem steady_confirmSample (t : Dom) (x : Sample) (m : Meas) : Steady m (confirmSample t x m) := by
  unfold confirmSample; split
  · exact steady_changeClaim _ _ rfl
  · exact .refl m

theorem sound_grantWith (st : Status) (m : Meas) : Sound m (grantWith st m) := by
  unfold grantWith
  refine (sound_deferXclaim ..).after ((sound_raise ..).after ?_)
  split
  · exact Sound.after (b := changeClaim _ m) (Steady.sound (steady_changeIsland _ _ _ fun _ => rfl)) (sound_records ..)
  · exact sound_records ..

theorem sound_claimCheck (m : Meas) : Sound m (claimCheck m) := by
  unfold claimCheck
  dsimp only; split
  · exact (sound_grantWith ..).after (Steady.sound (steady_armClaim m))
  · exact (Steady.sound (steady_armClaim m))

/-- Without a claim the grant test does nothing. -/
theorem claimCheck_of_none {m : Meas} (h : m.claim.state = .none) : claimCheck m = m := by
  have ha : armClaim m = m := by simp [armClaim, h]
  simp [claimCheck, ha, h]

/-- The grant test on a claim that is GRANTED only arms it. -/
theorem claimCheck_of_granted {m : Meas} (h : m.claim.state = .granted) : claimCheck m = armClaim m := by
  have ha : (armClaim m).claim.state = .granted := by rw [(steady_armClaim m).claim]; exact h
  simp [claimCheck, ha]

theorem sound_acceptXclaim (d : Dom) (q : Frame) (m : Meas) : Sound m (acceptXclaim d q m) :=
  (sound_claimCheck _).after ((steady_takeIsland _).sound.after (sound_records ..))

theorem steady_forceTap (m : Meas) (t : Dom) : Steady m (forceTap m t) := by
  unfold forceTap
  (repeat' split) <;> first | exact steady_endPreemptOn .. | exact .refl m | exact steady_writeMailbox ..

theorem sound_handoffExpiry {m m' : Meas} (h : handoffExpiry m = some m') : Sound m m' := by
  unfold handoffExpiry at h
  split at h <;> simp at h
  subst h
  exact (sound_grantWith ..).after ((steady_armClaim _).sound.after (Steady.sound (steady_foldl steady_forceTap _ _)))

theorem sound_releaseClaim (m : Meas) : Sound m (releaseClaim m) := by
  unfold releaseClaim
  refine (sound_agingTests ..).after ?_
  (repeat' split) <;> first
    | exact sound_records ..
    | exact Sound.after (b := changeClaim _ m) (Steady.sound (steady_changeIsland _ _ _ fun _ => rfl)) (sound_records ..)
    | exact Sound.after (b := changeClaim _ m) (Steady.sound (steady_enterForming ..)) (sound_records ..)

/-! ### The resolver -/

theorem steady_dropInjector (t : Dom) (m : Meas) : Steady m (dropInjector t m) := by
  unfold dropInjector; split
  · exact steady_endPreemptOn ..
  · exact steady_writeMailbox ..

theorem rearranged_resetMemberRuns (ds : DomSet) (m : Meas) : Rearranged m (resetMemberRuns ds m) :=
  ⟨rfl, rfl, rfl, rfl, rfl, rfl, rfl, rfl, rfl, rfl, rfl, rfl, fun _ => rfl, fun d => by
    simp only [resetMemberRuns, PerDom.get_mapWith]; split <;> rfl, id⟩

theorem rearranged_islands {m : Meas} (is : List Island) : Rearranged m { m with islands := is } :=
  ⟨rfl, rfl, rfl, rfl, rfl, rfl, rfl, rfl, rfl, rfl, rfl, rfl, fun _ => rfl, fun _ => rfl, id⟩

theorem rearranged_dissolveIsland (m : Meas) (i : Island) : Rearranged m (dissolveIsland m i) :=
  (rearranged_resetMemberRuns ..).after ((steady_dropEntry ..).toRearranged.after
    ((rearranged_islands _).after (Steady.toRearranged (steady_dropInjector ..))))

theorem steady_enterFormed (m : Meas) (p : IslandSpec) : Steady (resetMemberRuns p.members m) (enterFormed m p) := by
  unfold enterFormed
  dsimp only
  (repeat' split) <;> first
    | exact steady_changeIsland _ _ _ fun _ => rfl
    | exact Steady.after (steady_writeMailbox ..) (steady_changeIsland _ _ _ fun _ => rfl)
    | exact steady_enterForming ..

theorem rearranged_enterFormed (m : Meas) (p : IslandSpec) : Rearranged m (enterFormed m p) :=
  (steady_enterFormed m p).toRearranged.after (rearranged_resetMemberRuns p.members m)

theorem steady_discardStrayEntries (m : Meas) : Steady m (discardStrayEntries m) := steady_suspended (entriesDistinct_filter _)

theorem steady_trimConfirmed (m : Meas) : Steady m (trimConfirmed m) := steady_changeClaim _ _ rfl

/-- A change of partition, up to its aging and grant tests. -/
def rearrange (before : Meas) (parts : List IslandSpec) (m : Meas) : Meas :=
  let gone := before.islands.filter fun i => !isContinued parts i
  let fresh := parts.filter fun p => (continuedFrom before.islands p).isNone
  let m1 := gone.foldl dissolveIsland m
  trimConfirmed (discardStrayEntries (fresh.foldl enterFormed { m1 with islands := placeIslands m1.islands parts }))

theorem changePartition_eq (before : Meas) (parts : List IslandSpec) (m : Meas) :
    changePartition before parts m =
      claimCheck (agingTests (agingTouched before (rearrange before parts m)) (rearrange before parts m)) := rfl

theorem rearranged_rearrange (before : Meas) (parts : List IslandSpec) (m : Meas) : Rearranged m (rearrange before parts m) :=
  (steady_trimConfirmed _).toRearranged.after ((steady_discardStrayEntries _).toRearranged.after
    ((rearranged_foldl rearranged_enterFormed _ _).after
      ((rearranged_islands _).after (rearranged_foldl rearranged_dissolveIsland _ _))))

theorem kept_changePartition (before : Meas) (parts : List IslandSpec) (m : Meas) : Kept m (changePartition before parts m) :=
  (sound_claimCheck _).toKept.after ((sound_agingTests ..).toKept.after (rearranged_rearrange before parts m).kept)

/-- A continued or new island has the shape its row gives it. -/
theorem placeIslands_shape (old : List Island) (parts : List IslandSpec) :
    (placeIslands old parts).map Island.shape = parts.map fun p => (p.members, p.injector, p.profile) := by
  simp only [placeIslands, List.map_map]
  apply List.map_congr_left
  intro p _
  simp only [Function.comp]
  split
  · rename_i i hi
    have := List.find?_some hi
    simp only [Bool.and_eq_true, beq_iff_eq] at this
    simp [Island.shape, this.1, this.2]
  · rfl

theorem enterFormed_kept (m : Meas) (p : IslandSpec) (hp : Parted m) :
    (enterFormed m p).islands.map Island.kept = m.islands.map Island.kept := (steady_enterFormed m p).islands hp

/-- After a change of partition the islands are those of the new one, when its member sets are distinct. -/
theorem changePartition_shape (before : Meas) (parts : List IslandSpec) (m : Meas) (h : (parts.map (·.members)).Nodup) :
    (changePartition before parts m).islands.map Island.shape = parts.map fun p => (p.members, p.injector, p.profile) := by
  have fold : ∀ (l : List IslandSpec) (m : Meas), Parted m →
      (l.foldl enterFormed m).islands.map Island.shape = m.islands.map Island.shape := by
    intro l
    induction l with
    | nil => intro m _; rfl
    | cons p l ih =>
      intro m hp
      have h1 := shape_of_kept (enterFormed_kept m p hp)
      rw [List.foldl_cons, ih _ (parted_of_shape h1 hp), h1]
  have parted : ∀ m : Meas, m.islands.map Island.shape = (parts.map fun p => (p.members, p.injector, p.profile)) → Parted m := by
    intro m hm
    have := congrArg (List.map fun x : DomSet × Dom × Profile => x.1) hm
    simp only [List.map_map] at this
    unfold Parted
    have h1 : (fun x : DomSet × Dom × Profile => x.1) ∘ Island.shape = fun i => i.members := rfl
    rw [h1] at this
    rw [this]; exact h
  have hr : (rearrange before parts m).islands.map Island.shape = parts.map fun p => (p.members, p.injector, p.profile) := by
    have h0 := placeIslands_shape ((before.islands.filter fun i => !isContinued parts i).foldl dissolveIsland m).islands parts
    exact (fold _ _ (parted _ h0)).trans h0
  rw [changePartition_eq]
  exact (((sound_claimCheck _).after (sound_agingTests ..)).islands (parted _ hr)).trans hr

/-! ### The chain interface -/

/-- A presence record that replaces one and is not LOST, or is LOST as before. -/
theorem sound_putPresence {t : Dom} {p p' : Presence} {m : Meas} (hp : (m.taps.get t).presence = some p)
    (h : p'.state = .lost → p.state = .lost) : Sound m (putPresence t p' m) := by
  have hl : anyLost (putPresence t p' m) = true → anyLost m = true := by
    simp only [anyLost, List.any_eq_true, Bool.and_eq_true, beq_iff_eq]
    rintro ⟨d, hd, hf, ht⟩
    refine ⟨d, hd, hf, ?_⟩
    simp only [tapState, putPresence, changeTap_taps, PerDom.get_set] at ht ⊢
    split at ht
    · rename_i he; subst he
      simp only [Option.map_some, Option.some.injEq] at ht
      simp [hp, h ht]
    · exact ht
  exact {
    timebase := rfl
    resetCause := rfl
    mask := rfl
    tables := rfl
    topo := rfl
    flags := fun _ h => h
    follow := fun hf g hg => hf g (by cases g <;> first | exact hg | exact hl hg)
    alert := id
    entries := id
    islands := fun _ => rfl }

theorem judgeSeq_state (seq : Byte) (now : Time) (p : Presence) :
    (judgeSeq seq now p).2.state = p.state ∨ (judgeSeq seq now p).2.state = .present := by
  unfold judgeSeq
  dsimp only
  (repeat' split) <;> simp

theorem sound_joinExpiry {t : Dom} {m m' : Meas} (h : joinExpiry t m = some m') : Sound m m' := by
  unfold joinExpiry at h
  split at h
  · rename_i p hp
    split at h <;> simp at h
    subst h
    exact sound_putPresence hp id
  · simp at h

theorem sound_watchSample (d : Dom) (x : Sample) (m : Meas) : Sound m (watchSample d x m) := by
  unfold watchSample; split
  · split
    · exact .refl m
    · split
      · dsimp only; split
        · exact (steady_demandOn ..).sound.after ((sound_raise ..).after ((sound_changeDom _ _ _ rfl).after (sound_changeDom _ _ m rfl)))
        · exact sound_changeDom _ _ m rfl
      · exact sound_changeDom _ _ m rfl
  · exact .refl m

theorem sound_serveSample (t : Dom) (delta : Nat) (x : Sample) (m : Meas) : Sound m (serveSample t delta x m) :=
  (sound_watchSample ..).after ((sound_claimCheck _).after ((steady_confirmSample ..).sound.after
    ((sound_refSample ..).after (sound_cycleSample ..))))

theorem sound_intake (t : Dom) (seq : Byte) (x : Sample) {p : Presence} {m : Meas} (hp : (m.taps.get t).presence = some p) :
    Sound m (intake t seq x p m).2 := by
  have hs := judgeSeq_state seq m.timebase p
  unfold intake
  split
  · exact .refl m
  · rename_i p' hj
    rw [hj] at hs
    exact sound_putPresence hp fun h => by rcases hs with hs | hs <;> simp_all
  · rename_i delta joined p' hj
    rw [hj] at hs
    have h1 : Sound m (putPresence t { p' with latest := some x } m) :=
      sound_putPresence hp fun h => by rcases hs with hs | hs <;> simp_all
    dsimp only
    refine (sound_serveSample ..).after ?_
    split
    · exact Sound.after (Steady.sound (steady_recoverOnPresent ..)) h1
    · split
      · exact Sound.after (sound_raise ..) h1
      · exact h1

theorem sound_lossExpiry {t : Dom} {m m' : Meas} (h : lossExpiry t m = some m') : Sound m m' := by
  unfold lossExpiry at h
  split at h
  · rename_i p hp
    split at h <;> simp at h
    subst h
    unfold loseTap
    refine Sound.after (sound_changeDom _ _ _ rfl) (Sound.after (sound_claimCheck _) (Sound.after (sound_refLost ..)
      (Sound.after (Steady.sound (steady_stallOnLoss ..)) ?_)))
    exact sound_followed rfl rfl rfl rfl rfl (fun _ h => h) id fun _ => rfl
  · simp at h

theorem sound_afterRamp (t : Dom) (o : RampOwner) (m : Meas) : Sound m (afterRamp t o m) := by
  unfold afterRamp
  (repeat' split) <;> first
    | exact (Steady.sound (steady_afterCycleRamp ..))
    | exact (Steady.sound (steady_writeMailbox ..))
    | exact sound_afterRefRamp ..
    | exact .refl m

theorem sound_refreshTap (t : Dom) (m : Meas) : Sound m (refreshTap t m) := by
  unfold refreshTap; split
  · exact (Steady.sound (steady_changeTap t _ m fun _ => rfl))
  · rename_i r _
    have h := (Steady.sound ((steady_unconfirm t _).after (steady_changeTap t
      (fun p => { rampStepTap r p with due := true, refreshStart := some m.timebase }) m fun _ => rfl)))
    dsimp only; split
    · exact (sound_claimCheck _).after ((sound_afterRamp ..).after h)
    · exact h

theorem sound_refreshExpiry {t : Dom} {m m' : Meas} (h : refreshExpiry t m = some m') : Sound m m' := by
  unfold refreshExpiry at h
  split at h <;> simp at h
  subst h
  exact sound_refreshTap ..

theorem sound_agingExpiryOf {d : Dom} {m m' : Meas} (h : agingExpiryOf d m = some m') : Sound m m' := by
  unfold agingExpiryOf at h
  split at h <;> simp at h
  subst h
  exact sound_agingTest ..

end Sys2Proof.Machine
end

