-- ==== Sys2Proof/Laws/Commands.lean ====
section
/-! SUPPORT. What whole commands leave unchanged on the measurement side: every command but TOPO, the freshness expiry, SEG, STAT,
RESTART and power-on keeps the tables, the topology record, the partition, and the properties of flags and suspend entries. -/

namespace Sys2Proof.Machine

/-! ### The outputs -/

theorem sound_pumpUp (s : State) : Sound s.meas (pumpUp s).meas := by
  have h := (pumpUp_spec s).1
  rw [h]; exact sound_records ..

theorem sound_admitHeld (s : State) : Sound s.meas (admitHeld s).meas := sound_records ..

theorem sound_pumpDown (s : State) : Sound s.meas (pumpDown s).meas := by
  unfold pumpDown
  (repeat' split) <;> first
    | exact .refl _
    | exact Steady.sound (steady_changeTap _ (fun p => { p with due := false, levelSeq := p.levelSeq + 1 }) _ fun _ => rfl)

theorem sound_pumpBoth (s : State) : Sound s.meas (pumpBoth s).meas := (sound_pumpDown _).after (sound_pumpUp s)

theorem sound_thenUp {m : Meas} {u : State} (h : Sound m u.meas) : Sound m (pumpUp u).meas := (sound_pumpUp u).after h

theorem sound_thenBoth {m : Meas} {u : State} (h : Sound m u.meas) : Sound m (pumpBoth u).meas := (sound_pumpBoth u).after h

theorem sound_onEvent {f : Meas → Option Meas} (h : ∀ m m', f m = some m' → Sound m m') (s : State) :
    Sound s.meas (onEvent f s).meas := by
  unfold onEvent; split
  · rename_i m hm; exact sound_thenBoth (h _ _ hm)
  · exact .refl _

/-- An expiry that happens: its effect, then the outputs. -/
theorem onEvent_some {f : Meas → Option Meas} {s : State} {m : Meas} (h : f s.meas = some m) :
    OutputsMoved { s with meas := m } (onEvent f s) := by
  have : onEvent f s = pumpBoth { s with meas := m } := by simp only [onEvent, h]; rfl
  rw [this]; exact pumpBoth_moved _

theorem onEvent_moved {f : Meas → Option Meas} {s : State} {m m' : Meas} (h : f s.meas = some m) (e : m = m') :
    OutputsMoved { s with meas := m' } (onEvent f s) := e ▸ onEvent_some h

/-! ### Requests -/

/-- A request command does nothing, or answers BADFORM, or does its work on the head request. -/
theorem takeRequest_cases (mine : Byte → Bool) (body : Frame → State → State) (s : State) :
    takeRequest mine body s = s ∨ ∃ q rest, s.link.buffer = q :: rest ∧ mine q.kind = true ∧ canProcess q s = true ∧
      ((formOk q.kind q.payload.length = false ∧ takeRequest mine body s = pumpUp (respond q .badForm [] (taken rest s))) ∨
       (formOk q.kind q.payload.length = true ∧ takeRequest mine body s = body q (taken rest s))) := by
  unfold takeRequest
  split
  · exact .inl rfl
  · rename_i q rest hb
    split
    · rename_i hc
      simp only [Bool.and_eq_true] at hc
      right
      refine ⟨q, rest, hb, hc.1, hc.2, ?_⟩
      dsimp only
      split
      · rename_i hf; exact .inr ⟨hf, rfl⟩
      · rename_i hf; exact .inl ⟨by simpa using hf, rfl⟩
    · exact .inl rfl

theorem sound_takeRequest {mine : Byte → Bool} {body : Frame → State → State} (h : ∀ q s, Sound s.meas (body q s).meas) (s : State) :
    Sound s.meas (takeRequest mine body s).meas := by
  rcases takeRequest_cases mine body s with he | ⟨q, rest, _, _, _, ⟨_, he⟩ | ⟨_, he⟩⟩
  · rw [he]; exact .refl _
  · rw [he]; exact sound_thenUp (.refl _)
  · rw [he]; exact h q (taken rest s)

theorem sound_doXclaim (q : Frame) (s : State) : Sound s.meas (doXclaim q s).meas := by
  unfold doXclaim
  (repeat' split) <;> first
    | exact sound_thenUp (.refl _)
    | exact sound_thenBoth (sound_acceptXclaim ..)

theorem sound_cancelXclaim (s : State) : Sound s.meas (cancelXclaim s).meas := by
  unfold cancelXclaim; split
  · exact sound_records ..
  · exact .refl _

theorem sound_doXrel (q : Frame) (s : State) : Sound s.meas (doXrel q s).meas := by
  unfold doXrel; split
  · exact sound_thenBoth (.refl _)
  · exact sound_thenBoth (Sound.after (sound_cancelXclaim _) (sound_releaseClaim _))
  · exact sound_thenBoth (sound_releaseClaim _)

theorem sound_doMeas (q : Frame) (s : State) : Sound s.meas (doMeas q s).meas := by
  unfold doMeas
  (repeat' split) <;> first
    | exact sound_thenUp (.refl _)
    | exact sound_thenBoth (Steady.sound (steady_demandOn ..))

theorem sound_doRchk (q : Frame) (s : State) : Sound s.meas (doRchk q s).meas := by
  unfold doRchk
  (repeat' split) <;> first
    | exact sound_thenUp (.refl _)
    | exact sound_thenBoth (sound_acceptRchk ..)

theorem sound_mask {m : Meas} (w : BitVec 32) (h : FlagsFollow m) : FlagsFollow { m with mask := w } :=
  fun f hf => h f (by cases f <;> exact hf)

theorem sound_doIsord (q : Frame) (s : State) : Sound s.meas (doIsord q s).meas := by
  unfold doIsord
  dsimp only
  (repeat' split) <;> exact sound_thenUp (.refl _)

theorem sound_doResrd (q : Frame) (s : State) : Sound s.meas (doResrd q s).meas := by
  unfold doResrd
  (repeat' split) <;> exact sound_thenUp (.refl _)

theorem sound_doFltrd (q : Frame) (s : State) : Sound s.meas (doFltrd q s).meas := by
  unfold doFltrd
  (repeat' split) <;> exact sound_thenUp (.refl _)

theorem sound_doLdtab (q : Frame) (s : State) : Sound s.meas (doLdtab q s).meas := by
  unfold doLdtab
  dsimp only
  (repeat' split) <;> exact sound_thenUp (.refl _)

theorem sound_doTsum (q : Frame) (s : State) : Sound s.meas (doTsum q s).meas := by
  unfold doTsum
  dsimp only
  (repeat' split) <;> exact sound_thenUp (.refl _)

theorem sound_doFreeze (q : Frame) (s : State) : Sound s.meas (doFreeze q s).meas := by
  unfold doFreeze
  dsimp only
  (repeat' split) <;> exact sound_thenUp (.refl _)

theorem sound_doFrls (q : Frame) (s : State) : Sound s.meas (doFrls q s).meas := by
  unfold doFrls
  (repeat' split) <;> exact sound_thenUp (.refl _)

/-! ### Frames and characters -/

theorem sound_countOverrun (s : State) : Sound s.meas (countOverrun s).meas := sound_raise ..

theorem sound_countDrop (s : State) : Sound s.meas (countDrop s).meas := sound_raise ..

theorem sound_offerRelayed (n : Nat) (f : Frame) (s : State) : Sound s.meas (offerRelayed n f s).meas := by
  unfold offerRelayed; split
  · exact .refl _
  · exact sound_countDrop s

theorem sound_answerFor (a : Byte) (f : Frame) (st : Status) (s : State) : Sound s.meas (answerFor a f st s).meas := by
  unfold answerFor; split
  · exact .refl _
  · exact sound_countOverrun s

theorem sound_filterFrame (f : Frame) (s : State) : Sound s.meas (filterFrame f s).meas := by
  unfold filterFrame; split
  · exact .refl _
  · exact sound_answerFor ..

theorem sound_bufferRequest (f : Frame) (s : State) : Sound s.meas (bufferRequest f s).meas := by
  unfold bufferRequest; split
  · exact .refl _
  · exact sound_countOverrun s

theorem sound_forwardSample (t : Dom) (f : Frame) (s : State) : Sound s.meas (forwardSample t f s).meas := by
  unfold forwardSample
  dsimp only
  (repeat' split) <;> first
    | exact .refl _
    | exact sound_offerRelayed _ _ (State.withLink _ s)

theorem sound_acceptSample (f : Frame) (s : State) : Sound s.meas (acceptSample f s).meas := by
  unfold acceptSample
  split
  · exact .refl _
  · rename_i t _
    split
    · exact .refl _
    · rename_i p hp
      have hp' : (s.meas.taps.get t).presence = some p := by
        split at hp
        · exact hp
        · simp at hp
      dsimp only
      split
      · exact .refl _
      · exact Sound.after (sound_forwardSample t f { s with meas := (intake t f.tag (sampleOf f.payload) p s.meas).2 })
          (sound_intake t f.tag (sampleOf f.payload) hp')
      · exact Sound.after (sound_forwardSample t f (admitHeld { s with meas := (intake t f.tag (sampleOf f.payload) p s.meas).2 }))
          ((sound_admitHeld _).after (sound_intake t f.tag (sampleOf f.payload) hp'))

theorem putRx_meas (p : Port) (r : Receiver) (s : State) : (putRx p r s).meas = s.meas := by cases p <;> rfl

theorem sound_receiveFault (p : Port) (e : RxFault) (s : State) : Sound s.meas (receiveFault p e s).meas := by
  unfold receiveFault raiseIn
  rw [State.withMeas_meas, putRx_meas]
  exact sound_raise ..

theorem sound_restartIdle (p : Port) (s : State) : Sound s.meas (restartIdle p s).meas := by
  rw [restartIdle, putRx_meas]; exact .refl _

theorem sound_dispatchFrame (p : Port) (f : Frame) (s : State) : Sound s.meas (dispatchFrame p f s).meas := by
  unfold dispatchFrame
  (repeat' split) <;> first
    | exact sound_bufferRequest ..
    | exact sound_filterFrame ..
    | exact sound_receiveFault ..
    | exact sound_acceptSample ..
    | exact sound_offerRelayed ..
    | exact .refl _

theorem sound_endFrame (p : Port) (marker : Byte) (f : RxFrame) (s : State) : Sound s.meas (endFrame p marker f s).meas := by
  unfold endFrame
  have h : Sound s.meas (putRx p { rxOf p s with state := .ready, chars := [], idle := false } s).meas := by
    rw [putRx_meas]; exact .refl _
  dsimp only
  split
  · exact sound_thenBoth (Sound.after (sound_dispatchFrame ..) h)
  · exact Sound.after (sound_receiveFault ..) h

theorem sound_putRx (p : Port) (r : Receiver) (s : State) : Sound s.meas (putRx p r s).meas := by
  rw [putRx_meas]; exact .refl _

theorem sound_receiveChar (p : Port) (c : Byte) (s : State) : Sound s.meas (receiveChar p c s).meas := by
  unfold receiveChar
  dsimp only
  (repeat' split) <;> first
    | exact sound_restartIdle ..
    | exact sound_putRx ..
    | exact sound_receiveFault ..
    | exact sound_endFrame ..

theorem sound_receiveFrame (p : Port) (marker : Byte) (f : RxFrame) (s : State) : Sound s.meas (receiveFrame p marker f s).meas := by
  unfold receiveFrame
  dsimp only
  (repeat' split) <;> first
    | exact sound_restartIdle ..
    | exact sound_receiveFault ..
    | exact sound_endFrame ..
    | exact .refl _

/-! ### Commands -/

/-- The commands that may change a table, the topology record or the partition, or clear a flag. -/
def reshapes : Instr → Bool
  | .topo | .freshnessExpiry | .seg | .stat | .mask | .restart | .powerOn => true
  | _ => false

/-- Every other command keeps the tables, the topology record, the partition, and the properties of flags and entries. -/
theorem sound_exec {c : Instr} {s t : State} (hc : reshapes c = false) (h : exec c s = .next t) : Sound s.meas t.meas := by
  cases c <;> simp only [reshapes, Bool.true_eq_false] at hc <;> injection h with h <;> subst h
  case requestFrameReceived f => exact sound_receiveFrame ..
  case hostTapFrame f => exact sound_receiveFrame ..
  case sampleFrame f => exact sound_receiveFrame ..
  case tapResponse f => exact sound_receiveFrame ..
  case receiveError p ch =>
    (repeat' split) <;> first
      | exact sound_restartIdle ..
      | exact sound_receiveFault ..
      | exact .refl _
  case rxGapTimeout p =>
    split
    · exact Sound.after (sound_putRx ..) (sound_receiveFault ..)
    · exact .refl _
  case rxRecoveryDone p =>
    split
    · exact sound_putRx ..
    · exact .refl _
  case portDTxDone =>
    split
    · exact Sound.after (sound_pumpDown _) (Sound.refl (State.withLink _ s).meas)
    · exact .refl _
  case portUTxDone =>
    split
    · exact sound_thenUp (.refl _)
    · exact .refl _
  case xclaim => exact sound_takeRequest sound_doXclaim s
  case xrel => exact sound_takeRequest sound_doXrel s
  case meas => exact sound_takeRequest sound_doMeas s
  case rchk => exact sound_takeRequest sound_doRchk s
  case isord => exact sound_takeRequest sound_doIsord s
  case resrd => exact sound_takeRequest sound_doResrd s
  case fltrd => exact sound_takeRequest sound_doFltrd s
  case ldtab => exact sound_takeRequest sound_doLdtab s
  case tsum => exact sound_takeRequest sound_doTsum s
  case freeze => exact sound_takeRequest sound_doFreeze s
  case frls => exact sound_takeRequest sound_doFrls s
  case unknownRequest =>
    (repeat' split) <;> first
      | exact sound_thenUp (.refl _)
      | exact .refl _
  case settleTimerExpiry ds => exact sound_onEvent (fun _ _ h => (steady_settleExpiry h).sound) s
  case intervalExpiry ds => exact sound_onEvent (fun _ _ h => (steady_intervalExpiry h).sound) s
  case phaseTimerExpiry r =>
    cases r
    · exact sound_onEvent (fun _ _ h => sound_phaseExpiry h) s
    · exact sound_onEvent (fun _ _ h => (steady_refPhaseExpiry h).sound) s
  case plateauTimerExpiry r =>
    cases r
    · exact sound_onEvent (fun _ _ h => sound_plateauExpiry h) s
    · exact sound_onEvent (fun _ _ h => sound_refPlateauExpiry h) s
  case refreshTimerExpiry d => exact sound_onEvent (fun _ _ h => sound_refreshExpiry h) s
  case lossTimerExpiry d => exact sound_onEvent (fun _ _ h => sound_lossExpiry h) s
  case joinRunTimeout d => exact sound_onEvent (fun _ _ h => sound_joinExpiry h) s
  case handoffTimeout => exact sound_onEvent (fun _ _ h => sound_handoffExpiry h) s
  case suspendEntryExpiry ds => exact sound_onEvent (fun _ _ h => (steady_suspendExpiry h).sound) s
  case agingExpiry d => exact sound_onEvent (fun _ _ h => sound_agingExpiryOf h) s
  case loadGapTimeout =>
    (repeat' split) <;> first
      | exact sound_raise _ s.meas
      | exact .refl _
  case characterReceived p ch => exact sound_receiveChar ..

/-! ### Tables and topology -/

theorem kept_resolve_followed (b : Bool) (img : List Byte) (rp : Report) (m : Meas) :
    let rows := matchingRows img rp.positions rp.inlet
    (resolve b img rp m).topo = { m.topo with state := if rows = [] then .nomatch else .known, row := rows.head?, count := rows.length } ∧
    (resolve b img rp m).tables = m.tables ∧ FlagsFollow (resolve b img rp m) ∧ AlertFollows (resolve b img rp m) ∧
    (EntriesDistinct m → EntriesDistinct (resolve b img rp m)) ∧ (resolve b img rp m).timebase = m.timebase := by
  intro rows
  unfold resolve
  dsimp only
  set m1 := followConditions { m with topo := { m.topo with
    state := if (matchingRows img rp.positions rp.inlet).isEmpty = true then .nomatch else .known,
    row := (matchingRows img rp.positions rp.inlet).head?, count := (matchingRows img rp.positions rp.inlet).length } } with hm1
  set m2 := if 2 ≤ (matchingRows img rp.positions rp.inlet).length then raise .topoMulti m1 else m1 with hm2
  have h12 : Kept m1 m2 := by
    rw [hm2]; split
    · exact (sound_raise ..).toKept
    · exact .refl _
  have hfin : ∀ m3, Kept m2 m3 → m3.topo = { m.topo with state := if rows = [] then .nomatch else .known, row := rows.head?, count := rows.length } ∧
      m3.tables = m.tables ∧ FlagsFollow m3 ∧ AlertFollows m3 ∧ (EntriesDistinct m → EntriesDistinct m3) ∧ m3.timebase = m.timebase := by
    intro m3 h23
    have h := h12.trans h23
    refine ⟨?_, h.tables, h.follow (flagsFollow_followConditions _), h.alert (alertFollows_followConditions _), h.entries, h.timebase⟩
    rw [h.topo, hm1, followConditions_topo]
    simp only [List.isEmpty_iff, rows]
  exact hfin _ (by (repeat' split) <;> first | exact .refl _ | exact kept_changePartition ..)

/-- What becoming STALE leaves. -/
theorem becomeStale_spec (m : Meas) :
    (becomeStale m).topo = { m.topo with state := .stale, row := none } ∧ (becomeStale m).tables = m.tables ∧
    FlagsFollow (becomeStale m) ∧ AlertFollows (becomeStale m) ∧ (EntriesDistinct m → EntriesDistinct (becomeStale m)) ∧
    (becomeStale m).islands = [] ∧ (becomeStale m).timebase = m.timebase := by
  have h := kept_changePartition m [] (followConditions { m with topo := { m.topo with state := .stale, row := none } })
  have hs := changePartition_shape m [] (followConditions { m with topo := { m.topo with state := .stale, row := none } }) (by simp)
  refine ⟨h.topo, h.tables, h.follow (flagsFollow_followConditions _), h.alert (alertFollows_followConditions _), h.entries, ?_, h.timebase⟩
  rw [List.map_nil, List.map_eq_nil_iff] at hs
  exact hs

end Sys2Proof.Machine
end

