-- ==== Sys2Proof/Laws/Bounds.lean ====
section
/-! SUPPORT. The places of the queues and the ranges of the link counters: each operation on the ports keeps them. -/

namespace Sys2Proof.Machine

theorem linkBounded_admitHeld (s : State) (h : LinkBounded s.link) : LinkBounded (admitHeld s).link := by
  obtain ⟨h1, h2, h3, h4, h5, h6, h7⟩ := h
  refine ⟨?_, h2, h3, h4, h5, h6, h7⟩
  simp only [admitHeld, List.length_append, List.length_take, occupancy, Config.upstreamPlaces]; omega

theorem linkBounded_beginUp (s : State) (h : LinkBounded s.link) : LinkBounded (beginUp s).link := by
  rcases beginUp_cases s with ⟨_, f, rest, hq, he⟩ | ⟨_, he⟩ <;> rw [he]
  · obtain ⟨h1, h2, h3, h4, h5, h6, h7⟩ := h
    rw [hq] at h1; simp at h1
    exact ⟨by simp; omega, h2, h3, h4, h5, h6, h7⟩
  · exact h

theorem linkBounded_pumpUp (s : State) (h : LinkBounded s.link) : LinkBounded (pumpUp s).link := linkBounded_admitHeld _
    (linkBounded_beginUp _ (linkBounded_admitHeld _ h))

theorem linkBounded_pumpDown (s : State) (h : LinkBounded s.link) : LinkBounded (pumpDown s).link := by
  unfold pumpDown
  obtain ⟨h1, h2, h3, h4, h5, h6, h7⟩ := h
  split
  · exact ⟨h1, h2, h3, h4, h5, h6, h7⟩
  · split
    · exact ⟨h1, h2, h3, h4, h5, h6, h7⟩
    · split
      · rename_i f rest hq
        rw [hq] at h2; simp at h2
        exact ⟨h1, by simp; omega, h3, h4, h5, h6, h7⟩
      · exact ⟨h1, h2, h3, h4, h5, h6, h7⟩

theorem linkBounded_pumpBoth (s : State) (h : LinkBounded s.link) : LinkBounded (pumpBoth s).link := linkBounded_pumpDown _
    (linkBounded_pumpUp _ h)

theorem linkBounded_joinUp (n : Nat) (hn : n ≤ 32) (f : Frame) (l : Link) (h : LinkBounded l) : LinkBounded (joinUp n f l) := by
  unfold joinUp; split
  · obtain ⟨h1, h2, h3, h4, h5, h6, h7⟩ := h
    exact ⟨by simp; omega, h2, h3, h4, h5, h6, h7⟩
  · exact h

theorem linkBounded_respond (q st vs) (s : State) (h : LinkBounded s.link) : LinkBounded (respond q st vs s).link :=
  linkBounded_joinUp _ (by decide) _ _ h

theorem linkBounded_onEvent (f s) (h : LinkBounded s.link) : LinkBounded (onEvent f s).link := by
  unfold onEvent; split
  · exact linkBounded_pumpBoth _ h
  · exact h

theorem linkBounded_countOverrun (s : State) (h : LinkBounded s.link) : LinkBounded (countOverrun s).link := by
  obtain ⟨h1, h2, h3, h4, h5, h6, h7⟩ := h
  exact ⟨h1, h2, h3, by simp [countOverrun, raiseIn, satInc], h5, h6, h7⟩
theorem linkBounded_countDrop (s : State) (h : LinkBounded s.link) : LinkBounded (countDrop s).link := by
  obtain ⟨h1, h2, h3, h4, h5, h6, h7⟩ := h
  exact ⟨h1, h2, h3, h4, by simp [countDrop, raiseIn, satInc], h6, h7⟩

theorem linkBounded_putRx (p : Port) (r : Receiver) (s : State) (h : LinkBounded s.link) (hr : r.Bounded) : LinkBounded
    (putRx p r s).link := by
  obtain ⟨h1, h2, h3, h4, h5, h6, h7⟩ := h
  cases p
  · exact ⟨h1, h2, h3, h4, h5, hr, h7⟩
  · exact ⟨h1, h2, h3, h4, h5, h6, hr⟩

theorem rx_bounded (p : Port) (s : State) (h : LinkBounded s.link) : (rxOf p s).Bounded := by
  cases p; exacts [h.rxU, h.rxD]

theorem countFault_bounded (e : RxFault) (r : Receiver) (h : r.Bounded) : (countFault e r).Bounded := by
  obtain ⟨h1, h2, h3, h4⟩ := h
  cases e
  · exact ⟨by simp [countFault, satInc], h2, h3, h4⟩
  · exact ⟨h1, by simp [countFault, satInc], h3, h4⟩
  · exact ⟨h1, h2, by simp [countFault, satInc], h4⟩
  · exact ⟨h1, h2, h3, by simp [countFault, satInc]⟩

theorem linkBounded_receiveFault (p e) (s : State) (h : LinkBounded s.link) : LinkBounded (receiveFault p e s).link :=
  linkBounded_putRx p _ _ h (countFault_bounded e _ (rx_bounded p s h))

theorem linkBounded_offerRelayed (n) (hn : n ≤ 32) (f) (s : State) (h : LinkBounded s.link) : LinkBounded (offerRelayed n f s).link := by
  unfold offerRelayed; split
  · exact linkBounded_joinUp _ hn _ _ h
  · exact linkBounded_countDrop _ h

theorem linkBounded_answerFor (a f st) (s : State) (h : LinkBounded s.link) : LinkBounded (answerFor a f st s).link := by
  unfold answerFor; split
  · exact linkBounded_joinUp _ (by decide) _ _ h
  · exact linkBounded_countOverrun _ h

theorem linkBounded_filterFrame (f) (s : State) (h : LinkBounded s.link) : LinkBounded (filterFrame f s).link := by
  unfold filterFrame; split
  · rename_i hp
    have : s.link.downQueue.length < 16 := by
      unfold filterOf at hp
      dsimp only at hp
      (repeat' split at hp) <;> first | (simp at hp; done) | assumption
    obtain ⟨h1, h2, h3, h4, h5, h6, h7⟩ := h
    exact ⟨h1, by simp; omega, h3, h4, h5, h6, h7⟩
  · exact linkBounded_answerFor _ _ _ _ h

theorem linkBounded_bufferRequest (f) (s : State) (h : LinkBounded s.link) : LinkBounded (bufferRequest f s).link := by
  unfold bufferRequest; split
  · rename_i hp
    simp only [Config.requestPlaces] at hp
    obtain ⟨h1, h2, h3, h4, h5, h6, h7⟩ := h
    exact ⟨h1, h2, by simp; omega, h4, h5, h6, h7⟩
  · exact linkBounded_countOverrun _ h

theorem linkBounded_decim (s : State) (d : PerDom Nat) (h : LinkBounded s.link) : LinkBounded { s.link with decim := d } := by
  obtain ⟨h1, h2, h3, h4, h5, h6, h7⟩ := h; exact ⟨h1, h2, h3, h4, h5, h6, h7⟩

theorem linkBounded_forwardSample (t f) (s : State) (hm : fwdHighMark (forwardImage s.meas) ≤ 24) (h : LinkBounded s.link) :
    LinkBounded (forwardSample t f s).link := by
  unfold forwardSample
  dsimp only
  split
  · exact h
  · split
    · exact linkBounded_decim s _ h
    · exact linkBounded_offerRelayed _ (by omega) _ _ (linkBounded_decim s _ h)

theorem highMark_of_tables {m m' : Meas} (h : m'.tables = m.tables) : fwdHighMark (forwardImage m') = fwdHighMark
    (forwardImage m) := by simp [forwardImage, h]

theorem linkBounded_acceptSample (f) (s : State) (hm : fwdHighMark (forwardImage s.meas) ≤ 24) (h : LinkBounded s.link) :
    LinkBounded (acceptSample f s).link := by
  unfold acceptSample
  split
  · exact h
  · rename_i t _
    split
    · exact h
    · rename_i p hp
      have hp' : (s.meas.taps.get t).presence = some p := by
        split at hp
        · exact hp
        · simp at hp
      have hm' : fwdHighMark (forwardImage (intake t f.tag (sampleOf f.payload) p s.meas).2) ≤ 24 := by
        rw [highMark_of_tables (sound_intake t f.tag (sampleOf f.payload) hp').tables]; exact hm
      dsimp only
      split
      · exact h
      · exact linkBounded_forwardSample t f { s with meas := (intake t f.tag (sampleOf f.payload) p s.meas).2 } hm' h
      · exact linkBounded_forwardSample t f (admitHeld { s with meas := (intake t f.tag (sampleOf f.payload) p s.meas).2 }) hm'
          (linkBounded_admitHeld _ h)

theorem linkBounded_dispatchFrame (p f) (s : State) (hm : fwdHighMark (forwardImage s.meas) ≤ 24) (h : LinkBounded s.link) :
    LinkBounded (dispatchFrame p f s).link := by
  unfold dispatchFrame
  (repeat' split) <;> first
    | exact linkBounded_bufferRequest _ _ h
    | exact linkBounded_filterFrame _ _ h
    | exact linkBounded_receiveFault _ _ _ h
    | exact linkBounded_acceptSample _ _ hm h
    | exact linkBounded_offerRelayed _ (by decide) _ _ h
    | exact h

theorem linkBounded_endFrame (p mk f) (s : State) (hm : fwdHighMark (forwardImage s.meas) ≤ 24) (h : LinkBounded s.link) :
    LinkBounded (endFrame p mk f s).link := by
  unfold endFrame
  dsimp only
  have h1 := linkBounded_putRx p { rxOf p s with state := .ready, chars := [], idle := false } s h (rx_bounded p s h)
  split
  · exact linkBounded_pumpBoth _ (linkBounded_dispatchFrame _ _ _ (by rw [putRx_meas]; exact hm) h1)
  · exact linkBounded_receiveFault _ _ _ h1

theorem linkBounded_restartIdle (p) (s : State) (h : LinkBounded s.link) : LinkBounded (restartIdle p s).link := linkBounded_putRx p
    _ s h (rx_bounded p s h)

theorem linkBounded_receiveChar (p c) (s : State) (hm : fwdHighMark (forwardImage s.meas) ≤ 24) (h : LinkBounded s.link) :
    LinkBounded (receiveChar p c s).link := by
  unfold receiveChar
  dsimp only
  (repeat' split) <;> first
    | exact linkBounded_restartIdle _ _ h
    | exact linkBounded_putRx _ _ _ h (rx_bounded p s h)
    | exact linkBounded_receiveFault _ _ _ h
    | exact linkBounded_endFrame _ _ _ _ hm h

theorem linkBounded_receiveFrame (p mk f) (s : State) (hm : fwdHighMark (forwardImage s.meas) ≤ 24) (h : LinkBounded s.link) :
    LinkBounded (receiveFrame p mk f s).link := by
  unfold receiveFrame
  dsimp only
  (repeat' split) <;> first
    | exact linkBounded_restartIdle _ _ h
    | exact linkBounded_receiveFault _ _ _ h
    | exact linkBounded_endFrame _ _ _ _ hm h
    | exact h

theorem linkBounded_taken (q rest) (s : State) (hb : s.link.buffer = q :: rest) (h : LinkBounded s.link) : LinkBounded
    (taken rest s).link := by
  obtain ⟨h1, h2, h3, h4, h5, h6, h7⟩ := h
  rw [hb] at h3; simp at h3
  exact ⟨h1, h2, by simp [taken]; omega, h4, h5, h6, h7⟩

theorem linkBounded_takeRequest {mine body} (hb : ∀ q (s : State), LinkBounded s.link → LinkBounded (body q s).link) (s : State)
    (h : LinkBounded s.link) :
    LinkBounded (takeRequest mine body s).link := by
  rcases takeRequest_cases mine body s with he | ⟨q, rest, hq, _, _, ⟨_, he⟩ | ⟨_, he⟩⟩
  · rw [he]; exact h
  · rw [he]; exact linkBounded_pumpUp _ (linkBounded_respond _ _ _ _ (linkBounded_taken q rest s hq h))
  · rw [he]; exact hb q _ (linkBounded_taken q rest s hq h)

theorem linkBounded_cancelXclaim (s : State) (h : LinkBounded s.link) : LinkBounded (cancelXclaim s).link := by
  unfold cancelXclaim; split
  · exact linkBounded_respond _ _ _ _ h
  · exact h
theorem linkBounded_cancelRchk (s : State) (h : LinkBounded s.link) : LinkBounded (cancelRchk s).link := by
  unfold cancelRchk; split
  · exact linkBounded_respond _ _ _ _ h
  · exact h

theorem linkBounded_clearCounters (s : State) (h : LinkBounded s.link) : LinkBounded (clearCounters s.link) := by
  obtain ⟨h1, h2, h3, h4, h5, h6, h7⟩ := h
  exact ⟨h1, h2, h3, by simp [clearCounters], by simp [clearCounters], by simp [clearCounters, Receiver.Bounded], by simp [clearCounters, Receiver.Bounded]⟩

end Sys2Proof.Machine
end

