-- ==== Sys2Proof/Laws/Cycle.lean ====
section
/-! SUPPORT. What the cycle engine's operations do to the island they act on, said once for each. -/

namespace Sys2Proof.Machine

@[simp] theorem islandAt_writeMailbox (t : Dom) (b : Mailbox) (m : Meas) (ds : DomSet) :
    islandAt (writeMailbox t b m) ds = islandAt m ds := rfl

@[simp] theorem islandAt_changeTap (t : Dom) (f : Tap → Tap) (m : Meas) (ds : DomSet) :
    islandAt (changeTap t f m) ds = islandAt m ds := rfl

@[simp] theorem islandAt_dropEntry (es : DomSet) (m : Meas) (ds : DomSet) : islandAt (dropEntry es m) ds = islandAt m ds := rfl

@[simp] theorem islandAt_raise (f : Flag) (m : Meas) (ds : DomSet) : islandAt (raise f m) ds = islandAt m ds := rfl

@[simp] theorem islandAt_changeClaim (f : Claim → Claim) (m : Meas) (ds : DomSet) : islandAt (changeClaim f m) ds = islandAt m ds := rfl

@[simp] theorem islandAt_changeRef (f : RefCheck → RefCheck) (m : Meas) (ds : DomSet) : islandAt (changeRef f m) ds = islandAt m ds := rfl

/-- A mailbox write and a change of an island do not meet. -/
theorem writeMailbox_putIsland (t : Dom) (b : Mailbox) (i : Island) (m : Meas) :
    writeMailbox t b (putIsland i m) = putIsland i (writeMailbox t b m) := rfl

theorem writeMailbox_changeIsland (t : Dom) (b : Mailbox) (ds : DomSet) (f : Island → Island) (m : Meas) :
    writeMailbox t b (changeIsland ds f m) = changeIsland ds f (writeMailbox t b m) := rfl

/-- Entering a SETTLE step, on the island that is there (R38). -/
theorem enterSettle_putIsland (ph : Phase) (i : Island) (m : Meas) :
    enterSettle ph i.members (putIsland i m) = putIsland { i with
      state := .cycle (settleStep ph), acc := clearForSettle i.acc, phaseTimer := some ⟨m.timebase, i.row.phaseTimeout⟩,
      plateauTimer := none, settleTimer := .stopped, intervalTimer := none } m :=
  changeIsland_putIsland _ i m fun _ => rfl

/-- Entering a PLATEAU step, on the island that is there (R40). -/
theorem enterPlateau_putIsland (ph : Phase) (i : Island) (m : Meas) :
    enterPlateau ph i.members (putIsland i m) = putIsland { i with
      state := .cycle (plateauStep ph), acc := clearForPlateau i.acc, phaseTimer := none,
      plateauTimer := some ⟨m.timebase, i.row.phaseTimeout⟩, settleTimer := .stopped, intervalTimer := none } m :=
  changeIsland_putIsland _ i m fun _ => rfl

/-- A change of an island that is there. -/
theorem islandAt_changeIsland_some {m : Meas} {ds : DomSet} {i : Island} {f : Island → Island} (hi : islandAt m ds = some i)
    (hf : ∀ i, (f i).members = i.members) : islandAt (changeIsland ds f m) ds = some (f i) := by
  rw [islandAt_changeIsland hf, hi]; rfl

/-- The island after entering a SETTLE step (R38). -/
theorem islandAt_enterSettle {m : Meas} {ds : DomSet} {i : Island} (ph : Phase) (hi : islandAt m ds = some i) :
    islandAt (enterSettle ph ds m) ds = some { stopTimers i with
      state := .cycle (settleStep ph), acc := clearForSettle i.acc, phaseTimer := some ⟨m.timebase, i.row.phaseTimeout⟩ } :=
  islandAt_changeIsland_some hi fun _ => rfl

/-- The start of a cycle (R28). -/
theorem startCycle_spec {m : Meas} {ds : DomSet} {i : Island} {row : CycleRow} (md : Mode) (hi : islandAt m ds = some i)
    (hrow : cycleRow m i.profile = some row) :
    startCycle md ds m = putIsland { i with
      state := .cycle .quietSettle, mode := md,
      captured := some ⟨row, i.profile, domConst domRc m i.injector, domConst domRbal m i.injector⟩,
      means := .none, counts := .zero, quality := .clear, acc := clearForSettle i.acc,
      phaseTimer := some ⟨m.timebase, row.phaseTimeout⟩, plateauTimer := none, settleTimer := .stopped,
      intervalTimer := none } (writeMailbox i.injector ⟨0, .domain, .connected⟩ m) := by
  obtain rfl := islandAt_members hi
  unfold startCycle
  rw [hi]
  dsimp only
  rw [hrow]
  dsimp only
  rw [writeMailbox_putIsland]
  exact enterSettle_putIsland .quiet { stopTimers i with
    mode := md, captured := some ⟨row, i.profile, domConst domRc m i.injector, domConst domRbal m i.injector⟩,
    means := .none, counts := .zero, quality := .clear } _

/-- An injector's stall (R26). -/
theorem enterStalled_spec {m : Meas} {ds : DomSet} {i : Island} (hi : islandAt m ds = some i) :
    enterStalled ds m = dropEntry ds (writeMailbox i.injector .rest
      (putIsland { clearCyclePart i with state := .stalled, demand := none } m)) := by
  unfold enterStalled; rw [hi]

/-- The first cycle of an island after FORMING, in the demanded mode or FAST (R25, R29). -/
theorem startFirst_spec {m : Meas} {ds : DomSet} {i : Island} {row : CycleRow} (hi : islandAt m ds = some i)
    (hrow : cycleRow m i.profile = some row) :
    startFirst ds m = putIsland { i with
      state := .cycle .quietSettle, mode := i.demand.getD .fast, demand := none,
      captured := some ⟨row, i.profile, domConst domRc m i.injector, domConst domRbal m i.injector⟩,
      means := .none, counts := .zero, quality := .clear, acc := clearForSettle i.acc,
      phaseTimer := some ⟨m.timebase, row.phaseTimeout⟩, plateauTimer := none, settleTimer := .stopped,
      intervalTimer := none } (writeMailbox i.injector ⟨0, .domain, .connected⟩ m) := by
  have hi' : islandAt (putIsland { i with demand := none } m) ds = some { i with demand := none } :=
    islandAt_putIsland hi (show i.members = ds from islandAt_members hi)
  unfold startFirst
  rw [hi]
  dsimp only
  rw [startCycle_spec (row := row) _ hi' hrow, writeMailbox_putIsland, putIsland_putIsland _ _ _ (by rfl)]
  rfl

/-- A ramp away from its target begins: the tap takes it, and its refresh timer starts afresh (R30, R134). -/
theorem startRamp_of_ne {t : Dom} {r : Ramp} {onEnd : Meas → Meas} {m : Meas} (h : (m.taps.get t).mailbox.level ≠ r.target) :
    startRamp t r onEnd m = changeTap t (fun p => { p with ramp := some r, refreshStart := some m.timebase }) m := if_neg h

/-- A ramp at its target ends as it begins (R30). -/
theorem startRamp_of_eq {t : Dom} {r : Ramp} {onEnd : Meas → Meas} {m : Meas} (h : (m.taps.get t).mailbox.level = r.target) :
    startRamp t r onEnd m = onEnd (changeTap t (fun p => { p with ramp := none }) m) := if_pos h

/-- A ramp step of an island whose injector stands away from the ramp's target (R32). -/
theorem enterRamp_of_ne {m : Meas} {ds : DomSet} {i : Island} {st : CycleStep} (hi : islandAt m ds = some i)
    (h : (m.taps.get i.injector).mailbox.level ≠ rampTarget st i.row.injMv) :
    enterRamp st ds m = changeTap i.injector (fun p => { p with
        ramp := some ⟨rampTarget st i.row.injMv, i.row.slew * 20, .domain, .connected, .cycle⟩, refreshStart := some m.timebase })
      (putIsland { stopTimers i with state := .cycle st } m) := by
  unfold enterRamp; rw [hi]; dsimp only
  exact startRamp_of_ne h

/-- The island that a ramp step leaves, when its injector stands away from the ramp's target. -/
theorem islandAt_enterRamp_of_ne {m : Meas} {ds : DomSet} {i : Island} {st : CycleStep} (hi : islandAt m ds = some i)
    (h : (m.taps.get i.injector).mailbox.level ≠ rampTarget st i.row.injMv) :
    islandAt (enterRamp st ds m) ds = some { stopTimers i with state := .cycle st } := by
  rw [enterRamp_of_ne hi h]
  exact islandAt_putIsland (i := { stopTimers i with state := .cycle st }) hi (show i.members = ds from islandAt_members hi)

/-- What follows the end of a cycle's ramp, by its step (R32, R43). -/
theorem afterCycleRamp_of {m : Meas} {ds : DomSet} {i : Island} (hi : islandAt m ds = some i) :
    (i.state = .cycle .rampPos → afterCycleRamp ds m = enterSettle .pos ds m) ∧
    (i.state = .cycle .rampNeg → afterCycleRamp ds m = enterSettle .neg ds m) ∧
    (i.state = .cycle .rampHome → afterCycleRamp ds m = endCycle ds m) := by
  unfold afterCycleRamp; rw [hi]; dsimp only
  refine ⟨fun h => ?_, fun h => ?_, fun h => ?_⟩ <;> rw [h]

/-- A ramp step whose injector stands at its target ends as it begins (R30). -/
theorem enterRamp_of_eq {m : Meas} {ds : DomSet} {i : Island} {st : CycleStep} (hi : islandAt m ds = some i)
    (h : (m.taps.get i.injector).mailbox.level = rampTarget st i.row.injMv) :
    enterRamp st ds m = afterCycleRamp ds (changeTap i.injector (fun p => { p with ramp := none })
      (putIsland { stopTimers i with state := .cycle st } m)) := by
  unfold enterRamp; rw [hi]; dsimp only
  exact startRamp_of_eq h

/-- A ramp to POS or NEG: the island goes to the ramp step, or on to its SETTLE step when the injector stands at the target; nothing but
its timers, step and accumulators, and the injector's ramp and refresh timer, changes (R30, R32). -/
theorem enterRamp_up {m : Meas} {ds : DomSet} {i : Island} {st : CycleStep} {ph : Phase} (hi : islandAt m ds = some i)
    (hst : (st = .rampPos ∧ ph = .pos) ∨ (st = .rampNeg ∧ ph = .neg)) :
    (enterRamp st ds m).suspended = m.suspended ∧ (enterRamp st ds m).claim = m.claim ∧
    ∃ j, islandAt (enterRamp st ds m) ds = some j ∧ j.captured = i.captured ∧ j.mode = i.mode ∧ j.means = i.means ∧
      j.counts = i.counts ∧ j.quality = i.quality ∧ j.demand = i.demand ∧ j.slot = i.slot ∧
      (j.state = .cycle st ∨ j.state = .cycle (settleStep ph)) := by
  by_cases h : (m.taps.get i.injector).mailbox.level = rampTarget st i.row.injMv
  · have hp : islandAt (changeTap i.injector (fun p => { p with ramp := none })
        (putIsland { stopTimers i with state := .cycle st } m)) ds = some { stopTimers i with state := .cycle st } :=
      islandAt_putIsland (i := { stopTimers i with state := .cycle st }) hi (show i.members = ds from islandAt_members hi)
    have ha := afterCycleRamp_of hp
    have he : enterRamp st ds m = enterSettle ph ds (changeTap i.injector (fun p => { p with ramp := none })
        (putIsland { stopTimers i with state := .cycle st } m)) := by
      rw [enterRamp_of_eq hi h]
      rcases hst with ⟨rfl, rfl⟩ | ⟨rfl, rfl⟩
      · exact ha.1 rfl
      · exact ha.2.1 rfl
    rw [he]
    exact ⟨rfl, rfl, _, islandAt_enterSettle ph hp, rfl, rfl, rfl, rfl, rfl, rfl, rfl, .inr rfl⟩
  · rw [enterRamp_of_ne hi h]
    refine ⟨rfl, rfl, { stopTimers i with state := .cycle st }, ?_, rfl, rfl, rfl, rfl, rfl, rfl, rfl, .inl rfl⟩
    exact islandAt_putIsland (i := { stopTimers i with state := .cycle st }) hi (show i.members = ds from islandAt_members hi)

end Sys2Proof.Machine
end

