-- ==== Sys2Proof/Laws/Partition.lean ====
section
/-! SUPPORT. The partition of a row: who shares a label, that its member sets are distinct, and what a resolution, an activation and a
restart make of the partition. -/

namespace Sys2Proof.Machine

theorem inSet_labelMates (img : List Byte) (r : Nat) (fit : Dom → Bool) (d e : Dom) :
    inSet (labelMates img r fit d) e = true ↔ fit e = true ∧ topoLabel img r e = topoLabel img r d := by
  simp [labelMates]

theorem labelMates_congr {img : List Byte} {r : Nat} {fit : Dom → Bool} {d e : Dom} (h : topoLabel img r d = topoLabel img r e) :
    labelMates img r fit d = labelMates img r fit e := by simp [labelMates, h]

/-- An island of a partition is the label mates of its lowest member. -/
theorem mem_partitionOf {img : List Byte} {r : Nat} {fit : Dom → Bool} {p : IslandSpec} (h : p ∈ partitionOf img r fit) :
    ∃ d, fit d = true ∧ (members (labelMates img r fit d)).head? = some d ∧ p.members = labelMates img r fit d := by
  simp only [partitionOf, List.mem_map, List.mem_filter, Bool.and_eq_true, beq_iff_eq] at h
  obtain ⟨d, ⟨_, h1, h2⟩, rfl⟩ := h
  exact ⟨d, h1, h2, rfl⟩

/-- The member sets of a partition are distinct. -/
theorem partitionOf_nodup (img : List Byte) (r : Nat) (fit : Dom → Bool) : ((partitionOf img r fit).map (·.members)).Nodup := by
  rw [partitionOf, List.map_map, List.Nodup, List.pairwise_map]
  refine (Dom.all_pairwise.filter _).imp_of_mem ?_
  intro d e hd he hlt heq
  simp only [List.mem_filter, Bool.and_eq_true, beq_iff_eq] at hd he
  simp only [Function.comp] at heq
  rw [heq, he.2.2] at hd
  have : e = d := by simpa using hd.2.2
  subst this
  exact lt_irrefl _ hlt

/-- A fold of updates keeps what each of them keeps. -/
theorem foldl_keeps {α β γ : Type} (g : β → γ) {f : β → α → β} (h : ∀ m a, g (f m a) = g m) (l : List α) (m : β) :
    g (l.foldl f m) = g m := by
  induction l generalizing m with
  | nil => rfl
  | cons a l ih => rw [List.foldl_cons, ih, h]

@[simp] theorem restMailboxes_timebase (m : Meas) : (restMailboxes m).timebase = m.timebase :=
  foldl_keeps Meas.timebase (f := fun m t => writeMailbox t .rest m) (fun _ _ => rfl) _ _
@[simp] theorem restMailboxes_resetCause (m : Meas) : (restMailboxes m).resetCause = m.resetCause :=
  foldl_keeps Meas.resetCause (f := fun m t => writeMailbox t .rest m) (fun _ _ => rfl) _ _
@[simp] theorem restMailboxes_flags (m : Meas) : (restMailboxes m).flags = m.flags :=
  foldl_keeps Meas.flags (f := fun m t => writeMailbox t .rest m) (fun _ _ => rfl) _ _
@[simp] theorem restMailboxes_mask (m : Meas) : (restMailboxes m).mask = m.mask :=
  foldl_keeps Meas.mask (f := fun m t => writeMailbox t .rest m) (fun _ _ => rfl) _ _
@[simp] theorem restMailboxes_pendXclaim (m : Meas) : (restMailboxes m).pendXclaim = m.pendXclaim :=
  foldl_keeps Meas.pendXclaim (f := fun m t => writeMailbox t .rest m) (fun _ _ => rfl) _ _
@[simp] theorem restMailboxes_pendRchk (m : Meas) : (restMailboxes m).pendRchk = m.pendRchk :=
  foldl_keeps Meas.pendRchk (f := fun m t => writeMailbox t .rest m) (fun _ _ => rfl) _ _
@[simp] theorem restMailboxes_heldResponses (m : Meas) : (restMailboxes m).heldResponses = m.heldResponses :=
  foldl_keeps Meas.heldResponses (f := fun m t => writeMailbox t .rest m) (fun _ _ => rfl) _ _
@[simp] theorem restMailboxes_tables (m : Meas) : (restMailboxes m).tables = m.tables :=
  foldl_keeps Meas.tables (f := fun m t => writeMailbox t .rest m) (fun _ _ => rfl) _ _
@[simp] theorem restMailboxes_doms (m : Meas) : (restMailboxes m).doms = m.doms :=
  foldl_keeps Meas.doms (f := fun m t => writeMailbox t .rest m) (fun _ _ => rfl) _ _
@[simp] theorem restMailboxes_isoAlert (m : Meas) : (restMailboxes m).isoAlert = m.isoAlert :=
  foldl_keeps Meas.isoAlert (f := fun m t => writeMailbox t .rest m) (fun _ _ => rfl) _ _
@[simp] theorem restMailboxes_topo (m : Meas) : (restMailboxes m).topo = m.topo :=
  foldl_keeps Meas.topo (f := fun m t => writeMailbox t .rest m) (fun _ _ => rfl) _ _
@[simp] theorem restMailboxes_islands (m : Meas) : (restMailboxes m).islands = m.islands :=
  foldl_keeps Meas.islands (f := fun m t => writeMailbox t .rest m) (fun _ _ => rfl) _ _
@[simp] theorem restMailboxes_resultNumber (m : Meas) : (restMailboxes m).resultNumber = m.resultNumber :=
  foldl_keeps Meas.resultNumber (f := fun m t => writeMailbox t .rest m) (fun _ _ => rfl) _ _
@[simp] theorem restMailboxes_suspended (m : Meas) : (restMailboxes m).suspended = m.suspended :=
  foldl_keeps Meas.suspended (f := fun m t => writeMailbox t .rest m) (fun _ _ => rfl) _ _
@[simp] theorem restMailboxes_ref (m : Meas) : (restMailboxes m).ref = m.ref :=
  foldl_keeps Meas.ref (f := fun m t => writeMailbox t .rest m) (fun _ _ => rfl) _ _

/-- The writes of a list of taps to rest change their taps, each once, and the confirmed set (R31, R98). -/
theorem restAll_spec (l : List Dom) (hl : l.Nodup) (m : Meas) :
    ∃ taps c, l.foldl (fun m t => writeMailbox t .rest m) m = { m with taps := taps, claim := { m.claim with confirmed := c } } ∧
      (m.claim.confirmed = 0 → c = 0) ∧
      ∀ d, taps.get d = if d ∈ l then writeTap .rest (fitted m d) m.timebase (m.taps.get d) else m.taps.get d := by
  induction l generalizing m with
  | nil => exact ⟨m.taps, m.claim.confirmed, rfl, id, fun d => by simp⟩
  | cons t l ih =>
    obtain ⟨taps, c, h, hc, ht⟩ := ih (List.nodup_cons.1 hl).2 (writeMailbox t .rest m)
    refine ⟨taps, c, h, fun h0 => hc ?_, fun d => ?_⟩
    · rw [writeMailbox_claim]; simp [h0]
    · rw [ht, writeMailbox_taps, PerDom.get_set, writeMailbox_timebase]
      by_cases hd : d = t
      · subst hd
        simp [(List.nodup_cons.1 hl).1]
      · simp [hd]; rfl

/-- Every mailbox rests after `restMailboxes`; presence stays. -/
theorem restMailboxes_taps (m : Meas) (d : Dom) :
    ((restMailboxes m).taps.get d).mailbox = .rest ∧ ((restMailboxes m).taps.get d).ramp = none ∧
      ((restMailboxes m).taps.get d).presence = (m.taps.get d).presence := by
  obtain ⟨taps, c, h, -, ht⟩ := restAll_spec Dom.all (by decide) m
  rw [restMailboxes, h]
  dsimp only
  rw [ht d, if_pos (Dom.mem_all d)]
  exact ⟨rfl, rfl, rfl⟩

/-- What a restart leaves of the measurement side, whole but for the flags: the resets of R166's table, and every tap written to rest. -/
theorem restartMeas_eq (m : Meas) :
    restartMeas m = { m with
      topo := .reset, islands := [], resultNumber := 0, doms := .replicate .reset, claim := .reset, suspended := [], ref := none,
      pendXclaim := none, pendRchk := none, isoAlert := .released, resetCause := .restart, flags := (restartMeas m).flags,
      taps := (restartMeas m).taps } ∧
    ∀ d, (restartMeas m).taps.get d = writeTap .rest (fitted m d) m.timebase (m.taps.get d) := by
  unfold restartMeas restMailboxes
  dsimp only
  obtain ⟨taps, c, h, hc, ht⟩ := restAll_spec Dom.all (by decide) { m with
    islands := [], topo := .reset, resultNumber := 0, doms := .replicate .reset, claim := .reset, suspended := [], ref := none
    pendXclaim := none, pendRchk := none }
  rw [h, hc rfl]
  refine ⟨?_, fun d => ?_⟩
  · unfold followConditions
    congr 1
    simp [alertOf, anyVerdict, DomRec.reset]
  · rw [followConditions_taps, ht d, if_pos (Dom.mem_all d)]; rfl

/-- After a restart only RESET is set, and TAP_LOST where a fitted tap is LOST (R166, step 4). -/
theorem restartMeas_flag (m : Meas) (f : Flag) :
    flagSet (restartMeas m) f = (decide (f = .reset) || (decide (f = .tapLost) && anyLost m)) := by
  have hl : anyLost (restartMeas m) = anyLost m := by
    have h := restartMeas_eq m
    have hp : ∀ d, tapState (restartMeas m) d = tapState m d := fun d => by rw [tapState, h.2 d]; rfl
    have hf : ∀ d, fitted (restartMeas m) d = fitted m d := fun d => by rw [h.1]; rfl
    simp only [anyLost, hp, hf]
  have : (restartMeas m).flags = Flag.reset.word ||| conditionWord (restartMeas m) := rfl
  have hv : ∀ v, v ≠ .unknown → anyVerdict (restartMeas m) v = false := fun v hv => by
    rw [(restartMeas_eq m).1]; cases v <;> simp [anyVerdict, DomRec.reset] at *
  have ht : (restartMeas m).topo.state = .unresolved := by rw [(restartMeas_eq m).1]; rfl
  rw [flagSet, this]
  simp only [conditionWord, conditionFlags, List.foldl, conditionHolds, ht, hl, hv .fault (by decide), hv .warn (by decide)]
  cases anyLost m <;> cases f <;> decide

/-- What a restart leaves of the measurement side, field by field (R166). -/
theorem restartMeas_spec (m : Meas) :
    (restartMeas m).topo = .reset ∧ (restartMeas m).islands = [] ∧ (restartMeas m).suspended = [] ∧
    (restartMeas m).resultNumber = 0 ∧ (restartMeas m).doms = .replicate .reset ∧ (restartMeas m).ref = none ∧
    (restartMeas m).pendXclaim = none ∧ (restartMeas m).pendRchk = none ∧
    (restartMeas m).resetCause = .restart ∧ (restartMeas m).tables = m.tables ∧ (restartMeas m).mask = m.mask ∧
    (restartMeas m).timebase = m.timebase ∧ (restartMeas m).heldResponses = m.heldResponses ∧
    ∀ d, ((restartMeas m).taps.get d).mailbox = .rest ∧ ((restartMeas m).taps.get d).ramp = none ∧
      ((restartMeas m).taps.get d).presence = (m.taps.get d).presence := by
  obtain ⟨h, ht⟩ := restartMeas_eq m
  refine ⟨?_, ?_, ?_, ?_, ?_, ?_, ?_, ?_, ?_, ?_, ?_, ?_, ?_, fun d => ?_⟩
  all_goals first | (rw [h]; done) | (rw [ht d]; exact ⟨rfl, rfl, rfl⟩)

/-- What a resolution makes of the partition: that of its first matching row, unless it stays on the row it was on. -/
theorem resolve_islands (b : Bool) (img : List Byte) (rp : Report) (m : Meas) :
    let rows := matchingRows img rp.positions rp.inlet
    (b = true ∧ m.topo.state = .known ∧ rows ≠ [] ∧ m.topo.row = rows.head? ∧ (resolve b img rp m).islands = m.islands) ∨
    (resolve b img rp m).islands.map Island.shape =
      (rows.head?.elim [] fun r => partitionOf img r (fitted m)).map fun p => (p.members, p.injector, p.profile) := by
  intro rows
  by_cases h : (b && m.topo.state == .known && (if rows.isEmpty = true then TopoState.nomatch else .known) == .known
      && m.topo.row == rows.head?) = true
  · left
    have h' := h
    simp only [Bool.and_eq_true, beq_iff_eq] at h'
    obtain ⟨⟨⟨h1, h2⟩, h3⟩, h4⟩ := h'
    refine ⟨h1, h2, fun hn => by simp [hn] at h3, h4, ?_⟩
    unfold resolve
    dsimp only
    rw [if_pos h]
    split <;> rfl
  · right
    unfold resolve
    dsimp only
    rw [if_neg h]
    rw [changePartition_shape]
    · cases (matchingRows img rp.positions rp.inlet).head? <;> simp
    · cases hr : (matchingRows img rp.positions rp.inlet).head?
      · simp
      · exact partitionOf_nodup ..

end Sys2Proof.Machine
end

