-- ==== Sys2Proof/Laws/Requests.lean ====
section
/-! SUPPORT. What the pieces of a request's handling come to: its responses, its arguments, the lengths of what it reads out; and what the
verdict unit, the grant test and the resolver leave of the measurement side. -/

namespace Sys2Proof.Machine

/-! ### Requests -/

/-- Every request but XREL and RESTART adds one response. -/
theorem responses_one {q : Frame} {k : Byte} {m : Meas} (hk : q.kind = k) (h1 : k ≠ kindXrel) (h2 : k ≠ kindRestart) :
    responsesOf q m = 1 := by
  simp [responsesOf, hk, h1, h2]

theorem fittedArg_some {m : Meas} {q : Frame} {i : Nat} {d : Dom} (h : Dom.ofNumber (nat8 q.payload i) = some d)
    (hf : fitted m d = true) : fittedArg m q i = some d := by simp [fittedArg, h, Option.filter, hf]

theorem fittedArg_none {m : Meas} {q : Frame} {i : Nat} (h : ∀ d, Dom.ofNumber (nat8 q.payload i) = some d → fitted m d = false) :
    fittedArg m q i = none := by
  unfold fittedArg
  cases hd : Dom.ofNumber (nat8 q.payload i) with
  | none => rfl
  | some d => simp [Option.filter, h d hd]

/-! ### Lengths -/

theorem be8_length (n : Nat) : (be8 n).length = 1 := rfl

theorem be16_length (n : Nat) : (be16 n).length = 2 := rfl

theorem be32_length (n : Nat) : (be32 n).length = 4 := rfl

theorem beInt16_length (i : Int) : (beInt16 i).length = 2 := rfl

theorem beInt32_length (i : Int) : (beInt32 i).length = 4 := rfl

theorem loadField_length (l : Loader) : (loadField l).length = 4 := by unfold loadField; split <;> rfl

theorem refField_length (m : Meas) : (refField m).length = 3 := by unfold refField; split <;> rfl

theorem counterField_length (r : Receiver) : (counterField r).length = 4 := rfl

theorem statBlock_length (s : State) : (statBlock s).length = 42 := by
  unfold statBlock
  simp only [List.length_append, be8_length, be16_length, be32_length, loadField_length, refField_length, counterField_length]

theorem isordRecord_length (m : Meas) (d : Dom) : (isordRecord m d).length = 14 := by
  unfold isordRecord
  split
  · unfold fittedRecord
    simp only [List.length_append, be8_length, be16_length]
  · unfold unfittedRecord
    simp only [List.length_append, be8_length, List.length_replicate]

theorem resultBytes_length (r : ResultRecord) : (resultBytes r).length = 43 := by
  unfold resultBytes
  simp only [List.length_append, be8_length, be16_length, be32_length, beInt16_length, beInt32_length]

theorem entryBytes_length (e : AttribEntry) : (entryBytes e).length = 5 := by unfold entryBytes; split <;> rfl

theorem flatMap_entryBytes_length (l : List AttribEntry) : (l.flatMap entryBytes).length = 5 * l.length := by
  induction l with
  | nil => rfl
  | cons a l ih => rw [List.flatMap_cons, List.length_append, ih, entryBytes_length, List.length_cons]; omega

theorem entriesBytes_length (l : List AttribEntry) : (entriesBytes l).length = 40 := by
  unfold entriesBytes
  rw [List.length_append, flatMap_entryBytes_length, List.length_take, List.length_replicate]; omega

theorem faultBytes_length (r : FaultRecord) : (faultBytes r).length = 58 := by
  unfold faultBytes
  simp only [List.length_append, be8_length, be16_length, be32_length, entriesBytes_length]

/-! ### The verdict unit -/

/-- From `m` to `m'` only the verdict records, the flags and ISO_ALERT may change. -/
def Judging (m m' : Meas) : Prop := m' = { m with doms := m'.doms, flags := m'.flags, isoAlert := m'.isoAlert }

theorem Judging.refl (m : Meas) : Judging m m := rfl

theorem Judging.trans {a b c : Meas} (h : Judging a b) (k : Judging b c) : Judging a c := by
  unfold Judging at *; rw [k, h]

theorem judging_agingTest (d : Dom) (m : Meas) : Judging m (agingTest d m) := by
  unfold agingTest putVerdict; dsimp only; (repeat' split) <;> rfl

theorem judging_agingTests (ds : List Dom) (m : Meas) : Judging m (agingTests ds m) := by
  unfold agingTests
  induction ds generalizing m with
  | nil => exact .refl m
  | cons d ds ih => exact (judging_agingTest d m).trans (ih _)

/-- An aging test changes no result of a domain. -/
theorem agingTest_dom (d : Dom) (m : Meas) (e : Dom) :
    ((agingTest d m).doms.get e).newest = (m.doms.get e).newest ∧ ((agingTest d m).doms.get e).solo = (m.doms.get e).solo ∧
    ((agingTest d m).doms.get e).fault = (m.doms.get e).fault ∧ ((agingTest d m).doms.get e).asymRun = (m.doms.get e).asymRun ∧
    ((agingTest d m).doms.get e).asymActive = (m.doms.get e).asymActive := by
  have key : ∀ m' : Meas, m'.doms = m.doms.set d (moveVerdict .unknown (m.doms.get d)) →
      (m'.doms.get e).newest = (m.doms.get e).newest ∧ (m'.doms.get e).solo = (m.doms.get e).solo ∧
      (m'.doms.get e).fault = (m.doms.get e).fault ∧ (m'.doms.get e).asymRun = (m.doms.get e).asymRun ∧
      (m'.doms.get e).asymActive = (m.doms.get e).asymActive := by
    intro m' h
    rw [h, PerDom.get_set]; split
    · subst_vars; exact ⟨rfl, rfl, rfl, rfl, rfl⟩
    · exact ⟨rfl, rfl, rfl, rfl, rfl⟩
  unfold agingTest putVerdict
  dsimp only
  (repeat' split) <;> first
    | exact key _ rfl
    | exact ⟨rfl, rfl, rfl, rfl, rfl⟩

theorem agingTests_dom (ds : List Dom) (m : Meas) (e : Dom) :
    ((agingTests ds m).doms.get e).newest = (m.doms.get e).newest ∧ ((agingTests ds m).doms.get e).solo = (m.doms.get e).solo ∧
    ((agingTests ds m).doms.get e).fault = (m.doms.get e).fault ∧ ((agingTests ds m).doms.get e).asymRun = (m.doms.get e).asymRun ∧
    ((agingTests ds m).doms.get e).asymActive = (m.doms.get e).asymActive := by
  unfold agingTests
  induction ds generalizing m with
  | nil => exact ⟨rfl, rfl, rfl, rfl, rfl⟩
  | cons d ds ih =>
    obtain ⟨a, b, c, f, g⟩ := ih (agingTest d m)
    obtain ⟨a', b', c', f', g'⟩ := agingTest_dom d m e
    exact ⟨a.trans a', b.trans b', c.trans c', f.trans f', g.trans g'⟩

/-! ### The claim unit -/

/-- What arming leaves: all but `armed`. -/
theorem armClaim_eq (m : Meas) : armClaim m = { m with claim := { m.claim with armed := (armClaim m).claim.armed } } := by
  unfold armClaim; split <;> rfl

/-- A claim that becomes GRANTED claims the island it claimed in HANDOFF. -/
theorem claimedIsland_granted {m : Meas} (h : m.claim.state = .handoff) :
    claimedIsland (changeClaim (fun c => { c with state := .granted }) m) = claimedIsland m := by
  simp only [claimedIsland, changeClaim_claim, h]
  rfl

/-- What a grant of a pending claim in HANDOFF leaves: the claim GRANTED, the claimed island EXTERNAL, HANDOFF_DONE set, and the XCLAIM's
response held, with the claimed domain and the unconfirmed set (R99, R100). -/
theorem grantWith_spec {st : Status} {m : Meas} {p : PendingRec} (hp : m.pendXclaim = some p) (hs : m.claim.state = .handoff) :
    (grantWith st m).pendXclaim = none ∧ (grantWith st m).claim = { m.claim with state := .granted } ∧
    (grantWith st m).flags = m.flags ||| Flag.handoffDone.word ∧
    (grantWith st m).heldResponses = m.heldResponses ++ [responseFrame 0 p.kind p.tag st
      (be8 (claimedNumber m) ++ be8 (unconfirmedSet (grantWith st m)).toNat) (grantWith st m)] ∧
    (grantWith st m).islands = match claimedIsland m with
      | some i => (changeIsland i.members (fun j => { j with state := .external }) m).islands
      | none => m.islands := by
  have hi := claimedIsland_granted hs
  have key : ∀ m2 : Meas, m2.pendXclaim = some p → deferXclaim st (be8 (claimedNumber (raise .handoffDone m2)) ++
        be8 (unconfirmedSet (raise .handoffDone m2)).toNat) (raise .handoffDone m2) =
      { raise .handoffDone m2 with
        pendXclaim := none
        heldResponses := m2.heldResponses ++ [responseFrame 0 p.kind p.tag st (be8 (claimedNumber m2) ++
          be8 (unconfirmedSet m2).toNat) (raise .handoffDone m2)] } := by
    intro m2 h2
    unfold deferXclaim
    rw [show (raise .handoffDone m2).pendXclaim = some p from h2]
    rfl
  unfold grantWith
  dsimp only
  rw [hi]
  cases hc : claimedIsland m with
  | none =>
    rw [key (changeClaim (fun c => { c with state := .granted }) m) hp]
    exact ⟨rfl, rfl, rfl, rfl, rfl⟩
  | some i =>
    rw [key (changeIsland i.members (fun j => { j with state := .external })
      (changeClaim (fun c => { c with state := .granted }) m)) hp]
    exact ⟨rfl, rfl, rfl, rfl, rfl⟩

/-- The grant test writes no mailbox and moves no record but the claim's own, the claimed island's state, and the XCLAIM's response. -/
theorem claimCheck_eq (m : Meas) :
    claimCheck m = { m with
      claim := (claimCheck m).claim, islands := (claimCheck m).islands, flags := (claimCheck m).flags
      pendXclaim := (claimCheck m).pendXclaim, heldResponses := (claimCheck m).heldResponses } := by
  have hg : ∀ st m, grantWith st m = { m with
      claim := (grantWith st m).claim, islands := (grantWith st m).islands, flags := (grantWith st m).flags
      pendXclaim := (grantWith st m).pendXclaim, heldResponses := (grantWith st m).heldResponses } := by
    intro st m
    unfold grantWith deferXclaim
    dsimp only
    (repeat' split) <;> rfl
  unfold claimCheck
  dsimp only
  split
  · rw [hg, armClaim_eq]
  · rw [armClaim_eq]

/-- Without a claim in HANDOFF the grant test builds no response and leaves the claim's state. -/
theorem claimCheck_held {m : Meas} (h : m.claim.state ≠ .handoff) :
    (claimCheck m).heldResponses = m.heldResponses ∧ (claimCheck m).claim.state = m.claim.state := by
  cases hs : m.claim.state with
  | none => rw [claimCheck_of_none hs]; exact ⟨rfl, hs⟩
  | handoff => exact absurd hs h
  | granted => rw [claimCheck_of_granted hs, armClaim_eq]; exact ⟨rfl, hs⟩

/-! ### The resolver -/

theorem changePartition_held {b : Meas} {parts : List IslandSpec} {m : Meas} (h : m.claim.state ≠ .handoff) :
    (changePartition b parts m).heldResponses = m.heldResponses := by
  rw [changePartition_eq]
  have h1 := rearranged_rearrange b parts m
  have h2 := judging_agingTests (agingTouched b (rearrange b parts m)) (rearrange b parts m)
  rw [(claimCheck_held _).1, h2]; exact h1.held
  rw [h2]; show (rearrange b parts m).claim.state ≠ _; rw [h1.claim]; exact h

theorem resolve_held {sb : Bool} {img : List Byte} {rp : Report} {m : Meas} (h : m.claim.state ≠ .handoff) :
    (resolve sb img rp m).heldResponses = m.heldResponses := by
  unfold resolve; dsimp only
  (repeat' split) <;> first
    | rfl
    | (rw [changePartition_held (by exact h)]; rfl)

/-- A TOPO builds no response of its own but while a claim waits in HANDOFF. -/
theorem takeTopo_held {p : BitVec 16} {inlet : Nat} {m : Meas} (h : m.claim.state ≠ .handoff) :
    (takeTopo p inlet m).heldResponses = m.heldResponses := by
  unfold takeTopo; dsimp only; split
  · rw [resolve_held]; exact h
  · rfl

/-- A resolution that more than one row matches sets TOPO_MULTI (R10). -/
theorem resolve_multi {sb : Bool} {img : List Byte} {rp : Report} {m : Meas}
    (h : 2 ≤ (matchingRows img rp.positions rp.inlet).length) : flagSet (resolve sb img rp m) .topoMulti = true := by
  have key : ∀ m : Meas, flagSet (raise .topoMulti m) .topoMulti = true := by intro m; simp [flagSet, raise, Flag.word, Flag.bit]
  have key2 : ∀ b parts (m : Meas), flagSet m .topoMulti = true → flagSet (changePartition b parts m) .topoMulti = true :=
    fun b parts m h => (kept_changePartition b parts m).flags _ h
  unfold resolve; dsimp only
  rw [if_pos h]
  generalize followConditions _ = m1
  generalize (if (matchingRows img rp.positions rp.inlet).isEmpty = true then TopoState.nomatch else TopoState.known) = st
  split
  · exact key _
  · exact key2 _ _ _ (key _)

/-! ### What the cycle engine leaves of the reference check and of the claim's confirmed taps -/

/-- The reference-check record stays, and no tap is confirmed that was not. -/
structure Quiet (m m' : Meas) : Prop where
  ref : m'.ref = m.ref
  confirmed : ∀ d, inSet m'.claim.confirmed d = true → inSet m.claim.confirmed d = true

theorem Quiet.refl (m : Meas) : Quiet m m := ⟨rfl, fun _ h => h⟩

theorem Quiet.after {a b c : Meas} (k : Quiet b c) (h : Quiet a b) : Quiet a c :=
  ⟨k.ref.trans h.ref, fun d hd => h.confirmed d (k.confirmed d hd)⟩

theorem quiet_writeMailbox (t : Dom) (b : Mailbox) (m : Meas) : Quiet m (writeMailbox t b m) :=
  ⟨rfl, fun d hd => by simp only [writeMailbox_claim, inSet_and, Bool.and_eq_true] at hd; exact hd.1⟩

theorem quiet_startCycle (md : Mode) (ds : DomSet) (m : Meas) : Quiet m (startCycle md ds m) := by
  unfold startCycle
  (repeat' split) <;> first
    | exact .refl _
    | exact Quiet.after (b := writeMailbox _ _ (putIsland _ m)) ⟨rfl, fun _ h => h⟩
        (Quiet.after (quiet_writeMailbox ..) ⟨rfl, fun _ h => h⟩)

theorem quiet_enterInterval (ds : DomSet) (m : Meas) : Quiet m (enterInterval ds m) := by
  unfold enterInterval; split
  · exact .refl _
  · dsimp only; split
    · exact Quiet.after (quiet_startCycle ..) ⟨rfl, fun _ h => h⟩
    · exact ⟨rfl, fun _ h => h⟩

theorem quiet_endCycle (ds : DomSet) (m : Meas) : Quiet m (endCycle ds m) := by
  unfold endCycle
  (repeat' split)
  · exact .refl _
  · exact Quiet.after (quiet_startCycle ..) ⟨rfl, fun _ h => h⟩
  · exact quiet_enterInterval ..

theorem quiet_afterCycleRamp (ds : DomSet) (m : Meas) : Quiet m (afterCycleRamp ds m) := by
  unfold afterCycleRamp
  (repeat' split) <;> first
    | exact quiet_endCycle ..
    | exact ⟨rfl, fun _ h => h⟩

theorem quiet_enterRamp (st : CycleStep) (ds : DomSet) (m : Meas) : Quiet m (enterRamp st ds m) := by
  unfold enterRamp startRamp; split
  · exact .refl _
  · dsimp only; split
    · exact Quiet.after (quiet_afterCycleRamp ..) ⟨rfl, fun _ h => h⟩
    · exact ⟨rfl, fun _ h => h⟩

theorem quiet_startFirst (ds : DomSet) (m : Meas) : Quiet m (startFirst ds m) := by
  unfold startFirst; split
  · exact .refl _
  · exact Quiet.after (quiet_startCycle ..) ⟨rfl, fun _ h => h⟩

theorem quiet_resumeCycle (e : SuspendEntry) (ds : DomSet) (m : Meas) : Quiet m (resumeCycle e ds m) := by
  unfold resumeCycle; dsimp only; split
  · exact ⟨rfl, fun _ h => h⟩
  · exact Quiet.after (quiet_enterRamp ..) ⟨rfl, fun _ h => h⟩
  · exact Quiet.after (quiet_enterRamp ..) ⟨rfl, fun _ h => h⟩

theorem quiet_enterStalled (ds : DomSet) (m : Meas) : Quiet m (enterStalled ds m) := by
  unfold enterStalled; split
  · exact .refl _
  · rename_i i _
    exact Quiet.after (b := writeMailbox i.injector .rest (putIsland { clearCyclePart i with state := .stalled, demand := none } m))
      ⟨rfl, fun _ h => h⟩ (Quiet.after (quiet_writeMailbox ..) ⟨rfl, fun _ h => h⟩)

theorem quiet_endForming (ds : DomSet) (m : Meas) : Quiet m (endForming ds m) := by
  unfold endForming; split
  · exact .refl _
  · split
    · exact quiet_enterStalled ..
    · split
      · dsimp only; split
        · exact Quiet.after (quiet_startFirst ..) ⟨rfl, fun _ h => h⟩
        · exact Quiet.after (quiet_resumeCycle ..) ⟨rfl, fun _ h => h⟩
      · exact quiet_startFirst ..

theorem quiet_enterForming (ds : DomSet) (m : Meas) : Quiet m (enterForming ds m) := by
  unfold enterForming settleEnd; split
  · exact .refl _
  · dsimp only
    have h := fun i' i : Island => Quiet.after (quiet_writeMailbox i.injector .quiet (putIsland i' m)) (a := m) ⟨rfl, fun _ h => h⟩
    (repeat' split)
    · exact Quiet.after (quiet_endForming ..) (h ..)
    · exact Quiet.after (b := writeMailbox _ _ (putIsland _ m)) ⟨rfl, fun _ h => h⟩ (h ..)
    · exact h ..

/-! ### The claimed island -/

/-- After a change of the island with a member set, a domain's island is the same one, changed if it is that. -/
theorem islandOf_changeIsland {m : Meas} {ds : DomSet} {f : Island → Island} (hf : ∀ i, (f i).members = i.members) (d : Dom) :
    islandOf (changeIsland ds f m) d = (islandOf m d).map fun i => if i.members == ds then f i else i := by
  simp only [islandOf, changeIsland_islands, List.find?_map]
  have : ((fun i : Island => inSet i.members d) ∘ fun j => if (j.members == ds) = true then f j else j)
      = fun i : Island => inSet i.members d := by
    funext j; simp only [Function.comp]; split <;> simp [hf]
  rw [this]

theorem suspendCycle_islands (i : Island) (st : CycleStep) (c : SuspendCause) (m : Meas) :
    (suspendCycle i st c m).islands = m.islands := by
  unfold suspendCycle; (repeat' split) <;> rfl

theorem rampDown_islands (t : Dom) (slew : Nat) (m : Meas) : (rampDown t slew m).islands = m.islands := by
  unfold rampDown startRamp; split <;> rfl

theorem takeIsland_ref (m : Meas) : (takeIsland m).ref = m.ref := by
  have hs : ∀ i st c (m : Meas), (suspendCycle i st c m).ref = m.ref := by
    intro i st c m; unfold suspendCycle; (repeat' split) <;> rfl
  have hr : ∀ t sl (m : Meas), (rampDown t sl m).ref = m.ref := by intro t sl m; unfold rampDown startRamp; split <;> rfl
  unfold takeIsland
  dsimp only
  (repeat' split) <;> first
    | rfl
    | (rw [hr]; exact hs ..)
    | (rw [hr]; rfl)

/-- The grant test arms the claim, and may then grant it. -/
theorem claimCheck_cases (m : Meas) :
    claimCheck m = armClaim m ∨ claimCheck m = grantWith .ok (armClaim m) := by
  unfold claimCheck; dsimp only; split
  · exact .inr rfl
  · exact .inl rfl

/-- A release, up to its aging tests. -/
def releaseIsland (m : Meas) : Meas :=
  let m1 := changeClaim (fun c => { c with state := .none, armed := false, confirmed := 0 }) m
  match claimedIsland m with
  | none => m1
  | some i =>
    if underRef m1 i.injector then changeIsland i.members (fun j => { j with state := .refhold }) m1
    else enterForming i.members m1

theorem releaseClaim_eq (m : Meas) : releaseClaim m = agingTests (members (coveredSet m)) (releaseIsland m) := rfl

theorem steady_releaseIsland (m : Meas) :
    Steady (changeClaim (fun c => { c with state := .none, armed := false, confirmed := 0 }) m) (releaseIsland m) := by
  unfold releaseIsland; dsimp only
  (repeat' split) <;> first
    | exact .refl _
    | exact steady_changeIsland _ _ _ fun _ => rfl
    | exact steady_enterForming ..

theorem quiet_releaseIsland (m : Meas) :
    Quiet (changeClaim (fun c => { c with state := .none, armed := false, confirmed := 0 }) m) (releaseIsland m) := by
  unfold releaseIsland; dsimp only
  (repeat' split) <;> first
    | exact .refl _
    | exact quiet_enterForming ..
    | exact ⟨rfl, fun _ h => h⟩

/-! ### Dropped injectors -/

theorem underRef_dropInjector (t d : Dom) (m : Meas) : underRef (dropInjector t m) d = underRef m d := by
  unfold dropInjector endPreemptOn
  (repeat' split) <;> simp_all [underRef, dropTap, switchToRef, refSettle, changeRef]

theorem dropInjector_of_ne {t d : Dom} {m : Meas} (h : d ≠ t) : (dropInjector t m).taps.get d = m.taps.get d := by
  unfold dropInjector endPreemptOn
  (repeat' split) <;> simp_all [dropTap, switchToRef, refSettle, PerDom.get_set]

/-- A dropped injector that is not under reference check is at rest (R17). -/
theorem dropInjector_rest {t : Dom} {m : Meas} (h : underRef m t = false) :
    ((dropInjector t m).taps.get t).mailbox = .rest ∧ ((dropInjector t m).taps.get t).ramp = none := by
  unfold dropInjector; rw [if_neg (by simp [h])]
  simp [dropTap, writeTap]

theorem forceTap_of_ne {m : Meas} {t d : Dom} (h : d ≠ t) : (forceTap m t).taps.get d = m.taps.get d := by
  unfold forceTap endPreemptOn
  (repeat' split) <;> simp_all [dropTap, switchToRef, refSettle, PerDom.get_set]

/-- A forced tap that is not under reference check holds no DOMAIN-path level and no connected balance network (R100). -/
theorem forceTap_clear {m : Meas} {t : Dom} (h : underRef m t = false) :
    ((forceTap m t).taps.get t).mailbox.clearOfDomain = true := by
  unfold forceTap; rw [if_neg (by simp [h])]; split
  · assumption
  · simp [dropTap, writeTap, Mailbox.rest, Mailbox.clearOfDomain]

end Sys2Proof.Machine
end

