-- ==== Sys2Proof/Laws/Steps.lean ====
section
/-! SUPPORT. A step is the front command or a tick, and what it takes for a step to keep a property of the measurement side. -/

namespace Sys2Proof.Machine

theorem step_cases {s t : State} (h : step s = .next t) :
    (∃ c rest, s.pending = c :: rest ∧ exec c { s with pending := rest } = .next t) ∨ t = tick s := by
  unfold step at h; split at h
  · rename_i c rest hp; exact .inl ⟨c, rest, hp, h⟩
  · injection h with h; exact .inr h.symm

/-- a property of meas unaffected by timebase -/
theorem follow_activateMeas (t : TableId) (img : List Byte) (m : Meas) :
    (FlagsFollow m → FlagsFollow (activateMeas t img m)) ∧ (AlertFollows m → AlertFollows (activateMeas t img m)) ∧
    (EntriesDistinct m → EntriesDistinct (activateMeas t img m)) := by
  unfold activateMeas
  dsimp only
  set m1 := activateTable t img m with hm1
  have h1 : (FlagsFollow m → FlagsFollow m1) ∧ (AlertFollows m → AlertFollows m1) ∧ (EntriesDistinct m → EntriesDistinct m1) := by
    rw [hm1]; unfold activateTable; cases t
    · exact ⟨fun _ => flagsFollow_followConditions _, fun _ => alertFollows_followConditions _, id⟩
    · dsimp only [activateTopology]
      have hT : (FlagsFollow m → FlagsFollow { m with tables := { m.tables with topology := some img } }) := 
        fun hf g hg => hf g (by cases g <;> exact hg)
      unfold reresolve; split
      · split
        · have := kept_resolve_followed false img ‹_› { m with tables := { m.tables with topology := some img } }
          exact ⟨fun _ => this.2.2.1, fun _ => this.2.2.2.1, this.2.2.2.2.1⟩
        · have := becomeStale_spec { m with tables := { m.tables with topology := some img } }
          exact ⟨fun _ => this.2.2.1, fun _ => this.2.2.2.1, this.2.2.2.2.1⟩
      · exact ⟨hT, id, id⟩
    · exact ⟨fun hf g hg => hf g (by cases g <;> exact hg), id, id⟩
    · have k := (sound_agingTests Dom.all { m with tables := { m.tables with limit := some img } })
      exact ⟨fun hf => k.follow fun g hg => hf g (by cases g <;> exact hg), fun h => k.alert h, fun h => k.entries h⟩
    · exact ⟨fun hf g hg => hf g (by cases g <;> exact hg), id, id⟩
  have h2 : Sound m1 (raise .tableDone (if (!partRunning m && partRunning m1) = true then endExpiredFormings m1 else m1)) := by
    split
    · exact Sound.after (sound_raise ..) (Steady.sound (steady_endExpiredFormings _))
    · exact sound_raise ..
  exact ⟨fun h => h2.follow (h1.1 h), fun h => h2.alert (h1.2.1 h), fun h => h2.entries (h1.2.2 h)⟩

def Good (P : Meas → Prop) : Prop := ∀ m m', Sound m m' → P m → P m'

theorem takeRequest_keeps {P : Meas → Prop} (hP : Good P) {mine body} (hb : ∀ q s, P s.meas → P (body q s).meas) (s : State)
    (h : P s.meas) :
   P (takeRequest mine body s).meas := by
  rcases takeRequest_cases mine body s with he | ⟨q, rest, _, _, _, ⟨_, he⟩ | ⟨_, he⟩⟩
  · rw [he]; exact h
  · rw [he]; exact hP _ _ (sound_thenUp (.refl s.meas)) h
  · rw [he]; exact hb q (taken rest s) h


theorem doSeg_keeps {P : Meas → Prop} (hP : Good P)
    (ha : ∀ l img s, (judgeImage l img s).1 = .ok → P s.meas → P (activateMeas l.table img s.meas)) (q s) (h : P s.meas) : P (doSeg q s).meas := by
  unfold doSeg
  split
  · exact hP _ _ (sound_thenUp (.refl s.meas)) h
  · dsimp only
    split
    · exact hP _ _ (sound_thenUp (.refl s.meas)) h
    · split
      · exact hP _ _ (sound_thenUp (sound_raise .tableAbort s.meas)) h
      · split
        · exact hP _ _ (sound_thenUp (.refl s.meas)) h
        · unfold finishLoad
          dsimp only
          split
          · rename_i hok
            exact hP _ _ (sound_thenBoth (.refl (activateMeas _ _ s.meas))) (ha _ _ s (by simpa using hok) h)
          · exact hP _ _ (sound_thenBoth (sound_raise .tableAbort s.meas)) h

theorem step_keeps {P : Meas → Prop} (hP : Good P) (hreset : P Meas.reset) (htopo : ∀ pos inlet m, P m → P (takeTopo pos inlet m))
   (hstat : ∀ m, P m → P (clearReported m)) (hmask : ∀ m w, P m → P { m with mask := w }) 
   (ha : ∀ l img s, (judgeImage l img s).1 = .ok → P s.meas → P (activateMeas l.table img s.meas))
   (hrestart : ∀ m, P m → P (restartMeas m)) (hstale : ∀ m, P m → P (becomeStale m)) (htick : ∀ m w, P m → P { m with timebase := w })
   {s t : State} (h0 : P s.meas) (h : step s = .next t) : P t.meas := by
  rcases step_cases h with ⟨c, rest, hp, he⟩ | rfl
  · by_cases hr : reshapes c = false
    · exact hP _ _ (sound_exec hr he) h0
    · have key : ∀ s : State, P s.meas → ∀ t, exec c s = .next t → P t.meas := by
        intro s h0 t he
        cases c <;> simp [reshapes] at hr <;> injection he with he <;> subst he
        · exact hreset
        · refine takeRequest_keeps hP (fun q s h => ?_) s h0
          exact hP _ _ (sound_thenBoth (.refl (takeTopo _ _ s.meas))) (htopo _ _ _ h)
        · refine takeRequest_keeps hP (fun q s h => ?_) s h0
          exact hP _ _ (sound_thenUp (.refl (clearReported s.meas))) (hstat _ h)
        · refine takeRequest_keeps hP (fun q s h => ?_) s h0
          exact hP _ _ (sound_thenUp (.refl { s.meas with mask := _ })) (hmask _ _ h)
        · exact takeRequest_keeps hP (doSeg_keeps hP ha) s h0
        · refine takeRequest_keeps hP (fun q s h => ?_) s h0
          refine hP _ _ (sound_thenBoth (.refl (restartMeas (respond q .ok [] (cancelRchk (if (s.meas.claim.state == .handoff) = true then cancelXclaim s else s))).meas))) (hrestart _ ?_)
          show P (cancelRchk _).meas
          have h1 : P (if (s.meas.claim.state == .handoff) = true then cancelXclaim s else s).meas := by
            split
            · exact hP _ _ (sound_cancelXclaim s) h
            · exact h
          unfold cancelRchk; split
          · exact hP _ _ (sound_records ..) h1
          · exact h1
        · unfold onEvent; split
          · rename_i m hm
            unfold freshnessExpiry at hm
            (repeat' split at hm) <;> simp at hm
            subst hm
            exact hP _ _ (sound_thenBoth (.refl _)) (hstale _ h0)
          · exact h0
      exact key { s with pending := rest } h0 t he
  · exact htick _ _ h0

end Sys2Proof.Machine
end

