-- ==== Sys2Proof/WellFormed.lean ====
section
/-! DEFINITION. Which commands are well formed: the operand ranges that the rules give. `exec` is total on the others too. -/

namespace Sys2Proof

/-- A frame's length character is at most 120 (R126). -/
def RxFrame.lengthOk (f : RxFrame) : Bool := decide (f.payload.length ≤ 120)

/-- A line character begins with its start bit, which is 0 (R123). -/
def startBitOk (c : BitVec 11) : Bool := c.getLsbD 0 == false

/-- An island's member set is never empty (R12). -/
def memberSetOk (ds : DomSet) : Bool := ds != 0

/-- The cycle named by an expiry belongs to an island with members, or is the reference cycle. -/
def CycleRef.ok : CycleRef → Bool
  | .island ds => memberSetOk ds
  | .refCheck => true

/-- The operands lie in the ranges their rules give. -/
def Instr.wf : Instr → Bool
  | .powerOn => true
  | .requestFrameReceived f => f.lengthOk && f.address == 0
  | .hostTapFrame f => f.lengthOk && decide (1 ≤ f.address.toNat ∧ f.address.toNat ≤ 15)
  | .sampleFrame f => f.lengthOk
  | .tapResponse f => f.lengthOk
  | .receiveError _ c => startBitOk c
  | .rxGapTimeout _ => true
  | .rxRecoveryDone _ => true
  | .portDTxDone => true
  | .portUTxDone => true
  | .topo => true
  | .xclaim => true
  | .xrel => true
  | .meas => true
  | .rchk => true
  | .stat => true
  | .mask => true
  | .isord => true
  | .resrd => true
  | .fltrd => true
  | .ldtab => true
  | .seg => true
  | .tsum => true
  | .freeze => true
  | .frls => true
  | .restart => true
  | .unknownRequest => true
  | .freshnessExpiry => true
  | .settleTimerExpiry ds => memberSetOk ds
  | .intervalExpiry ds => memberSetOk ds
  | .phaseTimerExpiry c => c.ok
  | .plateauTimerExpiry c => c.ok
  | .refreshTimerExpiry _ => true
  | .lossTimerExpiry _ => true
  | .joinRunTimeout _ => true
  | .handoffTimeout => true
  | .suspendEntryExpiry ds => memberSetOk ds
  | .agingExpiry _ => true
  | .loadGapTimeout => true
  | .characterReceived _ _ => true

end Sys2Proof
end

