-- ==== Sys2Proof/Tests/Slice0.lean ====
section
/-! SUPPORT. Tests. First the worked examples of the spec and the well-formedness smoke, then small tests of the commands on one example
part, then for each statement with hypotheses a witness that meets them. Expected values are the spec's or are worked by hand. -/

namespace Sys2Proof.Tests

open Sys2Proof.Machine

set_option maxRecDepth 100000

/-! ### Worked examples of the spec -/

/-- 00_scope, Frames: the check value of the CRC, over the characters 1 to 9. -/
theorem test_crc_check_value : crc16 [0x31, 0x32, 0x33, 0x34, 0x35, 0x36, 0x37, 0x38, 0x39] = 0x29B1 := by decide

/-- R54: plateau means are rounded half upward, for negative sums too. -/
theorem test_means : (meanOf (-1000) 16, meanOf (-24) 16, meanOf 24 16, meanOf (-1001) 16) = (-62, -1, 2, -63) := by decide

/-- 03, the main case, stage by stage. -/
theorem test_main_case :
    rrawOf 20000 400 28000 = 933 ∧ risoOf 933 2000 = 1748 ∧ sideRawOf 933 16000 7600 = 1964 ∧
      sideRawOf 933 16000 8400 = 1777 ∧ sideOf 1964 2000 = 3858 ∧ sideOf 1777 2000 = 3197 := by decide

/-- 03, a fault on the HV− side. -/
theorem test_fault_case :
    rrawOf 20000 400 4000 = 44 ∧ risoOf 44 2000 = 44 ∧
      splitOf ⟨some 0, some 15200, some 800, some 2100, some (-1900)⟩ 44 2000 = some (1128, 46) := by decide

/-- 03, limit cases: inverted, at the margin, zero margin, near open, open, above balance, near balance, HV+ short, low bus. -/
theorem test_limit_cases :
    isInverted 1000 (-1001) = true ∧ isInverted 1000 (-1000) = false ∧ rrawOf 20000 400 (-1000) = 0 ∧
      isInverted 0 (-1) = true ∧ rrawOf 20000 400 39990 = 65535 ∧ rrawOf 20000 400 40000 = 65535 ∧
      rrawOf 20000 400 34000 = 2266 ∧ risoOf 2266 2000 = 65535 ∧ risoOf 1999 2000 = 65535 ∧
      splitOf ⟨none, some 0, some 16000, none, none⟩ 0 2000 = some (0, 65535) ∧
      splitOf ⟨none, some 500, some 400, none, none⟩ 933 2000 = none ∧ rrawOf 5000 2000 1 = 0 := by decide

/-- 03, the table of thresholds. -/
theorem test_thresholds :
    thresholdsOf ⟨500, 100, 900, 2, 3, 10, 60⟩ = ⟨90, some 450, 99, some 495⟩ ∧
      thresholdsOf ⟨0, 125, 850, 2, 3, 15, 60⟩ = ⟨107, none, 124, none⟩ ∧
      thresholdsOf ⟨50, 50, 100, 2, 3, 0, 60⟩ = ⟨5, some 5, 5, some 5⟩ ∧
      thresholdsOf ⟨5000, 5000, 1500, 2, 3, 50, 60⟩ = ⟨7500, some 7500, 11250, some 11250⟩ := by decide

/-- R88: the two examples of the asymmetry test. -/
theorem test_asymmetry :
    asymmetric 10 ⟨1200, 14800, 0, 0, true, false, false, false⟩ = true ∧
      asymmetric 10 ⟨1700, 14300, 0, 0, true, false, false, false⟩ = false := by decide

/-- R195: the built-in FORWARD image has 145 bytes, its high mark is 16, and it blocks kind 0x02 for owned taps. -/
theorem test_builtin_forward :
    builtinForward.length = 145 ∧ fwdHighMark builtinForward = 16 ∧ fwdDecimation builtinForward .d8 = 1 ∧
      fwdAction builtinForward 1 = 0 ∧ fwdAction builtinForward 2 = 2 ∧ fwdAction builtinForward 3 = 0 := by decide

/-- R123: the line character of 0x01: start 0, data 1 first, parity 0, stop 1. -/
theorem test_line_char : lineChar 0x01 = 0b10000000010 ∧ lineChar 0x03 = 0b11000000110 := by decide

/-! ### Well-formedness: each check refuses an ill-formed command -/

/-- A frame with a payload of `n` zero bytes. -/
def frameOf (address : Byte) (n : Nat) : RxFrame := ⟨address, 0x01, 0, List.replicate n 0, 0⟩

theorem test_wf_length : (Instr.sampleFrame (frameOf 1 120)).wf = true ∧ (Instr.sampleFrame (frameOf 1 121)).wf = false ∧
    (Instr.tapResponse (frameOf 1 121)).wf = false := by decide
theorem test_wf_request_address : (Instr.requestFrameReceived (frameOf 0 4)).wf = true ∧
    (Instr.requestFrameReceived (frameOf 1 4)).wf = false := by decide
theorem test_wf_tap_address : (Instr.hostTapFrame (frameOf 15 4)).wf = true ∧ (Instr.hostTapFrame (frameOf 0 4)).wf = false ∧
    (Instr.hostTapFrame (frameOf 16 4)).wf = false := by decide
theorem test_wf_start_bit : (Instr.receiveError .u 0x7FE).wf = true ∧ (Instr.receiveError .u 0x7FF).wf = false := by decide
theorem test_wf_member_set : (Instr.intervalExpiry 0x05).wf = true ∧ (Instr.intervalExpiry 0).wf = false ∧
    (Instr.phaseTimerExpiry (.island 0)).wf = false ∧ (Instr.phaseTimerExpiry .refCheck).wf = true := by decide

/-! ### An example part -/

/-- Domains 1 to 3 fitted with Rc 400, Rbal 2000, Rref 1000 kΩ. -/
def domainImage : List Byte :=
  (List.replicate 3 (1 :: (be16 400 ++ be16 2000 ++ be16 1000))).flatten ++ List.replicate 35 0

/-- Row 0: position 0 closed gives the islands 1 and 2 (injector 1) and 3, profile DRIVE. Row 1: position 0 open or position 1 closed,
with 100 to 500 V at the inlet, gives three islands, profile PARK. `order` is the search order. -/
def topologyImage (order : Byte) : List Byte :=
  [2, order] ++ be16 1000 ++ be16 500
    ++ [0, 1, 0, 1, 0, 0, 0, 0, 0, 0, 0x00, 0x1F, 0xFF, 0xFF, 0x05, 1]
    ++ ([0, 3, 0, 2, 1, 1] ++ be16 100 ++ be16 500 ++ [0x01, 0x2F, 0xFF, 0xFF, 0x07, 0])

/-- Four equal rows: U 20000 mV, slew 500 V/s, N 16, B 4, S 2, settle_tol 10, phase_timeout 1000, interval 5000, max_gap 2,
noise_limit 3, inv_margin 50, handoff_limit 500, resume_age 10, attrib_age 60, asym 10 % and 3, ref_tol 5. -/
def cycleImage : List Byte :=
  (List.replicate 4 (be16 20000 ++ be16 500 ++ be16 16 ++ [4, 2] ++ be16 10 ++ be32 1000 ++ be32 5000 ++ [2, 3]
    ++ be16 50 ++ be16 500 ++ be16 10 ++ be16 60 ++ [10, 3, 5])).flatten

/-- No override; for each profile warn 500, fault 100, rated 800 V, fault_count 2, clear_count 3, 10 %, max_age 60 s: Tf 80, Tw 400,
Tfc 88, Twc 440. -/
def limitImage : List Byte :=
  0 :: (List.replicate 4 (be16 500 ++ be16 100 ++ be16 800 ++ [2, 3, 10] ++ be16 60)).flatten

/-- The tables of the example part; the built-in FORWARD table is in force. -/
def tables : Tables := ⟨some domainImage, some (topologyImage 0), some cycleImage, some limitImage, none⟩

/-- The CYCLE row of every profile. -/
def row : CycleRow := cycleRowOf cycleImage .drive

/-- A sample of an undisturbed domain of 800 V, as its tap echoes 0, DOMAIN, connected. -/
def calm : Sample := ⟨8000, 8000, 0, 0, true, false, false, false⟩

/-- The presence record of a tap whose loss timer has run exactly 100 ms at time 100000. -/
def seen : Presence := ⟨.present, some 7, 0, some 99900, some calm⟩

/-- What a cycle captured. -/
def captured : Captured := ⟨row, .drive, 400, 2000⟩

/-- An island in a state, with every timer started at time 0. -/
def islandIn (ds : DomSet) (t : Dom) (st : IslandState) : Island :=
  { members := ds, injector := t, profile := .drive, state := st, mode := .full, captured := some captured, acc := .empty,
    phaseTimer := some ⟨0, 1000⟩, plateauTimer := some ⟨0, 1000⟩, settleTimer := .running ⟨0, 500⟩,
    intervalTimer := some ⟨0, 5000⟩, means := ⟨some 388, some 8400, some 7600, some 14500, none⟩, counts := ⟨2, 2, 0⟩,
    quality := .clear, demand := none, slot := none }

/-- Tap 1 as it is in a test: present, its refresh timer run exactly 20 ms at time 100000. -/
def tapOne (b : Mailbox) (r : Option Ramp) : Tap := ⟨some seen, b, r, 5, some 99980, false⟩

/-- The part at time 100000, KNOWN on row 0, RUNNING, taps 1 to 3 PRESENT; the island of domains 1 and 2 is in `st` with its injector
tap 1 as given, and the island of domain 3 in FORMING. -/
def part (st : IslandState) (b : Mailbox) (r : Option Ramp) : Meas :=
  { Meas.reset with
    timebase := 100000, tables := tables,
    taps := ((Meas.reset.taps.set .d1 (tapOne b r)).set .d2 (tapOne .rest none)).set .d3 (tapOne .quiet none),
    topo := ⟨some ⟨1, 400, 99000⟩, .known, some 0, 1⟩,
    islands := [islandIn 3 .d1 st, islandIn 4 .d3 .forming] }

/-- The island in INTERVAL at rest. -/
def calmPart : Meas := part .interval .quiet none

/-- Both receivers READY, nothing in transmission. -/
def readyLink : Link :=
  { Link.reset with rxU := ⟨.ready, [], false, 0, 0, 0, 0⟩, rxD := ⟨.ready, [], false, 0, 0, 0, 0⟩ }

/-- A part with nothing waiting. -/
def stateOf (m : Meas) : State := ⟨[], readyLink, ⟨none, 0⟩, m⟩

/-- A request frame with tag 0x44. -/
def request (kind : Byte) (payload : List Byte) : Frame := ⟨0xC3, 0, kind, 0x44, payload⟩

/-- A part with one request in its buffer. -/
def asked (kind : Byte) (payload : List Byte) (m : Meas) : State :=
  { stateOf m with link := { readyLink with buffer := [request kind payload] } }

/-- The state after a command; the state before it, had the command stopped (no command does). -/
def after (c : Instr) (s : State) : State :=
  match exec c s with
  | .next t => t
  | _ => s

/-- The payload of the newest frame to the host. -/
def answer (s : State) : List Byte := ((outgoing s).getLast?.map (·.payload)).getD []

/-- The status byte of the newest frame to the host. -/
def status (s : State) : Option Byte := (answer s).head?

/-- The example images pass their validations, in the order they must be loaded. -/
theorem test_images_valid :
    validate Meas.reset .domain domainImage = none ∧
      validate { Meas.reset with tables := ⟨some domainImage, none, none, none, none⟩ } .topology (topologyImage 1) = none ∧
      validate Meas.reset .cycle cycleImage = none ∧
      validate { Meas.reset with tables := ⟨some domainImage, none, none, none, none⟩ } .forward builtinForward = none := by
  decide

/-! ### Small tests of the commands, each one step -/

/-- A frame whose CRC is right. -/
def good (address kind tag : Byte) (payload : List Byte) : RxFrame :=
  ⟨address, kind, tag, payload, crc16 (bodyBytes address kind tag payload)⟩

/-- The state of the island of domains 1 and 2. -/
def stateA (s : State) : Option IslandState := (islandAt s.meas 3).map (·.state)

/-- R167: only RESET is set, no table is active, both receivers recover; the queue of commands stays (log 24). -/
theorem test_powerOn :
    let t := after .powerOn { stateOf calmPart with pending := [.stat] }
    t.meas.flags = 1 ∧ t.meas.tables.domain = none ∧ t.link.rxD.state = .recovering ∧ t.pending = [.stat] := by decide

/-- R155, R125: a request is buffered; one with a wrong CRC counts as a CRC error. -/
theorem test_requestFrameReceived :
    (after (.requestFrameReceived (good 0 0x20 9 [])) (stateOf calmPart)).link.buffer = [⟨0xC3, 0, 0x20, 9, []⟩] ∧
      let t := after (.requestFrameReceived ⟨0, 0x20, 9, [], 0⟩) (stateOf calmPart)
      t.link.buffer = [] ∧ t.link.rxU.crc = 1 ∧ t.link.rxU.state = .recovering := by decide

/-- R145, R147: a kind above 0x7F is answered FILTERED from the tap's address; a kind that passes goes down the chain. -/
theorem test_hostTapFrame :
    (after (.hostTapFrame (good 2 0x90 9 [])) (stateOf calmPart)).link.txU.map (fun f => (f.marker, f.address, f.kind, f.payload.head?))
      = some (0xC5, 2, 0x90, some 0x0A) ∧
    (after (.hostTapFrame (good 2 0x01 9 [7])) (stateOf calmPart)).link.txD = some ⟨0xC3, 2, 0x01, 9, [7]⟩ := by decide

/-- Tap 2 joining, two frames in, the last of them number 5. -/
def joining : State :=
  stateOf { calmPart with taps := calmPart.taps.set .d2 { calmPart.taps.get .d2 with
    presence := some ⟨.unseen, some 5, 2, some 99950, none⟩ } }

/-- R129: the third frame in sequence makes a tap PRESENT; one out of sequence begins the run anew. -/
theorem test_sampleFrame :
    let p (seq : Byte) := ((after (.sampleFrame (good 2 0x01 seq [0, 0, 0, 0, 0, 0, 0, 0, 0])) joining).meas.taps.get .d2).presence
    (p 6).map (fun p => (p.state, p.joinRun)) = some (.present, 0) ∧
      (p 8).map (fun p => (p.state, p.joinRun)) = some (.unseen, 1) := by decide

/-- A part whose upstream queue holds `n` frames and whose Port U is busy. -/
def queued (n : Nat) (s : State) : State :=
  { s with link := { s.link with txU := some (request 0 []), upQueue := List.replicate n (request 1 []) } }

/-- R150, R151: a tap response is admitted at an occupancy of 23 and dropped at 24. -/
theorem test_tapResponse :
    (after (.tapResponse (good 2 0x01 9 [])) (queued 23 (stateOf calmPart))).link.upQueue.length = 24 ∧
      let t := after (.tapResponse (good 2 0x01 9 [])) (queued 24 (stateOf calmPart))
      t.link.upQueue.length = 24 ∧ t.link.drops = 1 ∧ flagSet t.meas .fwdDrop = true := by decide

/-- R125: a character 0x01 with a wrong parity and no stop bit counts as a parity error only. -/
theorem test_receiveError :
    let t := after (.receiveError .d 0b01000000010) (stateOf calmPart)
    (t.link.rxD.parity, t.link.rxD.framing) = (1, 0) ∧ flagSet t.meas .linkErrD = true := by decide

/-- Port D within a frame. -/
def inFrame : State := { stateOf calmPart with link := { readyLink with rxD := ⟨.inFrame, [0xC9], false, 0, 0, 0, 0⟩ } }

/-- R124, R125: a gap error, after which the receiver is READY; the end of RECOVERING. -/
theorem test_rx_timeouts :
    ((after (.rxGapTimeout .d) inFrame).link.rxD.state, (after (.rxGapTimeout .d) inFrame).link.rxD.gap) = (.ready, 1) ∧
      (after (.rxRecoveryDone .u) State.reset).link.rxU.state = .ready := by decide

/-- R136: of two due level frames the lower-numbered tap's begins. -/
theorem test_portDTxDone :
    let due (t : Tap) : Tap := { t with due := true }
    let m := { calmPart with taps := (calmPart.taps.set .d3 (due (calmPart.taps.get .d3))).set .d2 (due (calmPart.taps.get .d2)) }
    let t := after .portDTxDone { stateOf m with link := { readyLink with txD := some (request 1 []) } }
    t.link.txD.map (fun f => (f.marker, f.address)) = some (0xCA, 2) ∧ (t.meas.taps.get .d3).due = true := by decide

/-- R148: the head of the upstream queue follows. -/
theorem test_portUTxDone :
    let t := after .portUTxDone (queued 2 (stateOf calmPart))
    t.link.txU = some (request 1 []) ∧ t.link.upQueue.length = 1 := by decide

/-- R9, R10: positions 0 and 1 closed match both rows; position 0 open at 501 V matches none. -/
theorem test_topo :
    let t := after .topo (asked 0x10 [0, 3, 1, 0x90] calmPart)
    (answer t).drop 2 = [1, 0, 2] ∧ flagSet t.meas .topoMulti = true ∧
      (answer (after .topo (asked 0x10 [0, 0, 1, 0xF5] calmPart))).drop 2 = [2, 0xFF, 0] := by decide

/-- R94, R95: a claim takes its island into HANDOFF and its response waits; an unfitted domain is answered BADARG. -/
theorem test_xclaim :
    let t := after .xclaim (asked 0x11 [2] calmPart)
    stateA t = some .handoff ∧ t.meas.claim.dom = some .d2 ∧ outgoing t = [] ∧
      status (after .xclaim (asked 0x11 [4] calmPart)) = some 0x03 := by decide

/-- R104: XREL without a claim is answered OK. -/
theorem test_xrel : status (after .xrel (asked 0x12 [] calmPart)) = some 0x00 := by decide

/-- R46: MEAS starts a FAST cycle in INTERVAL; a mode that does not exist is answered BADARG. -/
theorem test_meas :
    let t := after .meas (asked 0x13 [2, 0] calmPart)
    (islandAt t.meas 3).map (fun i => (i.state, i.mode)) = some (.cycle .quietSettle, .fast) ∧
      status (after .meas (asked 0x13 [2, 2] calmPart)) = some 0x03 := by decide

/-- R115, R116: RCHK puts the injector's island in REFHOLD and switches the tap to its reference path. -/
theorem test_rchk :
    let t := after .rchk (asked 0x14 [1] calmPart)
    stateA t = some .refhold ∧ (t.meas.taps.get .d1).mailbox = ⟨0, .ref, .floating⟩ := by decide

/-- R160, R162: STAT reports 42 bytes and clears the edge flags; a condition that holds keeps its flag. -/
theorem test_stat :
    let m := { calmPart with flags := 0x000FFFFF, topo := { calmPart.topo with state := .stale } }
    let t := after .stat (asked 0x20 [] m)
    (answer t).length = 44 ∧ t.meas.flags = 4 := by decide

/-- R161: with an empty mask the attention bit is clear; the part is RUNNING and KNOWN. -/
theorem test_mask : answer (after .mask (asked 0x21 [0, 0, 0, 0] calmPart)) = [0, 6, 0, 0, 0, 0] := by decide

/-- R163, R164: read-outs of one domain, of an island without a result, and of an empty fault record. -/
theorem test_readouts :
    (answer (after .isord (asked 0x22 [0x0A] calmPart))).length = 30 ∧
      status (after .resrd (asked 0x23 [3] calmPart)) = some 0x06 ∧
      (answer (after .fltrd (asked 0x24 [3] calmPart))).drop 2 = [0] := by decide

/-- R169: a TOPOLOGY load of one row opens; 23 bytes are no whole number of rows. -/
theorem test_ldtab :
    (after .ldtab (asked 0x30 [2, 0, 22, 0, 0] calmPart)).loader.load.map (·.table) = some .topology ∧
      status (after .ldtab (asked 0x30 [2, 0, 23, 0, 0] calmPart)) = some 0x03 := by decide

/-- A CYCLE load open since time 99750, with its first byte received. -/
def openLoad : Load := ⟨.cycle, 124, 0, 1, [0x4E], 99750⟩

/-- R170: segment 0 where 1 is expected is answered ORDER, and the load stays open; the expected one is taken. -/
theorem test_seg :
    let s (n : Byte) := { asked 0x31 [n, 0x20] calmPart with loader := ⟨some openLoad, 0⟩ }
    status (after .seg (s 0)) = some 0x07 ∧
      (after .seg (s 1)).loader.load.map (fun l => (l.expected, l.buffer)) = some (2, [0x4E, 0x20]) := by decide

/-- R175: the CRC of the one byte 0x00 is 0xE1F0. -/
theorem test_tsum : (answer (after .tsum (asked 0x32 [4, 0, 0, 0, 1] calmPart))).drop 2 = [4, 0, 0, 0, 1, 0xE1, 0xF0] := by decide

/-- R176: a FREEZE that would clear a flag is answered LOCKED. -/
theorem test_freeze :
    status (after .freeze { asked 0x33 [1] calmPart with loader := ⟨none, 2⟩ }) = some 0x05 ∧
      (after .freeze { asked 0x33 [3] calmPart with loader := ⟨none, 2⟩ }).loader.freeze = 3 := by decide

/-- R177: with 800 V on tap 1, FRLS is refused as ENERGISED with domain 1. -/
theorem test_frls : (answer (after .frls { asked 0x34 [] calmPart with loader := ⟨none, 2⟩ })).drop 2 = [3, 1] := by decide

/-- R166: RESTART leaves RESET set, and the mailboxes at rest. -/
theorem test_restart :
    let t := after .restart (asked 0x3F [] (part (.cycle .posSettle) ⟨20000, .domain, .connected⟩ none))
    t.meas.flags = 1 ∧ t.meas.resetCause = .restart ∧ (t.meas.taps.get .d1).mailbox = ⟨0, .domain, .floating⟩ := by decide

/-- R157: a kind that is none of the sixteen is answered BADKIND. -/
theorem test_unknownRequest : status (after .unknownRequest (asked 0x77 [] calmPart)) = some 0x01 := by decide

/-- R11: the report is exactly 1000 ms old. -/
theorem test_freshnessExpiry :
    (after .freshnessExpiry (stateOf calmPart)).meas.topo.state = .stale ∧
      (after .freshnessExpiry (stateOf { calmPart with timebase := 99999 })).meas.topo.state = .known := by decide

/-- R25, R44, R39: the timers of an island. -/
theorem test_island_timers :
    (islandAt (after (.settleTimerExpiry 4) (stateOf calmPart)).meas 4).map (fun i => (i.state, i.mode))
      = some (.cycle .quietSettle, .fast) ∧
    (islandAt (after (.intervalExpiry 3) (stateOf calmPart)).meas 3).map (fun i => (i.state, i.mode))
      = some (.cycle .quietSettle, .full) ∧
    (islandAt (after (.phaseTimerExpiry (.island 3)) (stateOf (part (.cycle .posSettle) ⟨20000, .domain, .connected⟩ none))).meas 3).map
      (fun i => (i.state, i.quality.unsettled)) = some (.cycle .posPlateau, true) := by decide

/-- R41: the plateau timer in POS_PLATEAU: result 1 is TIMED_OUT with Vp and without D2, and the ramp home begins. -/
theorem test_plateauTimerExpiry :
    let t := after (.plateauTimerExpiry (.island 3)) (stateOf (part (.cycle .posPlateau) ⟨20000, .domain, .connected⟩ none))
    stateA t = some (.cycle .rampHome) ∧ flagSet t.meas .cycleFail = true ∧
      ((islandAt t.meas 3).bind (·.slot)).map (fun r => (r.number, r.outcome, r.means.vp, r.d2)) =
        some (1, .timedOut, some 14500, none) := by decide

/-- A ramp of a cycle to +20000 mV at 500 V/s, which is 10000 mV a step. -/
def rampUp : Ramp := ⟨20000, 10000, .domain, .connected, .cycle⟩

/-- R30: the first of two steps; the second enters POS_SETTLE. -/
theorem test_refreshTimerExpiry :
    let t := after (.refreshTimerExpiry .d1) (stateOf (part (.cycle .rampPos) .quiet (some rampUp)))
    let u := after (.refreshTimerExpiry .d1)
      (stateOf (part (.cycle .rampPos) ⟨10000, .domain, .connected⟩ (some rampUp)))
    (t.meas.taps.get .d1).mailbox.level = 10000 ∧ stateA t = some (.cycle .rampPos) ∧
      (u.meas.taps.get .d1).mailbox.level = 20000 ∧ stateA u = some (.cycle .posSettle) := by decide

/-- R130, R26: the loss of an injector stalls its island. -/
theorem test_lossTimerExpiry :
    let t := after (.lossTimerExpiry .d1) (stateOf calmPart)
    tapState t.meas .d1 = some .lost ∧ flagSet t.meas .tapLost = true ∧ stateA t = some .stalled := by decide

/-- R129: a join run ends when its loss timer has run 100 ms. -/
theorem test_joinRunTimeout :
    let run (s : State) := ((s.meas.taps.get .d2).presence.map (·.joinRun))
    run (after (.joinRunTimeout .d2) joining) = some 2 ∧
      run (after (.joinRunTimeout .d2) (stateOf { joining.meas with timebase := 100050 })) = some 0 := by decide

/-- A part with the island of domains 1 and 2 in HANDOFF at +20000 mV since time 99500. -/
def handingOff : Meas :=
  { part .handoff ⟨20000, .domain, .connected⟩ none with
    claim := ⟨.handoff, some .d2, 99500, 500, 0x44, false, 0⟩, pendXclaim := some ⟨0x11, 0x44⟩ }

/-- R100: at 500 ms the claim is granted with TIMEOUT, and the level is forced down. -/
theorem test_handoffTimeout :
    let t := after .handoffTimeout (stateOf handingOff)
    t.meas.claim.state = .granted ∧ stateA t = some .external ∧ (t.meas.taps.get .d1).mailbox.level = 0 ∧
      status t = some 0x09 := by decide

/-- A part whose claim on domain 2 is armed, with tap 1 confirmed: the island of domains 1 and 2 is in HANDOFF at rest. -/
def confirming : Meas :=
  { part .handoff .rest none with
    claim := ⟨.handoff, some .d2, 99900, 500, 0x44, true, 1⟩, pendXclaim := some ⟨0x11, 0x44⟩ }

/-- A sample frame of tap 2 that echoes 0, DOMAIN, floating. -/
def floatSample : RxFrame := good 2 0x01 8 [0x1F, 0x40, 0x1F, 0x40, 0, 0, 0, 0, 0]

/-- R99, R150: the frame that confirms the last tap grants the claim; its XCLAIM response (domain 2, none unconfirmed) takes a place first,
so at an occupancy of 15 under the high mark 16 the frame itself is dropped. -/
theorem test_grant_before_sample :
    let t := after (.sampleFrame floatSample) (queued 15 (stateOf confirming))
    t.meas.claim.state = .granted ∧ t.link.upQueue.length = 16 ∧ status t = some 0 ∧ (answer t).drop 2 = [2, 0] ∧
      t.link.drops = 1 := by decide

/-- A suspended cycle, suspended at a time. -/
def suspendedAt (t : Time) : SuspendEntry :=
  ⟨4, .d3, .full, .pos, ⟨some 388, some 8400, some 7600, none, none⟩, captured, ⟨2, 0, 0⟩, .clear, t, .claim⟩

/-- R111: an entry of exactly 10 s stays, one a millisecond older goes. -/
theorem test_suspendEntryExpiry :
    let n (t : Time) := (after (.suspendEntryExpiry 4) (stateOf { calmPart with suspended := [suspendedAt t] })).meas.suspended.length
    n 90000 = 1 ∧ n 89999 = 0 := by decide

/-- A domain in OK whose newest result completed at a time. -/
def okSince (t : Time) : DomRec := { DomRec.reset with verdict := .ok, newest := some ⟨9, t⟩ }

/-- R82: a result of exactly 60 s keeps the verdict, one a millisecond older loses it. -/
theorem test_agingExpiry :
    let v (t : Time) := ((after (.agingExpiry .d2) (stateOf { calmPart with doms := calmPart.doms.set .d2 (okSince t) })).meas.doms.get .d2).verdict
    v 40000 = .ok ∧ v 39999 = .unknown := by decide

/-- R171: 250 ms without a segment close a load. -/
theorem test_loadGapTimeout :
    let t := after .loadGapTimeout { stateOf calmPart with loader := ⟨some openLoad, 0⟩ }
    t.loader.load = none ∧ flagSet t.meas .tableAbort = true := by decide

/-- R125, R126: a request marker begins a frame on Port U; a sample marker is a framing error there. -/
theorem test_characterReceived :
    (after (.characterReceived .u 0xC3) (stateOf calmPart)).link.rxU.state = .inFrame ∧
      (after (.characterReceived .u 0xC9) (stateOf calmPart)).link.rxU.framing = 1 := by decide

/-- One step takes the command in front; on an empty queue a millisecond passes and the recovering receivers' events are due. -/
theorem test_step :
    (match step { State.reset with pending := [.rxRecoveryDone .d, .powerOn] } with
      | .next t => (t.pending, t.link.rxD.state)
      | _ => ([], .recovering)) = ([.powerOn], .ready) ∧
    (match step State.reset with
      | .next t => (t.pending, t.meas.timebase)
      | _ => ([], 0)) = ([.rxRecoveryDone .u, .rxRecoveryDone .d], 1) := by decide

/-! ### Witnesses: for each statement with hypotheses, states and operands that meet them -/

/-- A buffered request meets R156 in an idle part. -/
theorem asked_head (kind : Byte) (payload : List Byte) (m : Meas) (n r : Nat) (hn : payload.length = n) (hm : m.heldResponses = [])
    (hr : r ≤ 32) : HeadRequest kind n r (request kind payload) [] (asked kind payload m) :=
  ⟨rfl, rfl, hn, hm, by simpa [asked, readyLink, Link.reset, Config.upstreamPlaces] using hr⟩

theorem witness_StepTakesFrontCommand : ({ State.reset with pending := [.stat, .frls] } : State).pending = .stat :: [.frls] := by
  decide

/-- Tap 1's refresh timer is due at 20 ms and not at 19, its loss timer at 100 ms and not at 99. -/
theorem witness_EmptyQueueIsOneMillisecond :
    (stateOf calmPart).pending = [] ∧ EventDue (stateOf calmPart) (.refreshTimerExpiry .d1) ∧
      EventDue (stateOf calmPart) (.lossTimerExpiry .d1) ∧
      ¬ EventDue (stateOf { calmPart with timebase := 99999 }) (.refreshTimerExpiry .d1) ∧
      ¬ EventDue (stateOf { calmPart with timebase := 99999 }) (.lossTimerExpiry .d1) := by
  refine ⟨by decide, ⟨by decide, 99980, by decide, by decide⟩, ⟨seen, 99900, by decide, by decide, by decide, by decide⟩, ?_, ?_⟩
  · rintro ⟨-, st, h, h'⟩
    obtain rfl : (99980 : Time) = st := Option.some.inj h
    exact absurd h' (by decide)
  · rintro ⟨p, st, h, -, h2, h'⟩
    obtain rfl : seen = p := Option.some.inj h
    obtain rfl : (99900 : Time) = st := Option.some.inj h2
    exact absurd h' (by decide)

/-- Both kinds of row, and the ends of the inlet range. -/
theorem witness_RowMatch :
    topoKind (topologyImage 0) 0 = 0 ∧ topoKind (topologyImage 0) 1 = 1 ∧
      rowMatches (topologyImage 0) 0 100 1 = true ∧ rowMatches (topologyImage 0) 0 500 1 = true ∧
      rowMatches (topologyImage 0) 0 99 1 = false ∧ rowMatches (topologyImage 0) 0 501 1 = false ∧
      rowMatches (topologyImage 0) 0 400 0 = false ∧ rowMatches (topologyImage 0) 1 9 0 = true := by decide

theorem witness_ResolvedRow :
    (matchingRows (topologyImage 0) 3 400).head? = some 0 ∧ topoOrder (topologyImage 0) = 0 ∧
      (matchingRows (topologyImage 1) 3 400).head? = some 1 ∧ topoOrder (topologyImage 1) ≠ 0 ∧
      (matchingRows (topologyImage 0) 0 501).head? = none := by decide

theorem witness_PartitionOfRow :
    fitted calmPart .d2 = true ∧ fitted calmPart .d4 = false ∧
      partitionOf (topologyImage 0) 0 (fitted calmPart) = [⟨3, .d1, .drive⟩, ⟨4, .d3, .drive⟩] ∧
      inSet 3 .d1 = true ∧ inSet (topoInjectors (topologyImage 0) 0) .d1 = true ∧ inSet (topoInjectors (topologyImage 0) 0) .d2 = false ∧
      topoProfile (topologyImage 0) 0 = 1 ∧ topoProfile (topologyImage 0) 1 = 0 ∧
      topoProfile ((topologyImage 0).set 21 2) 0 = 2 ∧ topoProfile ((topologyImage 0).set 21 3) 0 = 3 := by decide

/-- No table, no matching row, two matching rows, and a claim in HANDOFF. -/
theorem witness_TopoResolves :
    HeadRequest 0x10 4 1 (request 0x10 [0, 3, 1, 0x90]) [] (asked 0x10 [0, 3, 1, 0x90] calmPart) ∧
      HeadRequest 0x10 4 1 (request 0x10 [0, 0, 1, 0xF5]) [] (asked 0x10 [0, 0, 1, 0xF5] handingOff) ∧
      Meas.reset.tables.topology = none ∧ calmPart.tables.topology = some (topologyImage 0) ∧
      matchingRows (topologyImage 0) 0 501 = [] ∧ 2 ≤ (matchingRows (topologyImage 0) 3 400).length ∧
      calmPart.claim.state ≠ .handoff ∧ handingOff.claim.state = .handoff :=
  ⟨asked_head _ _ _ _ _ rfl rfl (by decide), asked_head _ _ _ _ _ rfl rfl (by decide), by decide⟩

theorem witness_TopoSameRowTouchesNoIsland :
    HeadRequest 0x10 4 1 (request 0x10 [0, 1, 1, 0x90]) [] (asked 0x10 [0, 1, 1, 0x90] calmPart) ∧
      calmPart.tables.topology = some (topologyImage 0) ∧ calmPart.topo.state = .known ∧
      matchingRows (topologyImage 0) 1 400 ≠ [] ∧ (matchingRows (topologyImage 0) 1 400).head? = calmPart.topo.row :=
  ⟨asked_head _ _ _ _ _ rfl rfl (by decide), by decide⟩

/-- A reference check of tap 3 in a step, its timers started at time 0. -/
def checking (st : RefStep) : RefCheck :=
  { step := st, tap := .d3, tag := 0x44, row := row, rc := 400, rref := 1000, preemptSlew := none, acc := .empty,
    phaseTimer := some ⟨0, 1000⟩, plateauTimer := some ⟨0, 1000⟩, vp := none, vn := none, outcome := none, rraw := none,
    decided := none }

/-- A part with a reference check of tap 3 at +20000 mV on its reference path. -/
def checkPart (st : RefStep) : Meas :=
  { calmPart with
    ref := some (checking st), pendRchk := some ⟨0x14, 0x44⟩,
    taps := calmPart.taps.set .d3 { calmPart.taps.get .d3 with mailbox := ⟨20000, .ref, .floating⟩ } }

/-- A granted claim on the island of domains 1 and 2. -/
def granted : Meas := { handingOff with
  claim := { handingOff.claim with state := .granted }, pendXclaim := none, islands := [islandIn 3 .d1 .external, islandIn 4 .d3 .forming] }

/-- A FAULT result of domain 3 alone, and one of the island of domains 1 and 2. -/
def faultResult (ds : DomSet) : ResultRecord :=
  { number := 7, members := ds, injector := .d3, profile := .drive, mode := .full, outcome := .valid, quality := .clear,
    time := 100000, u := 20000, means := .none, d2 := some 4000, rraw := some 44, riso := some 44, rp := some 1128, rn := some 46,
    counts := .zero }

/-- The part before its first TOPO. -/
def unresolved : Meas := { calmPart with topo := .reset, islands := [] }

/-- A part on row 1, each domain its own island. -/
def onRowOne : Meas :=
  { calmPart with
    topo := ⟨some ⟨2, 400, 99000⟩, .known, some 1, 1⟩,
    islands := ([⟨1, .d1, .park⟩, ⟨2, .d2, .park⟩, ⟨4, .d3, .park⟩] : List IslandSpec).map fun p =>
      ({ islandIn p.members p.injector .interval with profile := p.profile } : Island) }

/-- No row matches 900 V with position 0 open. From no island to row 0; from row 0 to row 1, where the island of domain 3 continues and the injector 1 is a new island's; from row 1 to
row 0, where the injector 2 is left; with a claim on domain 2 in HANDOFF, or granted at once; with tap 1 or 2 under check, in PREEMPT and past it. -/
theorem witness_TopoFormsIslands :
    HeadRequest 0x10 4 1 (request 0x10 [0, 1, 1, 0x90]) [] (asked 0x10 [0, 1, 1, 0x90] unresolved) ∧
      HeadRequest 0x10 4 1 (request 0x10 [0, 2, 1, 0x90]) [] (asked 0x10 [0, 2, 1, 0x90] calmPart) ∧
      HeadRequest 0x10 4 1 (request 0x10 [0, 1, 1, 0x90]) [] (asked 0x10 [0, 1, 1, 0x90] onRowOne) ∧
      HeadRequest 0x10 4 1 (request 0x10 [0, 0, 3, 0x84]) [] (asked 0x10 [0, 0, 3, 0x84] calmPart) ∧
      PartitionFollows calmPart ∧ PartitionFollows onRowOne ∧
      unresolved.tables.topology = some (topologyImage 0) ∧ unresolved.topo.state ≠ .known ∧ unresolved.islands = [] ∧
      unresolved.claim.state = .none ∧ unresolved.ref = none ∧ topoSettle (topologyImage 0) ≠ 0 ∧
      (matchingRows (topologyImage 0) (BitVec.ofNat 16 (nat16 [0, 1, 1, 0x90] 0)) (min 1500 (nat16 [0, 1, 1, 0x90] 2))).head? = some 0 ∧
      (matchingRows (topologyImage 0) (BitVec.ofNat 16 (nat16 [0, 2, 1, 0x90] 0)) (min 1500 (nat16 [0, 2, 1, 0x90] 2))).head? = some 1 ∧
      matchingRows (topologyImage 0) (BitVec.ofNat 16 (nat16 [0, 0, 3, 0x84] 0)) (min 1500 (nat16 [0, 0, 3, 0x84] 2)) = [] ∧
      ¬ (calmPart.topo.state = .known ∧ calmPart.topo.row = some 1) ∧ ¬ (onRowOne.topo.state = .known ∧ onRowOne.topo.row = some 0) ∧
      partitionOf (topologyImage 0) 1 (fitted calmPart) = [⟨1, .d1, .park⟩, ⟨2, .d2, .park⟩, ⟨4, .d3, .park⟩] ∧
      underRef (checkPart .preempt) .d3 = true ∧ inSet 3 .d2 = true ∧ inSet 4 .d2 = false :=
  ⟨asked_head _ _ _ _ _ rfl rfl (by decide), asked_head _ _ _ _ _ rfl rfl (by decide), asked_head _ _ _ _ _ rfl rfl (by decide), asked_head _ _ _ _ _ rfl rfl (by decide),
    ⟨fun _ => ⟨topologyImage 0, 0, by decide⟩, fun h => absurd rfl h⟩,
    ⟨fun _ => ⟨topologyImage 0, 1, by decide⟩, fun h => absurd rfl h⟩, by decide⟩

/-- R16, R19, R102, R121: from row 0 to row 1 with a claim on domain 2 and tap 1 in PREEMPT: the island of domain 3 continues with its slot and
takes PARK, that of domain 2 is granted at once (tap 2 is LOST), that of domain 1 is in REFHOLD with its tap on the reference path. -/
theorem test_change_of_row :
    let m : Meas := { granted with
      claim := { granted.claim with state := .handoff }, pendXclaim := some ⟨0x11, 0x44⟩,
      ref := some { checking .preempt with tap := .d1 },
      islands := [islandIn 3 .d1 .handoff, { islandIn 4 .d3 .interval with slot := some (faultResult 4) }],
      taps := granted.taps.set .d2 { granted.taps.get .d2 with presence := some { seen with state := .lost } } }
    let t := after .topo (asked 0x10 [0, 2, 1, 0x90] m)
    t.meas.islands.map (fun i => (i.members, i.state, i.profile, i.slot.isSome)) =
        [(1, .refhold, .park, false), (2, .external, .park, false), (4, .interval, .park, true)] ∧
      t.meas.claim.state = .granted ∧ (t.meas.taps.get .d1).mailbox = ⟨0, .ref, .floating⟩ ∧
      t.meas.ref.map (·.step) = some (.cycle .quietSettle) := by decide

/-- The statement's own answer, seen once: two islands in FORMING with the settle time of 500 ms. -/
theorem test_forms_islands :
    ((after .topo (asked 0x10 [0, 1, 1, 0x90] unresolved)).meas.islands.map fun i => (i.members, i.injector, i.state, i.settleTimer)) =
      [(3, .d1, .forming, .running ⟨100000, 500⟩), (4, .d3, .forming, .running ⟨100000, 500⟩)] := by decide

/-- A HANDOFF with a check in PREEMPT on tap 1, tap 3 confirmed. -/
def walking : Meas :=
  { handingOff with
    ref := some { checking .preempt with tap := .d1 }, pendRchk := some ⟨0x14, 0x45⟩,
    claim := { handingOff.claim with confirmed := 4 },
    doms := handingOff.doms.set .d2 { okSince 39999 with worse := 1 } }

/-- R17, R103, R121: the freshness expiry switches the check of tap 1, drops tap 3, resets the run of domain 2, and arms the claim; its
verdict is held, so it does not lapse. Without a claim it does (60001 ms), where 60000 ms does not. -/
theorem test_dissolved :
    let t := after .freshnessExpiry (stateOf walking)
    let v (time : Time) := (after .freshnessExpiry (stateOf { calmPart with doms := calmPart.doms.set .d2 (okSince time) })).meas.doms.get .d2
    (t.meas.taps.get .d1).mailbox = ⟨0, .ref, .floating⟩ ∧ t.meas.ref.map (·.step) = some (.cycle .quietSettle) ∧
      (t.meas.taps.get .d3).mailbox = ⟨0, .domain, .floating⟩ ∧ t.meas.doms.get .d2 = okSince 39999 ∧
      (t.meas.claim.armed, t.meas.claim.state, t.meas.claim.confirmed) = (true, .handoff, 0) ∧
      (v 39999).verdict = .unknown ∧ (v 40000).verdict = .ok := by decide

/-- R99, R103: with every tap LOST, a TOPO of 900 V at the inlet, which matches no row, is answered, and grants the claim after it. -/
theorem test_topo_grants :
    let m := { walking with taps := walking.taps.mapWith fun _ p => { p with presence := p.presence.map fun x => { x with state := .lost } } }
    let t := after .topo (asked 0x10 [0, 0, 3, 0x84] m)
    t.meas.claim.state = .granted ∧ t.meas.islands = [] ∧
      (outgoing t).map (fun f => (f.kind, f.payload.head?, f.payload.drop 2)) = [(0x10, some 0, [2, 0xFF, 0]), (0x11, some 0, [2, 7])] := by
  decide

/-- KNOWN with a check in PREEMPT on an injector, a claim in HANDOFF, a domain that is a member, and tap 1 at rest or not; NOMATCH. -/
theorem witness_FreshnessExpiryDissolves :
    calmPart.tables.topology = some (topologyImage 0) ∧ calmPart.topo.stored = some ⟨1, 400, 99000⟩ ∧
      calmPart.topo.state = .known ∧ topoFreshness (topologyImage 0) ≤ (calmPart.timebase - 99000).toNat ∧
      ({ unresolved.topo with state := .nomatch } : Topo).state = .nomatch ∧
      islandIn 3 .d1 .interval ∈ calmPart.islands ∧ underRef calmPart .d1 = false ∧
      walking.topo = calmPart.topo ∧ walking.tables = calmPart.tables ∧ walking.timebase = calmPart.timebase ∧
      walking.ref = some { checking .preempt with tap := .d1 } ∧ islandIn 3 .d1 .handoff ∈ walking.islands ∧
      walking.claim.state = .handoff ∧ walking.pendXclaim = some ⟨0x11, 0x44⟩ ∧ inSet 3 .d2 = true := by decide

theorem witness_MailboxWrite :
    (fitted calmPart .d1 = true ∧ (calmPart.taps.get .d1).mailbox ≠ ⟨0, .ref, .floating⟩) ∧
      ¬ (fitted calmPart .d1 = true ∧ (calmPart.taps.get .d1).mailbox ≠ ⟨0, .domain, .connected⟩) := by decide

theorem witness_RampTakesCeilSteps :
    0 < 300 ∧ ((1000 : Int) - 0).natAbs ≤ 4 * 300 ∧ ¬ ((1000 : Int) - 0).natAbs ≤ 3 * 300 := by decide

/-- The island of domains 1 and 2 in RAMP_HOME, one step from level 0, with a demand or none. -/
def homing (md : Option Mode) : Meas :=
  { part (.cycle .rampHome) ⟨10000, .domain, .connected⟩ (some { rampUp with target := 0 }) with
    islands := [{ islandIn 3 .d1 (.cycle .rampHome) with demand := md }, islandIn 4 .d3 .forming] }

/-- A claim in HANDOFF whose injector is one ramp step from level 0, taps 1 and 2 confirmed. -/
def lowering : Meas :=
  { part .handoff ⟨10000, .domain, .connected⟩ (some ⟨0, 10000, .domain, .connected, .claim⟩) with
    claim := ⟨.handoff, some .d2, 99900, 500, 0x44, false, 3⟩, pendXclaim := some ⟨0x11, 0x44⟩ }

/-- A judged check of tap 1, one ramp step from level 0, its island waiting in a state. -/
def judged (st : IslandState) (o : RefOutcome) : Meas :=
  { part st ⟨10000, .ref, .floating⟩ (some ⟨0, 10000, .ref, .floating, .refCheck⟩) with
    ref := some { checking (.cycle .rampHome) with tap := .d1, outcome := some o, rraw := some 998, decided := some 99990 },
    pendRchk := some ⟨0x14, 0x45⟩ }

/-- R43, R97, R98, R119: RAMP_HOME ends in INTERVAL or in the demanded cycle; the claim's ramp floats the injector and arms the test; a FAIL
ends its check with Rraw 998, Rref 1000, tolerance 5 and the time 99990 of its decision (0x00018696). -/
theorem test_ramps_end :
    let home (md : Option Mode) := islandAt (after (.refreshTimerExpiry .d1) (stateOf (homing md))).meas 3
    let c := after (.refreshTimerExpiry .d1) (stateOf lowering)
    let r := after (.refreshTimerExpiry .d1) (stateOf (judged .refhold .fail))
    (home none).map (fun i => (i.state, i.intervalTimer)) = some (.interval, some ⟨100000, 5000⟩) ∧
      (home (some .full)).map (fun i => (i.state, i.mode, i.demand)) = some (.cycle .quietSettle, .full, none) ∧
      (c.meas.taps.get .d1).mailbox = ⟨0, .domain, .floating⟩ ∧ c.meas.claim.armed = true ∧ c.meas.claim.confirmed = 2 ∧
      (answer r).drop 2 = [1, 1, 1, 0x03, 0xE6, 0x03, 0xE8, 5, 0x00, 0x01, 0x86, 0x96] ∧ flagSet r.meas .refFail = true ∧
      stateA r = some .forming ∧ r.meas.ref = none := by decide

/-- A part with a topology settle time of 0 and one suspend entry, or none. -/
def unsettled (e : Option SuspendEntry) (m : Meas) : Meas :=
  { m with tables := { m.tables with topology := some (((topologyImage 0).set 4 0).set 5 0) }, suspended := e.toList }

/-- An entry of an island's cycle suspended by a check in a phase, at a time. -/
def heldEntry (ds : DomSet) (d : Dom) (ph : Phase) (t : Time) : SuspendEntry :=
  { suspendedAt t with members := ds, injector := d, phase := ph, cause := .refchk }

/-- R119, R25, R108, R109: with a settle time of 0 the end of the check of tap 1 resumes its island's cycle at once, in RAMP_POS toward
+20000 mV or RAMP_NEG toward −20000 mV, in steps of 500 · 20 mV; an entry above 10 s gives way to a new FAST cycle. -/
theorem test_check_end_resumes :
    let t (ph : Phase) (at_ : Time) :=
      after (.refreshTimerExpiry .d1) (stateOf (unsettled (some (heldEntry 3 .d1 ph at_)) (judged .refhold .pass)))
    (stateA (t .pos 90000), ((t .pos 90000).meas.taps.get .d1).ramp) =
        (some (.cycle .rampPos), some ⟨20000, 10000, .domain, .connected, .cycle⟩) ∧
      (stateA (t .neg 90000), ((t .neg 90000).meas.taps.get .d1).ramp) =
        (some (.cycle .rampNeg), some ⟨-20000, 10000, .domain, .connected, .cycle⟩) ∧
      (t .pos 90000).meas.suspended = [] ∧
      (islandAt (t .pos 89999).meas 3).map (fun i => (i.state, i.mode)) = some (.cycle .quietSettle, .fast) := by decide

/-- A check of tap 1 in a step whose ramp ends at its next step, on the path and with the balance of the mailbox. -/
def stepping (st : RefStep) (b : Mailbox) (target : Int) : Meas :=
  { part .refhold b (some ⟨target, 10000, b.path, b.balance, .refCheck⟩) with
    ref := some { checking st with tap := .d1 }, pendRchk := some ⟨0x14, 0x45⟩ }

/-- The captured row with an interval of 0. -/
def noInterval : Captured := { captured with row := { row with interval := 0 } }

/-- The island of domains 1 and 2 in RAMP_HOME, one step from level 0, with an interval of 0. -/
def backToBack : Meas :=
  { homing none with islands := [{ islandIn 3 .d1 (.cycle .rampHome) with captured := some noInterval }, islandIn 4 .d3 .forming] }

/-- R116, R117, R44: PREEMPT ends on the reference path in QUIET_SETTLE, a check's RAMP_POS in POS_SETTLE; with an interval of 0 the end of RAMP_HOME is the
start of a FULL cycle. -/
theorem test_check_ramps_end :
    let u := after (.refreshTimerExpiry .d1) (stateOf (stepping .preempt ⟨10000, .domain, .connected⟩ 0))
    let v := after (.refreshTimerExpiry .d1) (stateOf (stepping (.cycle .rampPos) ⟨10000, .ref, .floating⟩ 20000))
    let w := after (.refreshTimerExpiry .d1) (stateOf backToBack)
    (u.meas.taps.get .d1).mailbox = ⟨0, .ref, .floating⟩ ∧ u.meas.ref.map (·.step) = some (.cycle .quietSettle) ∧
      (v.meas.taps.get .d1).mailbox = ⟨20000, .ref, .floating⟩ ∧ v.meas.ref.map (·.step) = some (.cycle .posSettle) ∧
      (islandAt w.meas 3).map (fun i => (i.state, i.mode)) = some (.cycle .quietSettle, .full) := by decide

/-- No ramp; a ramp that goes on; ramps that end, up and down; RAMP_HOME with and without a demand, and with an interval of 0; a claim's ramp,
armed by it or not; a check in each step whose ramp ends, without a claim and with one; a judged check, its island in REFHOLD or not. -/
theorem witness_RefreshTimerSteps :
    let up := part (.cycle .rampPos) ⟨10000, .domain, .connected⟩ (some rampUp)
    let down := part (.cycle .rampNeg) ⟨-10000, .domain, .connected⟩ (some { rampUp with target := -20000 })
    fitted up .d1 = true ∧ (up.taps.get .d1).refreshStart = some 99980 ∧ 20 ≤ (up.timebase - 99980).toNat ∧
      (calmPart.taps.get .d1).ramp = none ∧ (up.taps.get .d1).ramp = some rampUp ∧ stepLevel 0 20000 10000 ≠ 20000 ∧
      stepLevel 10000 20000 10000 = 20000 ∧ rampUp.owner = .cycle ∧
      injectedBy up .d1 = some (islandIn 3 .d1 (.cycle .rampPos)) ∧ islandAt up 3 = some (islandIn 3 .d1 (.cycle .rampPos)) ∧
      up.claim.state = .none ∧ fitted down .d1 = true ∧ (down.taps.get .d1).refreshStart = some 99980 ∧
      stepLevel (-10000) (-20000) 10000 = -20000 ∧
      injectedBy down .d1 = some (islandIn 3 .d1 (.cycle .rampNeg)) ∧
      islandAt down 3 = some (islandIn 3 .d1 (.cycle .rampNeg)) ∧ down.claim.state = .none ∧
      stepLevel 10000 0 10000 = 0 ∧ (homing none).claim.state = .none ∧
      (∀ md ∈ [none, some Mode.fast, some .full], ((homing md).taps.get .d1).ramp = some { rampUp with target := 0 } ∧
        injectedBy (homing md) .d1 = some { islandIn 3 .d1 (.cycle .rampHome) with demand := md } ∧
        islandAt (homing md) 3 = some { islandIn 3 .d1 (.cycle .rampHome) with demand := md }) ∧
      captured.row.interval ≠ 0 ∧ cycleRow (homing none) .drive = some row ∧
      (lowering.taps.get .d1).ramp = some ⟨0, 10000, .domain, .connected, .claim⟩ ∧ lowering.claim.state = .handoff ∧
      inSet (coveredSet lowering) .d1 = true ∧ isPresent lowering .d1 = true ∧ inSet (coveredSet lowering) .d3 = false ∧
      (lowering.taps.get .d2).mailbox = ⟨0, .domain, .floating⟩ ∧
      (∀ st ∈ [IslandState.refhold, .external], ∀ o ∈ [RefOutcome.pass, .fail],
        ((judged st o).taps.get .d1).ramp = some ⟨0, 10000, .ref, .floating, .refCheck⟩ ∧
        (judged st o).ref = some { checking (.cycle .rampHome) with tap := .d1, outcome := some o, rraw := some 998, decided := some 99990 } ∧
        (judged st o).pendRchk = some ⟨0x14, 0x45⟩ ∧ (judged st o).claim.state = .none ∧
        injectedBy (judged st o) .d1 = some (islandIn 3 .d1 st) ∧ islandAt (judged st o) 3 = some (islandIn 3 .d1 st) ∧
        isPresent (judged st o) .d1 = true ∧ settleTime (judged st o) ≠ 0) ∧
      (∀ x ∈ [(RefStep.preempt, (⟨10000, .domain, .connected⟩ : Mailbox), (0 : Int)), (.cycle .rampPos, ⟨10000, .ref, .floating⟩, 20000),
          (.cycle .rampNeg, ⟨-10000, .ref, .floating⟩, -20000)],
        let m := stepping x.1 x.2.1 x.2.2
        fitted m .d1 = true ∧ (m.taps.get .d1).refreshStart = some 99980 ∧
        (m.taps.get .d1).ramp = some ⟨x.2.2, 10000, x.2.1.path, x.2.1.balance, .refCheck⟩ ∧
        stepLevel x.2.1.level x.2.2 10000 = x.2.2 ∧ m.ref = some { checking x.1 with tap := .d1 } ∧ m.claim.state = .none) ∧
      injectedBy backToBack .d1 = some { islandIn 3 .d1 (.cycle .rampHome) with captured := some noInterval } ∧
      islandAt backToBack 3 = some { islandIn 3 .d1 (.cycle .rampHome) with captured := some noInterval } ∧
      noInterval.row.interval = 0 ∧ cycleRow backToBack .drive = some row := by decide

/-- With a settle time of 0 and the island in REFHOLD: an entry of 10 s of each phase, one a millisecond older, and none. -/
theorem witness_RefreshTimerSteps_resumed :
    (∀ e ∈ [some (heldEntry 3 .d1 .quiet 90000), some (heldEntry 3 .d1 .pos 90000), some (heldEntry 3 .d1 .neg 90000),
        some (heldEntry 3 .d1 .pos 89999), none],
      let m := unsettled e (judged .refhold .pass)
      (m.taps.get .d1).ramp = some ⟨0, 10000, .ref, .floating, .refCheck⟩ ∧
      m.ref = some { checking (.cycle .rampHome) with tap := .d1, outcome := some .pass, rraw := some 998, decided := some 99990 } ∧
      m.pendRchk = some ⟨0x14, 0x45⟩ ∧ m.claim.state = .none ∧ injectedBy m .d1 = some (islandIn 3 .d1 .refhold) ∧
      islandAt m 3 = some (islandIn 3 .d1 .refhold) ∧ isPresent m .d1 = true ∧ settleTime m = 0 ∧ partRunning m = true ∧
      m.suspended.find? (fun e => e.members == 3 && e.injector == .d1) = e ∧ cycleRow m .drive = some row) ∧
    ((100000 : Time) - 90000).toNat ≤ captured.row.resumeAge * 1000 ∧ captured.row.resumeAge * 1000 < ((100000 : Time) - 89999).toNat ∧
    captured.row.injMv ≠ 0 := by decide

theorem witness_TimersStartCycles :
    islandAt calmPart 4 = some (islandIn 4 .d3 .forming) ∧ (islandIn 4 .d3 .forming).settleTimer = .running ⟨0, 500⟩ ∧
      500 ≤ (calmPart.timebase - 0).toNat ∧ partRunning calmPart = true ∧ isPresent calmPart .d3 = true ∧
      (∀ e ∈ calmPart.suspended, ¬ (e.members = 4 ∧ e.injector = .d3)) ∧ cycleRow calmPart .drive = some row ∧
      islandAt calmPart 3 = some (islandIn 3 .d1 .interval) ∧ (islandIn 3 .d1 .interval).intervalTimer = some ⟨0, 5000⟩ ∧
      5000 ≤ (calmPart.timebase - 0).toNat := by decide

/-- UNCONFIGURED; the injector LOST; a waiting entry of 10 s, of each phase; and one a millisecond older. -/
theorem witness_SettleTimerWaitsStallsResumes :
    let noLimit : Meas := { calmPart with tables := { tables with limit := none } }
    let lost : Meas := { calmPart with taps := calmPart.taps.set .d3 { calmPart.taps.get .d3 with presence := some { seen with state := .lost } } }
    let waiting (ph : Phase) : Meas := { calmPart with suspended := [{ suspendedAt 90000 with phase := ph }] }
    islandAt noLimit 4 = some (islandIn 4 .d3 .forming) ∧ partRunning noLimit = false ∧
      islandAt lost 4 = some (islandIn 4 .d3 .forming) ∧ partRunning lost = true ∧ isPresent lost .d3 = false ∧
      (∀ ph ∈ [Phase.quiet, .pos, .neg], islandAt (waiting ph) 4 = some (islandIn 4 .d3 .forming) ∧
        partRunning (waiting ph) = true ∧ isPresent (waiting ph) .d3 = true ∧
        (waiting ph).suspended.find? (fun e => e.members == 4 && e.injector == .d3) = some { suspendedAt 90000 with phase := ph } ∧
        ((waiting ph).timebase - 90000).toNat ≤ captured.row.resumeAge * 1000 ∧ captured.row.injMv ≠ 0 ∧
        ((waiting ph).taps.get .d3).mailbox.level = 0) ∧
      captured.row.resumeAge * 1000 < (calmPart.timebase - 89999).toNat ∧ cycleRow calmPart .drive = some row ∧
      ({ calmPart with suspended := [suspendedAt 89999] } : Meas).suspended.find? (fun e => e.members == 4 && e.injector == .d3) =
        some (suspendedAt 89999) := by decide

theorem witness_PhaseTimerBeginsPlateau :
    (∀ ph ∈ [Phase.quiet, .pos, .neg],
      islandAt (part (.cycle (settleStep ph)) .quiet none) 3 = some (islandIn 3 .d1 (.cycle (settleStep ph))) ∧
      (checkPart (.cycle (settleStep ph))).ref = some (checking (.cycle (settleStep ph)))) ∧
    (islandIn 3 .d1 .interval).captured = some captured ∧ (islandIn 3 .d1 .interval).phaseTimer = some ⟨0, 1000⟩ ∧
    (checking .preempt).phaseTimer = some ⟨0, 1000⟩ ∧ 1000 ≤ (calmPart.timebase - 0).toNat := by decide

/-- A check of tap 3 in a step at level 0 of its reference path, its island in REFHOLD or not. -/
def refRest (st : CycleStep) (held : IslandState) : Meas :=
  { checkPart (.cycle st) with
    islands := [islandIn 3 .d1 .interval, islandIn 4 .d3 held],
    taps := calmPart.taps.set .d3 { calmPart.taps.get .d3 with mailbox := ⟨0, .ref, .floating⟩ } }

/-- R117, R119: the expiry in QUIET_PLATEAU ends the check with FAIL at once (time 100000 is 0x000186A0), and its island goes from REFHOLD to FORMING. -/
theorem test_quiet_plateau_expiry :
    let t := after (.plateauTimerExpiry .refCheck) (stateOf (refRest .quietPlateau .refhold))
    t.meas.ref = none ∧ flagSet t.meas .refDone = true ∧ flagSet t.meas .refFail = true ∧
      (answer t).drop 2 = [3, 1, 0, 0, 0, 0x03, 0xE8, 5, 0x00, 0x01, 0x86, 0xA0] ∧
      (islandAt t.meas 4).map (·.state) = some .forming ∧ (t.meas.taps.get .d3).mailbox = ⟨0, .domain, .connected⟩ := by decide

/-- Every plateau, away from level 0 and at it; a check at level 0, its island in REFHOLD or not. -/
theorem witness_PlateauTimerEndsCycle :
    (∀ ph ∈ [Phase.quiet, .pos, .neg],
      islandAt (part (.cycle (plateauStep ph)) .quiet none) 3 = some (islandIn 3 .d1 (.cycle (plateauStep ph))) ∧
      (checkPart (.cycle (plateauStep ph))).ref = some (checking (.cycle (plateauStep ph))) ∧
      ((checkPart (.cycle (plateauStep ph))).taps.get .d3).mailbox.level ≠ 0) ∧
    ((part (.cycle .posPlateau) ⟨20000, .domain, .connected⟩ none).taps.get .d1).mailbox.level ≠ 0 ∧
    ((part (.cycle .quietPlateau) .quiet none).taps.get .d1).mailbox.level = 0 ∧ calmPart.tables.cycle.isSome = true ∧
    (islandIn 3 .d1 .interval).demand = none ∧ captured.row.interval ≠ 0 ∧
    (islandIn 3 .d1 .interval).plateauTimer = some ⟨0, 1000⟩ ∧ 1000 ≤ (calmPart.timebase - 0).toNat ∧
    (∀ ph ∈ [Phase.quiet, .pos, .neg], ∀ st ∈ [IslandState.refhold, .interval],
      let m := refRest (plateauStep ph) st
      m.ref = some (checking (.cycle (plateauStep ph))) ∧ (checking .preempt).plateauTimer = some ⟨0, 1000⟩ ∧
      (m.taps.get .d3).mailbox.level = 0 ∧ m.pendRchk = some ⟨0x14, 0x44⟩ ∧ m.timebase = calmPart.timebase ∧
      injectedBy m .d3 = some (islandIn 4 .d3 st) ∧ islandAt m 4 = some (islandIn 4 .d3 st) ∧ isPresent m .d3 = true ∧
      settleTime m ≠ 0) := by decide

/-- With a settle time of 0 and the island in REFHOLD: an entry of 10 s of each phase, one a millisecond older, and none. -/
theorem witness_PlateauTimerEndsCycle_resumed :
    (∀ e ∈ [some (heldEntry 4 .d3 .quiet 90000), some (heldEntry 4 .d3 .pos 90000), some (heldEntry 4 .d3 .neg 90000),
        some (heldEntry 4 .d3 .pos 89999), none],
      let m := unsettled e (refRest .quietPlateau .refhold)
      m.ref = some (checking (.cycle .quietPlateau)) ∧ (m.taps.get .d3).mailbox.level = 0 ∧ m.pendRchk = some ⟨0x14, 0x44⟩ ∧
      injectedBy m .d3 = some (islandIn 4 .d3 .refhold) ∧ islandAt m 4 = some (islandIn 4 .d3 .refhold) ∧ isPresent m .d3 = true ∧
      settleTime m = 0 ∧ partRunning m = true ∧ m.timebase = calmPart.timebase ∧
      m.suspended.find? (fun e => e.members == 4 && e.injector == .d3) = e ∧ cycleRow m .drive = some row) ∧
    (calmPart.timebase - 90000).toNat ≤ captured.row.resumeAge * 1000 ∧
    captured.row.resumeAge * 1000 < (calmPart.timebase - 89999).toNat ∧ captured.row.injMv ≠ 0 := by decide

/-- Every island state; a mode that does not exist, a domain that is not fitted, and a part that is not KNOWN. -/
theorem witness_MeasDemand :
    HeadRequest 0x13 2 1 (request 0x13 [2, 1]) [] (asked 0x13 [2, 1] calmPart) ∧
      HeadRequest 0x13 2 1 (request 0x13 [4, 1]) [] (asked 0x13 [4, 1] calmPart) ∧
      HeadRequest 0x13 2 1 (request 0x13 [2, 2]) [] (asked 0x13 [2, 2] calmPart) ∧
      HeadRequest 0x13 2 1 (request 0x13 [2, 0]) [] (asked 0x13 [2, 0] unresolved) ∧
      Dom.ofNumber (nat8 [2, 1] 0) = some .d2 ∧ fitted calmPart .d2 = true ∧ Mode.ofCode (nat8 [2, 1] 1) = some .full ∧
      calmPart.topo.state = .known ∧ cycleRow calmPart .drive = some row ∧ fitted calmPart .d4 = false ∧
      Mode.ofCode (nat8 [2, 2] 1) = none ∧ unresolved.topo.state ≠ .known ∧
      ∀ st ∈ [IslandState.interval, .forming, .cycle .rampNeg, .stalled, .handoff, .external, .refhold],
        islandOf (part st .quiet none) .d2 = some (islandIn 3 .d1 st) ∧ islandAt (part st .quiet none) 3 = some (islandIn 3 .d1 st) :=
  ⟨asked_head _ _ _ _ _ rfl rfl (by decide), asked_head _ _ _ _ _ rfl rfl (by decide), asked_head _ _ _ _ _ rfl rfl (by decide),
    asked_head _ _ _ _ _ rfl rfl (by decide), by decide⟩

/-- The island of domains 1 and 2 in a PLATEAU, one sample short of N = 16, in FULL. -/
def fillingIsland (ph : Phase) (sum : Int) : Island :=
  { islandIn 3 .d1 (.cycle (plateauStep ph)) with acc := { Accum.empty with plateauCount := 15, sumVs := sum } }

/-- A part with that island. -/
def filling (ph : Phase) (sum : Int) (b : Mailbox) : Meas :=
  { part (.cycle (plateauStep ph)) b none with islands := [fillingIsland ph sum, islandIn 4 .d3 .forming] }

/-- R40, R42: a Vs of 9 as the last of 16 after a sum of −33 gives the mean −1 (−24/16 rounded half upward) and begins RAMP_POS. -/
theorem test_plateau_completes :
    let m := cycleSample .d1 1 { calm with vs := 9 } (filling .quiet (-33) .quiet)
    (islandAt m 3).map (fun i => (i.state, i.means.vq)) = some (.cycle .rampPos, some (-1)) ∧
      (m.taps.get .d1).ramp = some rampUp := by decide

/-- The island of domains 1 and 2 in a SETTLE step of B = 4 and S = 2, one sample short of a block, after a block of mean 0. -/
def blockingIsland (ph : Phase) (run : Nat) : Island :=
  { islandIn 3 .d1 (.cycle (settleStep ph)) with acc := { Accum.empty with blockCount := 3, prevMean := some 0, stableRun := run } }

/-- A part with that island. -/
def blocking (ph : Phase) (run : Nat) : Meas :=
  { part (.cycle (settleStep ph)) .quiet none with islands := [blockingIsland ph run, islandIn 4 .d3 .forming] }

/-- R38: the third block of QUIET is counted; it settles the phase when it is the second stable one, and not when it is the first. -/
theorem test_block_completes :
    let i (run : Nat) := (islandAt (cycleSample .d1 1 calm (blocking .quiet run)) 3).map fun i => (i.state, i.counts.quiet, i.acc.stableRun)
    i 1 = some (.cycle .quietPlateau, 3, 2) ∧ i 0 = some (.cycle .quietSettle, 3, 1) := by decide

/-- R35, R36, R37: behind a tolerated gap of 2 the block still completes and GAPPED is set; behind a gap of 3 (max_gap 2) the valid sample is
the first of a new block, and GAPPED is not; the fourth noise sample (noise_limit 3) sets NOISY. -/
theorem test_gapped_and_noisy :
    let noisy : Meas := { blocking .quiet 0 with
      islands := [{ islandIn 3 .d1 (.cycle .quietSettle) with acc := { Accum.empty with noise := 3 } }, islandIn 4 .d3 .forming] }
    let i (delta : Nat) := (islandAt (cycleSample .d1 delta calm (blocking .quiet 1)) 3).map fun i =>
      (i.state, i.quality.gapped, i.acc.blockCount, i.counts.quiet)
    i 3 = some (.cycle .quietPlateau, true, 0, 3) ∧ i 4 = some (.cycle .quietSettle, false, 1, 2) ∧
      (islandAt (cycleSample .d1 1 { calm with clip := true } noisy) 3).map (fun i => (i.quality.noisy, i.acc.noise)) = some (true, 0) := by
  decide

/-- Gaps at both ends of max_gap 2, a sample that does not echo, noise at and above noise_limit 3, and a block that goes on. -/
theorem witness_SampleTaken :
    (2 ≤ 3 ∧ 3 ≤ row.maxGap + 1 ∧ ¬ 4 ≤ row.maxGap + 1) ∧
      echoes .quiet calm = true ∧ echoes .quiet { calm with applied := 1 } = false ∧
      ({ calm with clip := true } : Sample).clip = true ∧ 2 + 1 ≤ row.noiseLimit ∧ row.noiseLimit < 3 + 1 ∧
      0 < row.block ∧ ({ Accum.empty with blockCount := 3 } : Accum).blockCount + 1 = row.block ∧
      ((10 : Int) - 0).natAbs ≤ row.settleTol ∧ row.settleTol < ((11 : Int) - 0).natAbs ∧
      Accum.empty.blockCount + 1 < row.block ∧ 0 < captured.row.block := by decide

/-- At the injector, in order, behind a tolerated gap and after a restart: the block that settles a phase and one that does not, and a plateau
that goes on. -/
theorem witness_SampleTaken_injector :
    ∀ ph ∈ [Phase.quiet, .pos, .neg],
      (∀ run ∈ [0, 1],
        let i := blockingIsland ph run
        injectedBy (blocking ph run) .d1 = some i ∧ islandAt (blocking ph run) i.members = some i ∧ i.captured = some captured ∧
        i.state = .cycle (settleStep ph) ∧ i.acc.blockCount + 1 = captured.row.block ∧ i.mode = .full ∧
        ∀ delta ∈ [1, 3, 4],
          let k := takeSample .settle ph captured.row captured.row.nFull captured.row.settleBlocks
            ((blocking ph run).taps.get .d1).mailbox delta calm i.acc
          k.settled = decide (run = 1 ∧ delta ≠ 4) ∧ k.full = false ∧ k.gapped = decide (delta = 3) ∧ k.block = decide (delta ≠ 4)) ∧
      let k := takeSample .plateau ph captured.row captured.row.nFull 0 ((filling ph 0 .quiet).taps.get .d1).mailbox 4 calm
        (fillingIsland ph 0).acc
      k.settled = false ∧ k.full = false ∧ k.acc.plateauCount = 1 := by decide

/-- A tap that injects no island, and an injector in other states and steps. -/
theorem witness_SampleTaken_unused :
    injectedBy calmPart .d2 = none ∧ ∀ ph ∈ [Phase.quiet, .pos, .neg],
      ∀ st ∈ [IslandState.interval, .refhold, .cycle .rampPos, .cycle .rampNeg, .cycle .rampHome],
        injectedBy (part st .quiet none) .d1 = some (islandIn 3 .d1 st) ∧ st ≠ .cycle (settleStep ph) ∧ st ≠ .cycle (plateauStep ph) := by
  decide

/-- The samples that complete a QUIET and a POS plateau, in order and behind a tolerated gap. -/
theorem witness_SampleTaken_completes :
    0 < captured.row.nFull ∧ Mailbox.quiet.level ≠ captured.row.injMv ∧ Mailbox.quiet.level ≠ -(captured.row.injMv : Int) ∧
      ∀ ph ∈ [Phase.quiet, .pos],
        let i := fillingIsland ph 0
        injectedBy (filling ph 0 .quiet) .d1 = some i ∧ islandAt (filling ph 0 .quiet) i.members = some i ∧
        i.state = .cycle (plateauStep ph) ∧ i.captured = some captured ∧ i.mode = .full ∧ i.acc.plateauCount + 1 = captured.row.nFull ∧
        ((filling ph 0 .quiet).taps.get .d1).mailbox = .quiet := by decide

/-- The three ranges of D2 and their ends; a quiet plateau at UBUS_MIN. -/
theorem witness_ResistanceStages :
    isInverted 50 (-50) = false ∧ isInverted 50 0 = false ∧ isInverted 50 1 = false ∧ isInverted 50 39999 = false ∧
      isInverted 50 40000 = false ∧ (islandIn 3 .d1 .interval).means.vPlusQ = some 8400 ∧
      (islandIn 3 .d1 .interval).means.vMinusQ = some 7600 ∧ 1200 ≤ 8400 + 7600 := by decide

/-- D2 on both sides of −inv_margin. -/
theorem witness_ResultOutcomes :
    let i (n : Int) : Island := { islandIn 3 .d1 (.cycle .negPlateau) with means := ⟨some 0, some 600, some 600, some 0, some n⟩ }
    (i 50).means.vp = some 0 ∧ (i 50).means.vn = some 50 ∧ (0 : Int) - 51 < -(captured.row.invMargin : Int) ∧
      -(captured.row.invMargin : Int) ≤ 0 - 50 ∧
      (resultOf (i 51) captured false 0 1).outcome = .inverted ∧ (resultOf (i 50) captured false 0 1).outcome = .valid ∧
      (resultOf (i 50) captured true 0 1).outcome = .timedOut ∧ (resultOf (i 50) captured false 0 1).rp.isSome = true ∧
      (i 50).means.vPlusQ = some 600 ∧ (i 50).means.vMinusQ = some 600 ∧ 1200 ≤ 600 + 600 := by decide

/-- 03, the main case, as a record: U 20000, Rc 400, Rbal 2000, Vp 14000, Vn −14000, V+q 8400, V−q 7600. -/
theorem test_result_values :
    let i : Island := { islandIn 3 .d1 (.cycle .negPlateau) with means := ⟨some 400, some 8400, some 7600, some 14000, some (-14000)⟩ }
    let r := resultOf i captured false 0 1
    (r.d2, r.rraw, r.riso, r.rp, r.rn) = (some 28000, some 933, some 1748, some 3858, some 3197) := by decide

/-- The limits of every domain and profile of the example part: Tf 80, Tw 400, Tfc 88, Twc 440. -/
def limits : Limits := limitDefault limitImage .drive

/-- The example LIMIT image with one override row: domain 2 in DRIVE, mask 0x48, fault_count 9, max_age 258, every other field 7. -/
def overridden : List Byte :=
  1 :: (limitImage.drop 1 ++ [2, BitVec.ofNat 8 Profile.drive.code, 0x48, 0, 7, 0, 7, 0, 7, 9, 7, 7, 1, 2])

theorem witness_ThresholdsRoundUp :
    (thresholdsOf limits).tw = some 400 ∧ (thresholdsOf limits).twc = some 440 ∧ limits.faultOpv ≤ limits.warnOpv ∧
      (thresholdsOf { limits with warnOpv := 0 }).tw = none ∧ calmPart.tables.limit = some limitImage ∧
      calmPart.tables.limit.map (·.getD 0 0) = some 0 ∧ overridden.getD 0 0 = 1 ∧
      (overridden.getD 45 0).toNat = Dom.d2.number ∧ (overridden.getD 46 0).toNat = Profile.drive.code := by decide

/-- R69: of an override of fault_count and max_age for domain 2 in DRIVE, the two fields come from its row and the rest from the default row;
another domain takes the default row whole. -/
theorem test_effective_record :
    effectiveLimits overridden .d2 .drive = { limits with faultCount := 9, maxAge := 258 } ∧ effectiveLimits overridden .d1 .drive = limits := by
  decide

/-- A Riso on each side of Tf and of Tw, and a verdict that is not FAULT. -/
theorem witness_ResultLevel :
    let th := thresholdsOf limits
    79 < th.tf ∧ th.tf ≤ 80 ∧ th.tw = some 400 ∧ 399 < 400 ∧ (∀ tw, th.tw = some tw → tw ≤ 400) ∧
      DomRec.reset.verdict ≠ .fault := by
  refine ⟨by decide, by decide, by decide, by decide, ?_, by decide⟩
  intro tw h
  rw [show (thresholdsOf limits).tw = some 400 by decide] at h
  simp_all

/-- Two FAULT results, the second of which reaches fault_count. -/
theorem witness_FaultRunReachesFault :
    1 ≤ limits.faultCount ∧ DomRec.reset.verdict = .unknown ∧ (okSince 0).verdict = .ok ∧ DomRec.reset.worse = 0 ∧
      DomRec.reset.better = 0 ∧ (∀ x ∈ [(79, true), (0, false)], x.1 < (thresholdsOf limits).tf) ∧
      [(79, true), (0, false)].length ≤ limits.faultCount := by decide

/-- A domain in FAULT that leaves it on the last of three results at Tfc. -/
theorem witness_FaultLeftOnlyByClearRun :
    let r : DomRec := { DomRec.reset with verdict := .fault }
    let rs : List (Nat × Bool × Bool) := [(88, true, false), (88, true, false), (500, true, false)]
    let go := fun xs : List (Nat × Bool × Bool) => xs.foldl (fun r x => judge limits x.1 x.2.1 x.2.2 r) r
    r.verdict = .fault ∧ r.better = 0 ∧ rs ≠ [] ∧ (go rs).verdict ≠ .fault ∧
      ∀ n < rs.length, (go (rs.take n)).verdict = .fault := by decide

/-- 04, worked sequence, steps 10 to 12: from FAULT a FAST result does not count, a settled FULL one of 300 below Twc counts and sets the mark,
and the one that reaches clear_count leaves WARN. -/
theorem test_leaves_fault :
    let l : Limits := ⟨500, 100, 900, 3, 2, 10, 60⟩
    let r : DomRec := { DomRec.reset with verdict := .fault }
    let a := judge l 300 false false { r with better := 1, belowClear := true }
    let b := judge l 300 true false a
    let c := judge l 600 true false b
    (a.verdict, a.better, a.belowClear) = (.fault, 0, false) ∧ (b.verdict, b.better, b.belowClear) = (.fault, 1, true) ∧
      (c.verdict, c.better, c.belowClear) = (.warn, 0, false) ∧ (judge l 495 true false { r with better := 1 }).verdict = .ok := by decide

/-- The four verdicts, each level, Riso on both sides of the warn clear level and, from FAULT, of Tfc and Twc, before and at clear_count. -/
theorem witness_VerdictMachine :
    DomRec.reset.verdict = .unknown ∧ (okSince 0).verdict = .ok ∧ ({ DomRec.reset with verdict := .warn } : DomRec).verdict = .warn ∧
      levelOf (thresholdsOf limits) 79 false = .fault ∧ levelOf (thresholdsOf limits) 79 true = .warn ∧
      levelOf (thresholdsOf limits) 80 false = .warn ∧ levelOf (thresholdsOf limits) 400 false = .ok ∧
      (thresholdsOf limits).twc.getD (thresholdsOf limits).tfc ≤ 440 ∧ 439 < (thresholdsOf limits).twc.getD (thresholdsOf limits).tfc ∧
      ({ DomRec.reset with verdict := .fault } : DomRec).verdict = .fault ∧ (thresholdsOf limits).tfc ≤ 88 ∧ ¬ (thresholdsOf limits).tfc ≤ 87 ∧
      (thresholdsOf limits).twc = some 440 ∧ 439 < 440 ∧ limits.clearCount ≤ 2 + 1 ∧ 1 + 1 < limits.clearCount := by
  decide

/-- Domain 3 has one FAULT result behind it; so has domain 2, with a solo result 59 s old. -/
def oneFault : Meas :=
  let r : DomRec := { DomRec.reset with verdict := .warn, worse := 1, runLevel := .fault }
  { calmPart with doms := (calmPart.doms.set .d3 r).set .d2 { r with solo := some ⟨300, 41000⟩ } }

theorem witness_EvaluationUpdatesRecords :
    (faultResult 4).outcome = .valid ∧ (faultResult 4).riso = some 44 ∧ limitsOf oneFault .d3 .drive = some limits ∧
      limitsOf oneFault .d2 .drive = some limits ∧
      (faultResult 4).members = single .d3 ∧ (faultResult 4).mode = .full ∧ (faultResult 4).quality.unsettled = false ∧
      inSet (faultResult 4).members .d3 = true ∧ inSet (faultResult 4).members .d1 = false ∧
      (oneFault.doms.get .d3).verdict ≠ .fault ∧ (judge limits 44 true false (oneFault.doms.get .d3)).verdict = .fault ∧
      (judge limits 44 true false DomRec.reset).verdict ≠ .fault := by decide

/-- R84, R86: a solo island is its own suspect, with age 0; in an island the domain with a solo result comes first. -/
theorem test_attribution :
    let e (ds : DomSet) (d : Dom) := ((evaluate .drive 60 (faultResult ds) oneFault).doms.get d).fault.map (·.entries)
    e 4 .d3 = some [⟨.d3, some (44, 0)⟩] ∧ e 3 .d2 = some [⟨.d2, some (300, 59)⟩, ⟨.d1, none⟩] ∧ e 3 .d1 = none := by decide

/-- Tap 1 with two asymmetric samples behind it. -/
theorem witness_AsymmetryWatch :
    let x : Sample := ⟨1200, 14800, 0, 0, true, false, false, false⟩
    cycleRow calmPart (profileInForce calmPart .d1) = some row ∧ watched (calmPart.taps.get .d1).mailbox x = true ∧
      watched (calmPart.taps.get .d1).mailbox { x with tflt := true } = false ∧
      min x.vPlus x.vMinus * 100 < row.asymPct * (x.vPlus + x.vMinus) ∧ ¬ min 1700 14300 * 100 < row.asymPct * (1700 + 14300) ∧
      row.asymCount ≤ min 100 (2 + 1) ∧ min 100 (1 + 1) < row.asymCount ∧ DomRec.reset.asymActive = false ∧
      watched ((part (.cycle .rampPos) .quiet (some rampUp)).taps.get .d1).mailbox x = true ∧
      ∀ st ∈ [IslandState.forming, .cycle .quietSettle, .interval, .stalled, .handoff, .external, .refhold],
        islandOf (part st .quiet none) .d1 = some (islandIn 3 .d1 st) := by decide

theorem witness_AgingExpiryForgets :
    let m : Meas := { calmPart with doms := calmPart.doms.set .d2 (okSince 39999) }
    (m.doms.get .d2).verdict = .ok ∧ (m.doms.get .d2).newest = some ⟨9, 39999⟩ ∧
      limitsOf m .d2 (profileInForce m .d2) = some limits ∧ limits.maxAge * 1000 < (m.timebase - 39999).toNat ∧
      inSet (coveredSet m) .d2 = false := by decide

/-- Accepted while KNOWN, of an island in INTERVAL, in FORMING and in CYCLE at +20000 mV, and while not KNOWN, at rest or not; an unfitted
domain; UNCONFIGURED; a claim that already exists. -/
theorem witness_XclaimTaken :
    HeadRequest 0x11 1 1 (request 0x11 [2]) [] (asked 0x11 [2] calmPart) ∧
      HeadRequest 0x11 1 1 (request 0x11 [2]) [] (asked 0x11 [2] unresolved) ∧
      HeadRequest 0x11 1 1 (request 0x11 [4]) [] (asked 0x11 [4] calmPart) ∧
      HeadRequest 0x11 1 1 (request 0x11 [2]) [] (asked 0x11 [2] handingOff) ∧
      (∀ d, Dom.ofNumber (nat8 [4] 0) = some d → fitted calmPart d = false) ∧
      Dom.ofNumber (nat8 [2] 0) = some .d2 ∧ fitted calmPart .d2 = true ∧ partRunning calmPart = true ∧
      calmPart.claim.state = .none ∧ cycleRow calmPart (profileInForce calmPart .d2) = some row ∧ calmPart.topo.state = .known ∧
      islandOf calmPart .d2 = some (islandIn 3 .d1 .interval) ∧ partRunning unresolved = true ∧ unresolved.topo.state ≠ .known ∧
      partRunning { calmPart with tables := { tables with limit := none } } = false ∧ handingOff.claim.state ≠ .none ∧
      (∀ st ∈ [IslandState.forming, .cycle .posPlateau, .cycle .rampHome],
        islandOf (part st ⟨20000, .domain, .connected⟩ none) .d2 = some (islandIn 3 .d1 st)) ∧
      ((part .forming ⟨20000, .domain, .connected⟩ none).taps.get .d1).mailbox.level ≠ 0 ∧
      (calmPart.taps.get .d1).mailbox.level = 0 ∧ suspendedEntry (islandIn 3 .d1 .interval) captured .rampHome 0 .claim = none := by
  refine ⟨asked_head _ _ _ _ _ rfl rfl (by decide), asked_head _ _ _ _ _ rfl rfl (by decide),
    asked_head _ _ _ _ _ rfl rfl (by decide), asked_head _ _ _ _ _ rfl rfl (by decide),
    ?_, by decide⟩
  rintro d h; cases d <;> first | rfl | (exact absurd h (by decide))

/-- R107, R97: a claim on a cycle in POS_PLATEAU at +20000 mV keeps its quiet means and its counts of QUIET, and walks down; R99: with every tap
LOST and at rest the claim is granted at once, tap by tap unconfirmed. -/
theorem test_xclaim_suspends :
    let t := after .xclaim (asked 0x11 [2] (part (.cycle .posPlateau) ⟨20000, .domain, .connected⟩ none))
    let lost : Meas := { unresolved with taps := unresolved.taps.mapWith fun _ t => { t with
      mailbox := .rest, presence := t.presence.map fun p => { p with state := .lost } } }
    t.meas.suspended = [⟨3, .d1, .full, .pos, ⟨some 388, some 8400, some 7600, none, none⟩, captured, ⟨2, 0, 0⟩, .clear, 100000, .claim⟩] ∧
      (t.meas.taps.get .d1).ramp = some ⟨0, 10000, .domain, .connected, .claim⟩ ∧ t.meas.claim.armed = false ∧
      (answer (after .xclaim (asked 0x11 [2] lost))).drop 2 = [2, 7] := by decide

/-- XREL in each claim state, the claimed island's injector under reference check or not; a held domain whose result is too old, and one whose
result is not. -/
theorem witness_XrelReleases :
    let checked : Meas := { granted with ref := some { checking .preempt with tap := .d1 } }
    HeadRequest 0x12 0 1 (request 0x12 []) [] (asked 0x12 [] calmPart) ∧
      HeadRequest 0x12 0 2 (request 0x12 []) [] (asked 0x12 [] handingOff) ∧
      HeadRequest 0x12 0 1 (request 0x12 []) [] (asked 0x12 [] granted) ∧
      calmPart.claim.state = .none ∧ handingOff.claim.state = .handoff ∧ handingOff.pendXclaim = some ⟨0x11, 0x44⟩ ∧
      granted.claim.state = .granted ∧ granted.topo.state = .known ∧ claimedIsland granted = some (islandIn 3 .d1 .external) ∧
      islandAt granted 3 = some (islandIn 3 .d1 .external) ∧ underRef granted .d1 = false ∧ settleTime granted ≠ 0 ∧
      underRef checked .d1 = true ∧ claimedIsland checked = some (islandIn 3 .d1 .external) ∧
      (∀ d ∈ [Dom.d1, .d2], inSet (coveredSet granted) d = true ∧ limitsOf granted d (profileInForce granted d) = some (limitDefault limitImage .drive)) ∧
      (okSince 39999).verdict = .ok ∧ (okSince 39999).newest = some ⟨9, 39999⟩ ∧
      (limitDefault limitImage .drive).maxAge * 1000 < (granted.timebase - 39999).toNat ∧
      ¬ (limitDefault limitImage .drive).maxAge * 1000 < (granted.timebase - 40000).toNat :=
  ⟨asked_head _ _ _ _ _ rfl rfl (by decide), asked_head _ _ _ _ _ rfl rfl (by decide), asked_head _ _ _ _ _ rfl rfl (by decide),
    by decide⟩

/-- R83, R104: at the release a held result of 60001 ms lapses, and one of 60000 ms does not. -/
theorem test_release_ages :
    let v (time : Time) := after .xrel (asked 0x12 [] { granted with doms := granted.doms.set .d2 (okSince time) })
    ((v 39999).meas.doms.get .d2).verdict = .unknown ∧ flagSet (v 39999).meas .verdictChanged = true ∧
      ((v 40000).meas.doms.get .d2).verdict = .ok := by decide

/-- The handoff with tap 1 at +20000 mV or in PREEMPT of its check, and tap 2 at rest; both confirmed. -/
def forcing (checked : Bool) : Meas :=
  { handingOff with
    claim := { handingOff.claim with confirmed := 3 },
    ref := if checked then some { checking .preempt with tap := .d1 } else none }

/-- R100, R116: tap 1 is dropped, or switched by its check, and is confirmed no longer; tap 2 stays confirmed. -/
theorem test_forced :
    let t := after .handoffTimeout (stateOf (forcing false))
    let u := after .handoffTimeout (stateOf (forcing true))
    (t.meas.taps.get .d1).mailbox = ⟨0, .domain, .floating⟩ ∧ t.meas.claim.confirmed = 2 ∧ (answer t).drop 2 = [2, 1] ∧
      (u.meas.taps.get .d1).mailbox = ⟨0, .ref, .floating⟩ ∧ u.meas.ref.map (·.step) = some (.cycle .quietSettle) ∧
      u.meas.claim.confirmed = 2 := by decide

/-- A covered tap that is dropped, one in PREEMPT, and one at rest that is confirmed; one that is not covered. -/
theorem witness_HandoffTimeoutForces :
    handingOff.claim.state = .handoff ∧ handingOff.pendXclaim = some ⟨0x11, 0x44⟩ ∧
      handingOff.claim.limit ≤ (handingOff.timebase - handingOff.claim.acceptance).toNat ∧
      claimedIsland handingOff = some (islandIn 3 .d1 .handoff) ∧ inSet (coveredSet handingOff) .d1 = true ∧
      underRef handingOff .d1 = false ∧ inSet (coveredSet handingOff) .d3 = false ∧
      (handingOff.taps.get .d1).mailbox.balance = .connected ∧ inSet (coveredSet handingOff) .d2 = true ∧
      (handingOff.taps.get .d2).mailbox = ⟨0, .domain, .floating⟩ ∧ inSet (forcing false).claim.confirmed .d2 = true ∧
      (forcing true).ref = some { checking .preempt with tap := .d1 } ∧ inSet (coveredSet (forcing true)) .d1 = true ∧
      (forcing true).claim.state = .handoff ∧ (forcing true).pendXclaim = some ⟨0x11, 0x44⟩ := by decide

theorem witness_SuspendEntryExpires :
    let m : Meas := { calmPart with suspended := [suspendedAt 89999] }
    m.suspended.find? (fun x => x.members == (suspendedAt 89999).members) = some (suspendedAt 89999) ∧
      captured.row.resumeAge * 1000 < (m.timebase - 89999).toNat := by decide

/-- Accepted on a tap that injects none, one whose island is in FORMING or INTERVAL, and one in CYCLE at +20000 mV and, in four steps, at level 0;
then each check. -/
theorem witness_RchkTaken :
    let cycling := part (.cycle .posPlateau) ⟨20000, .domain, .connected⟩ none
    HeadRequest 0x14 1 1 (request 0x14 [1]) [] (asked 0x14 [1] calmPart) ∧
      HeadRequest 0x14 1 1 (request 0x14 [2]) [] (asked 0x14 [2] calmPart) ∧
      HeadRequest 0x14 1 1 (request 0x14 [1]) [] (asked 0x14 [1] (part .forming .quiet none)) ∧
      HeadRequest 0x14 1 1 (request 0x14 [1]) [] (asked 0x14 [1] cycling) ∧
      HeadRequest 0x14 1 1 (request 0x14 [4]) [] (asked 0x14 [4] calmPart) ∧
      HeadRequest 0x14 1 1 (request 0x14 [1]) [] (asked 0x14 [1] (checkPart .preempt)) ∧
      HeadRequest 0x14 1 1 (request 0x14 [1]) [] (asked 0x14 [1] handingOff) ∧
      (∀ d ∈ [Dom.d1, .d2], fitted calmPart d = true ∧ isPresent calmPart d = true ∧ inSet (coveredSet calmPart) d = false ∧
        cycleRow calmPart (profileInForce calmPart d) = some row) ∧
      partRunning calmPart = true ∧ calmPart.ref = none ∧ injectedBy calmPart .d2 = none ∧
      injectedBy calmPart .d1 = some (islandIn 3 .d1 .interval) ∧ islandAt calmPart 3 = some (islandIn 3 .d1 .interval) ∧
      injectedBy (part .forming .quiet none) .d1 = some (islandIn 3 .d1 .forming) ∧ (calmPart.taps.get .d1).mailbox.level = 0 ∧
      injectedBy cycling .d1 = some (islandIn 3 .d1 (.cycle .posPlateau)) ∧
      islandAt cycling 3 = some (islandIn 3 .d1 (.cycle .posPlateau)) ∧ (cycling.taps.get .d1).mailbox.level ≠ 0 ∧
      fitted calmPart .d4 = false ∧ partRunning { calmPart with tables := { tables with limit := none } } = false ∧
      (checkPart .preempt).ref.isSome = true ∧ inSet (coveredSet handingOff) .d1 = true ∧
      (∀ st ∈ [CycleStep.quietSettle, .quietPlateau, .rampPos, .rampNeg],
        let m := part (.cycle st) .quiet none
        injectedBy m .d1 = some (islandIn 3 .d1 (.cycle st)) ∧ islandAt m 3 = some (islandIn 3 .d1 (.cycle st)) ∧
        (m.taps.get .d1).mailbox.level = 0 ∧ fitted m .d1 = true ∧ isPresent m .d1 = true ∧ inSet (coveredSet m) .d1 = false ∧
        cycleRow m (profileInForce m .d1) = some row ∧ partRunning m = true ∧ m.ref = none) := by
  refine ⟨asked_head _ _ _ _ _ rfl rfl (by decide), asked_head _ _ _ _ _ rfl rfl (by decide),
    asked_head _ _ _ _ _ rfl rfl (by decide), asked_head _ _ _ _ _ rfl rfl (by decide),
    asked_head _ _ _ _ _ rfl rfl (by decide), asked_head _ _ _ _ _ rfl rfl (by decide),
    asked_head _ _ _ _ _ rfl rfl (by decide), by decide⟩

/-- R115, R116: a check that preempts a cycle in QUIET_PLATEAU is on its reference path at once, its island in REFHOLD and its cycle suspended. -/
theorem test_rchk_at_zero :
    let t := after .rchk (asked 0x14 [1] (part (.cycle .quietPlateau) .quiet none))
    stateA t = some .refhold ∧ t.meas.ref.map (·.step) = some (.cycle .quietSettle) ∧
      (t.meas.taps.get .d1).mailbox = ⟨0, .ref, .floating⟩ ∧ t.meas.suspended.map (·.phase) = [.quiet] := by decide

/-- R116: a check that preempts a cycle at +20000 mV walks down at the captured slew, and the island waits in REFHOLD. -/
theorem test_rchk_preempts :
    let t := after .rchk (asked 0x14 [1] (part (.cycle .posPlateau) ⟨20000, .domain, .connected⟩ none))
    stateA t = some .refhold ∧ t.meas.ref.map (·.step) = some .preempt ∧
      (t.meas.taps.get .d1).ramp = some ⟨0, 10000, .domain, .connected, .refCheck⟩ ∧
      t.meas.suspended.map (fun e => (e.members, e.phase, e.cause)) = [(3, .pos, .refchk)] := by decide

/-- A check of tap 3 in a step, its mailbox at a level of the reference path, with accumulators and a Vp of 14280. -/
def refMeas (st : CycleStep) (level : Int) (a : Accum) : Meas :=
  { calmPart with
    ref := some { checking (.cycle st) with acc := a, vp := some 14280 }, pendRchk := some ⟨0x14, 0x44⟩,
    taps := calmPart.taps.set .d3 { calmPart.taps.get .d3 with mailbox := ⟨level, .ref, .floating⟩ } }

/-- A sample of a tap on its reference path at a level. -/
def refEcho (level vs : Int) : Sample := ⟨8000, 8000, vs, level, false, true, false, false⟩

/-- R117, R118, 03 R66: the NEG plateau of mean −14280 after Vp 14280 (D2 28560) gives 998 of 1000, a PASS now, and RAMP_HOME begins; the second stable
block enters the PLATEAU. -/
theorem test_reference_samples :
    let m := refSample .d3 1 (refEcho (-20000) (-14280)) (refMeas .negPlateau (-20000) { Accum.empty with plateauCount := 15, sumVs := -15 * 14280 })
    let b := refSample .d3 1 (refEcho 0 0) (refMeas .quietSettle 0 { Accum.empty with blockCount := 3, prevMean := some 0, stableRun := 1 })
    m.ref.map (·.step) = some (.cycle .rampHome) ∧ m.ref.bind (·.vn) = some (-14280) ∧ m.ref.bind (·.outcome) = some .pass ∧
      m.ref.bind (·.rraw) = some 998 ∧ m.ref.bind (·.decided) = some 100000 ∧
      (m.taps.get .d3).ramp = some ⟨0, 10000, .ref, .floating, .refCheck⟩ ∧ b.ref.map (·.step) = some (.cycle .quietPlateau) := by decide

/-- 03 R66 and 06: Rref 1000 with D2 28560 is measured as 998, a PASS; at −inv_margin and below. A check's block that settles and one that does not;
the last sample of each of its plateaus, in order and behind a tolerated gap; a restart; a check in a ramp step; another tap. -/
theorem witness_ReferenceJudgement :
    judgeRef { row with invMargin := 200 } 400 1000 28560 = (.pass, some 998) ∧ (-201 : Int) < -200 ∧
      judgeRef { row with invMargin := 200 } 400 1000 (-201) = (.fail, none) ∧
      judgeRef { row with invMargin := 200 } 400 1000 (-200) = (.fail, some 0) ∧ 0 < row.block ∧ 0 < row.nFull ∧
      (∀ ph ∈ [Phase.quiet, .pos, .neg], ∀ run ∈ [0, 1],
        let a : Accum := { Accum.empty with blockCount := 3, prevMean := some 0, stableRun := run }
        (refMeas (settleStep ph) 0 a).ref = some { checking (.cycle (settleStep ph)) with acc := a, vp := some 14280 } ∧
        echoes ((refMeas (settleStep ph) 0 a).taps.get .d3).mailbox (refEcho 0 0) = true ∧ a.blockCount + 1 = row.block ∧
        ∀ delta ∈ [1, 3, 4], ((takeSample .settle ph row row.nFull row.settleBlocks ⟨0, .ref, .floating⟩ delta (refEcho 0 0) a).settled =
          decide (run = 1 ∧ delta ≠ 4) ∧
        (takeSample .settle ph row row.nFull row.settleBlocks ⟨0, .ref, .floating⟩ delta (refEcho 0 0) a).full = false)) ∧
      (checkPart .preempt).ref = some (checking .preempt) ∧ Dom.d3 ≠ .d1 ∧ 3 ≤ row.maxGap + 1 ∧ row.maxGap + 1 < 4 ∧
      (∀ ph ∈ [Phase.quiet, .pos, .neg], RefStep.preempt ≠ .cycle (settleStep ph) ∧ RefStep.preempt ≠ .cycle (plateauStep ph)) ∧
      (refEcho 0 0).clip = false ∧ (refEcho 0 0).tflt = false ∧
      ∀ x ∈ [(Phase.quiet, (0 : Int), (20000 : Int)), (.pos, 20000, -20000), (.neg, -20000, 0)],
        let a : Accum := { Accum.empty with plateauCount := 15 }
        (refMeas (plateauStep x.1) x.2.1 a).ref = some { checking (.cycle (plateauStep x.1)) with acc := a, vp := some 14280 } ∧
        echoes ((refMeas (plateauStep x.1) x.2.1 a).taps.get .d3).mailbox (refEcho x.2.1 0) = true ∧
        a.plateauCount + 1 = row.nFull ∧
        (if x.1 = .quiet then (row.injMv : Int) else if x.1 = .pos then -(row.injMv : Int) else 0) = x.2.2 ∧
        ((refMeas (plateauStep x.1) x.2.1 a).taps.get .d3).mailbox.level ≠ x.2.2 := by decide

/-- R99: with tap 1 confirmed, the loss of tap 2, the last one awaited, grants the claim and names it; with none confirmed it waits on. -/
theorem test_loss_grants :
    let t (set : DomSet) := after (.lossTimerExpiry .d2) (stateOf { confirming with claim := { confirming.claim with confirmed := set } })
    (t 1).meas.claim.state = .granted ∧ stateA (t 1) = some .external ∧ (answer (t 1)).drop 2 = [2, 2] ∧
      (t 0).meas.claim.state = .handoff ∧ outgoing (t 0) = [] := by decide

/-- The injector of an island in INTERVAL, in FORMING and in CYCLE; the tap under reference check; an armed HANDOFF that awaits the lost tap
alone, and another too; the same of a tap under check. -/
theorem witness_LossTimerLoses :
    (calmPart.taps.get .d1).presence = some seen ∧ seen.state = .present ∧ seen.lossStart = some 99900 ∧
      100 ≤ (calmPart.timebase - 99900).toNat ∧ fitted calmPart .d1 = true ∧ underRef calmPart .d1 = false ∧
      calmPart.claim.state = .none ∧
      (∀ st ∈ [IslandState.interval, .forming, .cycle .negSettle],
        injectedBy (part st .quiet none) .d1 = some (islandIn 3 .d1 st) ∧ islandAt (part st .quiet none) 3 = some (islandIn 3 .d1 st)) ∧
      (checkPart .preempt).ref = some (checking .preempt) ∧ (checkPart .preempt).pendRchk = some ⟨0x14, 0x44⟩ ∧
      ((checkPart .preempt).taps.get .d3).presence = some seen ∧ (checkPart .preempt).claim.state = .none ∧
      (confirming.taps.get .d2).presence = some seen ∧ confirming.claim.state = .handoff ∧ confirming.claim.armed = true ∧
      inSet (coveredSet confirming) .d2 = true ∧ injectedBy confirming .d2 = none ∧ underRef confirming .d2 = false ∧
      inSet confirming.claim.confirmed .d1 = true ∧ isPresent confirming .d1 = true ∧ confirming.pendXclaim = some ⟨0x11, 0x44⟩ ∧
      coveredSet confirming = 3 ∧
      let under : Meas := { confirming with ref := some { checking (.cycle .posPlateau) with tap := .d2 }, pendRchk := some ⟨0x14, 0x45⟩ }
      under.ref = some { checking (.cycle .posPlateau) with tap := .d2 } ∧ under.pendRchk = some ⟨0x14, 0x45⟩ ∧ injectedBy under .d2 = none := by
  decide

/-- R120, R119: the tap under check is lost: NOT_COMPLETED, no Rraw, Rref 1000, tolerance 5, the time now (100000 is 0x000186A0). -/
theorem test_loss_ends_check :
    let t := after (.lossTimerExpiry .d3) (stateOf (checkPart (.cycle .posPlateau)))
    (answer t).drop 2 = [3, 2, 0, 0, 0, 0x03, 0xE8, 5, 0x00, 0x01, 0x86, 0xA0] ∧ t.meas.ref = none ∧
      flagSet t.meas .refDone = true := by decide

/-- The joining tap 2 as the injector of a STALLED island that holds a result. -/
def stalled : State :=
  stateOf { joining.meas with islands := [{ islandIn 3 .d2 .stalled with slot := some (faultResult 3) }, islandIn 4 .d3 .forming] }

/-- In service with 255 before 0; the three steps of a join, the last as a command on a STALLED island; its timeout. -/
theorem witness_SequenceAndJoin :
    let p (st : TapState) (run : Nat) (l : Byte) : Presence := ⟨st, some l, run, some 0, none⟩
    (judgeSeq 0 5 (p .present 0 255)).1 = .inService 1 false ∧ (judgeSeq 255 5 (p .present 0 255)).1 = .duplicate ∧
      (p .unseen 0 9).state ≠ .present ∧ 0 < (p .lost 1 9).joinRun ∧ (p .lost 1 9).state ≠ .present ∧
      (judgeSeq 10 5 (p .lost 1 9)).1 = .joining ∧ (judgeSeq 10 5 (p .lost 2 9)).1 = .inService 1 true ∧
      (joining.meas.taps.get .d2).presence = some ⟨.unseen, some 5, 2, some 99950, none⟩ ∧
      100 ≤ ((100050 : Time) - 99950).toNat ∧
      rxCrcOk (good 2 0x01 6 [0, 0, 0, 0, 0, 0, 0, 0, 0]) = true ∧ fitted stalled.meas .d2 = true ∧
      (stalled.meas.taps.get .d2).presence = some ⟨.unseen, some 5, 2, some 99950, none⟩ ∧ (6 : Byte) = 5 + 1 ∧
      stalled.meas.claim.state = .none ∧ underRef stalled.meas .d2 = false ∧
      injectedBy stalled.meas .d2 = some { islandIn 3 .d2 .stalled with slot := some (faultResult 3) } ∧
      islandAt stalled.meas 3 = some { islandIn 3 .d2 .stalled with slot := some (faultResult 3) } ∧
      settleTime stalled.meas ≠ 0 := by decide

/-- R27: the third frame of the join brings the stalled island back to FORMING, with its result. -/
theorem test_stalled_recovers :
    let t := after (.sampleFrame (good 2 0x01 6 [0, 0, 0, 0, 0, 0, 0, 0, 0])) stalled
    (islandAt t.meas 3).map (fun i => (i.state, i.settleTimer, i.slot.isSome)) = some (.forming, .running ⟨100000, 500⟩, true) ∧
      (t.meas.taps.get .d2).mailbox = .quiet := by decide

/-- The sample payload of a calm tap. -/
def calmBytes : List Byte := [0x1F, 0x40, 0x1F, 0x40, 0, 0, 0, 0, 1]

/-- A sample frame of tap 2. -/
def sampleNo (seq : Byte) : RxFrame := good 2 0x01 seq calmBytes

/-- The next frame of tap 1, echoing −20000 mV, with a Vs. -/
def negFrame (vs : Int) : RxFrame := good 1 0x01 8 ([0x1F, 0x40, 0x1F, 0x40] ++ beInt16 vs ++ beInt16 (-20000) ++ [1])

/-- The example part with a decimation and an annotate flag for tap 2. -/
def forwarding (k a : Byte) : Meas :=
  { calmPart with tables := { tables with forward := some ((builtinForward.set 3 k).set 4 a) } }

/-- R152, R153: at decimation 1 a PRESENT tap's frame goes up as it came; annotated, with the tag of verdict UNKNOWN, attention, KNOWN, no claim
(0x18) and of INTERVAL in FULL (0x1B); at decimation 2 it is only counted. -/
theorem test_in_service_forwarded :
    let t (k a : Byte) := after (.sampleFrame (sampleNo 8)) (stateOf (forwarding k a))
    (t 1 0).link.txU = some ⟨0xC9, 2, 0x01, 8, calmBytes⟩ ∧ (t 1 1).link.txU = some ⟨0xC9, 2, 0x01, 8, calmBytes ++ [0x18, 0x1B]⟩ ∧
      (t 2 0).link.txU = none ∧ (t 2 0).link.decim.get .d2 = 1 := by decide

/-- R33, R38, R117, R88: a frame received whole completes the injector's second stable block, and the PLATEAU begins; the same for the tap under
check; and an asymmetric one (readings 400 and 7600, asym_pct 10) counts the run of its domain. -/
theorem test_frame_reaches_blocks :
    let t := after (.sampleFrame (good 1 0x01 8 calmBytes)) (stateOf (blocking .quiet 1))
    let c := after (.sampleFrame (good 3 0x01 8 [0x1F, 0x40, 0x1F, 0x40, 0, 0, 0, 0, 2]))
      (stateOf (refMeas .quietSettle 0 { Accum.empty with blockCount := 3, prevMean := some 0, stableRun := 1 }))
    let w := after (.sampleFrame (good 1 0x01 8 [0x01, 0x90, 0x1D, 0xB0, 0, 0, 0, 0, 1])) (stateOf calmPart)
    (islandAt t.meas 3).map (fun i => (i.state, i.counts.quiet)) = some (.cycle .quietPlateau, 3) ∧
      c.meas.ref.map (·.step) = some (.cycle .quietPlateau) ∧
      (w.meas.doms.get .d1).asymRun = 1 ∧ (t.meas.doms.get .d1).asymRun = 0 := by decide

/-- A READY Port D; a PRESENT tap's duplicate, next and skipped frame; a first frame of a join; decimations 0, 1 and 2; both sides of
the high mark 16; an annotated tap, and one that is not. -/
theorem witness_SampleFrameIntake :
    let s := stateOf calmPart
    let first : Meas := { calmPart with taps := calmPart.taps.set .d2 { calmPart.taps.get .d2 with
      presence := some ⟨.unseen, none, 0, none, none⟩ } }
    s.link.rxD.state = .ready ∧ s.link.rxD.chars = [] ∧
      (∀ seq ∈ [(7 : Byte), 8, 9], rxCrcOk (sampleNo seq) = true ∧ (sampleNo seq).payload.length = 9 ∧
        (sampleNo seq).address = BitVec.ofNat 8 Dom.d2.number) ∧
      fitted calmPart .d4 = false ∧ fitted calmPart .d2 = true ∧ (calmPart.taps.get .d2).presence = some seen ∧
      seen.lastSeq = some 7 ∧ (9 : Byte) ≠ 7 + 1 ∧
      ((first.taps.get .d2).presence.map fun p => (p.state, p.joinRun)) = some (.unseen, 0) ∧
      fwdDecimation builtinForward .d2 = 1 ∧ fwdDecimation (builtinForward.set 3 0) .d2 = 0 ∧
      fwdDecimation (builtinForward.set 3 2) .d2 = 2 ∧ s.link.decim.get .d2 + 1 = 1 ∧
      (queued 15 s).link.upQueue.length < fwdHighMark builtinForward ∧
      fwdHighMark builtinForward ≤ (queued 16 s).link.upQueue.length ∧
      fwdAnnotate (builtinForward.set 4 1) .d2 = 1 ∧ fwdAnnotate builtinForward .d2 ≠ 1 := by decide

/-- Frames in service that the blocks take: in order, behind a gap and completing a join, of an injector, of a tap under check and of the
injector of a STALLED island, without a claim and with one. -/
theorem witness_SampleFrameIntake_served :
    (judgeSeq 8 100000 seen).1 = .inService 1 false ∧ (judgeSeq 9 100000 seen).1 = .inService 2 false ∧
      (judgeSeq 6 100000 ⟨.unseen, some 5, 2, some 99950, none⟩).1 = .inService 1 true ∧
      (stalled.meas.taps.get .d2).presence = some ⟨.unseen, some 5, 2, some 99950, none⟩ ∧ fitted stalled.meas .d2 = true ∧
      (∀ m ∈ [blocking .quiet 1, filling .pos 0 ⟨20000, .domain, .connected⟩, refMeas .quietSettle 0 Accum.empty, calmPart],
        ∀ d ∈ [Dom.d1, .d3],
          fitted m d = true ∧ (m.taps.get d).presence = some seen ∧ m.timebase = 100000 ∧ m.claim.state = .none) ∧
      (confirming.taps.get .d2).presence = some seen ∧ confirming.claim.state = .handoff := by decide

/-- The frame that completes a NEG_PLATEAU, in order and behind a gap. -/
theorem witness_SampleFrameIntake_published :
    let m := filling .neg 0 ⟨-20000, .domain, .connected⟩
    let i := fillingIsland .neg 0
    let x := sampleOf (negFrame (-14000)).payload
    (8 - 7 : Byte).toNat = 1 ∧ (10 - 7 : Byte).toNat ≤ captured.row.maxGap + 1 ∧ captured.row.maxGap + 1 < (11 - 7 : Byte).toNat ∧
      fitted m .d1 = true ∧ (m.taps.get .d1).presence = some seen ∧ rxCrcOk (negFrame (-14000)) = true ∧
      injectedBy m .d1 = some i ∧ islandAt m i.members = some i ∧ i.state = .cycle .negPlateau ∧ i.captured = some captured ∧
      i.means.vp = some 14500 ∧ i.mode = .full ∧ i.acc.plateauCount + 1 = captured.row.nFull ∧
      m.claim.state = .none ∧ underRef m .d1 = false ∧ (m.taps.get .d1).mailbox.level ≠ 0 ∧
      echoes (m.taps.get .d1).mailbox x = true ∧ x.clip = false ∧ x.tflt = false := by decide

/-- The frame that confirms a tap, while another waits and as the last. -/
theorem witness_SampleFrameIntake_confirms :
    (confirming.taps.get .d2).presence = some seen ∧ confirming.claim.state = .handoff ∧ confirming.claim.armed = true ∧
      inSet (coveredSet confirming) .d2 = true ∧ underRef confirming .d2 = false ∧
      (∀ i ∈ confirming.islands, i.injector = .d2 ∨ inSet i.members .d2 = true → i.state = .handoff) ∧
      (sampleOf floatSample.payload).bal = false ∧ (sampleOf floatSample.payload).applied = 0 ∧
      (sampleOf (sampleNo 8).payload).bal = true ∧ inSet confirming.claim.confirmed .d1 = true ∧
      isPresent confirming .d1 = true ∧ inSet (coveredSet confirming) .d3 = false ∧
      confirming.pendXclaim = some ⟨0x11, 0x44⟩ ∧ confirming.heldResponses = [] ∧
      (queued 31 (stateOf calmPart)).link.upQueue.length < 32 ∧
      claimedIsland confirming = some (islandIn 3 .d1 .handoff) ∧ islandAt confirming 3 = some (islandIn 3 .d1 .handoff) := by decide

/-- A frame in service, and the second of a join, that complete no deferred response, at each decimation, annotated or not. -/
theorem witness_SampleFrameIntake_forwarded :
    (∀ k ∈ [(0 : Byte), 1, 2], ∀ a ∈ [(0 : Byte), 1],
      let m := forwarding k a
      ¬ (seen.lastSeq = some (sampleNo 8).tag ∧ (seen.state = .present ∨ seen.joinRun ≠ 0)) ∧ m.heldResponses = [] ∧
      (m.taps.get .d2).presence = some seen ∧ fitted m .d2 = true ∧ fwdDecimation (forwardImage m) .d2 = k.toNat ∧
      fwdAnnotate (forwardImage m) .d2 = a.toNat ∧ fwdHighMark (forwardImage m) = 16 ∧
      (after (.sampleFrame (sampleNo 8)) (stateOf m)).meas.pendXclaim = m.pendXclaim ∧
      (after (.sampleFrame (sampleNo 8)) (stateOf m)).meas.pendRchk = m.pendRchk) ∧
    ¬ ((⟨.unseen, some 7, 1, some 99990, none⟩ : Presence).lastSeq = some (sampleNo 8).tag ∧ ((.unseen : TapState) = .present ∨ 1 ≠ 0)) := by
  decide

/-- R42, R53, R62: Vp 14500 with a mean of −14000 is VALID result 1 with D2 28500; with 14600 it is INVERTED, and CYCLE_FAIL is set. -/
theorem test_neg_plateau_publishes :
    let t (vn : Int) := after (.sampleFrame (negFrame vn)) (stateOf (filling .neg (15 * vn) ⟨-20000, .domain, .connected⟩))
    let slot (vn : Int) := ((islandAt (t vn).meas 3).bind (·.slot)).map fun r => (r.number, r.outcome, r.d2)
    slot (-14000) = some (1, .valid, some 28500) ∧ slot 14600 = some (1, .inverted, some (-100)) ∧
      flagSet (t 14600).meas .cycleFail = true ∧ flagSet (t (-14000)).meas .cycleFail = false ∧
      ((t (-14000)).meas.doms.get .d2).newest = some ⟨1, 100000⟩ := by decide

/-- R153, R181: with tap 2 annotated in a KNOWN part: verdict OK, held by a claim in HANDOFF, attention (RESET is still set),
island code 13, mode FULL. -/
theorem test_annotated :
    let m : Meas := { handingOff with
      tables := { tables with forward := some (builtinForward.set 4 1) }, doms := handingOff.doms.set .d2 (okSince 90000) }
    (forwardedFrame .d2 ⟨0xC9, 2, 0x01, 1, []⟩ m).payload = [0x5D, 0x1D] := by decide

/-- R152: the first frame of a join reaches the host too, and is dropped at the high mark. -/
theorem test_forwarded :
    let s : State := stateOf { calmPart with taps := calmPart.taps.set .d2 { calmPart.taps.get .d2 with
      presence := some ⟨.unseen, none, 0, none, none⟩ } }
    (after (.sampleFrame (sampleNo 1)) s).link.txU = some ⟨0xC9, 2, 0x01, 1, calmBytes⟩ ∧
      (after (.sampleFrame (sampleNo 1)) (queued 16 s)).link.drops = 1 := by decide

/-- The example part with so many requests in its buffer. -/
def buffering (n : Nat) : State :=
  { stateOf calmPart with link := { readyLink with buffer := List.replicate n (request 0x20 []) } }

/-- A tap response at an occupancy of 23 and of 24; a request at a buffer of three and a full one of four. -/
theorem witness_ResponseAndRequestIntake :
    let s := stateOf calmPart
    (∀ n, (queued n s).link.rxD = s.link.rxD) ∧ (∀ n, (buffering n).link.rxU = s.link.rxU) ∧
      s.link.rxD.state = .ready ∧ s.link.rxD.chars = [] ∧ rxCrcOk (good 8 0x01 9 []) = true ∧
      (good 8 0x01 9 []).payload.length ≤ 120 ∧ 1 ≤ (good 8 0x01 9 []).address.toNat ∧ (good 8 0x01 9 []).address.toNat ≤ 8 ∧
      (queued 23 s).link.upQueue.length < 24 ∧ 24 ≤ (queued 24 s).link.upQueue.length ∧
      s.link.rxU.state = .ready ∧ s.link.rxU.chars = [] ∧ rxCrcOk (good 0 0x20 9 []) = true ∧
      (good 0 0x20 9 []).payload.length ≤ 120 ∧ (good 0 0x20 9 []).address = 0 ∧
      (buffering 3).link.buffer.length < 4 ∧ 4 ≤ (buffering 4).link.buffer.length :=
  ⟨fun _ => rfl, fun _ => rfl, by decide⟩

/-- R155: with three requests buffered a fourth joins, and with four the next is lost, counted and flagged. -/
theorem test_request_overrun :
    let t (n : Nat) := (after (.requestFrameReceived (good 0 0x20 9 [])) (buffering n))
    (t 3).link.buffer.length = 4 ∧ (t 3).link.overrun = 0 ∧ (t 4).link.buffer.length = 4 ∧ (t 4).link.overrun = 1 ∧
      flagSet (t 4).meas .reqOverrun = true := by decide

/-- A PASS kind and a BLOCK_OWNED kind to tap 8 and to tap 9 to 15, a kind above 0x7F; full queues. -/
theorem witness_HostTapFrameFilter :
    let s := stateOf calmPart
    s.link.rxU.state = .ready ∧ s.link.rxU.chars = [] ∧
      (∀ a ∈ [(1 : Byte), 8, 9, 14, 15], rxCrcOk (good a 0x01 9 []) = true ∧ 1 ≤ (good a 0x01 9 []).address.toNat ∧
        (good a 0x01 9 []).address.toNat ≤ 15) ∧
      rxCrcOk (good 8 0x80 9 []) = true ∧ 0x80 ≤ (good 8 0x80 9 []).kind.toNat ∧ fwdAction builtinForward 1 = 0 ∧
      fwdAction builtinForward 2 = 2 ∧ (calmPart.taps.get .d1).mailbox ≠ ⟨0, .domain, .floating⟩ ∧ fitted calmPart .d1 = true ∧
      (calmPart.taps.get .d8).mailbox = ⟨0, .domain, .floating⟩ ∧ calmPart.ref = none ∧
      s.link.downQueue.length < 16 ∧ s.link.upQueue.length < 32 ∧ 32 ≤ (queued 32 s).link.upQueue.length := by decide

/-- Each error on either port; a RECOVERING receiver; the last character of a frame of length 0 and of one of length 120 with a CRC that does not
match, and such a frame received as one. -/
theorem witness_ReceiveErrorCounts :
    (rxOf .u State.reset).state = .recovering ∧ (rxOf .u (stateOf calmPart)).state ≠ .recovering ∧
      parityOk 0b01000000010 = false ∧ parityOk 0b00000000010 = true ∧ stopOk 0b00000000010 = false ∧
      parityOk (lineChar 0xC9) = true ∧ stopOk (lineChar 0xC9) = true ∧ (rxOf .u (stateOf calmPart)).state = .ready ∧
      markerAccepted .u (charData (lineChar 0xC9)) = false ∧
      (rxOf .d inFrame).state = .inFrame ∧ (rxOf .d inFrame).chars.length = 1 ∧ 120 < (charData (lineChar 121)).toNat ∧
      (rxOf .d (stateOf calmPart)).chars = [] ∧
      ([1, 2, 3] : List Byte).length = 3 + (0 : Byte).toNat ∧ crc16 [0, 1, 2, 3] ≠ (0 : Byte) ++ (0 : Byte) ∧
      ([1, 2, 3] ++ List.replicate 120 (0 : Byte)).length = 3 + (120 : Byte).toNat ∧ (120 : Byte).toNat ≤ 120 ∧
      (frameOf 0 4).payload.length ≤ 120 ∧
      (frameOf 0 4).crc ≠ crc16 (bodyBytes (frameOf 0 4).address (frameOf 0 4).kind (frameOf 0 4).tag (frameOf 0 4).payload) := by decide

/-- Frames of Port D received whole that fail R127's content checks: address 0 and 9, length 8 and 10, kind 2. -/
def misfits : List RxFrame :=
  [good 0 0x01 8 (List.replicate 9 0), good 9 0x01 8 (List.replicate 9 0), good 8 0x01 8 (List.replicate 8 0),
   good 1 0x01 8 (List.replicate 10 0), good 1 0x02 8 (List.replicate 9 0)]

/-- The hypotheses of the content checks, received as a frame and by the last character. -/
theorem witness_ReceiveErrorCounts_content :
    (∀ f ∈ misfits, f.payload.length ≤ 120 ∧ rxCrcOk f = true ∧
      ((f.address = 0 ∨ 8 < f.address.toNat) ∨ (f.payload.length ≠ 9 ∨ f.kind ≠ 0x01)) ∧
      (rxBytes 0xC9 f).dropLast ++ [(rxBytes 0xC9 f).getLastD 0] = rxBytes 0xC9 f) ∧
    (∃ f ∈ misfits, f.address = 0) ∧ (∃ f ∈ misfits, 8 < f.address.toNat) ∧
    (stateOf calmPart).link.rxD.state = .ready ∧ (stateOf calmPart).link.rxD.chars = [] := by decide

/-- R127, R125: each of them counts as a framing error, and is not forwarded. -/
theorem test_content_checks :
    ∀ f ∈ misfits, let t := after (.sampleFrame f) (stateOf calmPart)
      t.link.rxD = ⟨.recovering, [], false, 0, 1, 0, 0⟩ ∧ flagSet t.meas .linkErrD = true ∧ outgoing t = [] := by decide

/-- R125, R126: the last of seven characters, with a wrong CRC, counts as a CRC error and nothing else. -/
theorem test_wrong_crc :
    let s : State := { stateOf calmPart with link := { readyLink with rxD := ⟨.inFrame, [0xC5, 0, 1, 1, 9, 0], false, 0, 0, 0, 0⟩ } }
    let t := after (.characterReceived .d 0) s
    t.link.rxD = ⟨.recovering, [], false, 0, 0, 0, 1⟩ ∧ flagSet t.meas .linkErrD = true ∧ t.link.upQueue = [] := by decide

/-- Each receive state; a length of 120, and a character that ends no frame. -/
theorem witness_ReceiverStates :
    (rxOf .d inFrame).state = .inFrame ∧ (rxOf .d State.reset).state = .recovering ∧ (rxOf .u (stateOf calmPart)).state = .ready ∧
      markerAccepted .u 0xC3 = true ∧ markerAccepted .u 0xC5 = false ∧
      (let chars := (rxOf .d inFrame).chars ++ [120]
       ¬ (chars.length = 2 ∧ 120 < (120 : Byte).toNat) ∧ ¬ (2 ≤ chars.length ∧ chars.length = 7 + (chars.getD 1 0).toNat)) := by
  decide

theorem witness_CharactersMakeFrame :
    (frameOf 0 120).payload.length ≤ 120 ∧ (stateOf calmPart).link.rxU.state = .ready ∧ (stateOf calmPart).link.rxU.chars = [] ∧
      (stateOf calmPart).link.rxD.state = .ready ∧ (stateOf calmPart).link.rxD.chars = [] := by decide

/-- R135, R182: tap 5 with level sequence 255, at −20000 mV (0xB1E0) on REF, floating; and at +1 mV on DOMAIN, connected. -/
theorem test_level_frame :
    let p (b : Mailbox) : Tap := { calmPart.taps.get .d5 with mailbox := b, levelSeq := 255 }
    levelFrame .d5 (p ⟨-20000, .ref, .floating⟩) = ⟨0xCA, 5, 0x02, 0, [0xB1, 0xE0, 1, 0]⟩ ∧
      levelFrame .d5 (p ⟨1, .domain, .connected⟩) = ⟨0xCA, 5, 0x02, 0, [0, 1, 0, 1]⟩ := by decide

/-- A frame on Port D and a queue on Port U; mailboxes at both ends of the range of a level. -/
theorem witness_TransmittersGoOn :
    let s : State := { stateOf calmPart with link := { readyLink with txD := some (request 1 []) } }
    s.link.txD.isSome = true ∧ (s.link.txU = none → outgoing s = []) ∧ s.meas.heldResponses = [] ∧
      (queued 2 s).link.txU = some (request 0 []) ∧ outgoing (queued 2 s) = request 0 [] :: [request 1 [], request 1 []] ∧
      ∀ l ∈ [(-32768 : Int), 32767], -32768 ≤ (⟨l, .domain, .connected⟩ : Mailbox).level ∧ (⟨l, .domain, .connected⟩ : Mailbox).level ≤ 32767 := by
  decide

theorem witness_StatAndMask :
    HeadRequest 0x20 0 1 (request 0x20 []) [] (asked 0x20 [] calmPart) ∧
      HeadRequest 0x21 4 1 (request 0x21 [0, 0, 0, 0]) [] (asked 0x21 [0, 0, 0, 0] calmPart) :=
  ⟨asked_head _ _ _ _ _ rfl rfl (by decide), asked_head _ _ _ _ _ rfl rfl (by decide)⟩

/-- A part that holds a result of the island of domains 1 and 2, and a fault record of domain 2. -/
def withRecords : Meas :=
  { calmPart with
    islands := [{ islandIn 3 .d1 .interval with slot := some (faultResult 3) }, islandIn 4 .d3 .forming],
    doms := calmPart.doms.set .d2 { DomRec.reset with fault := some (faultRecordOf calmPart .d2 .drive 60 (faultResult 3)) } }

/-- R188: domain 2 in OK with result 9 of 60 s ago, its island in INTERVAL in FULL. -/
theorem test_isord_record :
    isordRecord { calmPart with doms := calmPart.doms.set .d2 (okSince 40000) } .d2 =
      [0x02, 0x21, 0x03, 0x3B, 0, 0, 9, 0, 60, 0, 0, 0, 0, 0] := by decide

theorem witness_ReadOuts :
    (∀ b : List Byte, b = [0] ∨ b = [3] → HeadRequest 0x22 1 1 (request 0x22 b) [] (asked 0x22 b withRecords)) ∧
      (∀ b : List Byte, b = [2] ∨ b = [3] ∨ b = [4] → HeadRequest 0x23 1 1 (request 0x23 b) [] (asked 0x23 b withRecords) ∧
        HeadRequest 0x24 1 1 (request 0x24 b) [] (asked 0x24 b withRecords)) ∧
      fitted withRecords .d4 = false ∧ fitted withRecords .d2 = true ∧ fitted withRecords .d3 = true ∧
      (islandOf withRecords .d2).map (·.slot) = some (some (faultResult 3)) ∧
      (islandOf withRecords .d3).map (·.slot) = some none ∧ (withRecords.doms.get .d2).fault.map (·.entries.length) = some 2 ∧
      (withRecords.doms.get .d3).fault = none := by
  refine ⟨?_, ?_, by decide⟩
  · rintro b (rfl | rfl) <;> exact asked_head _ _ _ _ _ rfl rfl (by decide)
  · rintro b (rfl | rfl | rfl) <;> exact ⟨asked_head _ _ _ _ _ rfl rfl (by decide), asked_head _ _ _ _ _ rfl rfl (by decide)⟩

theorem witness_BadRequestsOnlyAnswered :
    (kindTopo, Instr.topo, 4, 4) ∈ requestKinds ∧ (kindSeg, Instr.seg, 2, 97) ∈ requestKinds ∧
      HeadRequest kindTopo 3 1 (request kindTopo [0, 1, 1]) [] (asked kindTopo [0, 1, 1] calmPart) ∧
      HeadRequest kindSeg 98 1 (request kindSeg (List.replicate 98 0)) [] (asked kindSeg (List.replicate 98 0) calmPart) ∧
      responsesOf (request kindTopo [0, 1, 1]) calmPart = 1 ∧ responsesOf (request kindSeg (List.replicate 98 0)) calmPart = 1 ∧
      HeadRequest 0x77 0 1 (request 0x77 []) [] (asked 0x77 [] calmPart) ∧ (∀ x ∈ requestKinds, x.1 ≠ 0x77) :=
  ⟨by decide, by decide, asked_head _ _ _ _ _ rfl rfl (by decide), asked_head _ _ _ _ _ rfl rfl (by decide), by decide, by decide,
    asked_head _ _ _ _ _ rfl rfl (by decide), by decide⟩

/-- R166, R140: with a frame on Port D, RESTART keeps it and the queue behind it; tap 1, which was not at rest, has its level frame due. -/
theorem test_restart_keeps_portD :
    let s := asked 0x3F [] calmPart
    let t := after .restart { s with link := { s.link with txD := some (request 1 []), downQueue := [request 2 []] } }
    t.link.txD = some (request 1 []) ∧ t.link.downQueue = [request 2 []] ∧ (t.meas.taps.get .d1).due = true ∧
      (t.meas.taps.get .d1).refreshStart = some calmPart.timebase := by decide

/-- A claim in HANDOFF and a reference check, both with their responses pending. -/
def busyPart : Meas := { handingOff with ref := some (checking .preempt), pendRchk := some ⟨0x14, 0x45⟩ }

theorem witness_RestartResets :
    HeadRequest 0x3F 0 (responsesOf (request 0x3F []) busyPart) (request 0x3F []) [] (asked 0x3F [] busyPart) ∧
      HeadRequest 0x3F 0 (responsesOf (request 0x3F []) calmPart) (request 0x3F []) [] (asked 0x3F [] calmPart) ∧
      (busyPart.claim.state = .handoff ↔ busyPart.pendXclaim.isSome = true) ∧
      (busyPart.ref.isSome = true ↔ busyPart.pendRchk.isSome = true) ∧
      (calmPart.claim.state = .handoff ↔ calmPart.pendXclaim.isSome = true) ∧
      (calmPart.ref.isSome = true ↔ calmPart.pendRchk.isSome = true) :=
  ⟨asked_head _ _ _ _ _ rfl rfl (by decide), asked_head _ _ _ _ _ rfl rfl (by decide), by decide⟩

/-- R166: three responses, XCLAIM's and RCHK's CANCELLED, then RESTART's OK. -/
theorem test_restart_cancels :
    (outgoing (after .restart (asked 0x3F [] busyPart))).map (fun f => (f.kind, f.tag, f.payload.head?, f.payload.drop 2)) =
      [(0x11, 0x44, some 0x0B, [2]), (0x14, 0x45, some 0x0B, [3]), (0x3F, 0x44, some 0x00, [])] := by decide

/-- Every table number and its sizes at their ends; an open load; a frozen CYCLE table. -/
theorem witness_LoadOpensAndTimesOut :
    (∀ b : List Byte, b = [0, 0, 56, 0, 0] ∨ b = [1, 0, 56, 0, 0] ∨ b = [2, 2, 6, 0, 0] ∨ b = [3, 0, 124, 0, 0] →
      HeadRequest 0x30 5 1 (request 0x30 b) [] (asked 0x30 b calmPart)) ∧
    TableId.ofCode 0 = none ∧ TableId.ofCode 6 = none ∧ imageSizeOk .topology 6 = false ∧ imageSizeOk .topology 22 = true ∧
      imageSizeOk .topology 518 = true ∧ imageSizeOk .topology 534 = false ∧ imageSizeOk .limit 45 = true ∧
      imageSizeOk .limit 493 = true ∧ imageSizeOk .limit 507 = false ∧
      (⟨some openLoad, 0⟩ : Loader).load.isSome = true ∧ tableFrozen ⟨none, 4⟩ .cycle = true ∧ tableFrozen ⟨none, 4⟩ .limit = false ∧
      250 ≤ (calmPart.timebase - openLoad.gapStart).toNat := by
  refine ⟨?_, by decide⟩
  rintro b (rfl | rfl | rfl | rfl) <;> exact asked_head _ _ _ _ _ rfl rfl (by decide)

/-- One data byte and 96; no load; the wrong segment; too much data; a segment that leaves one byte missing. -/
theorem witness_SegmentTaken :
    HeadRequest 0x31 2 1 (request 0x31 [1, 0x20]) [] (asked 0x31 [1, 0x20] calmPart) ∧
      HeadRequest 0x31 97 1 (request 0x31 (1 :: List.replicate 96 0)) [] (asked 0x31 (1 :: List.replicate 96 0) calmPart) ∧
      ([0x20] : List Byte).length = 1 ∧ (List.replicate 96 (0 : Byte)).length ≤ 96 ∧ (1 : Byte) = openLoad.expected ∧
      (0 : Byte) ≠ openLoad.expected ∧ openLoad.buffer.length + 96 < openLoad.length ∧
      ({ openLoad with length := 2 } : Load).length = openLoad.buffer.length + 1 ∧
      ({ openLoad with length := 2 } : Load).length < openLoad.buffer.length + 96 :=
  ⟨asked_head _ _ _ _ _ rfl rfl (by decide), asked_head _ _ _ _ _ rfl rfl (by decide), by decide⟩

/-- A load of the CYCLE table that lacks its last byte, with the CRC of an image. -/
def lastByteLoad (img : List Byte) (crc : BitVec 16) : Load := ⟨.cycle, 124, crc, 1, img.take 123, 99990⟩

/-- A load of a table that lacks its last byte. -/
def lastLoad (table : TableId) (img : List Byte) : Load := ⟨table, img.length, crc16 img, 1, img.dropLast, 99990⟩

/-- The state after the last byte of an image is sent. -/
def sent (table : TableId) (img : List Byte) (m : Meas) : State :=
  after .seg { asked 0x31 [1, img.getLastD 0] m with loader := ⟨some (lastLoad table img), 0⟩ }

/-- The limits with a max_age of 1 s in every row. -/
def shortLimits : List Byte :=
  0 :: (List.replicate 4 (be16 500 ++ be16 100 ++ be16 800 ++ [2, 3, 10] ++ be16 1)).flatten

/-- Domains 1 and 2 fitted. -/
def smallDomain : List Byte := (domainImage.set 14 0)

/-- The example part before its LIMIT table, the island of domain 3 waiting with its settle timer expired. -/
def almost : Meas :=
  { calmPart with
    tables := { tables with limit := none },
    islands := [islandIn 3 .d1 .interval, { islandIn 4 .d3 .forming with settleTimer := .expired }] }

/-- R3, R131: only DOMAIN active, domain 3 loses its presence record. R5: a TOPOLOGY activation on a report of 1000 ms makes the state STALE, on
one of 999 ms it is resolved anew. R71: a result of 1001 ms is too old for max_age 1 s. R165: the LIMIT table completes the four, and the
waiting FORMING ends. -/
theorem test_activations :
    let d := sent .domain smallDomain { calmPart with
      tables := ⟨some domainImage, none, none, none, none⟩, topo := .reset, islands := [] }
    let p (now : Time) := sent .topology (topologyImage 1) { calmPart with timebase := now }
    let v (time : Time) := ((sent .limit shortLimits { calmPart with doms := calmPart.doms.set .d2 (okSince time) }).meas.doms.get .d2).verdict
    let r := sent .limit limitImage almost
    (d.meas.taps.get .d3).presence = none ∧ (d.meas.taps.get .d2).presence = some seen ∧
      (p 100000).meas.topo.state = .stale ∧ (p 100000).meas.islands = [] ∧ (p 99999).meas.topo.state = .known ∧
      v 99000 = .ok ∧ v 98999 = .unknown ∧ partRunning r.meas = true ∧
      (islandAt r.meas 4).map (·.state) = some (.cycle .quietSettle) := by decide

/-- R172, R131, R3: a DOMAIN image that fits domain 3 again is answered OK and ACTIVATED, with its level frame begun at once; a TOPOLOGY and a LIMIT
image are answered so too. -/
theorem test_activated :
    let t := sent .domain domainImage { calmPart with
      tables := ⟨some smallDomain, none, none, none, none⟩, topo := .reset, islands := [], taps := calmPart.taps.set .d3 (Meas.reset.taps.get .d3) }
    status t = some 0x00 ∧ (answer t).drop 2 = [1, 0xFF, 0, 0, 56, 2] ∧ t.link.txD = some ⟨0xCA, 3, 0x02, 1, [0, 0, 0, 0]⟩ ∧
      (t.meas.taps.get .d3).presence = some ⟨.unseen, none, 0, none, none⟩ ∧
      (answer (sent .topology (topologyImage 1) calmPart)).drop 2 = [1, 0xFF, 0, 0, 38, 2] ∧
      (answer (sent .limit shortLimits calmPart)).drop 2 = [1, 0xFF, 0, 0, 45, 2] := by decide

/-- An image with a wrong CRC, one whose last ref_tol is out of range, one that passes, and one that a freeze forbids; images that pass for each
table; a report that is none, fresh and not; a domain aged or not under new limits; the entry to RUNNING; a frozen DRIVE row that changes. -/
theorem witness_FinalSegmentJudged :
    HeadRequest 0x31 2 1 (request 0x31 [1, 5]) [] (asked 0x31 [1, 5] calmPart) ∧
      HeadRequest 0x31 2 1 (request 0x31 [1, 21]) [] (asked 0x31 [1, 21] calmPart) ∧
      (lastByteLoad cycleImage 0).buffer.length + 1 = (lastByteLoad cycleImage 0).length ∧
      cycleImage.take 123 ++ [5] = cycleImage ∧ crc16 cycleImage ≠ 0 ∧ validate calmPart .cycle cycleImage = none ∧
      validate calmPart .cycle (cycleImage.take 123 ++ [21]) = some (3, 17) ∧
      frozenFailure ⟨none, 0⟩ calmPart .cycle cycleImage = none ∧
      frozenFailure ⟨none, 4⟩ calmPart .cycle cycleImage = some (0xFF, 0) ∧ partRunning calmPart = true ∧
      domFitted domainImage .d1 = true ∧ fitted Meas.reset .d1 = false ∧
      (∀ img ∈ [domainImage, topologyImage 1, cycleImage, limitImage, builtinForward],
        img.dropLast.length + [img.getLastD 0].length = img.length ∧ img.dropLast ++ [img.getLastD 0] = img) ∧
      validate { calmPart with tables := ⟨some domainImage, none, none, none, none⟩ } .domain smallDomain = none ∧
      domFitted smallDomain .d3 = false ∧ fitted calmPart .d3 = true ∧ domFitted smallDomain .d2 = fitted calmPart .d2 ∧
      validate calmPart .topology (topologyImage 1) = none ∧ unresolved.topo.stored = none ∧
      (unresolved.islands.map (·.members)).Nodup ∧ calmPart.topo.stored = some ⟨1, 400, 99000⟩ ∧
      ((99999 : Time) - 99000).toNat < topoFreshness (topologyImage 1) ∧
      topoFreshness (topologyImage 1) ≤ (calmPart.timebase - 99000).toNat ∧
      validate calmPart .limit shortLimits = none ∧
      (effectiveLimits shortLimits .d2 (profileInForce calmPart .d2)).maxAge * 1000 < (calmPart.timebase - 98999).toNat ∧
      ¬ (effectiveLimits shortLimits .d2 (profileInForce calmPart .d2)).maxAge * 1000 < (calmPart.timebase - 99000).toNat ∧
      partRunning almost = false ∧ validate almost .limit limitImage = none ∧ frozenFailure ⟨none, 0⟩ almost .limit limitImage = none ∧
      frozenFailure ⟨none, 1 <<< 4⟩ calmPart .limit shortLimits = some (1, 1) ∧
      frozenFailure ⟨none, 1 <<< 4⟩ calmPart .limit limitImage = none ∧
      validate { calmPart with tables := ⟨some smallDomain, none, none, none, none⟩ } .domain domainImage = none ∧
      fitted { calmPart with tables := ⟨some smallDomain, none, none, none, none⟩ } .d3 = false ∧ domFitted domainImage .d3 = true ∧
      frozenFailure ⟨none, 0⟩ calmPart .topology (topologyImage 1) = none ∧ frozenFailure ⟨none, 0⟩ calmPart .domain domainImage = none ∧
      walking.pendXclaim = some ⟨0x11, 0x44⟩ ∧ walking.claim.state = .handoff ∧ validate walking .topology (topologyImage 1) = none ∧
      matchingRows (topologyImage 1) 0 900 = [] :=
  ⟨asked_head _ _ _ _ _ rfl rfl (by decide), asked_head _ _ _ _ _ rfl rfl (by decide), by decide⟩

/-- R2, R4, R70, R143: the first check that fails. DOMAIN: Rc of domain 2 is reported before Rref of domain 3, and NONE_FITTED with row 0. TOPOLOGY: the
order 2, and the inlet range of row 1. LIMIT: the max_age of row 3, the mask of an override row, and its domain. FORWARD: the high mark 25,
the annotate flag of tap 8, and the action of kind 0x7F. -/
theorem test_refusals :
    let loading : Meas := { calmPart with tables := ⟨some domainImage, none, none, none, none⟩ }
    let withRow (b : List Byte) : List Byte := 1 :: (limitImage.drop 1 ++ b)
    validate loading .domain ((domainImage.set 8 0).set 9 49 |>.set 19 0) = some (2, 3) ∧
      validate loading .domain (List.replicate 56 0) = some (0, 2) ∧ validate loading .topology (topologyImage 2) = some (0xFF, 2) ∧
      validate loading .topology ((topologyImage 0).set 28 9) = some (1, 4) ∧
      validate loading .limit ((limitImage.set 43 0).set 44 0) = some (3, 8) ∧
      validate loading .limit (withRow ([1, 0, 0x80] ++ List.replicate 11 0)) = some (4, 11) ∧
      validate loading .limit (withRow ([4, 0, 0] ++ List.replicate 11 0)) = some (4, 9) ∧
      validate loading .forward (builtinForward.set 0 25) = some (0xFF, 1) ∧
      validate loading .forward (builtinForward.set 16 2) = some (8, 2) ∧ validate loading .forward (builtinForward.set 144 3) = some (127, 3) := by
  decide

/-- R172, R174: the CYCLE image becomes active with TABLE_DONE; with ref_tol 21 in its last row it is INVALID, row 3, reason 17. -/
theorem test_final_segment :
    let s (b : Byte) (img : List Byte) : State :=
      { asked 0x31 [1, b] calmPart with loader := ⟨some (lastByteLoad img (crc16 img)), 0⟩ }
    let t := after .seg (s 5 cycleImage)
    let u := after .seg (s 21 (cycleImage.take 123 ++ [21]))
    (answer t).drop 2 = [1, 0xFF, 0, 0, 124, 2] ∧ flagSet t.meas .tableDone = true ∧ t.loader.load = none ∧
      status u = some 0x08 ∧ (answer u).drop 2 = [3, 3, 17, 0, 124, 2] ∧ flagSet u.meas .tableAbort = true := by decide

/-- A table that does not exist, one that is not active, an empty range, a range past the end, and the whole image. -/
theorem witness_TsumReadsActiveImage :
    (∀ b : List Byte, b = [6, 0, 0, 0, 1] ∨ b = [4, 0, 0, 0, 45] ∨ b = [4, 0, 0, 0, 0] ∨ b = [4, 0, 1, 0, 45] →
      HeadRequest 0x32 5 1 (request 0x32 b) [] (asked 0x32 b calmPart)) ∧
    TableId.ofCode 6 = none ∧ TableId.ofCode 4 = some .limit ∧ activeImage Meas.reset .limit = none ∧
      activeImage calmPart .limit = some limitImage ∧ limitImage.length < 1 + 45 ∧ 0 + 45 ≤ limitImage.length := by
  refine ⟨?_, by decide⟩
  rintro b (rfl | rfl | rfl | rfl) <;> exact asked_head _ _ _ _ _ rfl rfl (by decide)

/-- A part whose taps see no voltage. -/
def calmBus : Meas :=
  { calmPart with taps := calmPart.taps.mapWith fun _ t => { t with
      presence := t.presence.map fun p => { p with latest := some ⟨600, 599, 0, 0, true, false, false, false⟩ } } }

/-- A request to a part with an open load of CYCLE. -/
def askedLoading (kind : Byte) (payload : List Byte) (m : Meas) : State := { asked kind payload m with loader := ⟨some openLoad, 0⟩ }

/-- R177, second reason: with an open load and no claim FRLS is refused as LOAD with the table's number, also where every tap is calm. -/
theorem test_frls_load : (answer (after .frls (askedLoading 0x34 [] calmBus))).drop 2 = [2, 3] := by decide

/-- FREEZE with bit 7, that would clear, of an inactive table, and accepted; FRLS for each of its reasons, an open load among them, and accepted
at 1199 counts. -/
theorem witness_FreezeAndRelease :
    (∀ b : Byte, b = 0x80 ∨ b = 1 ∨ b = 3 → HeadRequest 0x33 1 1 (request 0x33 [b]) [] (asked 0x33 [b] calmPart)) ∧
    (∀ m, m = calmPart ∨ m = granted ∨ m = calmBus → HeadRequest 0x34 0 1 (request 0x34 []) [] (asked 0x34 [] m)) ∧
    HeadRequest 0x33 1 1 (request 0x33 [1]) [] (asked 0x33 [1] Meas.reset) ∧
    HeadRequest 0x34 0 1 (request 0x34 []) [] (askedLoading 0x34 [] calmBus) ∧
    (∀ d, fitted calmBus d = true → ∃ p x, (calmBus.taps.get d).presence = some p ∧ p.latest = some x ∧ x.vPlus + x.vMinus < 1200) ∧
    (0x80 : Byte).getLsbD 7 = true ∧ (2 : BitVec 7).getLsbD 1 = true ∧ (1 : Byte).getLsbD 1 = false ∧
      activeImage Meas.reset (freezeTable 0) = none ∧ activeImage calmPart (freezeTable 0) = some domainImage ∧
      granted.claim.state ≠ .none ∧ calmBus.claim.state = .none ∧
      (calmPart.taps.get .d1).presence = some seen ∧ seen.latest = some calm ∧ ¬ calm.vPlus + calm.vMinus < 1200 ∧
      (askedLoading 0x34 [] calmBus).meas.claim.state = .none ∧
      (askedLoading 0x34 [] calmBus).loader.load = some openLoad := by
  refine ⟨?_, ?_, asked_head _ _ _ _ _ rfl rfl (by decide), asked_head 0x34 [] calmBus 0 1 rfl rfl (by decide), ?_, by decide⟩
  · rintro b (rfl | rfl | rfl) <;> exact asked_head _ _ _ _ _ rfl rfl (by decide)
  · rintro m (rfl | rfl | rfl) <;> exact asked_head _ _ _ _ _ rfl rfl (by decide)
  · intro d h
    cases d <;> first | exact ⟨_, _, rfl, rfl, by decide⟩ | (exact absurd h (by decide))

/-- R177: with every tap below 1200 counts FRLS is accepted; with no latest sample on tap 2 it is refused as NO_SAMPLE. -/
theorem test_frls_calm :
    let blind : Meas := { calmBus with taps := calmBus.taps.set .d2 { calmBus.taps.get .d2 with presence := some { seen with latest := none } } }
    let t := after .frls { asked 0x34 [] calmBus with loader := ⟨none, 5⟩ }
    t.loader.freeze = 0 ∧ status t = some 0x00 ∧ (answer (after .frls (asked 0x34 [] blind))).drop 2 = [4, 2] := by decide

/-- The example part keeps every property, in a state that steps; so its next state is no empty case. -/
theorem witness_StepKeepsLinkBounds :
    let s := asked 0x20 [] calmPart
    LinkBounded s.link ∧ fwdHighMark (forwardImage s.meas) ≤ 24 := by
  refine ⟨⟨by decide, by decide, by decide, by decide, by decide, ?_, ?_⟩, by decide⟩ <;>
    exact ⟨by decide, by decide, by decide, by decide⟩

/-- A part with domain 2 in FAULT, its flag set and the line low. -/
def faulted : Meas :=
  { calmPart with
    doms := calmPart.doms.set .d2 { DomRec.reset with verdict := .fault }, flags := 0x10, isoAlert := .low }

theorem witness_StepKeepsFlagsAndAlert : FlagsFollow faulted ∧ AlertFollows faulted := by
  refine ⟨fun f => ?_, ⟨fun _ => ⟨.d2, by decide⟩, fun _ => by decide⟩⟩
  cases f <;> decide

theorem witness_StepKeepsSuspendListDistinct :
    EntriesDistinct { calmPart with suspended := [suspendedAt 90000, { suspendedAt 95000 with members := 3, injector := .d1 }] } := by
  unfold EntriesDistinct; decide

theorem witness_StepKeepsPartition : PartitionFollows calmPart :=
  ⟨fun _ => ⟨topologyImage 0, 0, by decide⟩, fun h => absurd rfl h⟩

end Sys2Proof.Tests
end

section
/-! SUPPORT and PROOFS. The partition at every step (R12, R16, R20). -/

namespace Sys2Proof.Machine

/-! ### The partition is that of the resolved row -/

/-- The islands of a partition that follows its row have distinct member sets. -/
theorem PartitionFollows.parted {m : Meas} (h : PartitionFollows m) : Parted m := by
  by_cases hk : m.topo.state = .known
  · obtain ⟨img, r, -, -, -, hi⟩ := h.1 hk
    have hm := congrArg (List.map Prod.fst) hi
    simp only [List.map_map] at hm
    unfold Parted
    rw [show (fun i : Island => i.members) = Prod.fst ∘ fun i : Island => (i.members, i.injector, i.profile) from rfl, hm]
    exact partitionOf_nodup img r (fitted m)
  · simp [Parted, h.2 hk]

theorem partitionFollows_good : Good PartitionFollows := by
  intro m m' h hp
  have hs : m'.islands.map Island.shape = m.islands.map Island.shape := h.islands hp.parted
  refine ⟨fun hk => ?_, fun hk => ?_⟩
  · rw [h.topo] at hk ⊢
    rw [h.tables, h.toKept.fitted]
    obtain ⟨img, r, ht, hr, hst, hi⟩ := hp.1 hk
    exact ⟨img, r, ht, hr, hst, hs.trans hi⟩
  · rw [h.topo] at hk
    rw [hp.2 hk] at hs
    simpa using hs

/-- A state with no island that is not KNOWN. -/
theorem partitionFollows_of_unknown {m : Meas} (hk : m.topo.state ≠ .known) (hi : m.islands = []) : PartitionFollows m :=
  ⟨fun h => absurd h hk, fun _ => hi⟩

/-- Without positions or without a TOPOLOGY table the state is not KNOWN, and there is no island. -/
theorem PartitionFollows.unknown {m : Meas} (h : PartitionFollows m) (hn : m.tables.topology = none ∨ m.topo.stored = none) :
    m.topo.state ≠ .known ∧ m.islands = [] := by
  have hk : m.topo.state ≠ .known := fun hk => by
    obtain ⟨img, r, ht, -, hs, -⟩ := h.1 hk
    rcases hn with hn | hn <;> simp [hn] at ht hs
  exact ⟨hk, h.2 hk⟩

/-- A resolution against the active table leaves the islands of the row that it finds (R9, R16, R20). -/
theorem partitionFollows_resolve {b : Bool} {img : List Byte} {rp : Report} {m : Meas} (ht : m.tables.topology = some img)
    (hs : m.topo.stored.isSome = true) (hp : b = true → PartitionFollows m) : PartitionFollows (resolve b img rp m) := by
  obtain ⟨htopo, htab, -⟩ := kept_resolve_followed b img rp m
  have hfit : fitted (resolve b img rp m) = fitted m := by funext d; simp only [fitted, htab]
  have hislands := resolve_islands b img rp m
  dsimp only at htopo hislands
  unfold PartitionFollows
  rw [htopo, htab, hfit]
  cases hrow : (matchingRows img rp.positions rp.inlet).head? with
  | none =>
    have hnil : matchingRows img rp.positions rp.inlet = [] := List.head?_eq_none_iff.1 hrow
    refine ⟨fun hk => by simp [hnil] at hk, fun _ => ?_⟩
    rcases hislands with ⟨-, -, hne, -⟩ | hi
    · exact absurd hnil hne
    · simpa [hrow] using hi
  | some r =>
    have hne : matchingRows img rp.positions rp.inlet ≠ [] := fun h => by simp [h] at hrow
    refine ⟨fun _ => ⟨img, r, ht, rfl, hs, ?_⟩, fun hk => by simp [hne] at hk⟩
    rcases hislands with ⟨hb, hk, -, hr, hi⟩ | hi
    · obtain ⟨img', r', ht', hr', -, hi'⟩ := (hp hb).1 hk
      obtain rfl : img = img' := Option.some.inj (ht.symm.trans ht')
      obtain rfl : r = r' := Option.some.inj ((hrow.symm.trans hr.symm).trans hr')
      rw [hi]; exact hi'
    · rw [hrow] at hi; exact hi

theorem partitionFollows_takeTopo (positions : BitVec 16) (inlet : Nat) (m : Meas) (h : PartitionFollows m) :
    PartitionFollows (takeTopo positions inlet m) := by
  have hstored : PartitionFollows
      { m with topo := { m.topo with stored := some ⟨positions, min Config.inletMax inlet, m.timebase⟩ } } := by
    refine ⟨fun hk => ?_, h.2⟩
    obtain ⟨img, r, ht, hr, -, hi⟩ := h.1 hk
    exact ⟨img, r, ht, hr, rfl, hi⟩
  unfold takeTopo
  dsimp only
  split
  · rename_i img himg
    exact partitionFollows_resolve (by exact himg) rfl fun _ => hstored
  · exact hstored

theorem partitionFollows_becomeStale (m : Meas) : PartitionFollows (becomeStale m) := by
  obtain ⟨htopo, -, -, -, -, hi, -⟩ := becomeStale_spec m
  exact partitionFollows_of_unknown (by simp [htopo]) hi

theorem partitionFollows_activateTopology {img : List Byte} {m : Meas} (h : PartitionFollows m) :
    PartitionFollows (activateTopology img m) := by
  unfold activateTopology reresolve
  split
  · rename_i rp hrp
    split
    · exact partitionFollows_resolve rfl (by rw [hrp]; rfl) fun hb => absurd hb (by simp)
    · exact partitionFollows_becomeStale _
  · rename_i hn
    obtain ⟨hk, hi⟩ := h.unknown (.inr hn)
    exact partitionFollows_of_unknown hk hi

/-- A DOMAIN image that passes its validation fits the same domains while a TOPOLOGY table is active (R2, check 6). -/
theorem domFitted_of_validate {m : Meas} {img : List Byte} (h : validate m .domain img = none)
    (ht : m.tables.topology.isSome = true) (d : Dom) : domFitted img d = fitted m d := by
  simp only [validate, firstFailure, Option.map_eq_none_iff, List.find?_eq_none] at h
  have hd := h ⟨m.tables.topology.isNone || domFitted img d == fitted m d, d.number, 6⟩ (by
    simp only [domainChecks, List.mem_append, List.mem_map]
    exact .inl (.inr ⟨d, Dom.mem_all d, rfl⟩))
  simpa [Option.isNone_eq_false_iff.2 ht] using hd

theorem partitionFollows_activateDomain {img : List Byte} {m : Meas} (h : PartitionFollows m)
    (hv : validate m .domain img = none) : PartitionFollows (activateDomain img m) := by
  by_cases hk : m.topo.state = .known
  · refine ⟨fun _ => ?_, fun hn => absurd hk hn⟩
    obtain ⟨timg, r, ht, hr, hs, hi⟩ := h.1 hk
    have hfit : fitted (activateDomain img m) = fitted m :=
      funext fun d => (domFitted_of_validate hv (by rw [ht]; rfl) d)
    exact ⟨timg, r, ht, hr, hs, by rw [hfit]; exact hi⟩
  · exact partitionFollows_of_unknown hk (h.2 hk)

/-- An image that is activated has passed its validation (R172). -/
theorem validate_of_judgeImage {l : Load} {img : List Byte} {s : State} (h : (judgeImage l img s).1 = .ok) :
    validate s.meas l.table img = none := by
  unfold judgeImage at h
  split at h
  · cases h
  · split at h
    · cases h
    · assumption

theorem partitionFollows_activateMeas {t : TableId} {img : List Byte} {m : Meas} (hv : validate m t img = none)
    (h : PartitionFollows m) : PartitionFollows (activateMeas t img m) := by
  have htable : PartitionFollows (activateTable t img m) := by
    cases t with
    | domain => exact partitionFollows_activateDomain h hv
    | topology => exact partitionFollows_activateTopology h
    | cycle => exact h
    | limit => exact partitionFollows_good _ _ (sound_agingTests ..) h
    | forward => exact h
  refine partitionFollows_good _ _ (sound_raise .tableDone _) ?_
  split
  · exact partitionFollows_good _ _ (steady_endExpiredFormings _).sound htable
  · exact htable

/-- Settles O59 by `step_keeps`: each change a step makes resolves the row afresh, or keeps the table, the fitted set and the islands. -/
theorem stepKeepsPartition : Obligations.StepKeepsPartition := fun _ _ h hstep =>
  step_keeps partitionFollows_good
    (hreset := partitionFollows_of_unknown (by decide) rfl)
    (htopo := partitionFollows_takeTopo)
    (hstat := fun _ h => h)
    (hmask := fun _ _ h => h)
    (ha := fun _ _ _ hok => partitionFollows_activateMeas (validate_of_judgeImage hok))
    (hrestart := fun m _ => by
      obtain ⟨htopo, hi, -⟩ := restartMeas_spec m
      exact partitionFollows_of_unknown (by rw [htopo]; decide) hi)
    (hstale := fun m _ => partitionFollows_becomeStale m)
    (htick := fun _ _ h => h)
    h hstep

end Sys2Proof.Machine
end

section
/-! PROOFS. The resolver's functions: when a row matches (R8), the resolved row (R9), and the partition of a row (R12). -/

namespace Sys2Proof.Machine

/-! ### A row matches (R8) -/

/-- The positions that a row cares about and finds as it expects them. -/
def agreeing (img : List Byte) (positions : BitVec 16) (r : Nat) : BitVec 16 :=
  topoCare img r &&& ~~~(positions ^^^ topoExpected img r)

theorem getLsbD_agreeing {img : List Byte} {positions : BitVec 16} {r n : Nat} :
    (agreeing img positions r).getLsbD n = true ↔
      (n < 16 ∧ (topoCare img r).getLsbD n = true) ∧ positions.getLsbD n = (topoExpected img r).getLsbD n := by
  simp only [agreeing, BitVec.getLsbD_and, BitVec.getLsbD_not, BitVec.getLsbD_xor, Bool.and_eq_true, decide_eq_true_eq,
    Bool.not_eq_true', ← Bool.bne_eq_xor, bne_eq_false_iff_eq]
  tauto

/-- Every cared position agrees exactly when the agreeing ones are all the cared ones. -/
theorem agreeing_eq_care {img : List Byte} {positions : BitVec 16} {r : Nat} :
    agreeing img positions r = topoCare img r ↔
      ∀ n, (n < 16 ∧ (topoCare img r).getLsbD n = true) → positions.getLsbD n = (topoExpected img r).getLsbD n := by
  constructor
  · intro h n hn
    exact (getLsbD_agreeing.1 (h ▸ hn.2)).2
  · intro h
    apply BitVec.eq_of_getLsbD_eq
    intro n hn
    rw [Bool.eq_iff_iff, getLsbD_agreeing]
    exact ⟨fun hc => hc.1.2, fun hc => ⟨⟨hn, hc⟩, h n ⟨hn, hc⟩⟩⟩

theorem agreeing_ne_zero {img : List Byte} {positions : BitVec 16} {r : Nat} :
    agreeing img positions r ≠ 0 ↔
      ∃ n, (n < 16 ∧ (topoCare img r).getLsbD n = true) ∧ positions.getLsbD n = (topoExpected img r).getLsbD n := by
  simp only [← getLsbD_agreeing]
  constructor
  · intro h
    by_contra hn
    push Not at hn
    exact h (BitVec.eq_of_getLsbD_eq fun n _ => by simpa using hn n)
  · rintro ⟨n, hn⟩ h
    simp [h] at hn

/-- The inlet range of a row, when its flag asks for it. -/
theorem inletRange_iff {img : List Byte} {inlet r : Nat} :
    (topoInletFlag img r != 1 || (decide (topoInletLow img r ≤ inlet) && decide (inlet ≤ topoInletHigh img r))) = true ↔
      (topoInletFlag img r = 1 → topoInletLow img r ≤ inlet ∧ inlet ≤ topoInletHigh img r) := by
  by_cases h : topoInletFlag img r = 1 <;> simp [h]

/-- Settles O5. -/
theorem rowMatch : Obligations.RowMatch := by
  intro img positions inlet r cared agrees inRange
  have hrow : rowMatches img positions inlet r = true ↔
      (if topoKind img r = 0 then agreeing img positions r == topoCare img r else agreeing img positions r != 0) = true ∧
        inRange := by
    rw [show inRange ↔ _ from inletRange_iff.symm, ← Bool.and_eq_true]; rfl
  refine ⟨fun hk => ?_, fun hk => ?_⟩
  · rw [hrow, if_pos hk, beq_iff_eq, agreeing_eq_care]
  · rw [hrow, if_neg (by omega), bne_iff_ne, agreeing_ne_zero]

/-! ### The resolved row (R9) -/

theorem mem_searchOrder {img : List Byte} {r : Nat} : r ∈ searchOrder img ↔ r < topoRows img := by
  unfold searchOrder; dsimp only; split <;> simp

theorem mem_matchingRows {img : List Byte} {positions : BitVec 16} {inlet r : Nat} :
    r ∈ matchingRows img positions inlet ↔ r < topoRows img ∧ rowMatches img positions inlet r = true := by
  rw [matchingRows, List.mem_filter, mem_searchOrder]

/-- The head of an ordered list is related to every element. -/
theorem rel_head_of_pairwise {α : Type} {R : α → α → Prop} (hR : ∀ a, R a a) {l : List α} (h : l.Pairwise R) {a b : α}
    (ha : l.head? = some a) (hb : b ∈ l) : R a b := by
  cases l with
  | nil => simp at ha
  | cons c l =>
    obtain rfl : c = a := by simpa using ha
    rcases List.mem_cons.1 hb with rfl | hb
    · exact hR _
    · exact List.rel_of_pairwise_cons h hb

theorem searchOrder_up {img : List Byte} (h : topoOrder img = 0) : (searchOrder img).Pairwise (· ≤ ·) := by
  rw [searchOrder, if_pos h]; exact List.pairwise_le_range

theorem searchOrder_down {img : List Byte} (h : topoOrder img ≠ 0) : (searchOrder img).Pairwise (· ≥ ·) := by
  rw [searchOrder, if_neg h, List.pairwise_reverse]; exact List.pairwise_le_range

theorem searchOrder_perm (img : List Byte) : (searchOrder img).Perm (List.range (topoRows img)) := by
  unfold searchOrder; dsimp only; split
  · exact .refl _
  · exact List.reverse_perm _

/-- Settles O6. -/
theorem resolvedRow : Obligations.ResolvedRow := by
  intro img positions inlet hit rows
  have hmem : ∀ r, r ∈ rows ↔ hit r := fun r => mem_matchingRows
  refine ⟨fun r hr => ⟨(hmem r).1 (List.mem_of_head? hr), fun hup r' hr' => ?_, fun hdown r' hr' => ?_⟩, ?_, ?_⟩
  · exact rel_head_of_pairwise le_refl ((searchOrder_up hup).filter _) hr ((hmem r').2 hr')
  · exact rel_head_of_pairwise (R := (· ≥ ·)) le_refl ((searchOrder_down hdown).filter _) hr ((hmem r').2 hr')
  · rw [List.head?_eq_none_iff, List.eq_nil_iff_forall_not_mem]
    exact forall_congr' fun r => not_congr (hmem r)
  · rw [← (searchOrder_perm img).countP_eq, List.countP_eq_length_filter]; rfl

/-! ### The partition of a row (R12) -/

/-- What a partition says of one of its islands: it is led by the lowest domain of one label, and has its mates, its injector and the
row's profile. -/
theorem spec_of_mem_partitionOf {img : List Byte} {r : Nat} {fit : Dom → Bool} {p : IslandSpec} (h : p ∈ partitionOf img r fit) :
    ∃ d, fit d = true ∧ (members p.members).head? = some d ∧ p.members = labelMates img r fit d ∧
      p.injector = ((members p.members).find? (inSet (topoInjectors img r))).getD d ∧
      p.profile = (Profile.ofCode (topoProfile img r)).getD .park := by
  simp only [partitionOf, List.mem_map, List.mem_filter, Bool.and_eq_true, beq_iff_eq] at h
  obtain ⟨d, ⟨-, hfit, hd⟩, rfl⟩ := h
  exact ⟨d, hfit, hd, rfl, rfl, rfl⟩

/-- Every fitted domain has an island in the partition. -/
theorem exists_mem_partitionOf {img : List Byte} {r : Nat} {fit : Dom → Bool} {d : Dom} (h : fit d = true) :
    ∃ p ∈ partitionOf img r fit, inSet p.members d = true := by
  have hself : inSet (labelMates img r fit d) d = true := (inSet_labelMates ..).2 ⟨h, rfl⟩
  obtain ⟨e, he⟩ := members_head_exists hself
  obtain ⟨hfit, hlabel⟩ := (inSet_labelMates ..).1 (members_head he).1
  have hsame : labelMates img r fit e = labelMates img r fit d := labelMates_congr hlabel
  refine ⟨_, List.mem_map_of_mem (List.mem_filter.2 ⟨Dom.mem_all e, ?_⟩), ?_⟩
  · simp [hfit, hsame, he]
  · dsimp only; rw [hsame]; exact hself

/-- Two islands of one partition that share a domain are the same. -/
theorem partitionOf_disjoint {img : List Byte} {r : Nat} {fit : Dom → Bool} {p p' : IslandSpec} (hp : p ∈ partitionOf img r fit)
    (hp' : p' ∈ partitionOf img r fit) {d : Dom} (hd : inSet p.members d = true) (hd' : inSet p'.members d = true) : p' = p := by
  refine List.inj_on_of_nodup_map (partitionOf_nodup img r fit) hp' hp ?_
  obtain ⟨e, -, -, he, -⟩ := spec_of_mem_partitionOf hp
  obtain ⟨e', -, -, he', -⟩ := spec_of_mem_partitionOf hp'
  rw [he] at hd; rw [he'] at hd'
  exact (he'.trans (labelMates_congr (((inSet_labelMates ..).1 hd').2.symm.trans ((inSet_labelMates ..).1 hd).2))).trans he.symm

/-- An injector that is the one member in the row's injector set. -/
theorem injector_of_unique {ds inj : DomSet} {d e : Dom} (he : inSet ds e = true) (hi : inSet inj e = true)
    (hu : ∀ e', inSet ds e' = true → inSet inj e' = true → e' = e) : ((members ds).find? (inSet inj)).getD d = e := by
  obtain ⟨x, hx⟩ := Option.isSome_iff_exists.1 (List.find?_isSome.2 ⟨e, mem_members.2 he, hi⟩)
  rw [hx, Option.getD_some]
  exact hu x (mem_members.1 (List.mem_of_find?_eq_some hx)) (List.find?_some hx)

/-- The islands of a partition stand in ascending order of lowest member. -/
theorem partitionOf_ascending (img : List Byte) (r : Nat) (fit : Dom → Bool) :
    (partitionOf img r fit).Pairwise fun p p' =>
      ∃ d, inSet p.members d = true ∧ ∀ e, inSet p'.members e = true → d.index < e.index := by
  rw [partitionOf, List.pairwise_map]
  refine (Dom.all_pairwise.filter _).imp_of_mem fun {d e} hd he hlt => ?_
  simp only [List.mem_filter, Bool.and_eq_true, beq_iff_eq] at hd he
  exact ⟨d, (members_head hd.2.2).1, fun x hx => hlt.trans_le ((members_head he.2.2).2 x hx)⟩

/-- Settles O7. -/
theorem partitionOfRow : Obligations.PartitionOfRow := by
  intro img r fit
  refine ⟨fun d hd => ?_, fun p hp => ?_, fun p hp => ?_, ?_, partitionOf_ascending img r fit⟩
  · obtain ⟨p, hp, hin⟩ := exists_mem_partitionOf (r := r) hd
    exact ⟨p, hp, hin, fun p' hp' hin' => partitionOf_disjoint hp hp' hin hin'⟩
  · obtain ⟨d, hfit, hhead, hmates, -⟩ := spec_of_mem_partitionOf hp
    exact ⟨DomSet.ne_zero_of_mem (members_head hhead).1, d, hfit, fun e => by rw [hmates]; exact inSet_labelMates ..⟩
  · obtain ⟨d, -, -, -, hinj, hprofile⟩ := spec_of_mem_partitionOf hp
    refine ⟨fun e he hi hu => hinj.trans (injector_of_unique he hi hu), ?_⟩
    rw [hprofile]
    refine ⟨?_, ?_, ?_, ?_⟩ <;> intro hcode <;> rw [hcode] <;> rfl
  · rw [partitionOf, List.length_map]
    exact List.length_filter_le _ Dom.all

end Sys2Proof.Machine
end

section
/-! PROOFS. TOPO: what it stores and answers (R6, R7, R9, R10), and that it touches no island when it stays on its row (R15). -/

namespace Sys2Proof.Machine

/-! ### The command on a head request -/

/-- The report that a TOPO carries, as it is stored: positions, clamped inlet voltage, receipt time (R6). -/
def topoReport (q : Frame) (now : Time) : Report :=
  ⟨BitVec.ofNat 16 (nat16 q.payload 0), min Config.inletMax (nat16 q.payload 2), now⟩

/-- The measurement side after a TOPO. -/
def topoMeas (q : Frame) (m : Meas) : Meas := takeTopo (BitVec.ofNat 16 (nat16 q.payload 0)) (nat16 q.payload 2) m

/-- A TOPO whose frame heads the request buffer is taken and answered with what it leaves (R6, R7). -/
theorem exec_topo_of_head {q : Frame} {rest : List Frame} {s : State} (h : HeadRequest 0x10 4 1 q rest s) :
    ∃ t, exec .topo s = .next t ∧ OutputsMoved (answered q .ok (topoValues (topoMeas q s.meas))
      { taken rest s with meas := topoMeas q s.meas }) t := by
  have hone : responsesOf q s.meas = 1 := responses_one h.2.1 (by decide) (by decide)
  refine ⟨_, rfl, ?_⟩
  rw [takeRequest_of_head h hone.le (by decide) (by decide)]
  exact respond_both_moved (h.room one_pos)

theorem topoMeas_of_table {q : Frame} {m : Meas} {img : List Byte} (h : m.tables.topology = some img) :
    topoMeas q m = resolve true img (topoReport q m.timebase)
      { m with topo := { m.topo with stored := some (topoReport q m.timebase) } } := by
  unfold topoMeas takeTopo; dsimp only; rw [h]; rfl

theorem topoMeas_of_no_table {q : Frame} {m : Meas} (h : m.tables.topology = none) :
    topoMeas q m = { m with topo := { m.topo with stored := some (topoReport q m.timebase) } } := by
  unfold topoMeas takeTopo; dsimp only; rw [h]; rfl

/-- The topology record that a TOPO leaves (R6, R9, R10). -/
theorem topoMeas_topo {q : Frame} {m : Meas} {img : List Byte} (h : m.tables.topology = some img) :
    let rows := matchingRows img (topoReport q m.timebase).positions (topoReport q m.timebase).inlet
    (topoMeas q m).topo =
      ⟨some (topoReport q m.timebase), if rows = [] then .nomatch else .known, rows.head?, rows.length⟩ := by
  rw [topoMeas_of_table h, (kept_resolve_followed ..).1]

theorem topoMeas_tables (q : Frame) (m : Meas) : (topoMeas q m).tables = m.tables := by
  cases h : m.tables.topology with
  | none => rw [topoMeas_of_no_table h]
  | some img => rw [topoMeas_of_table h]; exact (kept_resolve_followed ..).2.1

theorem topoMeas_stored (q : Frame) (m : Meas) : (topoMeas q m).topo.stored = some (topoReport q m.timebase) := by
  cases h : m.tables.topology with
  | none => rw [topoMeas_of_no_table h]
  | some img => rw [topoMeas_topo h]

/-- A TOPO that finds no row sets TOPO_NOMATCH (R10, R160). -/
theorem topoMeas_nomatch {q : Frame} {m : Meas} {img : List Byte} (h : m.tables.topology = some img)
    (hn : (topoMeas q m).topo.state = .nomatch) : flagSet (topoMeas q m) .topoNomatch = true := by
  have hf : FlagsFollow (topoMeas q m) := by rw [topoMeas_of_table h]; exact (kept_resolve_followed ..).2.2.1
  exact hf .topoNomatch (by simp [conditionHolds, hn])

/-- The response is formed from the state that is left but for taps and held responses. -/
theorem responseFrame_congr {address kind tag : Byte} {st : Status} {values : List Byte} {u t : State} (h : OutputsMoved u t) :
    responseFrame address kind tag st values t.meas = responseFrame address kind tag st values u.meas := by
  rw [h.meas]; rfl

/-- A TOPO's response goes before the response of a claim that it grants (R159). -/
theorem outgoing_topo {q : Frame} {rest : List Frame} {s t : State} (h : HeadRequest 0x10 4 1 q rest s)
    (hmoved : OutputsMoved (answered q .ok (topoValues (topoMeas q s.meas)) { taken rest s with meas := topoMeas q s.meas }) t) :
    outgoing t = outgoing s ++ responseFrame 0 q.kind q.tag .ok (topoValues t.meas) t.meas :: (topoMeas q s.meas).heldResponses := by
  obtain ⟨-, -, -, hheld, -⟩ := h
  have htopo : t.meas.topo = (topoMeas q s.meas).topo := by rw [hmoved.meas]; rfl
  have hvalues : topoValues t.meas = topoValues (topoMeas q s.meas) := by simp only [topoValues, htopo]
  rw [hmoved.upstream, responseFrame_congr hmoved, hvalues]
  simp [outgoing, answered, taken, hheld]

/-- Settles O8. -/
theorem topoResolves : Obligations.TopoResolves := by
  intro s q rest hq rp
  obtain ⟨-, -, -, hheld, -⟩ := id hq
  obtain ⟨t, hexec, hmoved⟩ := exec_topo_of_head hq
  have htopo : t.meas.topo = (topoMeas q s.meas).topo := by rw [hmoved.meas]; rfl
  have hflag : ∀ f, flagSet t.meas f = flagSet (topoMeas q s.meas) f := fun f => hmoved.flagSet f
  refine ⟨t, (topoMeas q s.meas).heldResponses, hexec, htopo ▸ topoMeas_stored q s.meas, ?_, outgoing_topo hq hmoved, fun hc => ?_,
    hmoved.loader, hmoved.pending, ?_, ?_⟩
  · cases htab : s.meas.tables.topology with
    | none => dsimp only; rw [htopo, topoMeas_of_no_table htab]; rfl
    | some img =>
      dsimp only
      refine ⟨htopo.trans (topoMeas_topo htab), fun hnil => ?_, fun hmulti => ?_⟩
      · rw [hflag]
        exact topoMeas_nomatch htab (by rw [topoMeas_topo htab]; exact if_pos hnil)
      · rw [hflag, topoMeas_of_table htab]
        exact resolve_multi hmulti
  · exact (takeTopo_held hc).trans hheld
  · rw [hmoved.meas]; exact topoMeas_tables q s.meas
  · rw [hmoved.link]; rfl

/-- A resolution that stays KNOWN on its row changes the topology record, the flags and ISO_ALERT alone (R15). -/
theorem resolve_same_row {img : List Byte} {rp : Report} {m : Meas} (hk : m.topo.state = .known)
    (hne : matchingRows img rp.positions rp.inlet ≠ []) (hr : (matchingRows img rp.positions rp.inlet).head? = m.topo.row) :
    ∃ fl al, resolve true img rp m = { m with
      topo := { m.topo with
        state := .known, row := (matchingRows img rp.positions rp.inlet).head?
        count := (matchingRows img rp.positions rp.inlet).length }
      flags := fl, isoAlert := al } := by
  refine ⟨(resolve true img rp m).flags, (resolve true img rp m).isoAlert, ?_⟩
  have hst : (matchingRows img rp.positions rp.inlet).isEmpty = false := by simpa using hne
  unfold resolve
  dsimp only
  rw [hst, if_pos (by simp [hk, hr])]
  split <;> rfl

/-- Settles O9. -/
theorem topoSameRowTouchesNoIsland : Obligations.TopoSameRowTouchesNoIsland := by
  intro s q rest img hq rp rows htab hk hne hr
  obtain ⟨t, hexec, hmoved⟩ := exec_topo_of_head hq
  obtain ⟨fl, al, hres⟩ := resolve_same_row (rp := rp)
    (m := { s.meas with topo := { s.meas.topo with stored := some rp } }) hk hne hr
  have hmeas : topoMeas q s.meas = { s.meas with
      topo := ⟨some rp, .known, rows.head?, rows.length⟩, flags := fl, isoAlert := al } :=
    (topoMeas_of_table htab).trans hres
  rw [hmeas] at hmoved
  exact ⟨t, fl, al, hexec, hmoved⟩

end Sys2Proof.Machine
end

section
/-! SUPPORT. What the parts of a change of partition do: the drop of injectors and the dissolution of islands (R17, R121), the formation
of islands (R19, R24, R102), the aging tests (R82, R83) and the grant test (R98, R99). -/

namespace Sys2Proof.Machine

/-! ### The drop of injectors (R17, R121) -/

/-- No reference check keeps a tap from being dropped: it is not under check, or its check is still in PREEMPT. -/
def Droppable (m : Meas) (t : Dom) : Prop := ∀ c, m.ref = some c → c.tap = t → c.step = .preempt

/-- What the drop of a tap writes: rest, or the reference path under a check whose PREEMPT ends so. -/
def dropMailbox (m : Meas) (t : Dom) : Mailbox := if underRef m t then .refQuiet else .rest

/-- A check that has been switched to its reference path (R116). -/
def switchedCheck (now : Time) (c : RefCheck) : RefCheck :=
  { c with
    step := .cycle .quietSettle, acc := clearForSettle c.acc, plateauTimer := none, phaseTimer := some ⟨now, c.row.phaseTimeout⟩ }

/-- From `m` to `m'` the taps of `w` have been dropped, and no other tap has been written. -/
structure TapsDropped (w : Dom → Bool) (m m' : Meas) : Prop where
  timebase : m'.timebase = m.timebase
  ref : m'.ref = m.ref.map fun c => if c.step = .preempt ∧ w c.tap = true then switchedCheck m.timebase c else c
  claim : m'.claim = { m.claim with confirmed := m'.claim.confirmed }
  written : ∀ d, w d = true → Droppable m d →
    (m'.taps.get d).mailbox = dropMailbox m d ∧ (m'.taps.get d).ramp = none ∧ inSet m'.claim.confirmed d = false
  kept : ∀ d, ¬ (w d = true ∧ Droppable m d) →
    (m'.taps.get d).mailbox = (m.taps.get d).mailbox ∧ (m'.taps.get d).ramp = (m.taps.get d).ramp ∧
      inSet m'.claim.confirmed d = inSet m.claim.confirmed d

theorem underRef_of_none {m : Meas} (h : m.ref = none) (t : Dom) : underRef m t = false := by simp [underRef, h]

theorem underRef_of_some {m : Meas} {c : RefCheck} (h : m.ref = some c) (t : Dom) : underRef m t = (c.tap == t) := by
  simp [underRef, h]

theorem droppable_of_not_underRef {m : Meas} {t : Dom} (h : underRef m t = false) : Droppable m t := by
  intro c hc ht
  rw [underRef_of_some hc] at h
  simp [ht] at h

/-- One write drops the tap. -/
theorem tapsDropped_write {m : Meas} {t : Dom} {ρ : Option RefCheck} (hd : Droppable m t)
    (hρ : ρ = m.ref.map fun c => if c.step = .preempt ∧ (c.tap == t) = true then switchedCheck m.timebase c else c) :
    TapsDropped (· == t) m { writeMailbox t (dropMailbox m t) m with ref := ρ } where
  timebase := rfl
  ref := hρ
  claim := rfl
  written d hw _ := by
    obtain rfl : d = t := by simpa using hw
    refine ⟨?_, ?_, ?_⟩
    · simp [writeTap]
    · simp [writeTap]
    · simp [inSet_and, inSet_not, inSet_single]
  kept d hn := by
    have hne : d ≠ t := fun h => hn ⟨by simpa using h, h ▸ hd⟩
    simp [PerDom.get_set_of_ne _ _ hne, inSet_and, inSet_not, inSet_single, hne]

theorem tapsDropped_of_not_droppable {m : Meas} {t : Dom} (h : ¬ Droppable m t) : TapsDropped (· == t) m m where
  timebase := rfl
  ref := by
    unfold Droppable at h
    push Not at h
    obtain ⟨c, hc, -, hstep⟩ := h
    simp [hc, hstep]
  claim := rfl
  written d hw hd := absurd (by simpa using hw) (fun he : d = t => h (he ▸ hd))
  kept _ _ := ⟨rfl, rfl, rfl⟩

/-- The drop of a tap whose check is in PREEMPT switches the check to its reference path (R116, R121). -/
theorem dropInjector_of_preempt {m : Meas} {c : RefCheck} (hr : m.ref = some c) (hs : c.step = .preempt) :
    dropInjector c.tap m =
      { writeMailbox c.tap (dropMailbox m c.tap) m with ref := some (switchedCheck m.timebase c) } := by
  have hu : underRef m c.tap = true := by simp [underRef_of_some hr]
  simp only [dropInjector, endPreemptOn, dropMailbox, hu, hr, hs, beq_self_eq_true, Bool.and_self, if_true, switchToRef, refSettle,
    changeRef, writeMailbox_ref, Option.map_some]
  rfl

/-- A check past PREEMPT goes on (R121). -/
theorem dropInjector_of_past {m : Meas} {c : RefCheck} (hr : m.ref = some c) (hs : c.step ≠ .preempt) :
    dropInjector c.tap m = m := by
  simp [dropInjector, endPreemptOn, underRef_of_some hr, hr, hs]

theorem dropInjector_of_unchecked {m : Meas} {t : Dom} (h : underRef m t = false) :
    dropInjector t m = writeMailbox t (dropMailbox m t) m := by
  simp only [dropInjector, dropMailbox, h, Bool.false_eq_true, if_false]; rfl

theorem tapsDropped_dropInjector (t : Dom) (m : Meas) : TapsDropped (· == t) m (dropInjector t m) := by
  cases hu : underRef m t with
  | false =>
    rw [dropInjector_of_unchecked hu]
    refine tapsDropped_write (ρ := m.ref) (droppable_of_not_underRef hu) ?_
    cases hr : m.ref with
    | none => rfl
    | some c =>
      have hne : c.tap ≠ t := by simpa [underRef_of_some hr] using hu
      simp [hne]
  | true =>
    cases hr : m.ref with
    | none => simp [underRef_of_none hr] at hu
    | some c =>
      obtain rfl : c.tap = t := by simpa [underRef_of_some hr] using hu
      by_cases hs : c.step = .preempt
      · rw [dropInjector_of_preempt hr hs]
        exact tapsDropped_write (fun c' hc' _ => by rw [hr] at hc'; cases hc'; exact hs) (by simp [hr, hs])
      · rw [dropInjector_of_past hr hs]
        exact tapsDropped_of_not_droppable fun h => hs (h c hr rfl)

theorem TapsDropped.underRef {w : Dom → Bool} {m m' : Meas} (h : TapsDropped w m m') (d : Dom) :
    underRef m' d = Machine.underRef m d := by
  unfold Machine.underRef
  rw [h.ref]
  cases m.ref with
  | none => rfl
  | some c => simp only [Option.map_some]; split <;> rfl

/-- A tap that was not dropped is as droppable as before; a check that was switched is in PREEMPT no longer. -/
theorem TapsDropped.droppable_iff {w : Dom → Bool} {m m' : Meas} (h : TapsDropped w m m') (d : Dom) :
    Droppable m' d ↔ Droppable m d ∧ ¬ (Machine.underRef m d = true ∧ w d = true) := by
  unfold Droppable
  rw [h.ref]
  cases hr : m.ref with
  | none => simp [underRef_of_none hr]
  | some c =>
    by_cases hd : c.tap = d
    · subst hd
      by_cases hs : c.step = .preempt <;> by_cases hw : w c.tap = true <;>
        simp [underRef_of_some hr, hs, hw, switchedCheck]
    · have htap : (if c.step = .preempt ∧ w c.tap = true then switchedCheck m.timebase c else c).tap = c.tap := by split <;> rfl
      simp [underRef_of_some hr, hd, htap]

theorem TapsDropped.trans {w w' : Dom → Bool} {a b c : Meas} (h : TapsDropped w a b) (k : TapsDropped w' b c) :
    TapsDropped (fun d => w d || w' d) a c where
  timebase := k.timebase.trans h.timebase
  ref := by
    rw [k.ref, h.ref, h.timebase]
    cases a.ref with
    | none => rfl
    | some x =>
      by_cases hs : x.step = .preempt <;> by_cases hw : w x.tap = true <;> simp [hs, hw, switchedCheck]
  claim := by rw [k.claim, h.claim]
  written d hd hdrop := by
    have hbox : dropMailbox b d = dropMailbox a d := by simp [dropMailbox, h.underRef]
    by_cases hk : w' d = true ∧ Droppable b d
    · rw [← hbox]; exact k.written d hk.1 hk.2
    · have hw : w d = true := by
        by_contra hw
        refine hk ⟨by simpa [hw] using hd, (h.droppable_iff d).2 ⟨hdrop, fun hx => hw hx.2⟩⟩
      obtain ⟨hm, hr, hc⟩ := h.written d hw hdrop
      obtain ⟨km, kr, kc⟩ := k.kept d hk
      exact ⟨km.trans hm, kr.trans hr, kc.trans hc⟩
  kept d hn := by
    have hh : ¬ (w d = true ∧ Droppable a d) := fun hx => hn ⟨by simp [hx.1], hx.2⟩
    have hk : ¬ (w' d = true ∧ Droppable b d) := fun hx => hn ⟨by simp [hx.1], ((h.droppable_iff d).1 hx.2).1⟩
    obtain ⟨hm, hr, hc⟩ := h.kept d hh
    obtain ⟨km, kr, kc⟩ := k.kept d hk
    exact ⟨km.trans hm, kr.trans hr, kc.trans hc⟩

/-! ### The dissolution of islands (R17) -/

theorem tapsDropped_dissolveIsland (m : Meas) (i : Island) : TapsDropped (· == i.injector) m (dissolveIsland m i) := by
  have h := tapsDropped_dropInjector i.injector m
  exact ⟨h.timebase, h.ref, h.claim, h.written, h.kept⟩

/-- Islands dissolved one after another: their injectors are dropped. -/
theorem tapsDropped_dissolve (l : List Island) (m : Meas) :
    TapsDropped (fun d => l.any fun i => d == i.injector) m (l.foldl dissolveIsland m) := by
  induction l generalizing m with
  | nil => exact ⟨rfl, by simp, rfl, fun d hd => by simp at hd, fun d _ => ⟨rfl, rfl, rfl⟩⟩
  | cons i l ih =>
    rw [List.foldl_cons]
    exact (tapsDropped_dissolveIsland m i).trans (ih _)

theorem dissolveIsland_islands (m : Meas) (i : Island) :
    (dissolveIsland m i).islands = m.islands.filter fun j => j.members != i.members := by
  have h : (dropInjector i.injector m).islands = m.islands := by
    unfold dropInjector endPreemptOn; (repeat' split) <;> rfl
  show (dropInjector i.injector m).islands.filter _ = _
  rw [h]

theorem dissolveIsland_suspended (m : Meas) (i : Island) :
    (dissolveIsland m i).suspended = m.suspended.filter fun e => e.members != i.members := by
  have h : (dropInjector i.injector m).suspended = m.suspended := by
    unfold dropInjector endPreemptOn; (repeat' split) <;> rfl
  show (dropInjector i.injector m).suspended.filter _ = _
  rw [h]

theorem mem_dissolve_islands {l : List Island} {m : Meas} {j : Island} :
    j ∈ (l.foldl dissolveIsland m).islands ↔ j ∈ m.islands ∧ ∀ i ∈ l, j.members ≠ i.members := by
  induction l generalizing m with
  | nil => simp
  | cons i l ih => simp [ih, dissolveIsland_islands, and_assoc]

theorem mem_dissolve_suspended {l : List Island} {m : Meas} {e : SuspendEntry} :
    e ∈ (l.foldl dissolveIsland m).suspended ↔ e ∈ m.suspended ∧ ∀ i ∈ l, e.members ≠ i.members := by
  induction l generalizing m with
  | nil => simp
  | cons i l ih => simp [ih, dissolveIsland_suspended, and_assoc]

/-- Updates that each reset the runs of one set of domains reset those of every domain in one of the sets. -/
theorem foldl_resets {α : Type} {f : Meas → α → Meas} {ds : α → DomSet}
    (hf : ∀ m a, (f m a).doms = (resetMemberRuns (ds a) m).doms) (l : List α) (m : Meas) (d : Dom) :
    (l.foldl f m).doms.get d = if ∃ a ∈ l, inSet (ds a) d = true then resetRuns (m.doms.get d) else m.doms.get d := by
  induction l generalizing m with
  | nil => simp
  | cons a l ih =>
    rw [List.foldl_cons, ih, hf, resetMemberRuns_doms, PerDom.get_mapWith]
    by_cases ha : inSet (ds a) d = true <;> by_cases hl : ∃ a ∈ l, inSet (ds a) d = true <;> simp [ha, hl, resetRuns]

theorem dissolveIsland_doms (m : Meas) (i : Island) : (dissolveIsland m i).doms = (resetMemberRuns i.members m).doms := by
  have h := (steady_dropInjector i.injector m).domsEq
  simp only [dissolveIsland, resetMemberRuns_doms, dropEntry_doms, h]

/-! ### The aging tests (R82, R83) -/

theorem agingTest_get (d e : Dom) (m : Meas) :
    (agingTest e m).doms.get d = if d = e ∧ agingDue m d = true then moveVerdict .unknown (m.doms.get d) else m.doms.get d := by
  have hput : ∀ r, (putVerdict e r m).doms = m.doms.set e r := by
    intro r; unfold putVerdict; dsimp only; split <;> rfl
  unfold agingTest
  split
  · rename_i hdue
    rw [hput, PerDom.get_set]
    by_cases h : d = e
    · subst h; simp [hdue]
    · simp [h]
  · rename_i hdue
    rw [if_neg]
    rintro ⟨rfl, h⟩; exact hdue h

/-- An aging test of one domain leaves whether another's is due. -/
theorem agingDue_agingTest {d e : Dom} (h : d ≠ e) (m : Meas) : agingDue (agingTest e m) d = agingDue m d := by
  have hget : (agingTest e m).doms.get d = m.doms.get d := by rw [agingTest_get, if_neg (fun hx => h hx.1)]
  have hj := judging_agingTest e m
  unfold agingDue
  rw [hget]
  rw [hj]
  rfl

theorem agingTests_get {ds : List Dom} (h : ds.Nodup) (m : Meas) (d : Dom) :
    (agingTests ds m).doms.get d =
      if d ∈ ds ∧ agingDue m d = true then moveVerdict .unknown (m.doms.get d) else m.doms.get d := by
  unfold agingTests
  induction ds generalizing m with
  | nil => simp
  | cons e ds ih =>
    obtain ⟨he, hds⟩ := List.nodup_cons.1 h
    rw [List.foldl_cons, ih hds, agingTest_get]
    by_cases hd : d = e
    · subst hd; simp [he]
    · simp [hd, agingDue_agingTest hd]

theorem mem_agingTouched {b a : Meas} {d : Dom} : d ∈ agingTouched b a ↔
    (inSet (coveredSet b) d = true ∧ inSet (coveredSet a) d = false) ∨ profileInForce b d ≠ profileInForce a d := by
  simp [agingTouched, held]

theorem agingTouched_nodup (b a : Meas) : (agingTouched b a).Nodup := Dom.all_nodup.filter _

/-! ### The grant test (R98, R99) -/

/-- The grant test arms, and leaves the claim's state and the islands; or it grants a claim in HANDOFF. -/
theorem claimCheck_outcome (m : Meas) :
    (claimCheck m = armClaim m ∧ ¬ (m.claim.state = .handoff ∧ (armClaim m).claim.armed = true ∧ allConfirmed m = true)) ∨
    (claimCheck m = grantWith .ok (armClaim m) ∧ m.claim.state = .handoff ∧ (armClaim m).claim.armed = true ∧
      allConfirmed m = true) := by
  have hall : allConfirmed (armClaim m) = allConfirmed m := by
    unfold armClaim; split <;> rfl
  have hst : (armClaim m).claim.state = m.claim.state := by rw [armClaim_eq]
  unfold claimCheck
  simp only [hall, hst]
  split
  · rename_i h
    simp only [Bool.and_eq_true, beq_iff_eq] at h
    exact .inr ⟨rfl, h.1.1, h.1.2, h.2⟩
  · rename_i h
    simp only [Bool.and_eq_true, beq_iff_eq] at h
    exact .inl ⟨rfl, fun hx => h ⟨⟨hx.1, hx.2.1⟩, hx.2.2⟩⟩

/-- Every covered tap that is PRESENT is among the confirmed ones (R99). -/
theorem allConfirmed_iff (m : Meas) : allConfirmed m = true ↔
    ∀ d, inSet (coveredSet m) d = true → isPresent m d = true → inSet m.claim.confirmed d = true := by
  simp only [allConfirmed, List.all_eq_true, mem_members, Bool.or_eq_true, Bool.not_eq_true']
  refine forall₂_congr fun d _ => ?_
  cases isPresent m d <;> simp

/-- With a claim the test is armed, or no covered mailbox holds it back and it is armed now (R98). -/
theorem armClaim_armed {m : Meas} (h : m.claim.state ≠ .none) : (armClaim m).claim.armed = true ↔
    m.claim.armed = true ∨ ∀ d, inSet (coveredSet m) d = true → (m.taps.get d).mailbox.clearOfDomain = true := by
  simp [armClaim, h]

theorem grantWith_claim (st : Status) (m : Meas) : (grantWith st m).claim = { m.claim with state := .granted } := by
  unfold grantWith deferXclaim; dsimp only; (repeat' split) <;> rfl

theorem grantWith_pendXclaim (st : Status) (m : Meas) : (grantWith st m).pendXclaim = none := by
  unfold grantWith deferXclaim
  dsimp only
  split
  · assumption
  · rfl

theorem grantWith_handoffDone (st : Status) (m : Meas) : flagSet (grantWith st m) .handoffDone = true := by
  have hflags : (grantWith st m).flags = m.flags ||| Flag.handoffDone.word := by
    unfold grantWith deferXclaim; dsimp only; (repeat' split) <;> rfl
  simp [flagSet, hflags, Flag.word, Flag.bit]

/-- The grant test changes of the claim record its arming, and its state when it grants. -/
theorem claimCheck_claim (m : Meas) :
    (claimCheck m).claim = { m.claim with state := (claimCheck m).claim.state, armed := (armClaim m).claim.armed } := by
  rcases claimCheck_outcome m with ⟨h, -⟩ | ⟨h, -⟩ <;> rw [h]
  · rw [armClaim_eq]
  · rw [grantWith_claim, armClaim_eq]

end Sys2Proof.Machine
end

section
/-! PROOFS. The dissolution of every island (R17, R20, R103, R121), and the freshness expiry that makes it (R11). -/

namespace Sys2Proof.Machine

/-! ### The tests at the end of a change of partition -/

/-- The aging and grant tests at the end of a change of partition leave the taps, the reference check, the suspend list, and all else that
neither of them speaks of. -/
theorem changePartition_after (b : Meas) (parts : List IslandSpec) (m : Meas) :
    changePartition b parts m = { rearrange b parts m with
      doms := (agingTests (agingTouched b (rearrange b parts m)) (rearrange b parts m)).doms
      flags := (changePartition b parts m).flags, isoAlert := (changePartition b parts m).isoAlert
      claim := (changePartition b parts m).claim, islands := (changePartition b parts m).islands
      pendXclaim := (changePartition b parts m).pendXclaim, heldResponses := (changePartition b parts m).heldResponses } := by
  have h := claimCheck_eq (agingTests (agingTouched b (rearrange b parts m)) (rearrange b parts m))
  have hj := judging_agingTests (agingTouched b (rearrange b parts m)) (rearrange b parts m)
  rw [changePartition_eq, h]
  generalize claimCheck _ = x at *
  rw [hj]

/-- The records of a domain after a change of partition (R82, R83). -/
theorem changePartition_doms (b : Meas) (parts : List IslandSpec) (m : Meas) (d : Dom) :
    (changePartition b parts m).doms.get d =
      if d ∈ agingTouched b (rearrange b parts m) ∧ agingDue (rearrange b parts m) d = true
        then moveVerdict .unknown ((rearrange b parts m).doms.get d) else (rearrange b parts m).doms.get d := by
  rw [changePartition_after]
  exact agingTests_get (agingTouched_nodup ..) _ d

/-- When the aging expiry of a domain is due (R82). -/
theorem agingDue_iff (m : Meas) (d : Dom) : agingDue m d = true ↔
    ((m.doms.get d).verdict = .ok ∨ (m.doms.get d).verdict = .warn) ∧ inSet (coveredSet m) d = false ∧
      ∃ n l, (m.doms.get d).newest = some n ∧ limitsOf m d (profileInForce m d) = some l ∧
        l.maxAge * 1000 < (m.timebase - n.time).toNat := by
  simp only [agingDue, held, Bool.and_eq_true, Bool.or_eq_true, beq_iff_eq, Bool.not_eq_true', and_assoc]
  refine and_congr_right fun _ => and_congr_right fun _ => ?_
  cases (m.doms.get d).newest with
  | none => simp
  | some n =>
    cases limitsOf m d (profileInForce m d) with
    | none => simp
    | some l => exact decide_eq_true_iff.trans ⟨fun h => ⟨n, l, rfl, rfl, h⟩, by rintro ⟨_, _, ⟨⟩, ⟨⟩, h⟩; exact h⟩

/-- The grant test leaves the claim's state, or grants a claim in HANDOFF. -/
theorem claimCheck_state (m : Meas) : (claimCheck m).claim.state = m.claim.state ∨
    (m.claim.state = .handoff ∧ (claimCheck m).claim.state = .granted) := by
  rcases claimCheck_outcome m with ⟨h, -⟩ | ⟨h, hs, -⟩ <;> rw [h]
  · rw [armClaim_eq]; exact .inl rfl
  · rw [grantWith_claim]; exact .inr ⟨hs, rfl⟩

/-- What a change of partition leaves of the claim record: its arming and its state follow the grant test. -/
theorem changePartition_claim (b : Meas) (parts : List IslandSpec) (m : Meas) :
    (changePartition b parts m).claim = { (rearrange b parts m).claim with
      state := (changePartition b parts m).claim.state, armed := (changePartition b parts m).claim.armed } := by
  have hj := judging_agingTests (agingTouched b (rearrange b parts m)) (rearrange b parts m)
  rw [changePartition_eq, claimCheck_claim]
  rw [hj]

theorem changePartition_state (b : Meas) (parts : List IslandSpec) (m : Meas) :
    (changePartition b parts m).claim.state = m.claim.state ∨
    (m.claim.state = .handoff ∧ (changePartition b parts m).claim.state = .granted) := by
  have hj := judging_agingTests (agingTouched b (rearrange b parts m)) (rearrange b parts m)
  have hs : (agingTests (agingTouched b (rearrange b parts m)) (rearrange b parts m)).claim.state = m.claim.state := by
    rw [hj, (rearranged_rearrange b parts m).claim]
  rw [changePartition_eq, ← hs]
  exact claimCheck_state _

/-- Without a claim in HANDOFF no XCLAIM is answered. -/
theorem changePartition_pendXclaim (b : Meas) (parts : List IslandSpec) {m : Meas} (h : m.claim.state ≠ .handoff) :
    (changePartition b parts m).pendXclaim = m.pendXclaim := by
  have hr := rearranged_rearrange b parts m
  have hj := judging_agingTests (agingTouched b (rearrange b parts m)) (rearrange b parts m)
  rw [changePartition_eq]
  rcases claimCheck_outcome (agingTests (agingTouched b (rearrange b parts m)) (rearrange b parts m)) with ⟨hc, -⟩ | ⟨-, hs, -⟩
  · rw [hc, armClaim_eq, hj]; exact hr.pendXclaim
  · rw [hj, hr.claim] at hs; exact absurd hs h

/-! ### Every island dissolved, up to those tests -/

/-- A state whose topology record, flags and ISO_ALERT are changed: what a change of partition starts from. -/
def reclassified (tp : Topo) (fl : BitVec 32) (al : AlertLine) (m : Meas) : Meas :=
  { m with topo := tp, flags := fl, isoAlert := al }

/-- A state rearranged to the partition of no island. -/
def dissolved (tp : Topo) (fl : BitVec 32) (al : AlertLine) (b : Meas) : Meas := rearrange b [] (reclassified tp fl al b)

section

variable {b : Meas} {tp : Topo} {fl : BitVec 32} {al : AlertLine}

theorem dissolved_eq : dissolved tp fl al b =
    trimConfirmed { b.islands.foldl dissolveIsland (reclassified tp fl al b) with islands := [], suspended := [] } := by
  have hgone : b.islands.filter (fun i => !isContinued [] i) = b.islands := by simp [isContinued]
  unfold dissolved rearrange discardStrayEntries
  dsimp only
  rw [hgone]
  simp [placeIslands]

theorem rearranged_dissolved : Rearranged (reclassified tp fl al b) (dissolved tp fl al b) := rearranged_rearrange ..

theorem dissolutionWrites_iff {d : Dom} :
    dissolutionWrites b d ↔ (b.islands.any fun i => d == i.injector) = true ∧ Droppable b d := by
  have h : (b.islands.any fun i => d == i.injector) = true ↔ ∃ i ∈ b.islands, i.injector = d := by
    simp only [List.any_eq_true, beq_iff_eq, @eq_comm _ d]
  rw [h]; rfl

theorem tapsDropped_all (tp : Topo) (fl : BitVec 32) (al : AlertLine) (b : Meas) :
    TapsDropped (fun d => b.islands.any fun i => d == i.injector) (reclassified tp fl al b)
      (b.islands.foldl dissolveIsland (reclassified tp fl al b)) := tapsDropped_dissolve _ _

theorem dissolved_written {d : Dom} (h : dissolutionWrites b d) :
    ((dissolved tp fl al b).taps.get d).mailbox = dropMailbox b d ∧ ((dissolved tp fl al b).taps.get d).ramp = none := by
  obtain ⟨hw, hd⟩ := dissolutionWrites_iff.1 h
  obtain ⟨hm, hr, -⟩ := (tapsDropped_all tp fl al b).written d hw hd
  rw [dissolved_eq]
  exact ⟨hm, hr⟩

theorem dissolved_kept {d : Dom} (h : ¬ dissolutionWrites b d) :
    ((dissolved tp fl al b).taps.get d).mailbox = (b.taps.get d).mailbox ∧
    ((dissolved tp fl al b).taps.get d).ramp = (b.taps.get d).ramp := by
  obtain ⟨hm, hr, -⟩ := (tapsDropped_all tp fl al b).kept d (mt dissolutionWrites_iff.2 h)
  rw [dissolved_eq]
  exact ⟨hm, hr⟩

theorem dissolved_ref : (dissolved tp fl al b).ref =
    b.ref.map fun c => if c.step = .preempt ∧ (b.islands.any fun i => c.tap == i.injector) = true
      then switchedCheck b.timebase c else c := by
  rw [dissolved_eq]
  exact (tapsDropped_all tp fl al b).ref

theorem dissolved_claim : (dissolved tp fl al b).claim = { b.claim with confirmed := (dissolved tp fl al b).claim.confirmed } := by
  have h := (tapsDropped_all tp fl al b).claim
  rw [dissolved_eq]
  unfold trimConfirmed
  rw [changeClaim_claim]
  dsimp only
  rw [h]; rfl

theorem dissolved_doms (d : Dom) : (dissolved tp fl al b).doms.get d =
    if ∃ i ∈ b.islands, inSet i.members d = true then resetRuns (b.doms.get d) else b.doms.get d := by
  rw [dissolved_eq]
  exact foldl_resets dissolveIsland_doms b.islands _ d

/-- A domain that no island holds is under PARK (R13). -/
theorem profileInForce_dissolved (d : Dom) : profileInForce (dissolved tp fl al b) d = .park := by
  rw [dissolved_eq]; rfl

/-- What a claim covers outside KNOWN (R93). -/
theorem inSet_coveredSet_of_unknown {m : Meas} (h : m.topo.state ≠ .known) (d : Dom) :
    inSet (coveredSet m) d = (decide (m.claim.state ≠ .none) && fitted m d) := by
  unfold coveredSet
  by_cases hc : m.claim.state = .none <;> simp [hc, h, fittedSet]

theorem dissolved_covered (hk : tp.state ≠ .known) (d : Dom) :
    inSet (coveredSet (dissolved tp fl al b)) d = (decide (b.claim.state ≠ .none) && fitted b d) := by
  have hr := rearranged_dissolved (b := b) (tp := tp) (fl := fl) (al := al)
  rw [inSet_coveredSet_of_unknown (by rw [hr.topo]; exact hk), hr.fitted, hr.claim]; rfl

/-- A dropped tap is confirmed no longer, nor is one that left the covered set (R98, R102). -/
theorem dissolved_confirmed (d : Dom) :
    inSet (dissolved tp fl al b).claim.confirmed d = true ↔
      inSet (coveredSet (dissolved tp fl al b)) d = true ∧ inSet b.claim.confirmed d = true ∧ ¬ dissolutionWrites b d := by
  have htrim : (dissolved tp fl al b).claim.confirmed =
      (b.islands.foldl dissolveIsland (reclassified tp fl al b)).claim.confirmed &&& coveredSet (dissolved tp fl al b) := by
    rw [dissolved_eq]; rfl
  rw [htrim, inSet_and, Bool.and_eq_true, and_comm]
  refine and_congr_right fun _ => ?_
  by_cases hw : dissolutionWrites b d
  · obtain ⟨hany, hd⟩ := dissolutionWrites_iff.1 hw
    simp [((tapsDropped_all tp fl al b).written d hany hd).2.2, hw]
  · rw [((tapsDropped_all tp fl al b).kept d (mt dissolutionWrites_iff.2 hw)).2.2]
    simp only [hw, not_false_eq_true, and_true]; rfl

/-- A mailbox holds the grant test back no longer once it is dropped (R98). -/
theorem dissolved_clearOfDomain (d : Dom) : ((dissolved tp fl al b).taps.get d).mailbox.clearOfDomain = true ↔
    dissolutionWrites b d ∨ (((b.taps.get d).mailbox.level = 0 ∨ (b.taps.get d).mailbox.path = .ref) ∧
      (b.taps.get d).mailbox.balance = .floating) := by
  by_cases hw : dissolutionWrites b d
  · rw [(dissolved_written hw).1, dropMailbox]
    simp only [hw, true_or, iff_true]
    split <;> decide
  · rw [(dissolved_kept hw).1]
    simp [hw, Mailbox.clearOfDomain]

/-! ### Every island dissolved -/

/-- The verdicts that lapse are those whose aging test is made and due (R82, R83). -/
theorem lapses_iff {m' : Meas}
    (hcov : ∀ d, inSet (coveredSet m') d = inSet (coveredSet (dissolved tp fl al b)) d) (d : Dom) :
    d ∈ agingTouched b (dissolved tp fl al b) ∧ agingDue (dissolved tp fl al b) d = true ↔ lapsesAtDissolution b m' d := by
  have hr := rearranged_dissolved (b := b) (tp := tp) (fl := fl) (al := al)
  have hlimits : limitsOf (dissolved tp fl al b) d .park = limitsOf b d .park := by rw [limitsOf, hr.tables]; rfl
  have hnewest : ((dissolved tp fl al b).doms.get d).newest = (b.doms.get d).newest := by rw [hr.doms d]; rfl
  have hverdict : ((dissolved tp fl al b).doms.get d).verdict = (b.doms.get d).verdict := hr.verdict d
  have htime : (dissolved tp fl al b).timebase = b.timebase := hr.timebase
  rw [mem_agingTouched, agingDue_iff, profileInForce_dissolved, hlimits, hnewest, hverdict, htime]
  unfold lapsesAtDissolution
  dsimp only
  rw [hcov d]
  tauto

/-- R98, R99, R103: the grant test on a state whose islands are all dissolved. -/
theorem grant_of_dissolved (hk : tp.state ≠ .known) (hs : b.claim.state = .handoff) :
    let m' := changePartition b [] (reclassified tp fl al b)
    (m'.claim.armed = true ↔ b.claim.armed = true ∨ ∀ d, fitted b d = true →
      dissolutionWrites b d ∨ (((b.taps.get d).mailbox.level = 0 ∨ (b.taps.get d).mailbox.path = .ref) ∧
        (b.taps.get d).mailbox.balance = .floating)) ∧
    ((m'.claim.armed = true ∧ ∀ d, fitted b d = true → isPresent b d = true → inSet m'.claim.confirmed d = true) →
      m'.claim.state = .granted ∧ m'.pendXclaim = none ∧ flagSet m' .handoffDone = true) ∧
    (¬ (m'.claim.armed = true ∧ ∀ d, fitted b d = true → isPresent b d = true → inSet m'.claim.confirmed d = true) →
      m'.claim.state = .handoff ∧ m'.pendXclaim = b.pendXclaim) := by
  intro m'
  have hr := rearranged_dissolved (b := b) (tp := tp) (fl := fl) (al := al)
  set a := agingTests (agingTouched b (dissolved tp fl al b)) (dissolved tp fl al b) with ha
  have hj : Judging (dissolved tp fl al b) a := judging_agingTests ..
  have hclaim : a.claim = (dissolved tp fl al b).claim := by rw [hj]
  have hcov : ∀ d, inSet (coveredSet a) d = fitted b d := fun d => by
    rw [show coveredSet a = coveredSet (dissolved tp fl al b) by rw [hj]; rfl, dissolved_covered hk, hs]; rfl
  have hpresent : ∀ d, isPresent a d = isPresent b d := fun d => by
    rw [show isPresent a d = isPresent (dissolved tp fl al b) d by rw [hj]; rfl, hr.isPresent]; rfl
  have hstate : a.claim.state = .handoff := by rw [hclaim, hr.claim]; exact hs
  have hpend : a.pendXclaim = b.pendXclaim := by rw [hj]; exact hr.pendXclaim
  have hm : m' = claimCheck a := rfl
  have harmed : m'.claim.armed = (armClaim a).claim.armed := by rw [hm, claimCheck_claim]
  have hconfirmed : m'.claim.confirmed = a.claim.confirmed := by rw [hm, claimCheck_claim]
  have hall : allConfirmed a = true ↔
      ∀ d, fitted b d = true → isPresent b d = true → inSet m'.claim.confirmed d = true := by
    simp only [allConfirmed_iff, hcov, hpresent, hconfirmed]
  refine ⟨?_, ?_⟩
  · rw [harmed, armClaim_armed (by rw [hstate]; decide), hclaim, dissolved_claim]
    refine or_congr Iff.rfl (forall_congr' fun d => ?_)
    rw [hcov, show a.taps = (dissolved tp fl al b).taps by rw [hj], dissolved_clearOfDomain]
  · rw [← hall, harmed]
    rcases claimCheck_outcome a with ⟨h, hn⟩ | ⟨h, -, h1, h2⟩
    · refine ⟨fun hx => absurd ⟨hstate, hx⟩ hn, fun _ => ?_⟩
      rw [hm, h, armClaim_eq]
      exact ⟨hstate, hpend⟩
    · refine ⟨fun _ => ?_, fun hx => absurd ⟨h1, h2⟩ hx⟩
      rw [hm, h]
      exact ⟨by rw [grantWith_claim], grantWith_pendXclaim .., grantWith_handoffDone ..⟩

/-- A change to the partition of no island, in a state that is not KNOWN, dissolves every island (R17, R20, R103, R121). -/
theorem islandsDissolved_changePartition (hk : tp.state ≠ .known) :
    IslandsDissolved b (changePartition b [] (reclassified tp fl al b)) := by
  have hr := rearranged_dissolved (b := b) (tp := tp) (fl := fl) (al := al)
  set m' := changePartition b [] (reclassified tp fl al b) with hm'
  have hafter := changePartition_after b [] (reclassified tp fl al b)
  rw [← hm', show rearrange b [] (reclassified tp fl al b) = dissolved tp fl al b from rfl] at hafter
  have htaps : m'.taps = (dissolved tp fl al b).taps := by rw [hafter]
  have href : m'.ref = (dissolved tp fl al b).ref := by rw [hafter]
  have hkept : Kept (reclassified tp fl al b) m' := kept_changePartition ..
  have hislands : m'.islands = [] := by
    have := changePartition_shape b [] (reclassified tp fl al b) (by simp)
    simpa using this
  have hclaim : m'.claim = { b.claim with
      state := m'.claim.state, armed := m'.claim.armed, confirmed := (dissolved tp fl al b).claim.confirmed } := by
    have h := changePartition_claim b [] (reclassified tp fl al b)
    rw [← hm', show rearrange b [] (reclassified tp fl al b) = dissolved tp fl al b from rfl, dissolved_claim] at h
    exact h
  have hstate : m'.claim.state = b.claim.state ∨ (b.claim.state = .handoff ∧ m'.claim.state = .granted) :=
    changePartition_state ..
  have hcovered : ∀ d, inSet (coveredSet m') d = inSet (coveredSet (dissolved tp fl al b)) d := fun d => by
    rw [dissolved_covered hk, inSet_coveredSet_of_unknown (by rw [hkept.topo]; exact hk), hkept.fitted]
    have : m'.claim.state = .none ↔ b.claim.state = .none := by
      rcases hstate with h | ⟨h, h'⟩
      · rw [h]
      · rw [h, h']; decide
    simp only [ne_eq, this]; rfl
  have hlapsed : ∀ d, lapsesAtDissolution b m' d →
      m'.doms.get d = moveVerdict .unknown ((dissolved tp fl al b).doms.get d) := fun d h =>
    (changePartition_doms ..).trans (if_pos ((lapses_iff hcovered d).2 h))
  have hstays : ∀ d, ¬ lapsesAtDissolution b m' d → m'.doms.get d = (dissolved tp fl al b).doms.get d := fun d h =>
    (changePartition_doms ..).trans (if_neg (mt (lapses_iff hcovered d).1 h))
  exact {
    islands := hislands
    suspended := by rw [hafter, dissolved_eq]; rfl
    dropped := fun d hw hu => by
      rw [htaps, (dissolved_written hw).1, (dissolved_written hw).2, dropMailbox, hu]; exact ⟨rfl, rfl⟩
    switched := fun c hc hs hi => by
      have hw : dissolutionWrites b c.tap := ⟨hi, fun c' hc' _ => by rw [hc] at hc'; cases hc'; exact hs⟩
      have hany := (dissolutionWrites_iff.1 hw).1
      rw [htaps, (dissolved_written hw).1, (dissolved_written hw).2, href, dissolved_ref, hc, dropMailbox,
        underRef_of_some hc, beq_self_eq_true, if_pos rfl, Option.map_some, if_pos ⟨hs, hany⟩]
      exact ⟨rfl, rfl, rfl⟩
    goesOn := fun h => by
      rw [href, dissolved_ref]
      cases hc : b.ref with
      | none => rfl
      | some c =>
        have hne : ¬ (c.step = .preempt ∧ (b.islands.any fun i => c.tap == i.injector) = true) := by
          rintro ⟨hs, hany⟩
          obtain ⟨i, hi, he⟩ := List.any_eq_true.1 hany
          exact h c hc hs i hi (by simpa using (beq_iff_eq.1 he).symm)
        rw [Option.map_some, if_neg hne]
    untouched := fun d hw => by rw [htaps]; exact dissolved_kept hw
    runs := fun i hi d hd => by
      have hmem : ∃ i ∈ b.islands, inSet i.members d = true := ⟨i, hi, hd⟩
      by_cases hl : lapsesAtDissolution b m' d
      · rw [hlapsed d hl]; exact ⟨rfl, rfl, rfl⟩
      · rw [hstays d hl, dissolved_doms, if_pos hmem]; exact ⟨rfl, rfl, rfl⟩
    lapsed := fun d hl => by
      rw [hlapsed d hl, dissolved_doms]
      split <;> rfl
    member := fun d hl hmem => by rw [hstays d hl, dissolved_doms, if_pos hmem]; rfl
    other := fun d hl hnone => by
      rw [hstays d hl, dissolved_doms, if_neg]
      rintro ⟨i, hi, hd⟩
      simp [hnone i hi] at hd
    claim := by rw [hclaim]
    covered := fun hc d => by rw [hcovered, dissolved_covered hk]; simp [hc]
    confirmed := fun d => by rw [hcovered, ← dissolved_confirmed, hclaim]
    unclaimed := fun hc => ⟨hstate.resolve_right fun h => hc h.1, changePartition_pendXclaim _ _ hc⟩
    armed := fun hs => (grant_of_dissolved hk hs).1
    granted := fun hs ha hall => (grant_of_dissolved hk hs).2.1 ⟨ha, hall⟩
    waits := fun hs => (grant_of_dissolved hk hs).2.2
    presence := fun d => by rw [htaps]; exact hr.presence d
    kept := by rw [hafter]; exact ⟨hr.resultNumber, hr.pendRchk, hr.mask, hr.timebase⟩ }

end

/-- The movement of the outputs leaves what the dissolution did. -/
theorem IslandsDissolved.moved {m : Meas} {u t : State} (h : IslandsDissolved m u.meas) (k : OutputsMoved u t) :
    IslandsDissolved m t.meas := by
  have href : t.meas.ref = u.meas.ref := by rw [k.meas]
  have hdoms : t.meas.doms = u.meas.doms := by rw [k.meas]
  have hclaim : t.meas.claim = u.meas.claim := by rw [k.meas]
  have hpend : t.meas.pendXclaim = u.meas.pendXclaim := by rw [k.meas]
  have hcov : coveredSet t.meas = coveredSet u.meas := by rw [k.meas]; rfl
  have hflag : ∀ f, flagSet t.meas f = flagSet u.meas f := fun f => by rw [k.meas]; rfl
  have hlapse : ∀ d, lapsesAtDissolution m t.meas d ↔ lapsesAtDissolution m u.meas d := fun d => by
    unfold lapsesAtDissolution; rw [hcov]
  exact {
    islands := by rw [k.meas]; exact h.islands
    suspended := by rw [k.meas]; exact h.suspended
    dropped := fun d => by rw [k.mailbox, k.ramp]; exact h.dropped d
    switched := fun c => by rw [k.mailbox, k.ramp, href]; exact h.switched c
    goesOn := by rw [href]; exact h.goesOn
    untouched := fun d => by rw [k.mailbox, k.ramp]; exact h.untouched d
    runs := by rw [hdoms]; exact h.runs
    lapsed := fun d => by rw [hdoms, hlapse]; exact h.lapsed d
    member := fun d => by rw [hdoms, hlapse]; exact h.member d
    other := fun d => by rw [hdoms, hlapse]; exact h.other d
    claim := by rw [hclaim]; exact h.claim
    covered := by rw [hcov]; exact h.covered
    confirmed := by rw [hclaim, hcov]; exact h.confirmed
    unclaimed := by rw [hclaim, hpend]; exact h.unclaimed
    armed := by rw [hclaim]; exact h.armed
    granted := by rw [hclaim, hpend, hflag]; exact h.granted
    waits := by rw [hclaim, hpend]; exact h.waits
    presence := fun d => by rw [k.presence]; exact h.presence d
    kept := by rw [k.meas]; exact h.kept }

/-! ### The answer of a grant (R99) -/

theorem GrantAnswer.moved {p : PendingRec} {u t : State} {f : Frame} (h : GrantAnswer p u.meas f) (k : OutputsMoved u t) :
    GrantAnswer p t.meas f := by
  unfold GrantAnswer at *
  rw [show coveredSet t.meas = coveredSet u.meas by rw [k.meas]; rfl, show t.meas.claim = u.meas.claim by rw [k.meas]]
  exact h

/-- The response of a grant (R99, R186). -/
theorem grantAnswer_responseFrame {p : PendingRec} {m x : Meas} (n : Nat) (h : n = m.claim.dom.elim 0 (·.number)) :
    GrantAnswer p m (responseFrame 0 p.kind p.tag .ok (be8 n ++ be8 (unconfirmedSet m).toNat) x) := by
  subst h
  refine ⟨rfl, rfl, rfl, rfl, rfl, ?_⟩
  show [_, BitVec.ofNat 8 (unconfirmedSet m).toNat] = _
  rw [BitVec.ofNat_toNat, BitVec.setWidth_eq]
  rfl

/-- The grant test answers the pending XCLAIM when it grants, and holds no other response. -/
theorem claimCheck_answer (m : Meas) :
    ((claimCheck m).claim.state = m.claim.state → (claimCheck m).heldResponses = m.heldResponses) ∧
    ∀ p, m.pendXclaim = some p → (claimCheck m).claim.state ≠ m.claim.state →
      ∃ f, (claimCheck m).heldResponses = m.heldResponses ++ [f] ∧ GrantAnswer p (claimCheck m) f := by
  have ha := armClaim_eq m
  rcases claimCheck_outcome m with ⟨h, -⟩ | ⟨h, hs, -⟩
  · rw [h, ha]
    exact ⟨fun _ => rfl, fun p _ hne => absurd rfl hne⟩
  · have hs' : (armClaim m).claim.state = .handoff := by rw [ha]; exact hs
    have hheld : (armClaim m).heldResponses = m.heldResponses := by rw [ha]
    rw [h]
    refine ⟨fun he => ?_, fun p hp _ => ?_⟩
    · rw [grantWith_claim, hs] at he; cases he
    · obtain ⟨-, hclaim, -, hresp, -⟩ := grantWith_spec (st := .ok) (m := armClaim m) (p := p) (by rw [ha]; exact hp) hs'
      refine ⟨_, hheld ▸ hresp, grantAnswer_responseFrame _ ?_⟩
      rw [hclaim]; rfl

/-- A change of partition holds a response exactly when it grants a claim. -/
theorem changePartition_answer (b : Meas) (parts : List IslandSpec) (m : Meas) :
    ((changePartition b parts m).claim.state = m.claim.state → (changePartition b parts m).heldResponses = m.heldResponses) ∧
    ∀ p, m.pendXclaim = some p → (changePartition b parts m).claim.state ≠ m.claim.state →
      ∃ f, (changePartition b parts m).heldResponses = m.heldResponses ++ [f] ∧ GrantAnswer p (changePartition b parts m) f := by
  have hr := rearranged_rearrange b parts m
  have hj := judging_agingTests (agingTouched b (rearrange b parts m)) (rearrange b parts m)
  have h := claimCheck_answer (agingTests (agingTouched b (rearrange b parts m)) (rearrange b parts m))
  rw [← changePartition_eq] at h
  have hs : (agingTests (agingTouched b (rearrange b parts m)) (rearrange b parts m)).claim.state = m.claim.state := by
    rw [hj, hr.claim]
  have hp : (agingTests (agingTouched b (rearrange b parts m)) (rearrange b parts m)).pendXclaim = m.pendXclaim := by
    rw [hj]; exact hr.pendXclaim
  have hh : (agingTests (agingTouched b (rearrange b parts m)) (rearrange b parts m)).heldResponses = m.heldResponses := by
    rw [hj]; exact hr.held
  rwa [hs, hp, hh] at h

/-! ### The freshness expiry (R11) -/

/-- The state that becomes STALE is one whose every island is dissolved. -/
theorem becomeStale_eq (m : Meas) : ∃ fl al,
    becomeStale m = changePartition m [] (reclassified { m.topo with state := .stale, row := none } fl al m) := ⟨_, _, rfl⟩

theorem islandsDissolved_becomeStale (m : Meas) : IslandsDissolved m (becomeStale m) := by
  obtain ⟨fl, al, h⟩ := becomeStale_eq m
  rw [h]; exact islandsDissolved_changePartition (by dsimp only; decide)

theorem freshnessExpiry_of_due {m : Meas} {img : List Byte} {rp : Report} (ht : m.tables.topology = some img)
    (hr : m.topo.stored = some rp) (hs : m.topo.state = .known ∨ m.topo.state = .nomatch)
    (hage : topoFreshness img ≤ (m.timebase - rp.time).toNat) : freshnessExpiry m = some (becomeStale m) := by
  unfold freshnessExpiry
  rw [ht, hr]
  refine if_pos (Bool.and_eq_true_iff.2 ⟨?_, decide_eq_true hage⟩)
  rcases hs with hs | hs <;> rw [hs] <;> rfl

/-- Settles O11: the expiry is the change to the empty partition, read through `islandsDissolved_changePartition`. -/
theorem freshnessExpiryDissolves : Obligations.FreshnessExpiryDissolves := by
  intro s img rp ht hr hs hage
  have hmoved := onEvent_some (freshnessExpiry_of_due ht hr hs hage)
  obtain ⟨htopo, htables, hfollow, -⟩ := becomeStale_spec s.meas
  obtain ⟨fl, al, heq⟩ := becomeStale_eq s.meas
  have hanswer := changePartition_answer s.meas [] (reclassified { s.meas.topo with state := .stale, row := none } fl al s.meas)
  rw [← heq] at hanswer
  set t := onEvent freshnessExpiry s with hts
  have hstate : t.meas.claim.state = (becomeStale s.meas).claim.state := by rw [hmoved.meas]
  have hout : outgoing t = s.link.txU.toList ++ s.link.upQueue ++ (becomeStale s.meas).heldResponses := hmoved.upstream
  refine ⟨t, rfl, ?_, ?_, (islandsDissolved_becomeStale s.meas).moved hmoved, fun hsame => ?_, fun p hp hne => ?_, ?_, hmoved.loader,
    hmoved.pending, hmoved.link⟩
  · rw [hmoved.meas]; exact htopo
  · rw [hmoved.flagSet]
    exact hfollow .topoStale (by simp [conditionHolds, htopo])
  · rw [hout, hanswer.1 (hstate ▸ hsame)]; rfl
  · obtain ⟨f, hheld, hf⟩ := hanswer.2 p hp (hstate ▸ hne)
    refine ⟨f, ?_, GrantAnswer.moved (u := { s with meas := becomeStale s.meas }) hf hmoved⟩
    rw [hout, hheld, ← List.append_assoc]; rfl
  · rw [hmoved.meas]; exact htables

end Sys2Proof.Machine
end

section
/-! SUPPORT. The formation of islands (R19, R24, R102, R121): what one formed island is, and what forming several leaves. -/

namespace Sys2Proof.Machine

/-- The island that a formation makes: in HANDOFF or EXTERNAL with the claim, in REFHOLD with a check on its injector, or in FORMING. -/
def formedIsland (m : Meas) (p : IslandSpec) : Island :=
  if claimsSet m p.members then { newIsland p with state := if m.claim.state == .handoff then .handoff else .external }
  else if underRef m p.injector then { newIsland p with state := .refhold }
  else { newIsland p with state := .forming, settleTimer := .running ⟨m.timebase, settleTime m⟩ }

/-- What a formation writes to an injector that is not under check: rest with the claim, FORMING's mailbox without (R24, R102). -/
def formedMailbox (m : Meas) (p : IslandSpec) : Mailbox := if claimsSet m p.members then .rest else .quiet

theorem formedIsland_members (m : Meas) (p : IslandSpec) : (formedIsland m p).members = p.members := by
  unfold formedIsland; (repeat' split) <;> rfl

/-- What a formation depends on. -/
theorem formedIsland_congr {m m' : Meas} (hs : m'.claim.state = m.claim.state) (hd : m'.claim.dom = m.claim.dom)
    (hu : underRef m' = underRef m) (ht : m'.timebase = m.timebase) (htab : m'.tables = m.tables) :
    formedIsland m' = formedIsland m ∧ formedMailbox m' = formedMailbox m := by
  have hclaims : claimsSet m' = claimsSet m := funext fun ds => by rw [claimsSet, hs, hd]; rfl
  have hsettle : settleTime m' = settleTime m := by rw [settleTime, htab]; rfl
  refine ⟨funext fun p => ?_, funext fun p => ?_⟩
  · rw [formedIsland, hclaims, hs, hu, ht, hsettle]; rfl
  · rw [formedMailbox, hclaims]; rfl

/-- Where no two islands share a member set, a change of the island that is there puts the changed one in its place. -/
theorem Parted.changeIsland_eq {m : Meas} {i : Island} {f : Island → Island} (h : Parted m) (hi : islandAt m i.members = some i)
    (hf : (f i).members = i.members) : changeIsland i.members f m = putIsland (f i) m := by
  unfold changeIsland putIsland
  congr 1
  refine List.map_congr_left fun j hj => ?_
  rw [hf]
  by_cases hji : j.members = i.members
  · rw [h.eq_of_members (islandAt_mem hi) hj hji]
  · simp [hji]

section

variable {m : Meas} {p : IslandSpec}

/-- A formation on an injector under check writes no mailbox (R121). -/
theorem enterFormed_checked (h : Parted m) (hi : islandAt m p.members = some (newIsland p)) (hu : underRef m p.injector = true) :
    enterFormed m p = putIsland (formedIsland m p) (resetMemberRuns p.members m) := by
  have hchange : ∀ f : Island → Island, (f (newIsland p)).members = p.members →
      changeIsland p.members f (resetMemberRuns p.members m) = putIsland (f (newIsland p)) (resetMemberRuns p.members m) :=
    fun f hf => Parted.changeIsland_eq (m := resetMemberRuns p.members m) (i := newIsland p) h hi hf
  by_cases hc : claimsSet m p.members = true
  · have hf : formedIsland m p = { newIsland p with state := if m.claim.state == .handoff then .handoff else .external } := if_pos hc
    rw [hf, ← hchange (fun i => { i with state := if m.claim.state == .handoff then .handoff else .external }) rfl]
    exact (if_pos hc).trans (if_pos hu)
  · have hf : formedIsland m p = { newIsland p with state := .refhold } := (if_neg hc).trans (if_pos hu)
    rw [hf, ← hchange (fun i => { i with state := .refhold }) rfl]
    exact (if_neg hc).trans (if_pos hu)

/-- A formation with the claim puts its injector at rest; one without enters FORMING (R19, R24, R102). -/
theorem enterFormed_unchecked (h : Parted m) (hi : islandAt m p.members = some (newIsland p)) (hs : settleTime m ≠ 0)
    (hu : underRef m p.injector = false) :
    enterFormed m p = writeMailbox p.injector (formedMailbox m p) (putIsland (formedIsland m p) (resetMemberRuns p.members m)) := by
  have hu' : ¬ underRef m p.injector = true := by simp [hu]
  by_cases hc : claimsSet m p.members = true
  · have hf : formedIsland m p = { newIsland p with state := if m.claim.state == .handoff then .handoff else .external } := if_pos hc
    rw [hf, formedMailbox, if_pos hc, ← Parted.changeIsland_eq (m := resetMemberRuns p.members m) (i := newIsland p)
      (f := fun i => { i with state := if m.claim.state == .handoff then .handoff else .external }) h hi rfl]
    exact (if_pos hc).trans (if_neg hu')
  · have hf : formedIsland m p =
        { newIsland p with state := .forming, settleTimer := .running ⟨m.timebase, settleTime m⟩ } := (if_neg hc).trans (if_neg hu')
    have henter : enterFormed m p = enterForming p.members (resetMemberRuns p.members m) := (if_neg hc).trans (if_neg hu')
    have hi' : islandAt (resetMemberRuns p.members m) p.members = some (newIsland p) := hi
    rw [henter, hf, formedMailbox, if_neg hc, enterForming, hi']
    exact if_neg hs

end

/-- From `m` to `m'` the islands of `l` have been formed. -/
structure Formed (l : List IslandSpec) (m m' : Meas) : Prop where
  ref : m'.ref = m.ref
  suspended : m'.suspended = m.suspended
  kept : m'.islands.map Island.kept = m.islands.map Island.kept
  island : ∀ p ∈ l, islandAt m' p.members = some (formedIsland m p)
  others : ∀ ds, (∀ p ∈ l, p.members ≠ ds) → islandAt m' ds = islandAt m ds
  mailbox : ∀ p ∈ l, underRef m p.injector = false → (m'.taps.get p.injector).mailbox = formedMailbox m p
  taps : ∀ d, (∀ p ∈ l, p.injector = d → underRef m d = true) → m'.taps.get d = m.taps.get d

/-- A put island leaves those with other member sets. -/
theorem islandAt_putIsland_of_ne {m : Meas} {i : Island} {ds : DomSet} (h : i.members ≠ ds) :
    islandAt (putIsland i m) ds = islandAt m ds := by
  have hp : ((fun j : Island => j.members == ds) ∘ fun j => if (j.members == i.members) = true then i else j) =
      fun j : Island => j.members == ds := by
    funext j
    simp only [Function.comp]
    split
    · rename_i hj
      rw [beq_iff_eq.1 hj]
    · rfl
  rw [islandAt, putIsland_islands, List.find?_map, hp]
  cases hf : m.islands.find? fun j => j.members == ds with
  | none => simp [islandAt, hf]
  | some j =>
    have hj : j.members = ds := by simpa using List.find?_some hf
    simp [islandAt, hf, hj, h.symm]

theorem formed_enterFormed {m : Meas} {p : IslandSpec} (h : Parted m) (hi : islandAt m p.members = some (newIsland p))
    (hs : settleTime m ≠ 0) : Formed [p] m (enterFormed m p) := by
  have hmembers := formedIsland_members m p
  have hput : islandAt (putIsland (formedIsland m p) (resetMemberRuns p.members m)) p.members = some (formedIsland m p) :=
    islandAt_putIsland (m := resetMemberRuns p.members m) hi hmembers
  have hothers : ∀ ds, p.members ≠ ds →
      islandAt (putIsland (formedIsland m p) (resetMemberRuns p.members m)) ds = islandAt m ds := fun ds hne =>
    islandAt_putIsland_of_ne (m := resetMemberRuns p.members m) (by rw [hmembers]; exact hne)
  have hkept := enterFormed_kept m p h
  cases hu : underRef m p.injector with
  | true =>
    rw [enterFormed_checked h hi hu] at hkept ⊢
    exact ⟨rfl, rfl, hkept, by simpa using hput, fun ds hds => hothers ds (by simpa using hds), by simp [hu], fun _ _ => rfl⟩
  | false =>
    rw [enterFormed_unchecked h hi hs hu] at hkept ⊢
    refine ⟨rfl, rfl, hkept, by simpa using hput, fun ds hds => hothers ds (by simpa using hds), by simp [writeTap], fun d hd => ?_⟩
    have hne : d ≠ p.injector := fun he => by
      have := hd p (by simp) he.symm
      rw [he, hu] at this; cases this
    rw [writeMailbox_taps, PerDom.get_set_of_ne _ _ hne]; rfl

/-- A formation of several islands is one formation after another, when their member sets and injectors are distinct. -/
theorem Formed.cons {p : IslandSpec} {l : List IslandSpec} {a b c : Meas} (h : Formed [p] a b) (k : Formed l b c)
    (hcongr : formedIsland b = formedIsland a ∧ formedMailbox b = formedMailbox a)
    (hmem : ∀ x ∈ l, p.members ≠ x.members) (hinj : ∀ x ∈ l, p.injector ≠ x.injector) : Formed (p :: l) a c := by
  have hu : ∀ d, underRef b d = underRef a d := fun d => by rw [underRef, h.ref]; rfl
  exact {
    ref := k.ref.trans h.ref
    suspended := k.suspended.trans h.suspended
    kept := k.kept.trans h.kept
    island := fun x hx => by
      rcases List.mem_cons.1 hx with rfl | hx
      · rw [k.others _ fun y hy => (hmem y hy).symm]
        exact h.island x (List.mem_singleton_self x)
      · rw [← hcongr.1]; exact k.island x hx
    others := fun ds hds =>
      (k.others ds fun x hx => hds x (List.mem_cons_of_mem _ hx)).trans
        (h.others ds fun x hx => hds x (List.mem_singleton.1 hx ▸ List.mem_cons_self))
    mailbox := fun x hx hux => by
      rcases List.mem_cons.1 hx with rfl | hx
      · rw [k.taps _ fun y hy he => absurd he.symm (hinj y hy)]
        exact h.mailbox x (List.mem_singleton_self x) hux
      · rw [← hcongr.2]; exact k.mailbox x hx ((hu _).trans hux)
    taps := fun d hd =>
      (k.taps d fun x hx he => (hu d).trans (hd x (List.mem_cons_of_mem _ hx) he)).trans
        (h.taps d fun x hx he => hd x (List.mem_singleton.1 hx ▸ List.mem_cons_self) he) }

theorem formed_foldl (l : List IslandSpec) (m : Meas) (h : Parted m) (hs : settleTime m ≠ 0)
    (hnew : ∀ p ∈ l, islandAt m p.members = some (newIsland p)) (hmem : (l.map (·.members)).Nodup)
    (hinj : (l.map (·.injector)).Nodup) : Formed l m (l.foldl enterFormed m) := by
  induction l generalizing m with
  | nil => exact ⟨rfl, rfl, rfl, by simp, fun _ _ => rfl, by simp, fun _ _ => rfl⟩
  | cons p l ih =>
    obtain ⟨hmp, hml⟩ := List.nodup_cons.1 hmem
    obtain ⟨hip, hil⟩ := List.nodup_cons.1 hinj
    have hne : ∀ x ∈ l, p.members ≠ x.members := fun x hx he => hmp (List.mem_map.2 ⟨x, hx, he.symm⟩)
    have hone := formed_enterFormed h (hnew p List.mem_cons_self) hs
    have hr := rearranged_enterFormed m p
    have hcongr : formedIsland (enterFormed m p) = formedIsland m ∧ formedMailbox (enterFormed m p) = formedMailbox m :=
      formedIsland_congr (by rw [hr.claim]) (by rw [hr.claim]) (funext fun d => by rw [underRef, hone.ref]; rfl) hr.timebase hr.tables
    refine hone.cons (ih _ (parted_of_kept hone.kept h) ?_ ?_ hml hil) hcongr hne
      fun x hx he => hip (List.mem_map.2 ⟨x, hx, he.symm⟩)
    · rw [settleTime, hr.tables]; exact hs
    · intro x hx
      rw [hone.others _ fun y hy => List.mem_singleton.1 hy ▸ hne x hx]
      exact hnew x (List.mem_cons_of_mem _ hx)

end Sys2Proof.Machine
end

section
/-! SUPPORT. The change from the partition of one row to that of another (R15 to R20, R102, R121): what is left of the islands, the taps,
the records and the suspend list. -/

namespace Sys2Proof.Machine

/-! ### Islands of one partition stand apart (R12) -/

theorem injector_mem_partitionOf {img : List Byte} {r : Nat} {fit : Dom → Bool} {p : IslandSpec} (h : p ∈ partitionOf img r fit) :
    inSet p.members p.injector = true := by
  obtain ⟨d, -, hhead, -, hinj, -⟩ := spec_of_mem_partitionOf h
  rw [hinj]
  cases hf : (members p.members).find? (inSet (topoInjectors img r)) with
  | none => exact (members_head hhead).1
  | some e => exact mem_members.1 (List.mem_of_find?_eq_some hf)

theorem partitionOf_injectors_nodup (img : List Byte) (r : Nat) (fit : Dom → Bool) :
    ((partitionOf img r fit).map (·.injector)).Nodup := by
  refine List.Nodup.map_on (fun p hp q hq he => ?_) (List.Nodup.of_map _ (partitionOf_nodup img r fit))
  have hq' : inSet q.members p.injector = true := by rw [he]; exact injector_mem_partitionOf hq
  exact partitionOf_disjoint hq hp hq' (injector_mem_partitionOf hp)

section

variable {m : Meas} (h : PartitionFollows m)
include h

/-- While there is an island the state is KNOWN, and every island is one of the resolved row. -/
theorem PartitionFollows.exists_specs : ∃ img r, ∀ i ∈ m.islands,
    m.topo.state = .known ∧ ∃ p ∈ partitionOf img r (fitted m), i.members = p.members ∧ i.injector = p.injector := by
  by_cases hk : m.topo.state = .known
  · obtain ⟨img, r, -, -, -, hmap⟩ := h.1 hk
    refine ⟨img, r, fun i hi => ⟨hk, ?_⟩⟩
    have hmem := List.mem_map_of_mem (f := fun i : Island => (i.members, i.injector, i.profile)) hi
    rw [hmap] at hmem
    obtain ⟨p, hp, he⟩ := List.mem_map.1 hmem
    simp only [Prod.mk.injEq] at he
    exact ⟨p, hp, he.1.symm, he.2.1.symm⟩
  · exact ⟨[], 0, by simp [h.2 hk]⟩

theorem PartitionFollows.known {i : Island} (hi : i ∈ m.islands) : m.topo.state = .known := by
  obtain ⟨img, r, hspec⟩ := h.exists_specs
  exact (hspec i hi).1

theorem PartitionFollows.injector_mem {i : Island} (hi : i ∈ m.islands) : inSet i.members i.injector = true := by
  obtain ⟨img, r, hspec⟩ := h.exists_specs
  obtain ⟨-, p, hp, hm, hinj⟩ := hspec i hi
  rw [hm, hinj]; exact injector_mem_partitionOf hp

/-- Two islands that share a domain are the same. -/
theorem PartitionFollows.eq_of_shared {i j : Island} (hi : i ∈ m.islands) (hj : j ∈ m.islands) {d : Dom}
    (hd : inSet i.members d = true) (hd' : inSet j.members d = true) : j = i := by
  obtain ⟨img, r, hspec⟩ := h.exists_specs
  obtain ⟨-, p, hp, hm, -⟩ := hspec i hi
  obtain ⟨-, p', hp', hm', -⟩ := hspec j hj
  rw [hm] at hd; rw [hm'] at hd'
  exact h.parted.eq_of_members hi hj (by rw [hm, hm', partitionOf_disjoint hp hp' hd hd'])

theorem PartitionFollows.eq_of_injector {i j : Island} (hi : i ∈ m.islands) (hj : j ∈ m.islands) (he : j.injector = i.injector) :
    j = i := h.eq_of_shared hi hj (h.injector_mem hi) (he ▸ h.injector_mem hj)

omit h in
theorem islandOf_inSet {i : Island} {d : Dom} (hi : islandOf m d = some i) : inSet i.members d = true :=
  List.find?_some (p := fun i : Island => inSet i.members d) hi

theorem PartitionFollows.islandOf_eq {i : Island} (hi : i ∈ m.islands) {d : Dom} (hd : inSet i.members d = true) :
    islandOf m d = some i := by
  have hsome : (islandOf m d).isSome = true := List.find?_isSome.2 ⟨i, hi, hd⟩
  obtain ⟨j, hj⟩ := Option.isSome_iff_exists.1 hsome
  rw [hj, h.eq_of_shared hi (islandOf_mem hj) hd (islandOf_inSet hj)]

theorem PartitionFollows.profileInForce_eq {i : Island} (hi : i ∈ m.islands) {d : Dom} (hd : inSet i.members d = true) :
    profileInForce m d = i.profile := by rw [profileInForce, h.islandOf_eq hi hd]

/-- The claim covers a domain of an island when the claimed domain lies in the same (R93). -/
theorem PartitionFollows.covered_iff {i : Island} (hi : i ∈ m.islands) {d : Dom} (hd : inSet i.members d = true) :
    inSet (coveredSet m) d = true ↔ m.claim.state ≠ .none ∧ ∃ c, m.claim.dom = some c ∧ inSet i.members c = true := by
  have hk := h.known hi
  by_cases hs : m.claim.state = .none
  · simp [coveredSet, hs]
  · simp only [coveredSet, claimedIsland, beq_iff_eq, hs, hk, if_true, if_false, ne_eq, not_false_eq_true, true_and]
    cases hc : m.claim.dom with
    | none => simp
    | some c =>
      simp only [Option.bind_some, Option.some.injEq, exists_eq_left']
      constructor
      · intro hcov
        cases ho : islandOf m c with
        | none => simp [ho] at hcov
        | some k =>
          rw [ho] at hcov
          obtain rfl := h.eq_of_shared hi (islandOf_mem ho) hd hcov
          exact islandOf_inSet ho
      · intro hci
        rw [h.islandOf_eq hi hci]; exact hd

end

/-! ### What a change of partition is made of -/

/-- An island continues as an island of a new partition: same member set, same injector (R15). -/
def Continues (i : Island) (p : IslandSpec) : Prop := i.members = p.members ∧ i.injector = p.injector

/-- The islands that a change of partition dissolves (R17). -/
def goneIslands (b : Meas) (parts : List IslandSpec) : List Island := b.islands.filter fun i => !isContinued parts i

/-- The islands that it forms (R19). -/
def freshParts (b : Meas) (parts : List IslandSpec) : List IslandSpec := parts.filter fun p => (continuedFrom b.islands p).isNone

/-- The new partition in place of the old, before any formation. -/
def replaced (b : Meas) (parts : List IslandSpec) (m : Meas) : Meas :=
  let m1 := (goneIslands b parts).foldl dissolveIsland m
  { m1 with islands := placeIslands m1.islands parts }

theorem rearrange_eq (b : Meas) (parts : List IslandSpec) (m : Meas) : rearrange b parts m =
    trimConfirmed (discardStrayEntries ((freshParts b parts).foldl enterFormed (replaced b parts m))) := rfl

theorem mem_goneIslands {b : Meas} {parts : List IslandSpec} {i : Island} :
    i ∈ goneIslands b parts ↔ i ∈ b.islands ∧ ∀ p ∈ parts, ¬ Continues i p := by
  simp [goneIslands, isContinued, Continues]

theorem continuedFrom_eq_none {old : List Island} {p : IslandSpec} :
    continuedFrom old p = none ↔ ∀ i ∈ old, ¬ Continues i p := by
  simp [continuedFrom, Continues]

theorem mem_freshParts {b : Meas} {parts : List IslandSpec} {p : IslandSpec} :
    p ∈ freshParts b parts ↔ p ∈ parts ∧ ∀ i ∈ b.islands, ¬ Continues i p := by
  rw [freshParts, List.mem_filter, Option.isNone_iff_eq_none, continuedFrom_eq_none]

/-- The island that a new one continues, among old ones with distinct member sets. -/
theorem continuedFrom_eq_some {m : Meas} (h : Parted m) {old : List Island} (hsub : ∀ j ∈ old, j ∈ m.islands) {i : Island}
    {p : IslandSpec} (hi : i ∈ old) (hc : Continues i p) : continuedFrom old p = some i := by
  cases hf : continuedFrom old p with
  | none => exact absurd hc (continuedFrom_eq_none.1 hf i hi)
  | some j =>
    have hj := List.find?_some hf
    simp only [Bool.and_eq_true, beq_iff_eq] at hj
    rw [h.eq_of_members (hsub i hi) (hsub j (List.mem_of_find?_eq_some hf)) (hj.1.trans hc.1.symm)]

section

variable {m : Meas} {old : List Island} {parts : List IslandSpec}

/-- Islands put in the place of old ones have distinct member sets, when those of the new partition have (R12). -/
theorem parted_placeIslands (hm : m.islands = placeIslands old parts) (hnd : (parts.map (·.members)).Nodup) : Parted m := by
  have h := congrArg (List.map Prod.fst) (placeIslands_shape old parts)
  rw [← hm] at h
  simp only [List.map_map] at h
  unfold Parted
  rw [show (fun i : Island => i.members) = Prod.fst ∘ Island.shape from rfl, h]
  exact hnd

theorem islandAt_placeIslands_continued (hm : m.islands = placeIslands old parts) (hnd : (parts.map (·.members)).Nodup)
    {p : IslandSpec} {i : Island} (hp : p ∈ parts) (hf : continuedFrom old p = some i) :
    islandAt m p.members = some { i with profile := p.profile } := by
  have hi := List.find?_some hf
  simp only [Bool.and_eq_true, beq_iff_eq] at hi
  rw [← hi.1]
  refine (parted_placeIslands hm hnd).islandAt_eq (i := { i with profile := p.profile }) ?_
  rw [hm]
  exact List.mem_map.2 ⟨p, hp, by rw [hf]⟩

theorem islandAt_placeIslands_fresh (hm : m.islands = placeIslands old parts) (hnd : (parts.map (·.members)).Nodup)
    {p : IslandSpec} (hp : p ∈ parts) (hf : continuedFrom old p = none) : islandAt m p.members = some (newIsland p) := by
  refine (parted_placeIslands hm hnd).islandAt_eq (i := newIsland p) ?_
  rw [hm]
  exact List.mem_map.2 ⟨p, hp, by rw [hf]⟩

end

/-- Islands that have the shapes of a partition have its member sets and injectors. -/
theorem exists_island_iff {l : List Island} {parts : List IslandSpec}
    (h : l.map Island.shape = parts.map fun p => (p.members, p.injector, p.profile)) {ds : DomSet} {d : Dom} :
    (∃ i ∈ l, i.members = ds ∧ i.injector = d) ↔ ∃ p ∈ parts, p.members = ds ∧ p.injector = d := by
  have hl : (∃ i ∈ l, i.members = ds ∧ i.injector = d) ↔ ∃ x ∈ l.map Island.shape, x.1 = ds ∧ x.2.1 = d := by
    simp [Island.shape]
  rw [hl, h]
  simp

/-! ### From the row of one partition to another row -/

/-- A state whose islands are those of its row, about to be KNOWN on the row `r` of the active table, which has a settle time. -/
structure RowChange (b : Meas) (tp : Topo) (img : List Byte) (r : Nat) : Prop where
  before : PartitionFollows b
  table : b.tables.topology = some img
  known : tp.state = .known
  row : tp.row = some r
  stored : tp.stored.isSome = true
  settle : topoSettle img ≠ 0

/-- The islands of a row over the fitted set of a state (R12). -/
def partsOf (img : List Byte) (r : Nat) (b : Meas) : List IslandSpec := partitionOf img r (fitted b)

/-- A state rearranged to the partition of a row. -/
def regrouped (tp : Topo) (fl : BitVec 32) (al : AlertLine) (img : List Byte) (r : Nat) (b : Meas) : Meas :=
  rearrange b (partsOf img r b) (reclassified tp fl al b)

section

variable {b : Meas} {tp : Topo} {fl : BitVec 32} {al : AlertLine} {img : List Byte} {r : Nat}

theorem rearranged_regrouped : Rearranged (reclassified tp fl al b) (regrouped tp fl al img r b) := rearranged_rearrange ..

theorem tapsDropped_replaced : TapsDropped (fun d => (goneIslands b (partsOf img r b)).any fun i => d == i.injector)
    (reclassified tp fl al b) (replaced b (partsOf img r b) (reclassified tp fl al b)) := by
  have h := tapsDropped_dissolve (goneIslands b (partsOf img r b)) (reclassified tp fl al b)
  exact ⟨h.timebase, h.ref, h.claim, h.written, h.kept⟩

/-- Dissolution leaves what a formation depends on. -/
theorem formedIsland_replaced :
    formedIsland (replaced b (partsOf img r b) (reclassified tp fl al b)) = formedIsland b ∧
    formedMailbox (replaced b (partsOf img r b) (reclassified tp fl al b)) = formedMailbox b := by
  have h := tapsDropped_replaced (b := b) (tp := tp) (fl := fl) (al := al) (img := img) (r := r)
  have hr := rearranged_foldl rearranged_dissolveIsland (goneIslands b (partsOf img r b)) (reclassified tp fl al b)
  exact formedIsland_congr (by rw [h.claim]; rfl) (by rw [h.claim]; rfl) (funext fun d => h.underRef d) h.timebase hr.tables

variable (h : RowChange b tp img r)
include h

theorem RowChange.formed : Formed (freshParts b (partsOf img r b)) (replaced b (partsOf img r b) (reclassified tp fl al b))
    ((freshParts b (partsOf img r b)).foldl enterFormed (replaced b (partsOf img r b) (reclassified tp fl al b))) := by
  have hr := rearranged_foldl rearranged_dissolveIsland (goneIslands b (partsOf img r b)) (reclassified tp fl al b)
  have hnd := partitionOf_nodup img r (fitted b)
  refine formed_foldl _ _ (parted_placeIslands rfl hnd) ?_ (fun p hp => ?_) (hnd.sublist (List.filter_sublist.map _))
    ((partitionOf_injectors_nodup img r (fitted b)).sublist (List.filter_sublist.map _))
  · have hsettle : settleTime (replaced b (partsOf img r b) (reclassified tp fl al b)) = topoSettle img := by
      show (Option.map topoSettle (List.foldl _ _ _ : Meas).tables.topology).getD 0 = _
      rw [hr.tables]
      show (Option.map topoSettle b.tables.topology).getD 0 = _
      rw [h.table]; rfl
    rw [hsettle]; exact h.settle
  · obtain ⟨hp, hfresh⟩ := mem_freshParts.1 hp
    refine islandAt_placeIslands_fresh rfl hnd hp (continuedFrom_eq_none.2 fun i hi => hfresh i ?_)
    exact (mem_dissolve_islands.1 hi).1

theorem RowChange.shape : (regrouped tp fl al img r b).islands.map Island.shape =
    (partsOf img r b).map fun p => (p.members, p.injector, p.profile) :=
  (shape_of_kept (h.formed (fl := fl) (al := al)).kept).trans (placeIslands_shape ..)

/-- The islands of the new partition are those of the new row. -/
theorem RowChange.follows : PartitionFollows (regrouped tp fl al img r b) := by
  have hr := rearranged_regrouped (b := b) (tp := tp) (fl := fl) (al := al) (img := img) (r := r)
  refine ⟨fun _ => ⟨img, r, ?_, ?_, ?_, ?_⟩, fun hk => absurd (by rw [hr.topo]; exact h.known) hk⟩
  · rw [hr.tables]; exact h.table
  · rw [hr.topo]; exact h.row
  · rw [hr.topo]; exact h.stored
  · rw [hr.fitted]; exact h.shape

/-! ### Islands continued and formed -/

theorem RowChange.islandAt_continued {i : Island} {p : IslandSpec} (hi : i ∈ b.islands) (hp : p ∈ partsOf img r b)
    (hc : Continues i p) : islandAt (regrouped tp fl al img r b) p.members = some { i with profile := p.profile } := by
  have hothers : ∀ q ∈ freshParts b (partsOf img r b), q.members ≠ p.members := fun q hq he => by
    obtain ⟨hq, hfresh⟩ := mem_freshParts.1 hq
    have hqp : q = p := List.inj_on_of_nodup_map (partitionOf_nodup img r (fitted b)) hq hp he
    exact hfresh i hi (hqp ▸ hc)
  refine ((h.formed (fl := fl) (al := al)).others _ hothers).trans ?_
  refine islandAt_placeIslands_continued rfl (partitionOf_nodup img r (fitted b)) hp ?_
  refine continuedFrom_eq_some h.before.parted 
    (fun j hj => (mem_dissolve_islands (m := reclassified tp fl al b).1 hj).1) ?_ hc
  refine mem_dissolve_islands.2 ⟨hi, fun j hj he => ?_⟩
  obtain ⟨hj, hgone⟩ := mem_goneIslands.1 hj
  rw [h.before.parted.eq_of_members hi hj he.symm] at hgone
  exact hgone p hp hc

theorem RowChange.islandAt_fresh {p : IslandSpec} (hp : p ∈ freshParts b (partsOf img r b)) :
    islandAt (regrouped tp fl al img r b) p.members = some (formedIsland b p) := by
  rw [← formedIsland_replaced.1]
  exact (h.formed (fl := fl) (al := al)).island p hp

/-! ### Taps -/

/-- A tap that no formation writes is as the dissolutions left it. -/
theorem RowChange.tap_of_unformed {d : Dom} (hd : ∀ p ∈ freshParts b (partsOf img r b), p.injector = d → underRef b d = true) :
    (regrouped tp fl al img r b).taps.get d = (replaced b (partsOf img r b) (reclassified tp fl al b)).taps.get d :=
  (h.formed (fl := fl) (al := al)).taps d fun p hp he => (tapsDropped_replaced.underRef d).trans (hd p hp he)

/-- A tap that is neither dropped nor the injector of a formed island keeps its mailbox and its ramp. -/
theorem RowChange.tap_kept {d : Dom} (hd : ∀ p ∈ freshParts b (partsOf img r b), p.injector = d → underRef b d = true)
    (hg : ∀ i ∈ goneIslands b (partsOf img r b), i.injector = d → ¬ Droppable b d) :
    ((regrouped tp fl al img r b).taps.get d).mailbox = (b.taps.get d).mailbox ∧
    ((regrouped tp fl al img r b).taps.get d).ramp = (b.taps.get d).ramp := by
  rw [h.tap_of_unformed hd]
  obtain ⟨hm, hr, -⟩ := (tapsDropped_replaced (tp := tp) (fl := fl) (al := al)).kept d (by
    rintro ⟨hw, hdrop⟩
    obtain ⟨i, hi, he⟩ := List.any_eq_true.1 hw
    exact hg i hi (beq_iff_eq.1 he).symm hdrop)
  exact ⟨hm, hr⟩

/-- The injector of a dissolved island is dropped, unless a formed island takes it (R17, R121). -/
theorem RowChange.tap_dropped {i : Island} (hi : i ∈ goneIslands b (partsOf img r b))
    (hd : ∀ p ∈ freshParts b (partsOf img r b), p.injector = i.injector → underRef b i.injector = true)
    (hdrop : Droppable b i.injector) :
    ((regrouped tp fl al img r b).taps.get i.injector).mailbox = dropMailbox b i.injector ∧
    ((regrouped tp fl al img r b).taps.get i.injector).ramp = none := by
  rw [h.tap_of_unformed hd]
  obtain ⟨hm, hr, -⟩ := (tapsDropped_replaced (tp := tp) (fl := fl) (al := al)).written i.injector
    (List.any_eq_true.2 ⟨i, hi, by simp⟩) hdrop
  exact ⟨hm, hr⟩

/-- The injector of a continued island keeps its mailbox and its ramp (R16). -/
theorem RowChange.tap_continued {i : Island} {p : IslandSpec} (hi : i ∈ b.islands) (hp : p ∈ partsOf img r b) (hc : Continues i p) :
    ((regrouped tp fl al img r b).taps.get i.injector).mailbox = (b.taps.get i.injector).mailbox ∧
    ((regrouped tp fl al img r b).taps.get i.injector).ramp = (b.taps.get i.injector).ramp := by
  refine h.tap_kept (fun q hq he => ?_) (fun j hj he => ?_)
  · obtain ⟨hq, hfresh⟩ := mem_freshParts.1 hq
    have hqp : q = p :=
      List.inj_on_of_nodup_map (partitionOf_injectors_nodup img r (fitted b)) hq hp (he.trans hc.2)
    exact absurd (hqp ▸ hc) (hfresh i hi)
  · obtain ⟨hj, hgone⟩ := mem_goneIslands.1 hj
    exact absurd (h.before.eq_of_injector hi hj he ▸ hc) (hgone p hp)

/-- The injector of a formed island that is not under check (R24, R102). -/
theorem RowChange.tap_fresh {p : IslandSpec} (hp : p ∈ freshParts b (partsOf img r b)) (hu : underRef b p.injector = false) :
    ((regrouped tp fl al img r b).taps.get p.injector).mailbox = formedMailbox b p := by
  rw [← formedIsland_replaced.2]
  exact (h.formed (fl := fl) (al := al)).mailbox p hp ((tapsDropped_replaced.underRef _).trans hu)

theorem RowChange.ref : (regrouped tp fl al img r b).ref = b.ref.map fun c =>
    if c.step = .preempt ∧ ((goneIslands b (partsOf img r b)).any fun i => c.tap == i.injector) = true
      then switchedCheck b.timebase c else c :=
  (h.formed (fl := fl) (al := al)).ref.trans tapsDropped_replaced.ref

/-! ### Records and suspend entries -/

/-- The suspend entries of the islands that continue are the ones that stay (R17, R18, R110). -/
theorem RowChange.mem_suspended {e : SuspendEntry} : e ∈ (regrouped tp fl al img r b).suspended ↔ e ∈ b.suspended ∧
    (∃ p ∈ partsOf img r b, p.members = e.members ∧ p.injector = e.injector) ∧
    ∀ i ∈ b.islands, i.members = e.members → i.injector = e.injector := by
  have hmem : e ∈ (regrouped tp fl al img r b).suspended ↔ (e ∈ b.suspended ∧
      ∀ i ∈ goneIslands b (partsOf img r b), e.members ≠ i.members) ∧
      ∃ i ∈ (regrouped tp fl al img r b).islands, i.members = e.members ∧ i.injector = e.injector := by
    have hf := (h.formed (fl := fl) (al := al)).suspended
    have hd : e ∈ (replaced b (partsOf img r b) (reclassified tp fl al b)).suspended ↔ e ∈ b.suspended ∧
      ∀ i ∈ goneIslands b (partsOf img r b), e.members ≠ i.members := mem_dissolve_suspended
    rw [← hd, ← hf]
    show e ∈ List.filter _ _ ↔ _
    rw [List.mem_filter]
    simp only [List.any_eq_true, Bool.and_eq_true, beq_iff_eq]
    rfl
  rw [hmem, exists_island_iff h.shape, and_assoc]
  refine and_congr_right fun _ => ⟨fun ⟨hgone, p, hp, hm, hinj⟩ => ⟨⟨p, hp, hm, hinj⟩, fun i hi he => ?_⟩,
    fun ⟨⟨p, hp, hm, hinj⟩, hsame⟩ => ⟨fun i hi he => ?_, p, hp, hm, hinj⟩⟩
  · by_contra hne
    refine hgone i (mem_goneIslands.2 ⟨hi, fun q hq hc => hne ?_⟩) he.symm
    have hqp : q = p := List.inj_on_of_nodup_map (partitionOf_nodup img r (fitted b)) hq hp (hc.1.symm.trans (he.trans hm.symm))
    rw [hc.2, hqp, hinj]
  · obtain ⟨hi, hgone⟩ := mem_goneIslands.1 hi
    exact hgone p hp ⟨he.symm.trans hm.symm, (hsame i hi he.symm).trans hinj.symm⟩

omit h in
/-- The runs of every member of a dissolved or a formed island are reset, and no other record is touched (R17, R19). -/
theorem regrouped_doms (d : Dom) :
    ((∃ p ∈ freshParts b (partsOf img r b), inSet p.members d = true) →
      ((regrouped tp fl al img r b).doms.get d).worse = 0 ∧ ((regrouped tp fl al img r b).doms.get d).better = 0 ∧
      ((regrouped tp fl al img r b).doms.get d).belowClear = false) ∧
    ((∀ p ∈ freshParts b (partsOf img r b), inSet p.members d = false) →
      (∀ i ∈ goneIslands b (partsOf img r b), inSet i.members d = false) →
      (regrouped tp fl al img r b).doms.get d = b.doms.get d) := by
  have hformed : (regrouped tp fl al img r b).doms.get d =
      if ∃ p ∈ freshParts b (partsOf img r b), inSet p.members d = true
      then resetRuns ((replaced b (partsOf img r b) (reclassified tp fl al b)).doms.get d)
      else (replaced b (partsOf img r b) (reclassified tp fl al b)).doms.get d :=
    foldl_resets (f := enterFormed) (ds := IslandSpec.members) (fun m p => (steady_enterFormed m p).domsEq) _ _ d
  have hgone : (replaced b (partsOf img r b) (reclassified tp fl al b)).doms.get d =
      if ∃ i ∈ goneIslands b (partsOf img r b), inSet i.members d = true then resetRuns (b.doms.get d) else b.doms.get d :=
    foldl_resets dissolveIsland_doms _ _ d
  refine ⟨fun hf => ?_, fun hf hg => ?_⟩
  · rw [hformed, if_pos hf]; exact ⟨rfl, rfl, rfl⟩
  · rw [hformed, if_neg, hgone, if_neg]
    · rintro ⟨i, hi, hd⟩; simp [hg i hi] at hd
    · rintro ⟨p, hp, hd⟩; simp [hf p hp] at hd

end

end Sys2Proof.Machine
end

section
/-! PROOFS. The change of partition that a TOPO makes (R15 to R20, R22, R24, R102, R110, R121). -/

namespace Sys2Proof.Machine

/-! ### The islands after the grant test -/

/-- A domain set holds the claimed domain of a claim that exists (R93, R102). -/
theorem claimsSet_iff {m : Meas} {ds : DomSet} : claimsSet m ds = true ↔
    m.claim.state ≠ .none ∧ ∃ c, m.claim.dom = some c ∧ inSet ds c = true := by
  rw [claimsSet, Bool.and_eq_true, bne_iff_ne]
  cases m.claim.dom <;> simp

/-- An island as a grant leaves the claimed one (R99). -/
def Island.granted (i : Island) : Island := { i with state := .external }

theorem grantWith_islands (st : Status) {m : Meas} (hs : m.claim.state = .handoff) :
    (∀ i, claimedIsland m = some i → (grantWith st m).islands = (changeIsland i.members Island.granted m).islands) ∧
    (claimedIsland m = none → (grantWith st m).islands = m.islands) := by
  have hdefer : ∀ (vs : List Byte) (x : Meas), (deferXclaim st vs x).islands = x.islands := by
    intro vs x; unfold deferXclaim; split <;> rfl
  refine ⟨fun i hi => ?_, fun hn => ?_⟩ <;> unfold grantWith <;> dsimp only <;> rw [hdefer, claimedIsland_granted hs]
  · rw [hi]; rfl
  · rw [hn]; rfl

/-- The claimed island is the one whose members the claimed domain is among (R93). -/
theorem PartitionFollows.claimedIsland_eq_iff {m : Meas} (h : PartitionFollows m) {i : Island} (hi : i ∈ m.islands) :
    claimedIsland m = some i ↔ claimsSet m i.members = true := by
  rw [claimsSet_iff, claimedIsland]
  by_cases hs : m.claim.state = .none
  · simp [hs]
  · simp only [beq_iff_eq, hs, if_false, ne_eq, not_false_eq_true, true_and, Option.bind_eq_some_iff]
    refine exists_congr fun c => and_congr_right fun _ => ⟨islandOf_inSet, h.islandOf_eq hi⟩

/-- A grant makes the claimed island EXTERNAL and changes no other (R99). -/
theorem islandAt_grantWith {m : Meas} (h : PartitionFollows m) (hs : m.claim.state = .handoff) (st : Status) {ds : DomSet} {i : Island}
    (hi : islandAt m ds = some i) :
    (claimsSet m ds = true → islandAt (grantWith st m) ds = some i.granted) ∧
    (¬ claimsSet m ds = true → islandAt (grantWith st m) ds = some i) := by
  obtain rfl := islandAt_members hi
  have hmem := islandAt_mem hi
  obtain ⟨hsome, hnone⟩ := grantWith_islands st hs
  rw [← h.claimedIsland_eq_iff hmem]
  refine ⟨fun hc => ?_, fun hc => ?_⟩
  · rw [islandAt, hsome i hc]
    exact islandAt_changeIsland_some hi fun _ => rfl
  · cases hk : claimedIsland m with
    | none => rw [islandAt, hnone hk]; exact hi
    | some k =>
      have hkmem : k ∈ m.islands := by
        simp only [claimedIsland, hs] at hk
        obtain ⟨c, -, hkc⟩ := Option.bind_eq_some_iff.1 hk
        exact islandOf_mem hkc
      have hne : i.members ≠ k.members := fun he => hc (by rw [hk, h.parted.eq_of_members hkmem hmem he])
      rw [islandAt, hsome k hk]
      exact (islandAt_changeIsland_of_ne (f := Island.granted) (fun _ => rfl) hne).trans hi

/-- The grant test makes the claimed island of a claim that it grants EXTERNAL, and changes no other (R99). -/
theorem islandAt_claimCheck {m : Meas} (h : PartitionFollows m) {ds : DomSet} {i : Island} (hi : islandAt m ds = some i) :
    (claimsSet m ds = true ∧ m.claim.state = .handoff ∧ (claimCheck m).claim.state = .granted →
      islandAt (claimCheck m) ds = some i.granted) ∧
    (¬ (claimsSet m ds = true ∧ m.claim.state = .handoff ∧ (claimCheck m).claim.state = .granted) →
      islandAt (claimCheck m) ds = some i) := by
  have ha := armClaim_eq m
  have hi' : islandAt (armClaim m) ds = some i := by rw [ha]; exact hi
  have hclaims : claimsSet (armClaim m) ds = claimsSet m ds := by rw [ha]; rfl
  rcases claimCheck_outcome m with ⟨hc, -⟩ | ⟨hc, hs, -⟩
  · rw [hc]
    refine ⟨fun ⟨_, hs, hg⟩ => ?_, fun _ => hi'⟩
    rw [ha] at hg
    exact absurd (hs.symm.trans hg) (by decide)
  · obtain ⟨hclaimed, hother⟩ := islandAt_grantWith (partitionFollows_good _ _ (steady_armClaim m).sound h)
      (by rw [ha]; exact hs) .ok hi'
    rw [hclaims] at hclaimed hother
    rw [hc]
    exact ⟨fun hx => hclaimed hx.1, fun hn => hother fun hx => hn ⟨hx, hs, by rw [grantWith_claim]⟩⟩

/-- Islands that are found by the member sets of a partition, in its order, are listed in its order. -/
theorem eq_map_of_islandAt {m : Meas} {parts : List IslandSpec} {f : IslandSpec → Island}
    (hshape : m.islands.map Island.shape = parts.map fun p => (p.members, p.injector, p.profile))
    (hnd : (parts.map (·.members)).Nodup) (hf : ∀ p ∈ parts, islandAt m p.members = some (f p)) : m.islands = parts.map f := by
  have hmembers : m.islands.map (·.members) = parts.map (·.members) := by
    have := congrArg (List.map Prod.fst) hshape
    rwa [List.map_map, List.map_map] at this
  have hparted : Parted m := by rw [Parted, hmembers]; exact hnd
  have hlen : m.islands.length = parts.length := by simpa using congrArg List.length hmembers
  refine List.ext_getElem (by simpa using hlen) fun k hk hk' => ?_
  have hkp : k < parts.length := hlen ▸ hk
  have hmk : m.islands[k].members = parts[k].members := by
    have := List.getElem_of_eq hmembers (i := k) (by simpa using hk)
    simpa using this
  have hat := hparted.islandAt_eq (List.getElem_mem hk)
  rw [hmk, hf _ (List.getElem_mem hkp)] at hat
  rw [List.getElem_map]
  exact (Option.some.inj hat).symm

/-! ### A change of row, whole -/

section

variable {b : Meas} {tp : Topo} {fl : BitVec 32} {al : AlertLine} {img : List Byte} {r : Nat}

/-- A state changed to the partition of a row. -/
def changedTo (tp : Topo) (fl : BitVec 32) (al : AlertLine) (img : List Byte) (r : Nat) (b : Meas) : Meas :=
  changePartition b (partsOf img r b) (reclassified tp fl al b)

theorem changedTo_taps : (changedTo tp fl al img r b).taps = (regrouped tp fl al img r b).taps := by
  rw [changedTo, changePartition_after]; rfl

theorem changedTo_ref : (changedTo tp fl al img r b).ref = (regrouped tp fl al img r b).ref := by
  rw [changedTo, changePartition_after]; rfl

theorem changedTo_suspended : (changedTo tp fl al img r b).suspended = (regrouped tp fl al img r b).suspended := by
  rw [changedTo, changePartition_after]; rfl

variable (h : RowChange b tp img r)
include h

/-- An island of the new partition is as it was continued or formed, but EXTERNAL where it is the claimed one of a claim that is granted
now. -/
theorem RowChange.islandAt_changed {ds : DomSet} {i : Island} (hi : islandAt (regrouped tp fl al img r b) ds = some i) :
    (claimsSet b ds = true ∧ b.claim.state = .handoff ∧ (changedTo tp fl al img r b).claim.state = .granted →
      islandAt (changedTo tp fl al img r b) ds = some i.granted) ∧
    (¬ (claimsSet b ds = true ∧ b.claim.state = .handoff ∧ (changedTo tp fl al img r b).claim.state = .granted) →
      islandAt (changedTo tp fl al img r b) ds = some i) := by
  have hj := judging_agingTests (agingTouched b (regrouped tp fl al img r b)) (regrouped tp fl al img r b)
  have hs := sound_agingTests (agingTouched b (regrouped tp fl al img r b)) (regrouped tp fl al img r b)
  have hr := rearranged_regrouped (b := b) (tp := tp) (fl := fl) (al := al) (img := img) (r := r)
  set a := agingTests (agingTouched b (regrouped tp fl al img r b)) (regrouped tp fl al img r b) with ha
  have hstate : a.claim.state = b.claim.state := by rw [hj, hr.claim]; rfl
  have hclaims : claimsSet a ds = claimsSet b ds := by rw [hj, claimsSet, hr.claim]; rfl
  have hat : islandAt a ds = some i := by rw [hj]; exact hi
  have hres := islandAt_claimCheck (partitionFollows_good _ _ hs h.follows) hat
  rw [hstate, hclaims] at hres
  exact hres

/-- The records of the members of a continued island under one profile stay (R16, R82). -/
theorem RowChange.doms_continued {i : Island} {p : IslandSpec} (hi : i ∈ b.islands) (hp : p ∈ partsOf img r b)
    (hc : Continues i p) (hprofile : i.profile = p.profile) {d : Dom} (hd : inSet p.members d = true) :
    (changedTo tp fl al img r b).doms.get d = b.doms.get d := by
  have hr := rearranged_regrouped (b := b) (tp := tp) (fl := fl) (al := al) (img := img) (r := r)
  have hdi : inSet i.members d = true := hc.1 ▸ hd
  have hat := h.islandAt_continued (fl := fl) (al := al) hi hp hc
  have hj := islandAt_mem hat
  have huntouched : d ∉ agingTouched b (regrouped tp fl al img r b) := by
    rw [mem_agingTouched, h.before.profileInForce_eq hi hdi, h.follows.profileInForce_eq hj hdi]
    rintro (⟨hheld, hfree⟩ | hne)
    · have hcov := (h.follows (fl := fl) (al := al)).covered_iff hj hdi
      rw [hr.claim] at hcov
      rw [hcov.2 ((h.before.covered_iff hi hdi).1 hheld)] at hfree
      cases hfree
    · exact hne hprofile
  have hkept : (regrouped tp fl al img r b).doms.get d = b.doms.get d := by
    refine (regrouped_doms d).2 (fun q hq => ?_) (fun j hj => ?_)
    · by_contra hin
      obtain ⟨hq, hfresh⟩ := mem_freshParts.1 hq
      exact hfresh i hi (partitionOf_disjoint hp hq hd (by simpa using hin) ▸ hc)
    · by_contra hin
      obtain ⟨hj, hgone⟩ := mem_goneIslands.1 hj
      exact hgone p hp (h.before.eq_of_shared hi hj hdi (by simpa using hin) ▸ hc)
  exact (changePartition_doms ..).trans ((if_neg fun hx => huntouched hx.1).trans hkept)

omit h in
/-- The runs of the members of a formed island are reset (R19). -/
theorem changedTo_doms_fresh {p : IslandSpec} (hp : p ∈ freshParts b (partsOf img r b)) {d : Dom} (hd : inSet p.members d = true) :
    ((changedTo tp fl al img r b).doms.get d).worse = 0 ∧ ((changedTo tp fl al img r b).doms.get d).better = 0 ∧
    ((changedTo tp fl al img r b).doms.get d).belowClear = false := by
  have hdoms := changePartition_doms b (partsOf img r b) (reclassified tp fl al b) d
  rw [changedTo, hdoms]
  split
  · exact ⟨rfl, rfl, rfl⟩
  · exact (regrouped_doms d).1 ⟨p, hp, hd⟩

/-! ### The islands and taps of a change of row -/

/-- R16, R102: an island that continues takes the profile, and EXTERNAL when its claim is granted, and nothing else. -/
theorem RowChange.island_continued {i : Island} {p : IslandSpec} (hi : i ∈ b.islands) (hp : p ∈ partsOf img r b)
    (hc : Continues i p) : ∃ j, islandAt (changedTo tp fl al img r b) p.members = some j ∧
      j = { i with profile := p.profile, state := j.state } ∧
      (¬ (claimsSet b p.members = true ∧ b.claim.state = .handoff ∧ (changedTo tp fl al img r b).claim.state = .granted) →
        j.state = i.state) ∧
      (claimsSet b p.members = true ∧ b.claim.state = .handoff ∧ (changedTo tp fl al img r b).claim.state = .granted →
        j.state = .external) := by
  obtain ⟨hgrant, hstay⟩ := h.islandAt_changed (h.islandAt_continued (fl := fl) (al := al) hi hp hc)
  by_cases hg : claimsSet b p.members = true ∧ b.claim.state = .handoff ∧ (changedTo tp fl al img r b).claim.state = .granted
  · exact ⟨_, hgrant hg, rfl, fun hn => absurd hg hn, fun _ => rfl⟩
  · exact ⟨_, hstay hg, rfl, fun _ => rfl, fun hy => absurd hy hg⟩

/-- R19, R102: a formed island that holds the claimed domain is in HANDOFF or EXTERNAL with its claim. -/
theorem RowChange.island_claimed {p : IslandSpec} (hp : p ∈ freshParts b (partsOf img r b)) (hc : claimsSet b p.members = true) :
    ((changedTo tp fl al img r b).claim.state = .handoff →
      islandAt (changedTo tp fl al img r b) p.members = some { newIsland p with state := .handoff }) ∧
    ((changedTo tp fl al img r b).claim.state = .granted →
      islandAt (changedTo tp fl al img r b) p.members = some { newIsland p with state := .external }) := by
  have hformed : formedIsland b p = { newIsland p with state := if b.claim.state == .handoff then .handoff else .external } :=
    if_pos hc
  obtain ⟨hgrant, hstay⟩ := h.islandAt_changed (h.islandAt_fresh (fl := fl) (al := al) hp)
  have hstate : (changedTo tp fl al img r b).claim.state = b.claim.state ∨
    (b.claim.state = .handoff ∧ (changedTo tp fl al img r b).claim.state = .granted) := changePartition_state ..
  refine ⟨fun hs => ?_, fun hs => ?_⟩
  · have hb : b.claim.state = .handoff := by
      rcases hstate with he | ⟨he, -⟩
      · exact he.symm.trans hs
      · exact he
    rw [hstay fun hx => by rw [hs] at hx; exact absurd hx.2.2 (by decide), hformed, hb]; rfl
  · rcases hstate with he | ⟨he, -⟩
    · have hb : b.claim.state = .granted := he.symm.trans hs
      rw [hstay fun hx => by rw [hb] at hx; exact absurd hx.2.1 (by decide), hformed, hb]; rfl
    · rw [hgrant ⟨hc, he, hs⟩, hformed]; rfl

/-- R19, R24, R121: any other formed island is in REFHOLD when its injector is under check, and in FORMING when it is not. -/
theorem RowChange.island_unclaimed {p : IslandSpec} (hp : p ∈ freshParts b (partsOf img r b)) (hc : ¬ claimsSet b p.members = true) :
    (underRef b p.injector = true →
      islandAt (changedTo tp fl al img r b) p.members = some { newIsland p with state := .refhold }) ∧
    (underRef b p.injector = false → islandAt (changedTo tp fl al img r b) p.members =
      some { newIsland p with state := .forming, settleTimer := .running ⟨b.timebase, topoSettle img⟩ }) := by
  have hsettle : settleTime b = topoSettle img := by rw [settleTime, h.table]; rfl
  have hat := (h.islandAt_changed (h.islandAt_fresh (fl := fl) (al := al) hp)).2 fun hx => hc hx.1
  refine ⟨fun hu => ?_, fun hu => ?_⟩ <;> rw [hat, formedIsland, if_neg hc, hu]
  · rfl
  · rw [hsettle]; rfl

/-- R17: the injector of a dissolved island is at rest, unless a new island has it or it is under check. -/
theorem RowChange.tap_dissolved {i : Island} (hi : i ∈ goneIslands b (partsOf img r b)) (hu : underRef b i.injector = false)
    (hnew : ∀ p ∈ partsOf img r b, p.injector ≠ i.injector) :
    ((changedTo tp fl al img r b).taps.get i.injector).mailbox = .rest ∧
    ((changedTo tp fl al img r b).taps.get i.injector).ramp = none := by
  rw [changedTo_taps]
  obtain ⟨hm, hr⟩ := h.tap_dropped (fl := fl) (al := al) hi (fun p hp he => absurd he (hnew p (mem_freshParts.1 hp).1))
    (droppable_of_not_underRef hu)
  exact ⟨by rw [hm, dropMailbox, hu]; rfl, hr⟩

/-- R121: a check in PREEMPT on the injector of a dissolved island is switched to its reference path. -/
theorem RowChange.check_switched {i : Island} {c : RefCheck} (hi : i ∈ goneIslands b (partsOf img r b)) (hc : b.ref = some c)
    (ht : c.tap = i.injector) (hs : c.step = .preempt) :
    ((changedTo tp fl al img r b).taps.get i.injector).mailbox = .refQuiet ∧
    (changedTo tp fl al img r b).ref = some (switchedCheck b.timebase c) := by
  have hu : underRef b i.injector = true := by simp [underRef_of_some hc, ht]
  have hdrop : Droppable b i.injector := fun c' hc' _ => by rw [hc] at hc'; cases hc'; exact hs
  have hany : ((goneIslands b (partsOf img r b)).any fun j => c.tap == j.injector) = true :=
    List.any_eq_true.2 ⟨i, hi, by simp [ht]⟩
  rw [changedTo_taps, changedTo_ref, h.ref, hc, Option.map_some, if_pos ⟨hs, hany⟩,
    (h.tap_dropped (fl := fl) (al := al) hi (fun _ _ _ => hu) hdrop).1, dropMailbox, hu]
  exact ⟨rfl, rfl⟩

/-- R121: any other check on the injector of a dissolved island goes on. -/
theorem RowChange.check_goesOn {i : Island} {c : RefCheck} (hc : b.ref = some c) (ht : c.tap = i.injector) (hs : c.step ≠ .preempt) :
    ((changedTo tp fl al img r b).taps.get i.injector).mailbox = (b.taps.get i.injector).mailbox ∧
    (changedTo tp fl al img r b).ref = some c := by
  have hu : underRef b i.injector = true := by simp [underRef_of_some hc, ht]
  rw [changedTo_taps, changedTo_ref, h.ref, hc, Option.map_some, if_neg fun hx => hs hx.1]
  exact ⟨(h.tap_kept (fl := fl) (al := al) (fun _ _ _ => hu) fun _ _ _ hdrop => hs (hdrop c hc ht)).1, rfl⟩

end

/-! ### The change that a TOPO makes -/

/-- What a resolution makes of the flags and of ISO_ALERT before it changes the partition (R10). -/
theorem followed_eq_reclassified (multi : Prop) [Decidable multi] (tp : Topo) (m : Meas) : ∃ fl al,
    (if multi then raise .topoMulti (followConditions { m with topo := tp }) else followConditions { m with topo := tp }) =
      reclassified tp fl al m := by
  split <;> exact ⟨_, _, rfl⟩

/-- A resolution that does not stay on its row changes the partition (R16, R20). -/
theorem resolve_changes {img : List Byte} {rp : Report} {m : Meas}
    (hn : ¬ (m.topo.state = .known ∧ matchingRows img rp.positions rp.inlet ≠ [] ∧
      m.topo.row = (matchingRows img rp.positions rp.inlet).head?)) :
    ∃ fl al, resolve true img rp m = changePartition m
      ((matchingRows img rp.positions rp.inlet).head?.elim [] fun r => partsOf img r m)
      (reclassified { m.topo with
        state := if matchingRows img rp.positions rp.inlet = [] then .nomatch else .known
        row := (matchingRows img rp.positions rp.inlet).head?
        count := (matchingRows img rp.positions rp.inlet).length } fl al m) := by
  obtain ⟨fl, al, hstart⟩ := followed_eq_reclassified (2 ≤ (matchingRows img rp.positions rp.inlet).length) { m.topo with
    state := if matchingRows img rp.positions rp.inlet = [] then .nomatch else .known
    row := (matchingRows img rp.positions rp.inlet).head?
    count := (matchingRows img rp.positions rp.inlet).length } m
  refine ⟨fl, al, ?_⟩
  unfold resolve
  simp only [List.isEmpty_iff]
  rw [hstart, if_neg]
  · cases (matchingRows img rp.positions rp.inlet).head? <;> rfl
  · intro hx
    simp only [Bool.true_and, Bool.and_eq_true, beq_iff_eq] at hx
    refine hn ⟨hx.1.1, fun he => ?_, hx.2⟩
    simp [he] at hx

/-- A TOPO that finds another row, with a settle time, changes to its partition. -/
theorem topoMeas_changes {q : Frame} {m : Meas} {img : List Byte} {r : Nat} (ht : m.tables.topology = some img)
    (hb : PartitionFollows m) (hs : topoSettle img ≠ 0)
    (hr : (matchingRows img (topoReport q m.timebase).positions (topoReport q m.timebase).inlet).head? = some r)
    (hn : ¬ (m.topo.state = .known ∧ m.topo.row = some r)) :
    ∃ tp fl al, RowChange m tp img r ∧ topoMeas q m = changedTo tp fl al img r m := by
  have hne : matchingRows img (topoReport q m.timebase).positions (topoReport q m.timebase).inlet ≠ [] := fun he => by
    simp [he] at hr
  obtain ⟨fl, al, hres⟩ := resolve_changes (img := img) (rp := topoReport q m.timebase)
    (m := { m with topo := { m.topo with stored := some (topoReport q m.timebase) } }) fun hx => hn ⟨hx.1, hx.2.2.trans hr⟩
  rw [if_neg hne, hr] at hres
  exact ⟨_, fl, al, ⟨hb, ht, rfl, rfl, rfl, hs⟩, (topoMeas_of_table ht).trans hres⟩

/-- A TOPO that finds no row dissolves every island. -/
theorem topoMeas_dissolves {q : Frame} {m : Meas} {img : List Byte} (ht : m.tables.topology = some img)
    (hr : matchingRows img (topoReport q m.timebase).positions (topoReport q m.timebase).inlet = []) :
    ∃ tp fl al, tp.state = .nomatch ∧ tp.row = none ∧ topoMeas q m = changePartition m [] (reclassified tp fl al m) := by
  obtain ⟨fl, al, hres⟩ := resolve_changes (img := img) (rp := topoReport q m.timebase)
    (m := { m with topo := { m.topo with stored := some (topoReport q m.timebase) } }) fun hx => hx.2.1 hr
  rw [hr] at hres
  exact ⟨_, fl, al, rfl, rfl, (topoMeas_of_table ht).trans hres⟩

/-! ### The three parts of the statement -/

/-- From no island, claim or check each island of the row is formed in FORMING (R19, R24). -/
theorem RowChange.forms_all {b : Meas} {tp : Topo} {fl : BitVec 32} {al : AlertLine} {img : List Byte} {r : Nat}
    (h : RowChange b tp img r) (hi : b.islands = []) (hc : b.claim.state = .none) (hr : b.ref = none) :
    (changedTo tp fl al img r b).islands = (partsOf img r b).map (fun p =>
      { newIsland p with state := .forming, settleTimer := .running ⟨b.timebase, topoSettle img⟩ }) ∧
    (∀ p ∈ partsOf img r b, ((changedTo tp fl al img r b).taps.get p.injector).mailbox = .quiet ∧
      ∀ d, inSet p.members d = true → ((changedTo tp fl al img r b).doms.get d).worse = 0 ∧
        ((changedTo tp fl al img r b).doms.get d).better = 0 ∧ ((changedTo tp fl al img r b).doms.get d).belowClear = false) ∧
    ∀ d, (∀ p ∈ partsOf img r b, p.injector ≠ d) →
      ((changedTo tp fl al img r b).taps.get d).mailbox = (b.taps.get d).mailbox := by
  have hfresh : ∀ p ∈ partsOf img r b, p ∈ freshParts b (partsOf img r b) := fun p hp => mem_freshParts.2 ⟨hp, by simp [hi]⟩
  have hclaims : ∀ p : IslandSpec, ¬ claimsSet b p.members = true := fun p hx => (claimsSet_iff.1 hx).1 hc
  have hu : ∀ d, underRef b d = false := underRef_of_none hr
  refine ⟨?_, fun p hp => ⟨?_, fun d hd => changedTo_doms_fresh (hfresh p hp) hd⟩, fun d hd => ?_⟩
  · refine eq_map_of_islandAt (changePartition_shape _ _ _ (partitionOf_nodup ..)) (partitionOf_nodup ..) fun p hp => ?_
    exact (h.island_unclaimed (hfresh p hp) (hclaims p)).2 (hu _)
  · rw [changedTo_taps, h.tap_fresh (hfresh p hp) (hu _), formedMailbox, if_neg (hclaims p)]
  · rw [changedTo_taps]
    exact (h.tap_kept (fun p hp he => absurd he (hd p (mem_freshParts.1 hp).1)) (by simp [goneIslands, hi])).1

/-- Settles O10: each part takes the TOPO as one `changePartition` and reads the laws of the change of row, or of the dissolution. -/
theorem topoFormsIslands : Obligations.TopoFormsIslands := by
  refine ⟨?_, ?_, ?_⟩
  · intro s q rest img r hq ht hk hi hc href hset hrow parts
    obtain ⟨t, hexec, hmoved⟩ := exec_topo_of_head hq
    obtain ⟨tp, fl, al, h, htopo⟩ := topoMeas_changes ht (partitionFollows_of_unknown hk hi) hset hrow fun hx => hk hx.1
    obtain ⟨hislands, hformed, hothers⟩ := h.forms_all (fl := fl) (al := al) hi hc href
    rw [← htopo] at hislands hformed hothers
    have hdoms : t.meas.doms = (topoMeas q s.meas).doms := by rw [hmoved.meas]; rfl
    refine ⟨t, hexec, ?_, fun p hp => ?_, fun d hd => ?_⟩
    · rw [hmoved.meas]; exact hislands
    · rw [hmoved.mailbox, hdoms]; exact hformed p hp
    · rw [hmoved.mailbox]; exact hothers d hd
  · intro s q rest img r hq ht hb hset hrow hn parts same claims
    obtain ⟨t, hexec, hmoved⟩ := exec_topo_of_head hq
    obtain ⟨tp, fl, al, h, htopo⟩ := topoMeas_changes ht hb hset hrow hn
    rw [htopo] at hmoved
    have hmeas : t.meas = { changedTo tp fl al img r s.meas with
      taps := t.meas.taps, heldResponses := t.meas.heldResponses } := hmoved.meas
    have hbox : ∀ d, (t.meas.taps.get d).mailbox = ((changedTo tp fl al img r s.meas).taps.get d).mailbox := hmoved.mailbox
    have hramp : ∀ d, (t.meas.taps.get d).ramp = ((changedTo tp fl al img r s.meas).taps.get d).ramp := hmoved.ramp
    have hat : ∀ ds, islandAt t.meas ds = islandAt (changedTo tp fl al img r s.meas) ds := hmoved.islandAt
    have hclaims : ∀ p, claims p ↔ claimsSet s.meas p.members = true := fun p => claimsSet_iff.symm
    refine ⟨t, hexec, ?_, fun i hi p hp hc => ?_, fun p hp hnew => ?_, fun i hi hgone => ?_, fun e => ?_⟩
    · rw [hmeas]; exact changePartition_shape _ _ _ (partitionOf_nodup ..)
    · rw [hat, hbox, hramp, hclaims, hmeas, changedTo_taps]
      obtain ⟨htap, hrmp⟩ := h.tap_continued (fl := fl) (al := al) hi hp hc
      exact ⟨h.island_continued hi hp hc, htap, hrmp, fun hprofile d hd => h.doms_continued hi hp hc hprofile hd⟩
    · have hfresh : p ∈ freshParts s.meas parts := mem_freshParts.2 ⟨hp, hnew⟩
      rw [hat, hbox, hclaims, hmeas, changedTo_taps]
      refine ⟨fun hc => ?_, fun hc => (h.island_unclaimed hfresh hc).1, fun hc hu => ?_, fun d hd => changedTo_doms_fresh hfresh hd⟩
      · obtain ⟨hhandoff, hgranted⟩ := h.island_claimed (fl := fl) (al := al) hfresh hc
        exact ⟨hhandoff, hgranted, fun hu => by rw [h.tap_fresh hfresh hu, formedMailbox, if_pos hc]; rfl⟩
      · exact ⟨(h.island_unclaimed hfresh hc).2 hu, by rw [h.tap_fresh hfresh hu, formedMailbox, if_neg hc]; rfl⟩
    · have hmem : i ∈ goneIslands s.meas parts := mem_goneIslands.2 ⟨hi, hgone⟩
      rw [hbox, hramp, hmeas]
      refine ⟨fun hu hnone => h.tap_dissolved hmem hu hnone, fun c hc hct => ⟨fun hs => ?_, fun hs => h.check_goesOn hc hct hs⟩⟩
      obtain ⟨hquiet, hswitched⟩ := h.check_switched (fl := fl) (al := al) hmem hc hct hs
      exact ⟨hquiet, _, hswitched, rfl⟩
    · rw [hmeas]
      show e ∈ (changedTo _ fl al img r s.meas).suspended ↔ _
      rw [changedTo_suspended]
      exact h.mem_suspended
  · intro s q rest img hq ht hnil
    obtain ⟨t, hexec, hmoved⟩ := exec_topo_of_head hq
    obtain ⟨tp, fl, al, hstate, hrow, htopo⟩ := topoMeas_dissolves ht hnil
    have hdissolved := islandsDissolved_changePartition (b := s.meas) (fl := fl) (al := al) (tp := tp) (by rw [hstate]; decide)
    have hkept := kept_changePartition s.meas [] (reclassified tp fl al s.meas)
    obtain ⟨hsilent, hanswer⟩ := changePartition_answer s.meas [] (reclassified tp fl al s.meas)
    rw [← htopo] at hdissolved hkept hsilent hanswer
    have hheld : s.meas.heldResponses = [] := by obtain ⟨-, -, -, hheld, -⟩ := hq; exact hheld
    have hout := outgoing_topo hq hmoved
    have hclaim : t.meas.claim.state = (topoMeas q s.meas).claim.state := by rw [hmoved.meas]; rfl
    have htp : t.meas.topo = tp := by rw [hmoved.meas]; exact hkept.topo
    refine ⟨t, responseFrame 0 q.kind q.tag .ok (topoValues t.meas) t.meas, hexec, htp ▸ hstate, htp ▸ hrow,
      hdissolved.moved hmoved, rfl, rfl, fun hsame => ?_, fun p hp hne => ?_⟩
    · rw [hout, hsilent (hclaim ▸ hsame)]
      show _ ++ _ :: s.meas.heldResponses = _
      rw [hheld]
    · obtain ⟨g, hg, hgrant⟩ := hanswer p hp (hclaim ▸ hne)
      refine ⟨g, ?_, hgrant.moved hmoved⟩
      rw [hout, hg]
      show _ ++ _ :: (s.meas.heldResponses ++ [g]) = _
      rw [hheld]; rfl

end Sys2Proof.Machine
end

section
/-! PROOFS. Level mailboxes and ramps: what a write changes (R31, R133, R134), and how many steps a ramp takes (R30). -/

namespace Sys2Proof.Machine

/-! ### A mailbox write -/

/-- A change of a fitted tap's mailbox makes its level frame due and restarts its refresh timer (R133, R134). -/
theorem writeTap_of_changed {b : Mailbox} {isFitted : Bool} {now : Time} {p : Tap} (h : isFitted = true ∧ p.mailbox ≠ b) :
    writeTap b isFitted now p = { p with mailbox := b, ramp := none, due := true, refreshStart := some now } := by
  simp [writeTap, h]

theorem writeTap_of_unchanged {b : Mailbox} {isFitted : Bool} {now : Time} {p : Tap} (h : ¬ (isFitted = true ∧ p.mailbox ≠ b)) :
    writeTap b isFitted now p = { p with mailbox := b, ramp := none } := by
  have hc : (isFitted && p.mailbox != b) = false := by simpa using h
  simp [writeTap, hc]

/-- Settles O12. -/
theorem mailboxWrite : Obligations.MailboxWrite := by
  intro t b m old changed
  refine ⟨writeTap b (fitted m t) m.timebase old, m.claim.confirmed &&& ~~~ (single t), rfl, rfl, fun h => ?_, fun h => ?_,
    fun d => ?_⟩
  · rw [writeTap_of_changed h]; exact ⟨rfl, rfl⟩
  · rw [writeTap_of_unchanged h]; exact ⟨rfl, rfl⟩
  · simp [inSet_and, inSet_not, inSet_single]

/-! ### The steps of a ramp (R30) -/

/-- A step shortens the distance to the target by the step's size, or ends at the target. -/
theorem natAbs_sub_stepLevel (level target : Int) (step : Nat) :
    (target - stepLevel level target step).natAbs = (target - level).natAbs - step := by
  unfold stepLevel; (repeat' split) <;> omega

/-- A step stays between level and target. -/
theorem stepLevel_mem_interval (level target : Int) (step : Nat) :
    min level target ≤ stepLevel level target step ∧ stepLevel level target step ≤ max level target := by
  unfold stepLevel; (repeat' split) <;> omega

/-- After `n` steps the distance is shorter by `n` times the step's size. -/
theorem natAbs_sub_iterate_stepLevel (level target : Int) (step n : Nat) :
    (target - (fun l => stepLevel l target step)^[n] level).natAbs = (target - level).natAbs - n * step := by
  induction n with
  | zero => simp
  | succ n ih => rw [Function.iterate_succ_apply', natAbs_sub_stepLevel, ih, Nat.succ_mul, Nat.sub_sub]

theorem iterate_stepLevel_mem_interval (level target : Int) (step n : Nat) :
    min level target ≤ (fun l => stepLevel l target step)^[n] level ∧
      (fun l => stepLevel l target step)^[n] level ≤ max level target := by
  induction n with
  | zero => simp
  | succ n ih =>
    rw [Function.iterate_succ_apply']
    have hstep := stepLevel_mem_interval ((fun l => stepLevel l target step)^[n] level) target step
    omega

/-- Settles O13: each step takes its size off the distance, so the target is reached when `n` steps cover the distance. -/
theorem rampTakesCeilSteps : Obligations.RampTakesCeilSteps := by
  intro level target step n _ walk
  have hdist : (target - walk n).natAbs = (target - level).natAbs - n * step := natAbs_sub_iterate_stepLevel level target step n
  exact ⟨by omega, iterate_stepLevel_mem_interval level target step n⟩

end Sys2Proof.Machine
end

section
/-! PROOFS. The timers of an island's cycle: the settle expiry (R25, R26, R108, R109), the interval expiry (R44) and the phase timer
(R39, R117); and the demand of MEAS (R45, R46). -/

namespace Sys2Proof.Machine

/-! ### The expiries on an island that is there -/

theorem Island.row_of_captured {i : Island} {c : Captured} (h : i.captured = some c) : i.row = c.row := by
  simp [Island.row, h]

theorem timerExpired_of_due {tm : Timer} {now : Time} (h : tm.dur ≤ (now - tm.start).toNat) : timerExpired (some tm) now = true :=
  decide_eq_true h

@[simp] theorem sampling_settleStep (ph : Phase) : (settleStep ph).sampling = some (.settle, ph) := by cases ph <;> rfl

@[simp] theorem sampling_plateauStep (ph : Phase) : (plateauStep ph).sampling = some (.plateau, ph) := by cases ph <;> rfl

section

variable {m : Meas} {ds : DomSet} {i : Island} {tm : Timer}

theorem settleExpiry_of_due (hi : islandAt m ds = some i) (hs : i.state = .forming) (ht : i.settleTimer = .running tm)
    (hdue : tm.dur ≤ (m.timebase - tm.start).toNat) : settleExpiry ds m = some (settleEnd ds m) := by
  have hexp : tm.expired m.timebase = true := decide_eq_true hdue
  simp [settleExpiry, hi, hs, ht, hexp]

theorem intervalExpiry_of_due (hi : islandAt m ds = some i) (hs : i.state = .interval) (ht : i.intervalTimer = some tm)
    (hdue : tm.dur ≤ (m.timebase - tm.start).toNat) : intervalExpiry ds m = some (startCycle .full ds m) := by
  simp [intervalExpiry, hi, hs, ht, timerExpired_of_due hdue]

theorem phaseExpiry_of_due {ph : Phase} (hi : islandAt m ds = some i) (hs : i.state = .cycle (settleStep ph))
    (ht : i.phaseTimer = some tm) (hdue : tm.dur ≤ (m.timebase - tm.start).toNat) :
    phaseExpiry ds m =
      some (enterPlateau ph ds (putIsland { i with quality := { i.quality with unsettled := true } } m)) := by
  simp [phaseExpiry, hi, hs, ht, timerExpired_of_due hdue]

theorem plateauExpiry_of_due {ph : Phase} (hi : islandAt m ds = some i) (hs : i.state = .cycle (plateauStep ph))
    (ht : i.plateauTimer = some tm) (hdue : tm.dur ≤ (m.timebase - tm.start).toNat) :
    plateauExpiry ds m =
      some (enterRamp .rampHome ds (publish ds true (raise .cycleFail (putIsland { i with acc := .empty } m)))) := by
  simp [plateauExpiry, hi, hs, ht, timerExpired_of_due hdue]

end

/-- A check decided FAIL with no Rraw, before its RAMP_HOME (R117). -/
def RefCheck.failed (now : Time) (r : RefCheck) : RefCheck :=
  { r with acc := .empty, outcome := some .fail, rraw := none, decided := some now }

section

variable {m : Meas} {r : RefCheck} {ph : Phase} {tm : Timer}

theorem refPhaseExpiry_of_due (hr : m.ref = some r) (hs : r.step = .cycle (settleStep ph)) (ht : r.phaseTimer = some tm)
    (hdue : tm.dur ≤ (m.timebase - tm.start).toNat) : refPhaseExpiry m = some (refPlateau ph m) := by
  simp [refPhaseExpiry, hr, hs, ht, timerExpired_of_due hdue]

theorem changeRef_failed_ref (now : Time) (hr : m.ref = some r) :
    (changeRef (RefCheck.failed now) m).ref = some (r.failed now) := congrArg (Option.map (RefCheck.failed now)) hr

theorem refPlateauExpiry_of_due (hr : m.ref = some r) (hs : r.step = .cycle (plateauStep ph)) (ht : r.plateauTimer = some tm)
    (hdue : tm.dur ≤ (m.timebase - tm.start).toNat) :
    refPlateauExpiry m = some (refRamp .rampHome (changeRef (RefCheck.failed m.timebase) m)) := by
  simp [refPlateauExpiry, hr, hs, ht, timerExpired_of_due hdue]
  rfl

end

/-! ### The end of FORMING (R25, R108, R109) -/

/-- The suspend entry that waits for an island at the end of its FORMING (R108). -/
def waitingEntry (m : Meas) (i : Island) : Option SuspendEntry :=
  m.suspended.find? fun e => e.members == i.members && e.injector == i.injector

section

variable {m : Meas} {ds : DomSet} {i : Island}

theorem settleEnd_of_running (h : partRunning m = true) : settleEnd ds m = endForming ds m := if_pos h

theorem settleEnd_of_unconfigured (h : partRunning m = false) :
    settleEnd ds m = changeIsland ds (fun i => { i with settleTimer := .expired }) m := if_neg (by simp [h])

theorem endForming_of_absent (hi : islandAt m ds = some i) (hp : isPresent m i.injector = false) :
    endForming ds m = enterStalled ds m := by
  simp [endForming, hi, hp]

theorem endForming_of_no_entry (hi : islandAt m ds = some i) (hp : isPresent m i.injector = true) (he : waitingEntry m i = none) :
    endForming ds m = startFirst ds m := by
  obtain rfl := islandAt_members hi
  unfold waitingEntry at he
  simp [endForming, hi, hp, he]

theorem endForming_of_old_entry {e : SuspendEntry} (hi : islandAt m ds = some i) (hp : isPresent m i.injector = true)
    (he : waitingEntry m i = some e) (hold : e.captured.row.resumeAge * 1000 < (m.timebase - e.time).toNat) :
    endForming ds m = startFirst ds (dropEntry ds m) := by
  obtain rfl := islandAt_members hi
  unfold waitingEntry at he
  have hage : entryTooOld e m.timebase = true := decide_eq_true hold
  simp [endForming, hi, hp, he, hage]

theorem endForming_of_young_entry {e : SuspendEntry} (hi : islandAt m ds = some i) (hp : isPresent m i.injector = true)
    (he : waitingEntry m i = some e) (hyoung : (m.timebase - e.time).toNat ≤ e.captured.row.resumeAge * 1000) :
    endForming ds m = resumeCycle e ds (dropEntry ds m) := by
  obtain rfl := islandAt_members hi
  unfold waitingEntry at he
  have hage : entryTooOld e m.timebase = false := decide_eq_false (Nat.not_lt.2 hyoung)
  simp [endForming, hi, hp, he, hage]

end

/-! ### Resumption (R109) -/

/-- A change of a tap that leaves its mailbox leaves every mailbox. -/
theorem mailbox_set_of_eq {taps : PerDom Tap} {t : Dom} {p : Tap} (h : p.mailbox = (taps.get t).mailbox) (d : Dom) :
    ((taps.set t p).get d).mailbox = (taps.get d).mailbox := by
  rw [PerDom.get_set]
  split
  · next hd => rw [h, hd]
  · rfl

/-- A ramp step of a cycle writes no mailbox when it goes to POS or NEG (R32). -/
theorem mailbox_enterRamp_up {m : Meas} {ds : DomSet} {i : Island} {st : CycleStep} (hi : islandAt m ds = some i)
    (hst : st = .rampPos ∨ st = .rampNeg) (d : Dom) :
    ((enterRamp st ds m).taps.get d).mailbox = (m.taps.get d).mailbox := by
  by_cases h : (m.taps.get i.injector).mailbox.level = rampTarget st i.row.injMv
  · have hp : islandAt (changeTap i.injector (fun p => { p with ramp := none })
        (putIsland { stopTimers i with state := .cycle st } m)) ds = some { stopTimers i with state := .cycle st } :=
      islandAt_putIsland (i := { stopTimers i with state := .cycle st }) hi (show i.members = ds from islandAt_members hi)
    obtain ⟨hpos, hneg, -⟩ := afterCycleRamp_of hp
    rw [enterRamp_of_eq hi h]
    rcases hst with rfl | rfl
    · rw [hpos rfl]; exact mailbox_set_of_eq (taps := m.taps) (by rfl) d
    · rw [hneg rfl]; exact mailbox_set_of_eq (taps := m.taps) (by rfl) d
  · rw [enterRamp_of_ne hi h]
    exact mailbox_set_of_eq (taps := m.taps) (by rfl) d

/-- Island `j` is island `i` with the cycle of an entry taken up: its context is the entry's, and it stands at the step that begins the
suspended phase; a ramp to POS or NEG from level 0 is under way, where the taps were `taps` and are `taps'` (R109). -/
structure Resumed (e : SuspendEntry) (taps taps' : PerDom Tap) (i j : Island) : Prop where
  captured : j.captured = some e.captured
  mode : j.mode = e.mode
  means : j.means = e.means
  counts : j.counts = e.counts
  quality : j.quality = { e.quality with resumed := true }
  demand : j.demand = i.demand
  slot : j.slot = i.slot
  quiet : e.phase = .quiet → j.state = .cycle .quietSettle ∧ taps' = taps
  pos : e.phase = .pos → e.captured.row.injMv ≠ 0 → (taps.get i.injector).mailbox.level = 0 →
    j.state = .cycle .rampPos ∧ (taps'.get i.injector).ramp =
      some ⟨e.captured.row.injMv, e.captured.row.slew * 20, .domain, .connected, .cycle⟩
  neg : e.phase = .neg → e.captured.row.injMv ≠ 0 → (taps.get i.injector).mailbox.level = 0 →
    j.state = .cycle .rampNeg ∧ (taps'.get i.injector).ramp =
      some ⟨-e.captured.row.injMv, e.captured.row.slew * 20, .domain, .connected, .cycle⟩

/-- An island whose context is that of a suspend entry, as it is taken up again (R109). -/
def Island.takingUp (e : SuspendEntry) (i : Island) : Island :=
  { stopTimers i with
    mode := e.mode, captured := some e.captured, means := e.means, counts := e.counts,
    quality := { e.quality with resumed := true } }

/-- A resumption through a ramp to POS or NEG. -/
theorem resumed_enterRamp {m : Meas} {ds : DomSet} {i : Island} {e : SuspendEntry} {st : CycleStep} {ph : Phase}
    (hi : islandAt m ds = some (i.takingUp e))
    (hst : (st = .rampPos ∧ ph = .pos) ∨ (st = .rampNeg ∧ ph = .neg)) (he : e.phase = ph) :
    ∃ j, islandAt (enterRamp st ds m) ds = some j ∧ Resumed e m.taps (enterRamp st ds m).taps i j := by
  obtain ⟨-, -, j, hj, hcap, hmode, hmeans, hcounts, hqual, hdemand, hslot, -⟩ := enterRamp_up hi hst
  have hramp : e.captured.row.injMv ≠ 0 → (m.taps.get i.injector).mailbox.level = 0 → j.state = .cycle st ∧
      ((enterRamp st ds m).taps.get i.injector).ramp =
        some ⟨rampTarget st e.captured.row.injMv, e.captured.row.slew * 20, .domain, .connected, .cycle⟩ := by
    intro hu hl
    have hne : (m.taps.get (i.takingUp e).injector).mailbox.level ≠ rampTarget st (i.takingUp e).row.injMv := by
      show (m.taps.get i.injector).mailbox.level ≠ rampTarget st e.captured.row.injMv
      rw [hl]
      rcases hst with ⟨rfl, -⟩ | ⟨rfl, -⟩ <;> simp only [rampTarget] <;> omega
    rw [islandAt_enterRamp_of_ne hi hne] at hj
    cases hj
    refine ⟨rfl, ?_⟩
    rw [enterRamp_of_ne hi hne, changeTap_taps]
    exact congrArg Tap.ramp (PerDom.get_set_self ..)
  refine ⟨j, hj, hcap, hmode, hmeans, hcounts, hqual, hdemand, hslot, ?_, ?_, ?_⟩
  · intro hq
    rcases hst with ⟨-, rfl⟩ | ⟨-, rfl⟩ <;> rw [he] at hq <;> cases hq
  · intro hp hu hl
    rcases hst with ⟨rfl, rfl⟩ | ⟨-, rfl⟩
    · exact hramp hu hl
    · rw [he] at hp; cases hp
  · intro hn hu hl
    rcases hst with ⟨-, rfl⟩ | ⟨rfl, rfl⟩
    · rw [he] at hn; cases hn
    · exact hramp hu hl

theorem resumeCycle_spec {m : Meas} {ds : DomSet} {i : Island} (e : SuspendEntry) (hi : islandAt m ds = some i) :
    (resumeCycle e ds m).suspended = m.suspended ∧
    (∀ d, ((resumeCycle e ds m).taps.get d).mailbox = (m.taps.get d).mailbox) ∧
    ∃ j, islandAt (resumeCycle e ds m) ds = some j ∧ Resumed e m.taps (resumeCycle e ds m).taps i j := by
  have htaken : islandAt (changeIsland ds (Island.takingUp e) m) ds = some (i.takingUp e) :=
    islandAt_changeIsland_some hi fun _ => rfl
  cases hph : e.phase with
  | quiet =>
    have heq : resumeCycle e ds m = enterSettle .quiet ds (changeIsland ds (Island.takingUp e) m) := by
      unfold resumeCycle; rw [hph]; rfl
    rw [heq]
    have hquiet : ∀ {P : Prop} {ph : Phase}, ph ≠ .quiet → e.phase = ph → P := fun hne h => absurd (h.symm.trans hph) hne
    exact ⟨rfl, fun _ => rfl, _, islandAt_enterSettle .quiet htaken, rfl, rfl, rfl, rfl, rfl, rfl, rfl, fun _ => ⟨rfl, rfl⟩,
      hquiet (by decide), hquiet (by decide)⟩
  | pos =>
    have heq : resumeCycle e ds m = enterRamp .rampPos ds (changeIsland ds (Island.takingUp e) m) := by
      unfold resumeCycle; rw [hph]; rfl
    rw [heq]
    exact ⟨(enterRamp_up htaken (.inl ⟨rfl, rfl⟩)).1, mailbox_enterRamp_up htaken (.inl rfl),
      resumed_enterRamp htaken (.inl ⟨rfl, rfl⟩) hph⟩
  | neg =>
    have heq : resumeCycle e ds m = enterRamp .rampNeg ds (changeIsland ds (Island.takingUp e) m) := by
      unfold resumeCycle; rw [hph]; rfl
    rw [heq]
    exact ⟨(enterRamp_up htaken (.inr ⟨rfl, rfl⟩)).1, mailbox_enterRamp_up htaken (.inr rfl),
      resumed_enterRamp htaken (.inr ⟨rfl, rfl⟩) hph⟩

/-! ### The settle and the interval timer -/

/-- Settles O15: with nothing to resume, the end of FORMING starts the first cycle. -/
theorem timersStartCycles : Obligations.TimersStartCycles := by
  refine ⟨fun s ds i tm row hi hs ht hdue hrun hp hnone hrow => ⟨_, rfl, ?_⟩,
    fun s ds i tm row hi hs ht hdue hrow => ⟨_, rfl, ?_⟩⟩
  · have hentry : waitingEntry s.meas i = none := by
      simpa [waitingEntry, islandAt_members hi] using hnone
    exact onEvent_moved (settleExpiry_of_due hi hs ht hdue)
      ((settleEnd_of_running hrun).trans ((endForming_of_no_entry hi hp hentry).trans (startFirst_spec hi hrow)))
  · exact onEvent_moved (intervalExpiry_of_due hi hs ht hdue) (startCycle_spec .full hi hrow)

/-- Settles O16, by the four ends of FORMING. -/
theorem settleTimerWaitsStallsResumes : Obligations.SettleTimerWaitsStallsResumes := by
  intro s ds i tm hi hs ht hdue
  have hexpiry := settleExpiry_of_due hi hs ht hdue
  have hmembers := islandAt_members hi
  refine ⟨_, rfl, fun hrun => ?_, fun hrun hp => ?_, fun e row hrun hp he hold hrow => ?_, fun e hrun hp he hyoung => ?_⟩
  · exact onEvent_moved hexpiry (settleEnd_of_unconfigured hrun)
  · exact onEvent_moved hexpiry
      ((settleEnd_of_running hrun).trans ((endForming_of_absent hi hp).trans (enterStalled_spec hi)))
  · subst hmembers
    exact onEvent_moved hexpiry ((settleEnd_of_running hrun).trans ((endForming_of_old_entry hi hp he hold).trans
      (startFirst_spec (m := dropEntry i.members s.meas) hi hrow)))
  · subst hmembers
    have hmoved := onEvent_moved hexpiry ((settleEnd_of_running hrun).trans (endForming_of_young_entry hi hp he hyoung))
    obtain ⟨hsusp, -, j, hj, hres⟩ := resumeCycle_spec (m := dropEntry i.members s.meas) e hi
    refine ⟨?_, j, (hmoved.islandAt _).trans hj, hres.captured, hres.mode, hres.means, hres.counts, hres.quality, hres.demand,
      hres.slot, fun h => (hres.quiet h).1, fun h hu hl => ?_, fun h hu hl => ?_⟩
    · rw [hmoved.meas]; exact hsusp
    · rw [hmoved.ramp]; exact hres.pos h hu hl
    · rw [hmoved.ramp]; exact hres.neg h hu hl

/-- Settles O17. -/
theorem phaseTimerBeginsPlateau : Obligations.PhaseTimerBeginsPlateau := by
  refine ⟨fun s ds i c ph tm hi hs hc ht hdue => ⟨_, rfl, ?_⟩, fun s r ph tm hr hs ht hdue => ⟨_, rfl, ?_⟩⟩
  · obtain rfl := islandAt_members hi
    refine onEvent_moved (phaseExpiry_of_due hi hs ht hdue) ?_
    rw [← Island.row_of_captured hc]
    exact (enterPlateau_putIsland ph { i with quality := { i.quality with unsettled := true } } s.meas)
  · refine onEvent_moved (refPhaseExpiry_of_due hr hs ht hdue) ?_
    rw [refPlateau, changeRef, hr]; rfl

/-! ### MEAS (R45, R46) -/

theorem mergeDemand_eq (old : Option Mode) (md : Mode) : mergeDemand old md = some (if old = some .full then .full else md) := by
  unfold mergeDemand; split
  · rfl
  · next h => rw [if_neg h]

section

variable {m : Meas} {d : Dom} {i : Island} (md : Mode)

theorem demandOn_of_interval (hi : islandOf m d = some i) (hs : i.state = .interval) :
    demandOn d md m = startCycle md i.members m := by
  simp [demandOn, hi, hs]

theorem demandOn_of_held (hi : islandOf m d = some i) (hs : i.state = .forming ∨ ∃ st, i.state = .cycle st) :
    demandOn d md m = putIsland { i with demand := some (if i.demand = some .full then .full else md) } m := by
  rcases hs with hs | ⟨st, hs⟩ <;> simp [demandOn, hi, hs, mergeDemand_eq]

end

/-- What MEAS does with arguments that exist: the demand where the island takes one, and WRONGSTATE elsewhere (R45). -/
theorem doMeas_of_args {q : Frame} {s : State} {d : Dom} {md : Mode} (hd : fittedArg s.meas q 0 = some d)
    (hmd : Mode.ofCode (nat8 q.payload 1) = some md) :
    doMeas q s =
      if s.meas.topo.state = .known ∧ (islandOf s.meas d).elim false (takesDemand ·.state) = true then
        pumpBoth (respond q .ok [] (s.withMeas (demandOn d md)))
      else pumpUp (respond q .wrongState [] s) := by
  simp only [doMeas, hd, hmd, bne_iff_ne, ne_eq]
  by_cases hk : s.meas.topo.state = .known <;> simp [hk]

/-- Settles O19, by the state of the island that holds the domain. -/
theorem measDemand : Obligations.MeasDemand := by
  have hexec : ∀ {q rest s}, HeadRequest 0x13 2 1 q rest s → takeRequest (· == kindMeas) doMeas s = doMeas q (taken rest s) :=
    fun h => takeRequest_of_head h (responses_one h.2.1 (by decide) (by decide)).le (by decide) (by decide)
  refine ⟨fun s q rest d md i hq hd hfit hmd hk hof hi => ⟨_, rfl, ?_⟩, fun s q rest hq => ⟨_, rfl, ?_⟩⟩
  · have harg : fittedArg (taken rest s).meas q 0 = some d := fittedArg_some hd hfit
    have hof' : islandOf (taken rest s).meas d = some i := hof
    have hdemand : takesDemand i.state = true → ∀ m', demandOn d md s.meas = m' →
        OutputsMoved (answered q .ok [] { taken rest s with meas := m' }) (takeRequest (· == kindMeas) doMeas s) := by
      rintro htakes m' rfl
      rw [hexec hq, doMeas_of_args harg hmd, if_pos ⟨hk, by rw [hof']; exact htakes⟩]
      exact respond_both_moved (hq.room one_pos)
    refine ⟨fun row hs hrow => ?_, fun hs => ?_, fun hs => ?_⟩
    · exact hdemand (by rw [hs]; rfl) _ ((demandOn_of_interval md hof hs).trans (startCycle_spec md hi hrow))
    · exact hdemand (by rcases hs with hs | ⟨st, hs⟩ <;> rw [hs] <;> rfl) _ (demandOn_of_held md hof hs)
    · have htakes : takesDemand i.state = false := by rcases hs with hs | hs | hs | hs <;> rw [hs] <;> rfl
      rw [hexec hq, doMeas_of_args harg hmd, if_neg (by rw [hof']; simp [htakes])]
      exact respond_up_moved (hq.room one_pos)
  · rw [hexec hq]
    refine ⟨fun hbad => ?_, fun d md hd hfit hmd hk => ?_⟩
    · have hrefuse : doMeas q (taken rest s) = pumpUp (respond q .badArg [] (taken rest s)) := by
        rcases hbad with hd | hmd
        · have harg : fittedArg (taken rest s).meas q 0 = none := fittedArg_none hd
          simp [doMeas, harg]
        · simp [doMeas, hmd]
      rw [hrefuse]
      exact respond_up_moved (hq.room one_pos)
    · have harg : fittedArg (taken rest s).meas q 0 = some d := fittedArg_some hd hfit
      rw [doMeas_of_args harg hmd, if_neg fun h => hk h.1]
      exact respond_up_moved (hq.room one_pos)

end Sys2Proof.Machine
end

section
/-! PROOFS. One used sample (R33 to R40), and what it does to an island's cycle. -/

namespace Sys2Proof.Machine

/-! ### Gaps, echo and noise (R34 to R37) -/

/-- A gap that restarts the step is no smaller one (R36). -/
theorem gapped_eq (maxGap delta : Nat) :
    (decide (2 ≤ delta) && !decide (maxGap + 1 < delta)) = decide (2 ≤ delta ∧ delta ≤ maxGap + 1) := by
  rw [Bool.decide_and, ← decide_not]; simp only [Nat.not_lt]

theorem echoes_iff (b : Mailbox) (x : Sample) : echoes b x = true ↔
    x.applied = b.level ∧ (x.ref = true ↔ b.path = .ref) ∧ (x.bal = true ↔ b.balance = .connected) := by
  simp only [echoes, Bool.and_eq_true, beq_iff_eq, and_assoc]
  exact and_congr_right' (and_congr (Bool.eq_iff_iff.trans (by rw [beq_iff_eq])) (Bool.eq_iff_iff.trans (by rw [beq_iff_eq])))

/-- What the gap before a sample leaves of the accumulators (R36). -/
def gapLeaves (maxGap delta : Nat) (a : Accum) : Accum := if maxGap + 1 < delta then .empty else a

/-- A used sample, taken by its class once the gap before it is dealt with (R34, R36). -/
theorem takeSample_eq (st : Stage) (ph : Phase) (row : CycleRow) (n run : Nat) (b : Mailbox) (delta : Nat) (x : Sample) (a : Accum) :
    takeSample st ph row n run b delta x a =
      { takeSample st ph row n run b 1 x (gapLeaves row.maxGap delta a) with
        gapped := decide (2 ≤ delta ∧ delta ≤ row.maxGap + 1) } := by
  have hone : ¬ row.maxGap + 1 < 1 := by omega
  simp only [takeSample, gapped_eq, takeNoise, takeSettle, takePlateau, gapLeaves, hone, decide_false, decide_eq_true_eq,
    Bool.false_eq_true, if_false]
  cases st <;> (repeat' split) <;> rfl

section

variable {st : Stage} {ph : Phase} {row : CycleRow} {n run : Nat} {b : Mailbox} {x : Sample} {a : Accum}

/-- A sample in order that does not echo its command counts for nothing (R34). -/
theorem takeSample_of_skipped (h : echoes b x = false) :
    takeSample st ph row n run b 1 x a = ⟨a, false, false, false, false, false⟩ := by
  simp [takeSample, h]

/-- One that echoes with CLIP or TFLT is noise (R35). -/
theorem takeSample_of_noise (h : echoes b x = true) (hn : x.clip = true ∨ x.tflt = true) :
    takeSample st ph row n run b 1 x a = takeNoise row false a := by
  have hclass : (x.clip || x.tflt) = true := by simpa using hn
  simp [takeSample, h, hclass]

/-- A valid sample of a SETTLE step in order. -/
theorem takeSample_settle (h : echoes b x = true) (hc : x.clip = false) (ht : x.tflt = false) :
    takeSample .settle ph row n run b 1 x a = takeSettle row run false x.vs a := by
  simp [takeSample, h, hc, ht]

/-- A valid sample of a PLATEAU step in order. -/
theorem takeSample_plateau (h : echoes b x = true) (hc : x.clip = false) (ht : x.tflt = false) :
    takeSample .plateau ph row n run b 1 x a = takePlateau n ph false x a := by
  simp [takeSample, h, hc, ht]

end

/-- A valid sample of a PLATEAU, whatever the gap before it (R36, R40). -/
theorem takeSample_plateau_gap {ph : Phase} {row : CycleRow} {b : Mailbox} {x : Sample} (n run delta : Nat) (a : Accum)
    (h : echoes b x = true) (hc : x.clip = false) (ht : x.tflt = false) :
    takeSample .plateau ph row n run b delta x a =
      takePlateau n ph (decide (2 ≤ delta ∧ delta ≤ row.maxGap + 1)) x (gapLeaves row.maxGap delta a) := by
  rw [takeSample_eq, takeSample_plateau h hc ht]; rfl

/-- Noise counts up to noise_limit, and restarts the step above it (R35, R37). -/
theorem takeNoise_of_le {row : CycleRow} {a : Accum} (gapped : Bool) (h : a.noise + 1 ≤ row.noiseLimit) :
    takeNoise row gapped a = ⟨{ a with noise := a.noise + 1 }, false, gapped, false, false, false⟩ := if_neg (by omega)

theorem takeNoise_of_lt {row : CycleRow} {a : Accum} (gapped : Bool) (h : row.noiseLimit < a.noise + 1) :
    takeNoise row gapped a = ⟨.empty, true, gapped, false, false, false⟩ := if_pos h

/-- A noise-rejected sample completes nothing. -/
theorem takeNoise_completes_nothing (row : CycleRow) (gapped : Bool) (a : Accum) :
    (takeNoise row gapped a).block = false ∧ (takeNoise row gapped a).settled = false ∧ (takeNoise row gapped a).full = false := by
  unfold takeNoise; split <;> exact ⟨rfl, rfl, rfl⟩

/-! ### Blocks and means (R38, R40) -/

/-- A mean is its sum's quotient rounded half upward. -/
theorem meanOf_rounds (sum : Int) {n : Nat} (h : 0 < n) :
    n * meanOf sum n ≤ sum + (n / 2 : Nat) ∧ sum + (n / 2 : Nat) < n * (meanOf sum n + 1) := by
  have hn : (0 : Int) < n := by exact_mod_cast h
  exact ⟨Int.mul_ediv_self_le hn.ne', Int.lt_mul_ediv_self_add hn |>.trans_eq (by unfold meanOf; ring)⟩

/-- A mean of readings that are not negative is not negative. -/
theorem meanOf_natCast (sum n : Nat) : ((meanOf sum n).toNat : Int) = meanOf sum n :=
  Int.toNat_of_nonneg (Int.ediv_nonneg (by positivity) (by positivity))

/-- A block's mean is stable when it lies within settle_tol of the previous block's (R38). -/
def blockStable (settleTol : Nat) (prev : Option Int) (mean : Int) : Bool :=
  match prev with
  | some p => decide ((mean - p).natAbs ≤ settleTol)
  | none => false

theorem takeSettle_of_partial {row : CycleRow} {a : Accum} (run : Nat) (gapped : Bool) (vs : Int) (h : a.blockCount + 1 < row.block) :
    takeSettle row run gapped vs a =
      ⟨{ a with blockSum := a.blockSum + vs, blockCount := a.blockCount + 1 }, false, gapped, false, false, false⟩ := if_pos h

/-- The sample that completes a block (R38). -/
theorem takeSettle_of_full {row : CycleRow} {a : Accum} (run : Nat) (gapped : Bool) (vs : Int) (h : a.blockCount + 1 = row.block) :
    takeSettle row run gapped vs a =
      let mean := meanOf (a.blockSum + vs) row.block
      let stableRun := if blockStable row.settleTol a.prevMean mean = true then a.stableRun + 1 else 0
      ⟨{ a with blockSum := 0, blockCount := 0, prevMean := some mean, stableRun := stableRun }, false, gapped, true,
        decide (run ≤ stableRun), false⟩ :=
  if_neg (by omega)

/-! ### The island that a sample reaches (R33) -/

/-- The island after a sample was taken, before any step it brings about. -/
def Island.sampled (ph : Phase) (k : Taken) (i : Island) : Island :=
  { i with
    acc := k.acc
    quality := { i.quality with noisy := i.quality.noisy || k.noisy, gapped := i.quality.gapped || k.gapped }
    counts := if k.block then countBlock ph i.counts else i.counts }

/-- The sample of an island's injector in a sampling step, as its accumulators take it (R33). -/
def takenBy (m : Meas) (i : Island) (stage : Stage) (ph : Phase) (delta : Nat) (x : Sample) : Taken :=
  takeSample stage ph i.row (plateauLength i.mode i.row) (settleRun i.mode i.row) (m.taps.get i.injector).mailbox delta x i.acc

/-- A sampling step is the SETTLE or the PLATEAU step of its phase. -/
theorem sampling_eq_some {step : CycleStep} {stage : Stage} {ph : Phase} (h : step.sampling = some (stage, ph)) :
    step = settleStep ph ∨ step = plateauStep ph := by
  cases step <;> cases h <;> simp [settleStep, plateauStep]

theorem cycleSample_of_sampling {m : Meas} {d : Dom} {i : Island} {step : CycleStep} {stage : Stage} {ph : Phase} (delta : Nat)
    (x : Sample) (hd : injectedBy m d = some i) (hs : i.state = .cycle step) (hst : step.sampling = some (stage, ph)) :
    cycleSample d delta x m =
      if (takenBy m i stage ph delta x).settled then
        enterPlateau ph i.members (putIsland (i.sampled ph (takenBy m i stage ph delta x)) m)
      else if (takenBy m i stage ph delta x).full then
        completePlateau ph i.members (putIsland (i.sampled ph (takenBy m i stage ph delta x)) m)
      else putIsland (i.sampled ph (takenBy m i stage ph delta x)) m := by
  obtain rfl := injectedBy_injector hd
  unfold cycleSample
  rw [hd]
  dsimp only
  split
  · next step' hs' =>
    obtain rfl : step' = step := IslandState.cycle.inj (hs'.symm.trans hs)
    rw [hst]
    rfl
  · next h => exact absurd hs (h step)

/-- The sample of another tap, or of an injector whose island is in no sampling step, is not used (R33). -/
theorem cycleSample_of_unused {m : Meas} {d : Dom} (delta : Nat) (x : Sample)
    (h : ∀ i ph, injectedBy m d = some i → i.state ≠ .cycle (settleStep ph) ∧ i.state ≠ .cycle (plateauStep ph)) :
    cycleSample d delta x m = m := by
  unfold cycleSample
  split
  · rfl
  · next i hi =>
    split
    · next step hs =>
      split
      · rfl
      · next stage ph hst =>
        rcases sampling_eq_some hst with rfl | rfl
        · exact absurd hs (h i ph hi).1
        · exact absurd hs (h i ph hi).2
    · rfl

/-! ### N, S, and a completed plateau (R28, R32, R42) -/

theorem plateauLength_eq (md : Mode) (row : CycleRow) : plateauLength md row = if md = .fast then 16 else row.nFull := by
  cases md <;> rfl

theorem settleRun_eq (md : Mode) (row : CycleRow) : settleRun md row = if md = .fast then 2 else row.settleBlocks := by
  cases md <;> rfl

theorem countBlock_eq (ph : Phase) (k : Counts) : countBlock ph k =
    ⟨if ph = .quiet then min 65535 (k.quiet + 1) else k.quiet, if ph = .pos then min 65535 (k.pos + 1) else k.pos,
      if ph = .neg then min 65535 (k.neg + 1) else k.neg⟩ := by
  cases ph <;> rfl

theorem takenBy_of_captured {m : Meas} {i : Island} {c : Captured} (hc : i.captured = some c) (stage : Stage) (ph : Phase)
    (delta : Nat) (x : Sample) :
    takenBy m i stage ph delta x = takeSample stage ph c.row (if i.mode = .fast then 16 else c.row.nFull)
      (if i.mode = .fast then 2 else c.row.settleBlocks) (m.taps.get i.injector).mailbox delta x i.acc := by
  rw [takenBy, Island.row_of_captured hc, plateauLength_eq, settleRun_eq]

/-- A ramp step of an island that was put, its injector away from the ramp's target (R32). -/
theorem enterRamp_putIsland_of_ne {m : Meas} {i j : Island} {st : CycleStep} (hj : islandAt m i.members = some j)
    (h : (m.taps.get i.injector).mailbox.level ≠ rampTarget st i.row.injMv) :
    enterRamp st i.members (putIsland i m) = putIsland { stopTimers i with state := .cycle st } { m with
      taps := m.taps.set i.injector { m.taps.get i.injector with
        ramp := some ⟨rampTarget st i.row.injMv, i.row.slew * 20, .domain, .connected, .cycle⟩
        refreshStart := some m.timebase } } := by
  rw [enterRamp_of_ne (islandAt_putIsland hj rfl) h, putIsland_putIsland _ _ _ (by rfl)]
  rfl

/-- The completed QUIET plateau retains its three means (R40, R42). -/
theorem completePlateau_quiet {m : Meas} {i j : Island} (hj : islandAt m i.members = some j) :
    completePlateau .quiet i.members (putIsland i m) = enterRamp .rampPos i.members (putIsland { i with means := { i.means with
      vq := some (meanOf i.acc.sumVs (plateauLength i.mode i.row))
      vPlusQ := some (meanOf i.acc.sumVPlus (plateauLength i.mode i.row)).toNat
      vMinusQ := some (meanOf i.acc.sumVMinus (plateauLength i.mode i.row)).toNat } } m) := by
  unfold completePlateau
  rw [islandAt_putIsland hj rfl]
  dsimp only
  rw [putIsland_putIsland _ _ _ (by rfl)]

/-- The completed POS plateau retains Vp (R40, R42). -/
theorem completePlateau_pos {m : Meas} {i j : Island} (hj : islandAt m i.members = some j) :
    completePlateau .pos i.members (putIsland i m) = enterRamp .rampNeg i.members (putIsland { i with means := { i.means with
      vp := some (meanOf i.acc.sumVs (plateauLength i.mode i.row)) } } m) := by
  unfold completePlateau
  rw [islandAt_putIsland hj rfl]
  dsimp only
  rw [putIsland_putIsland _ _ _ (by rfl)]

/-- An island whose plateau a valid sample has filled (R36, R40). -/
def Island.filled (ph : Phase) (maxGap delta : Nat) (x : Sample) (i : Island) : Island :=
  { i with
    acc := (takePlateau 0 ph false x (gapLeaves maxGap delta i.acc)).acc
    quality := { i.quality with gapped := i.quality.gapped || decide (2 ≤ delta ∧ delta ≤ maxGap + 1) } }

/-- The valid sample that fills an island's plateau completes it (R40, R42). -/
theorem cycleSample_of_full {m : Meas} {d : Dom} {i : Island} {ph : Phase} {delta : Nat} {x : Sample}
    (hd : injectedBy m d = some i) (hs : i.state = .cycle (plateauStep ph))
    (he : echoes (m.taps.get d).mailbox x = true) (hclip : x.clip = false) (htflt : x.tflt = false)
    (hn : (gapLeaves i.row.maxGap delta i.acc).plateauCount + 1 = plateauLength i.mode i.row) :
    cycleSample d delta x m = completePlateau ph i.members (putIsland (i.filled ph i.row.maxGap delta x) m) := by
  obtain rfl := injectedBy_injector hd
  have hk : takenBy m i .plateau ph delta x = _ := takeSample_plateau_gap _ _ _ _ he hclip htflt
  have hfull : (takenBy m i .plateau ph delta x).full = true := by rw [hk]; exact decide_eq_true hn.ge
  have hsettled : (takenBy m i .plateau ph delta x).settled = false := by rw [hk]; rfl
  rw [cycleSample_of_sampling delta x hd hs (sampling_plateauStep ph), if_neg (by simp [hsettled]), if_pos hfull, hk]
  simp [Island.sampled, Island.filled, takePlateau]

/-! ### The parts of the statement -/

section

variable (st : Stage) (ph : Phase) (row : CycleRow) (n run : Nat) (b : Mailbox) (delta : Nat) (x : Sample) (a : Accum)

theorem takeSample_skipped_or_noise :
    let k := takeSample st ph row n run b delta x a
    let a1 := gapLeaves row.maxGap delta a
    (echoes b x = false → k.acc = a1 ∧ k.noisy = false ∧ k.block = false ∧ k.settled = false ∧ k.full = false) ∧
    (echoes b x = true → (x.clip = true ∨ x.tflt = true) → k.block = false ∧ k.settled = false ∧ k.full = false ∧
      (a1.noise + 1 ≤ row.noiseLimit → k.acc = { a1 with noise := a1.noise + 1 } ∧ k.noisy = false) ∧
      (row.noiseLimit < a1.noise + 1 → k.acc = Accum.empty ∧ k.noisy = true)) := by
  intro k a1
  have hk : k = { takeSample st ph row n run b 1 x a1 with gapped := decide (2 ≤ delta ∧ delta ≤ row.maxGap + 1) } :=
    takeSample_eq ..
  refine ⟨fun h => ?_, fun h hn => ?_⟩
  · rw [hk, takeSample_of_skipped h]; exact ⟨rfl, rfl, rfl, rfl, rfl⟩
  · rw [takeSample_of_noise h hn] at hk
    obtain ⟨hblock, hsettled, hfull⟩ := takeNoise_completes_nothing row false a1
    rw [hk]
    refine ⟨hblock, hsettled, hfull, fun hle => ?_, fun hlt => ?_⟩
    · rw [takeNoise_of_le false hle]; exact ⟨rfl, rfl⟩
    · rw [takeNoise_of_lt false hlt]; exact ⟨rfl, rfl⟩

end

/-- Settles O20: the classes of a sample first, then what a taken sample brings about at an injector. -/
theorem sampleTaken : Obligations.SampleTaken := by
  refine ⟨?_, ?_, ?_, ?_, ?_, ?_, ?_⟩
  · intro st ph row n run b delta x a k a1 echoed
    obtain ⟨hskipped, hnoise⟩ := takeSample_skipped_or_noise st ph row n run b delta x a
    have hk : k = { takeSample st ph row n run b 1 x a1 with gapped := decide (2 ≤ delta ∧ delta ≤ row.maxGap + 1) } :=
      takeSample_eq ..
    refine ⟨by rw [hk]; exact decide_eq_true_iff, hk, fun h => ?_, fun h => hnoise ((echoes_iff b x).2 h)⟩
    exact hskipped (by rw [← Bool.not_eq_true, echoes_iff]; exact h)
  · intro ph row n run b x a he hc ht hlt
    rw [takeSample_settle he hc ht, takeSettle_of_partial _ _ _ hlt]
  · intro ph row n run b x a he hc ht hpos hfull k sum
    have hk : k = _ := (takeSample_settle he hc ht).trans (takeSettle_of_full run false x.vs hfull)
    obtain ⟨hlow, hhigh⟩ := meanOf_rounds sum hpos
    rw [hk]
    refine ⟨meanOf sum row.block, rfl, hlow, hhigh, rfl, rfl, rfl, rfl, fun p hp hle => ?_, fun p hp hlt => ?_, fun hnone => ?_,
      decide_eq_true_iff, rfl⟩
    · exact if_pos (by rw [hp]; exact decide_eq_true hle)
    · exact if_neg (by rw [hp]; simpa [blockStable] using hlt)
    · exact if_neg (by rw [hnone]; simp [blockStable])
  · intro ph row n run b x a he hc ht k
    have hk : k = takePlateau n ph false x a := takeSample_plateau he hc ht
    rw [hk]
    exact ⟨rfl, rfl, rfl, rfl, rfl, decide_eq_true_iff⟩
  · intro m d i c delta x st ph hd hi hc hstate k up counted j
    obtain ⟨step, hs, hst⟩ : ∃ step, i.state = .cycle step ∧ step.sampling = some (st, ph) := by
      rcases hstate with ⟨rfl, hs⟩ | ⟨rfl, hs⟩
      · exact ⟨_, hs, sampling_settleStep ph⟩
      · exact ⟨_, hs, sampling_plateauStep ph⟩
    have hsample := cycleSample_of_sampling delta x hd hs hst
    obtain rfl := injectedBy_injector hd
    have hk : takenBy m i st ph delta x = k := takenBy_of_captured hc ..
    have hj : i.sampled ph k = j := by simp only [Island.sampled, countBlock_eq]; rfl
    rw [hk, hj] at hsample
    refine ⟨fun hsettled hfull => ?_, fun hsettled => ?_⟩
    · rw [hsample, hsettled, hfull]; rfl
    · rw [hsample, if_pos hsettled, ← Island.row_of_captured hc]
      exact enterPlateau_putIsland ph j m
  · exact fun m d delta x h => cycleSample_of_unused delta x h
  · intro m d i c delta x hd hi hc he hclip htflt
    rw [← Island.row_of_captured hc, ← plateauLength_eq]
    intro n a1 rounds acc ramping hpos hn
    obtain rfl := injectedBy_injector hd
    refine ⟨fun hs hl => ?_, fun hs hl => ?_⟩
    · have hacc : acc = (i.filled .quiet i.row.maxGap delta x).acc := by
        simp only [acc, hs, if_true]
        rw [takeSample_plateau_gap _ _ _ _ he hclip htflt]; rfl
      have hplateau := (cycleSample_of_full (ph := .quiet) hd hs he hclip htflt hn).trans (completePlateau_quiet hi)
      refine ⟨meanOf (a1.sumVs + x.vs) n, (meanOf (a1.sumVPlus + x.vPlus : Nat) n).toNat,
        (meanOf (a1.sumVMinus + x.vMinus : Nat) n).toNat, meanOf_rounds _ hpos, ?_, ?_,
        (hplateau.trans (enterRamp_putIsland_of_ne (st := .rampPos) hi hl)).trans ?_⟩
      · rw [meanOf_natCast]; exact meanOf_rounds _ hpos
      · rw [meanOf_natCast]; exact meanOf_rounds _ hpos
      · dsimp only [ramping]; rw [hacc]; rfl
    · have hacc : acc = (i.filled .pos i.row.maxGap delta x).acc := by
        simp only [acc, hs, reduceCtorEq, IslandState.cycle.injEq, if_false]
        rw [takeSample_plateau_gap _ _ _ _ he hclip htflt]; rfl
      have hplateau := (cycleSample_of_full (ph := .pos) hd hs he hclip htflt hn).trans (completePlateau_pos hi)
      refine ⟨meanOf (a1.sumVs + x.vs) n, meanOf_rounds _ hpos,
        (hplateau.trans (enterRamp_putIsland_of_ne (st := .rampNeg) hi hl)).trans ?_⟩
      dsimp only [ramping]; rw [hacc]; rfl

end Sys2Proof.Machine
end

section
/-! PROOFS. The plateau timer: the end of an island's cycle TIMED_OUT (R41 to R43, R62, R64), and the reference check that it decides FAIL
(R117), with the end of a check (R119). -/

namespace Sys2Proof.Machine

/-! ### The TIMED_OUT record (R41, R62, R64) -/

/-- The record of a cycle that timed out: no resistance, the means so far (R41, R62). -/
def timedOutRecord (i : Island) (c : Captured) (now : Time) (number : BitVec 16) : ResultRecord :=
  ⟨number, i.members, i.injector, c.profile, i.mode, .timedOut, i.quality, now, c.row.injMv, i.means, none, none, none, none, none,
    i.counts⟩

/-- A TIMED_OUT record takes the next number and the slot, and is left unjudged (R64, R72). -/
theorem publish_timedOut {m : Meas} {ds : DomSet} {i : Island} {c : Captured} (hi : islandAt m ds = some i)
    (hc : i.captured = some c) :
    publish ds true m = putIsland { i with slot := some (timedOutRecord i c m.timebase (m.resultNumber + 1)) }
      { m with resultNumber := m.resultNumber + 1 } := by
  unfold publish
  rw [hi]
  dsimp only
  rw [hc]
  rfl

/-- The island of a cycle that timed out, before its RAMP_HOME. -/
def Island.timedOut (i : Island) (c : Captured) (now : Time) (number : BitVec 16) : Island :=
  { i with acc := .empty, slot := some (timedOutRecord i c now number) }

/-- The measurement side of a cycle that timed out, before its RAMP_HOME (R41). -/
def timedOutMeas (i : Island) (c : Captured) (m : Meas) : Meas :=
  putIsland (i.timedOut c m.timebase (m.resultNumber + 1)) { raise .cycleFail m with resultNumber := m.resultNumber + 1 }

theorem publish_plateauExpiry {m : Meas} {i : Island} {c : Captured} (hi : islandAt m i.members = some i) (hc : i.captured = some c) :
    publish i.members true (raise .cycleFail (putIsland { i with acc := .empty } m)) = timedOutMeas i c m := by
  have hput : islandAt (raise .cycleFail (putIsland { i with acc := .empty } m)) i.members = some { i with acc := .empty } :=
    islandAt_putIsland (i := { i with acc := .empty }) hi rfl
  rw [publish_timedOut hput hc]
  exact putIsland_putIsland (i.timedOut c m.timebase (m.resultNumber + 1)) { i with acc := .empty }
    { raise .cycleFail m with resultNumber := m.resultNumber + 1 } rfl

/-! ### The end of a cycle at level 0 (R43) -/

/-- A put of the island that is there, changed. -/
theorem islandAt_put_changed {m : Meas} {ds : DomSet} {i j : Island} (hi : islandAt m ds = some i) (hm : j.members = i.members) :
    islandAt (putIsland j m) ds = some j := islandAt_putIsland hi (hm.trans (islandAt_members hi))

/-- An island whose cycle ramps home. -/
def Island.rampingHome (i : Island) : Island := { stopTimers i with state := .cycle .rampHome }

/-- An island that enters INTERVAL. -/
def Island.pausing (now : Time) (i : Island) : Island :=
  { stopTimers i with state := .interval, intervalTimer := some ⟨now, i.row.interval⟩ }

/-- Island `i` of `m` is left by the end of its cycle in `m'`, where it is `j`: its slot stays, and with a CYCLE table active it is in
RAMP_HOME no longer; no suspend entry moves. -/
structure CycleLeft (m m' : Meas) (i j : Island) : Prop where
  suspended : m'.suspended = m.suspended
  slot : j.slot = i.slot
  state : m.tables.cycle.isSome = true → j.state ≠ .cycle .rampHome

section

variable {m : Meas} {ds : DomSet} {i : Island}

/-- Before any CYCLE table is active no cycle can start (R48). -/
theorem startCycle_of_no_table (md : Mode) (hi : islandAt m ds = some i) (hrow : cycleRow m i.profile = none) :
    startCycle md ds m = m := by
  simp [startCycle, hi, hrow]

theorem cycleLeft_startCycle (md : Mode) (hi : islandAt m ds = some i) :
    ∃ j, islandAt (startCycle md ds m) ds = some j ∧ CycleLeft m (startCycle md ds m) i j := by
  cases hrow : cycleRow m i.profile with
  | none =>
    have hnone : m.tables.cycle = none := by simpa [cycleRow] using hrow
    rw [startCycle_of_no_table md hi hrow]
    exact ⟨i, hi, rfl, rfl, fun h => by simp [hnone] at h⟩
  | some row =>
    rw [startCycle_spec md hi hrow]
    exact ⟨_, islandAt_put_changed (m := writeMailbox _ _ m) hi (by rfl), rfl, rfl, fun _ h => by cases h⟩

/-- INTERVAL begins with its timer, where it is not over as it begins (R43). -/
theorem enterInterval_of_ne (hi : islandAt m ds = some i) (h : i.row.interval ≠ 0) :
    enterInterval ds m =
      putIsland (i.pausing m.timebase) m := by
  unfold enterInterval; rw [hi]; exact if_neg h

theorem enterInterval_of_eq (hi : islandAt m ds = some i) (h : i.row.interval = 0) :
    enterInterval ds m = startCycle .full ds
      (putIsland (i.pausing m.timebase) m) := by
  unfold enterInterval; rw [hi]; exact if_pos h

theorem cycleLeft_enterInterval (hi : islandAt m ds = some i) :
    ∃ j, islandAt (enterInterval ds m) ds = some j ∧ CycleLeft m (enterInterval ds m) i j := by
  have hput : islandAt (putIsland (i.pausing m.timebase) m) ds =
      some (i.pausing m.timebase) :=
    islandAt_put_changed hi rfl
  by_cases h : i.row.interval = 0
  · rw [enterInterval_of_eq hi h]
    obtain ⟨j, hj, hleft⟩ := cycleLeft_startCycle .full hput
    exact ⟨j, hj, hleft.suspended, hleft.slot, hleft.state⟩
  · rw [enterInterval_of_ne hi h]
    exact ⟨_, hput, rfl, rfl, fun _ h => by cases h⟩

theorem endCycle_of_demand {md : Mode} (hi : islandAt m ds = some i) (hd : i.demand = some md) :
    endCycle ds m = startCycle md ds (putIsland { i with demand := none } m) := by
  simp [endCycle, hi, hd]

theorem endCycle_of_no_demand (hi : islandAt m ds = some i) (hd : i.demand = none) : endCycle ds m = enterInterval ds m := by
  simp [endCycle, hi, hd]

theorem cycleLeft_endCycle (hi : islandAt m ds = some i) :
    ∃ j, islandAt (endCycle ds m) ds = some j ∧ CycleLeft m (endCycle ds m) i j := by
  cases hd : i.demand with
  | none => rw [endCycle_of_no_demand hi hd]; exact cycleLeft_enterInterval hi
  | some md =>
    rw [endCycle_of_demand hi hd]
    have hput : islandAt (putIsland { i with demand := none } m) ds = some { i with demand := none } :=
      islandAt_put_changed hi rfl
    obtain ⟨j, hj, hleft⟩ := cycleLeft_startCycle md hput
    exact ⟨j, hj, hleft.suspended, hleft.slot, hleft.state⟩

/-- RAMP_HOME from level 0 is over as it begins, and the cycle with it (R30, R43). -/
theorem enterRamp_home_of_eq (hi : islandAt m ds = some i) (h : (m.taps.get i.injector).mailbox.level = 0) :
    ∃ m', enterRamp .rampHome ds m = endCycle ds m' ∧ islandAt m' ds = some i.rampingHome ∧
      m' = changeTap i.injector (fun p => { p with ramp := none }) (putIsland i.rampingHome m) := by
  have hput : islandAt (changeTap i.injector (fun p => { p with ramp := none })
      (putIsland i.rampingHome m)) ds = some i.rampingHome :=
    islandAt_put_changed (j := i.rampingHome) hi rfl
  exact ⟨_, (enterRamp_of_eq (st := .rampHome) hi h).trans ((afterCycleRamp_of hput).2.2 rfl), hput, rfl⟩

theorem cycleLeft_rampHome (hi : islandAt m ds = some i) :
    ∃ j, islandAt (enterRamp .rampHome ds m) ds = some j ∧ j.slot = i.slot ∧ (enterRamp .rampHome ds m).suspended = m.suspended ∧
      ((m.taps.get i.injector).mailbox.level ≠ 0 → j.state = .cycle .rampHome ∧
        ((enterRamp .rampHome ds m).taps.get i.injector) = { m.taps.get i.injector with
          ramp := some ⟨0, i.row.slew * 20, .domain, .connected, .cycle⟩, refreshStart := some m.timebase }) ∧
      ((m.taps.get i.injector).mailbox.level = 0 → m.tables.cycle.isSome = true → j.state ≠ .cycle .rampHome) ∧
      ((m.taps.get i.injector).mailbox.level = 0 → i.demand = none → i.row.interval ≠ 0 →
        j.state = .interval ∧ j.intervalTimer = some ⟨m.timebase, i.row.interval⟩ ∧
          ((enterRamp .rampHome ds m).taps.get i.injector).ramp = none) := by
  by_cases hl : (m.taps.get i.injector).mailbox.level = 0
  · obtain ⟨m', heq, hi', hm'⟩ := enterRamp_home_of_eq hi hl
    obtain ⟨j, hj, hleft⟩ := cycleLeft_endCycle hi'
    obtain ⟨hsusp, htab, htime⟩ : m'.suspended = m.suspended ∧ m'.tables = m.tables ∧ m'.timebase = m.timebase := by
      rw [hm']; exact ⟨rfl, rfl, rfl⟩
    rw [heq]
    refine ⟨j, hj, hleft.slot, hleft.suspended.trans hsusp, fun h => absurd hl h, fun _ h => hleft.state (htab ▸ h),
      fun _ hd hint => ?_⟩
    have hend : endCycle ds m' = _ := (endCycle_of_no_demand hi' hd).trans (enterInterval_of_ne hi' hint)
    rw [hend, islandAt_put_changed (j := i.rampingHome.pausing m'.timebase) hi' rfl] at hj
    cases hj
    refine ⟨rfl, by rw [← htime]; rfl, ?_⟩
    rw [hend, hm']
    exact congrArg Tap.ramp (PerDom.get_set_self ..)
  · have hne : (m.taps.get i.injector).mailbox.level ≠ rampTarget .rampHome i.row.injMv := hl
    refine ⟨_, islandAt_enterRamp_of_ne hi hne, rfl, ?_, fun _ => ⟨rfl, ?_⟩, fun h => absurd h hl, fun h => absurd h hl⟩
    · rw [enterRamp_of_ne hi hne]; rfl
    · rw [enterRamp_of_ne hi hne]; exact PerDom.get_set_self ..

end

/-! ### Ramps of the reference cycle (R117) -/

section

variable {m : Meas} {r : RefCheck} {st : CycleStep}

/-- A ramp step of the reference cycle whose tap stands away from the ramp's target (R117). -/
theorem refRamp_of_ne (hr : m.ref = some r) (h : (m.taps.get r.tap).mailbox.level ≠ rampTarget st r.row.injMv) :
    refRamp st m = { m with
      ref := some { r with step := .cycle st, phaseTimer := none, plateauTimer := none }
      taps := m.taps.set r.tap { m.taps.get r.tap with
        ramp := some ⟨rampTarget st r.row.injMv, r.row.slew * 20, .ref, .floating, .refCheck⟩
        refreshStart := some m.timebase } } := by
  unfold refRamp
  rw [hr]
  dsimp only
  rw [startRamp_of_ne h, changeRef, hr]
  rfl

/-- A check that ramps home. -/
def RefCheck.rampingHome (r : RefCheck) : RefCheck := { r with step := .cycle .rampHome, phaseTimer := none, plateauTimer := none }

/-- RAMP_HOME is over, and the check with it (R119). -/
theorem afterRefRamp_home (hr : m.ref = some r) (hs : r.step = .cycle .rampHome) (t : Dom) :
    afterRefRamp t m = finishRef (r.outcome.getD .notCompleted) r.rraw (r.decided.getD m.timebase) m := by
  simp [afterRefRamp, endRef, hr, hs]

/-- RAMP_HOME from level 0 is over as it begins (R30). -/
theorem refRamp_home_of_eq (hr : m.ref = some r) (h : (m.taps.get r.tap).mailbox.level = 0) :
    refRamp .rampHome m = finishRef (r.outcome.getD .notCompleted) r.rraw (r.decided.getD m.timebase)
      (changeTap r.tap (fun p => { p with ramp := none }) (changeRef RefCheck.rampingHome m)) := by
  have hramping : (changeTap r.tap (fun p => { p with ramp := none }) (changeRef RefCheck.rampingHome m)).ref = some r.rampingHome :=
    congrArg (Option.map RefCheck.rampingHome) hr
  unfold refRamp
  rw [hr]
  exact (startRamp_of_eq h).trans (afterRefRamp_home hramping rfl r.tap)

end

/-! ### The release of REFHOLD at the end of a check (R119) -/

/-- An island that enters FORMING, its settle timer running (R24). -/
def Island.formingWith (tm : Timer) (i : Island) : Island := { stopTimers i with state := .forming, settleTimer := .running tm }

/-- The measurement side of an island that entered FORMING, before a settle time of 0 ends it (R24). -/
def formingMeas (i : Island) (m : Meas) : Meas :=
  writeMailbox i.injector .quiet (putIsland (i.formingWith ⟨m.timebase, settleTime m⟩) m)

section

variable {m : Meas} {ds : DomSet} {i : Island} {t : Dom}

theorem enterForming_of_ne (hi : islandAt m ds = some i) (h : settleTime m ≠ 0) : enterForming ds m = formingMeas i m := by
  unfold enterForming; rw [hi]; exact if_neg h

/-- A settle time of 0 is over as it begins (R25; log 7). -/
theorem enterForming_of_eq (hi : islandAt m ds = some i) (h : settleTime m = 0) :
    enterForming ds m = settleEnd ds (formingMeas i m) := by
  unfold enterForming; rw [hi]; exact if_pos h

theorem islandAt_formingMeas (hi : islandAt m ds = some i) : islandAt (formingMeas i m) ds =
    some (i.formingWith ⟨m.timebase, settleTime m⟩) :=
  islandAt_put_changed hi rfl

/-- A written mailbox stands as it was written, without a ramp (R31). -/
theorem tap_writeMailbox (t : Dom) (b : Mailbox) (m : Meas) :
    ((writeMailbox t b m).taps.get t).mailbox = b ∧ ((writeMailbox t b m).taps.get t).ramp = none := by
  simp [writeTap]

/-- An island with the cycle that it starts after FORMING, in the demanded mode or FAST (R28, R29). -/
def Island.started (row : CycleRow) (m : Meas) (i : Island) : Island :=
  { i with
    state := .cycle .quietSettle, mode := i.demand.getD .fast, demand := none,
    captured := some ⟨row, i.profile, domConst domRc m i.injector, domConst domRbal m i.injector⟩,
    means := .none, counts := .zero, quality := .clear, acc := clearForSettle i.acc,
    phaseTimer := some ⟨m.timebase, row.phaseTimeout⟩, plateauTimer := none, settleTimer := .stopped, intervalTimer := none }

theorem startFirst_leaves {row : CycleRow} (hi : islandAt m ds = some i) (hrow : cycleRow m i.profile = some row) :
    ((startFirst ds m).taps.get i.injector).mailbox = ⟨0, .domain, .connected⟩ ∧
    ((startFirst ds m).taps.get i.injector).ramp = none ∧ islandAt (startFirst ds m) ds = some (i.started row m) := by
  obtain ⟨hbox, hramp⟩ := tap_writeMailbox i.injector ⟨0, .domain, .connected⟩ m
  rw [startFirst_spec hi hrow]
  exact ⟨hbox, hramp, islandAt_put_changed (m := writeMailbox _ _ m) hi rfl⟩

theorem isPresent_formingMeas (i : Island) (m : Meas) (d : Dom) : isPresent (formingMeas i m) d = isPresent m d :=
  (steady_writeMailbox i.injector .quiet (putIsland (i.formingWith ⟨m.timebase, settleTime m⟩) m)).isPresent d

theorem releaseRefhold_of_free (h : ∀ i, injectedBy m t = some i → i.state ≠ .refhold) : releaseRefhold t m = m := by
  unfold releaseRefhold
  split
  · rfl
  · next i hi => exact if_neg (by simpa using h i hi)

theorem releaseRefhold_of_present (hi : injectedBy m t = some i) (hs : i.state = .refhold) (hp : isPresent m t = true) :
    releaseRefhold t m = enterForming i.members m := by
  simp [releaseRefhold, hi, hs, hp]

/-- A mailbox write begins no ramp (R31). -/
theorem ramp_writeMailbox {d : Dom} (b : Mailbox) (h : (m.taps.get d).ramp = none) :
    ((writeMailbox t b m).taps.get d).ramp = none := by
  rw [writeMailbox_taps, PerDom.get_set]
  split
  · rfl
  · exact h

theorem ramp_enterStalled {d : Dom} (h : (m.taps.get d).ramp = none) : ((enterStalled ds m).taps.get d).ramp = none := by
  unfold enterStalled
  split
  · exact h
  · next j _ => exact ramp_writeMailbox (m := putIsland { clearCyclePart j with state := .stalled, demand := none } m) _ h

theorem ramp_enterForming {d : Dom} (hne : settleTime m ≠ 0) (h : (m.taps.get d).ramp = none) :
    ((enterForming ds m).taps.get d).ramp = none := by
  cases hi : islandAt m ds with
  | none => rw [enterForming, hi]; exact h
  | some j =>
    rw [enterForming_of_ne hi hne]
    exact ramp_writeMailbox (m := putIsland (j.formingWith ⟨m.timebase, settleTime m⟩) m) _ h

/-- The release begins no ramp, but where a settle time of 0 lets a cycle resume at once. -/
theorem ramp_releaseRefhold (hr : (m.taps.get t).ramp = none)
    (h : settleTime m ≠ 0 ∨ ∀ i, injectedBy m t = some i → i.state ≠ .refhold) :
    ((releaseRefhold t m).taps.get t).ramp = none := by
  rcases h with hne | hfree
  · unfold releaseRefhold
    split
    · exact hr
    · split
      · split
        · exact ramp_enterForming hne hr
        · exact ramp_enterStalled hr
      · exact hr
  · rw [releaseRefhold_of_free hfree]; exact hr

theorem releaseRefhold_ref (t : Dom) (m : Meas) : (releaseRefhold t m).ref = m.ref := by
  unfold releaseRefhold
  (repeat' split) <;> first
    | rfl
    | exact (quiet_enterForming ..).ref
    | exact (quiet_enterStalled ..).ref

/-- At a settle time of 0 a suspend entry that is young enough is resumed at once (R108, R109; log 7). -/
theorem releaseRefhold_resumes {e : SuspendEntry} (hi : injectedBy m t = some i) (hat : islandAt m i.members = some i)
    (hs : i.state = .refhold) (hp : isPresent m t = true) (hz : settleTime m = 0) (hrun : partRunning m = true)
    (he : waitingEntry m i = some e) (hyoung : (m.timebase - e.time).toNat ≤ e.captured.row.resumeAge * 1000) :
    (releaseRefhold t m).suspended = m.suspended.filter (fun e => e.members != i.members) ∧
    ((releaseRefhold t m).taps.get t).mailbox = ⟨0, .domain, .connected⟩ ∧
    ∃ j, islandAt (releaseRefhold t m) i.members = some j ∧
      Resumed e (formingMeas i m).taps (releaseRefhold t m).taps i j := by
  obtain rfl := injectedBy_injector hi
  have hform := islandAt_formingMeas hat
  have hp' : isPresent (formingMeas i m) i.injector = true := (isPresent_formingMeas ..).trans hp
  have hend : releaseRefhold i.injector m = endForming i.members (formingMeas i m) :=
    (releaseRefhold_of_present hi hs hp).trans ((enterForming_of_eq hat hz).trans (settleEnd_of_running hrun))
  obtain ⟨hsusp, hbox, j, hj, hres⟩ := resumeCycle_spec (m := dropEntry i.members (formingMeas i m)) e hform
  rw [hend, endForming_of_young_entry hform hp' he hyoung]
  refine ⟨hsusp, (hbox _).trans (tap_writeMailbox ..).1, j, hj, ?_⟩
  exact ⟨hres.captured, hres.mode, hres.means, hres.counts, hres.quality, hres.demand, hres.slot, hres.quiet, hres.pos, hres.neg⟩

/-- At a settle time of 0 a new cycle starts at once where no suspend entry is young enough (R28, R29; log 7). -/
theorem releaseRefhold_starts {row : CycleRow} (hi : injectedBy m t = some i) (hat : islandAt m i.members = some i)
    (hs : i.state = .refhold) (hp : isPresent m t = true) (hz : settleTime m = 0) (hrun : partRunning m = true)
    (hrow : cycleRow m i.profile = some row)
    (hold : ∀ e, waitingEntry m i = some e → e.captured.row.resumeAge * 1000 < (m.timebase - e.time).toNat) :
    ((releaseRefhold t m).taps.get t).mailbox = ⟨0, .domain, .connected⟩ ∧ ((releaseRefhold t m).taps.get t).ramp = none ∧
    islandAt (releaseRefhold t m) i.members = some (i.started row m) := by
  obtain rfl := injectedBy_injector hi
  have hform := islandAt_formingMeas hat
  have hp' : isPresent (formingMeas i m) i.injector = true := (isPresent_formingMeas ..).trans hp
  have hend : releaseRefhold i.injector m = endForming i.members (formingMeas i m) :=
    (releaseRefhold_of_present hi hs hp).trans ((enterForming_of_eq hat hz).trans (settleEnd_of_running hrun))
  rw [hend]
  cases he : waitingEntry m i with
  | none =>
    rw [endForming_of_no_entry hform hp' he]
    exact startFirst_leaves (m := formingMeas i m) (i := i.formingWith _) hform hrow
  | some e =>
    rw [endForming_of_old_entry hform hp' he (hold e he)]
    exact startFirst_leaves (m := dropEntry i.members (formingMeas i m)) (i := i.formingWith _) hform hrow

end

/-! ### The end of a check (R119) -/

/-- The event flags after a check that ended with an outcome (R119). -/
def checkFlags (o : RefOutcome) (w : BitVec 32) : BitVec 32 :=
  if o = .fail then w ||| Flag.refDone.word ||| Flag.refFail.word else w ||| Flag.refDone.word

theorem checkFlags_refDone (o : RefOutcome) (w : BitVec 32) : (checkFlags o w).getLsbD Flag.refDone.bit = true := by
  unfold checkFlags; split <;> simp [Flag.word, Flag.bit]

theorem checkFlags_refFail (o : RefOutcome) (w : BitVec 32) :
    (checkFlags o w).getLsbD Flag.refFail.bit = (w.getLsbD Flag.refFail.bit || decide (o = .fail)) := by
  unfold checkFlags; split <;> simp_all [Flag.word, Flag.bit]

/-- The measurement side of a check that ended, its tap at rest, before its summary byte is formed. -/
def restedMeas (o : RefOutcome) (r : RefCheck) (m : Meas) : Meas :=
  { writeMailbox r.tap .rest m with flags := checkFlags o m.flags }

/-- The RCHK response of a check that ended (R119). -/
def checkResponse (o : RefOutcome) (rraw : Option Nat) (decided : Time) (r : RefCheck) (p : PendingRec) (m : Meas) : Frame :=
  responseFrame 0 p.kind p.tag .ok (rchkValues r.tap o rraw r decided) (restedMeas o r m)

/-- The measurement side of a check that ended and was answered, before its island is released. -/
def answeredMeas (o : RefOutcome) (rraw : Option Nat) (decided : Time) (r : RefCheck) (p : PendingRec) (m : Meas) : Meas :=
  { restedMeas o r m with
    pendRchk := none, heldResponses := m.heldResponses ++ [checkResponse o rraw decided r p m], ref := none }

theorem finishRef_eq {m : Meas} {r : RefCheck} {p : PendingRec} (o : RefOutcome) (rraw : Option Nat) (decided : Time)
    (hr : m.ref = some r) (hp : m.pendRchk = some p) :
    finishRef o rraw decided m = releaseRefhold r.tap (answeredMeas o rraw decided r p m) := by
  have hrested : (if o == .fail then raise .refFail (raise .refDone (writeMailbox r.tap .rest m))
      else raise .refDone (writeMailbox r.tap .rest m)) = restedMeas o r m := by
    cases o <;> rfl
  have hpend : (restedMeas o r m).pendRchk = some p := hp
  unfold finishRef
  rw [hr]
  dsimp only
  rw [hrested, deferRchk, hpend]
  rfl

/-- The values of the response, after its status and summary bytes (R119, R186). -/
theorem checkResponse_payload (o : RefOutcome) (rraw : Option Nat) (decided : Time) (r : RefCheck) (p : PendingRec) (m : Meas) :
    (checkResponse o rraw decided r p m).payload.head? = some 0 ∧
    (checkResponse o rraw decided r p m).payload.drop 2 =
      be8 r.tap.number ++ [if o = .pass then 0 else if o = .fail then 1 else 2, if rraw.isSome then 1 else 0] ++
        be16 (rraw.getD 0) ++ be16 r.rref ++ be8 r.row.refTol ++ be32 decided.toNat := by
  refine ⟨rfl, ?_⟩
  show rchkValues r.tap o rraw r decided = _
  cases o <;> cases rraw <;> rfl

/-- From `b` to `m` the partition, the suspend list and all that a resumption or a new cycle reads stay. -/
structure SameIslands (b m : Meas) : Prop where
  timebase : m.timebase = b.timebase
  tables : m.tables = b.tables
  islands : m.islands = b.islands
  suspended : m.suspended = b.suspended
  present : ∀ d, isPresent m d = isPresent b d

section

variable {b m : Meas}

theorem SameIslands.injectedBy (h : SameIslands b m) : injectedBy m = Machine.injectedBy b :=
  funext fun d => by rw [Machine.injectedBy, h.islands]; rfl

theorem SameIslands.islandAt (h : SameIslands b m) : islandAt m = Machine.islandAt b :=
  funext fun ds => by rw [Machine.islandAt, h.islands]; rfl

theorem SameIslands.settleTime (h : SameIslands b m) : settleTime m = Machine.settleTime b := by
  rw [Machine.settleTime, h.tables]; rfl

theorem SameIslands.partRunning (h : SameIslands b m) : partRunning m = Machine.partRunning b := by
  rw [Machine.partRunning, h.tables]; rfl

theorem SameIslands.cycleRow (h : SameIslands b m) : cycleRow m = Machine.cycleRow b :=
  funext fun p => by rw [Machine.cycleRow, h.tables]; rfl

theorem SameIslands.domConst (h : SameIslands b m) (f : List Byte → Dom → Nat) : domConst f m = Machine.domConst f b :=
  funext fun d => by rw [Machine.domConst, h.tables]; rfl

theorem SameIslands.waitingEntry (h : SameIslands b m) : waitingEntry m = Machine.waitingEntry b :=
  funext fun i => by rw [Machine.waitingEntry, h.suspended]; rfl

end

/-- A check ends from `m`, where only taps, the claim's arming and confirmed taps, and the check's own progress differ from `s` (R119). -/
theorem checkEnded_of_finishRef {s t : State} {m : Meas} {c r : RefCheck} {p : PendingRec} {o : RefOutcome} {rraw : Option Nat}
    {decided : Time} (hsteady : Steady s.meas m) (hislands : m.islands = s.meas.islands) (hsusp : m.suspended = s.meas.suspended)
    (hr : m.ref = some r) (hrc : r.tap = c.tap ∧ r.rref = c.rref ∧ r.row = c.row) (hp : s.meas.pendRchk = some p)
    (hmoved : OutputsMoved { s with meas := finishRef o rraw decided m } t) : CheckEnded s t c p o rraw decided := by
  obtain ⟨htap, hrref, hrow⟩ := hrc
  obtain ⟨hhead, hpayload⟩ := checkResponse_payload o rraw decided r p m
  obtain ⟨hbox, hramp⟩ : ((answeredMeas o rraw decided r p m).taps.get c.tap).mailbox = .rest ∧
      ((answeredMeas o rraw decided r p m).taps.get c.tap).ramp = none := by
    rw [← htap]; exact tap_writeMailbox r.tap .rest m
  rw [finishRef_eq o rraw decided hr (hsteady.pendRchk.trans hp), htap] at hmoved
  rw [htap, hrref, hrow] at hpayload
  have hsame : SameIslands s.meas (answeredMeas o rraw decided r p m) :=
    ⟨hsteady.timebase, hsteady.tables, hislands, hsusp,
      fun d => ((steady_writeMailbox r.tap .rest m).isPresent d).trans (hsteady.isPresent d)⟩
  have hfound : ∀ {i}, injectedBy s.meas c.tap = some i → islandAt s.meas i.members = some i → isPresent s.meas c.tap = true →
      i.injector = c.tap ∧ injectedBy (answeredMeas o rraw decided r p m) i.injector = some i ∧
        islandAt (answeredMeas o rraw decided r p m) i.members = some i ∧
        isPresent (answeredMeas o rraw decided r p m) i.injector = true := by
    intro i hi hat hpres
    have hinj := injectedBy_injector hi
    rw [hsame.injectedBy, hsame.islandAt, hsame.present, hinj]
    exact ⟨rfl, hi, hat, hpres⟩
  have hrelease := steady_releaseRefhold c.tap (answeredMeas o rraw decided r p m)
  exact {
    idle := by rw [hmoved.meas]; exact releaseRefhold_ref ..
    answered := by rw [hmoved.meas]; exact hrelease.pendRchk
    done := by
      refine (hmoved.flagSet _).trans ?_
      rw [flagSet, hrelease.flags]
      exact checkFlags_refDone o m.flags
    fail := by
      refine (hmoved.flagSet _).trans ?_
      rw [flagSet, hrelease.flags, flagSet, ← hsteady.flags]
      exact checkFlags_refFail o m.flags
    response := by
      refine ⟨checkResponse o rraw decided r p m, hmoved.upstream.trans ?_, rfl, rfl, hhead, hpayload⟩
      rw [outgoing, hrelease.held]
      simp [answeredMeas, outgoing, hsteady.held]
    noRamp := fun h => (hmoved.ramp _).trans (ramp_releaseRefhold hramp (by rw [hsame.settleTime, hsame.injectedBy]; exact h))
    rest := fun hfree => by
      have hstay := releaseRefhold_of_free (t := c.tap) (by rw [hsame.injectedBy]; exact hfree)
      rw [hmoved.mailbox, hmoved.meas, hstay]
      exact ⟨hbox, hislands⟩
    released := fun i hi hat hs hpres hne => by
      obtain ⟨hinj, hi, hat, hpres⟩ := hfound hi hat hpres
      rw [← hsame.settleTime] at hne ⊢
      rw [← hinj] at hmoved ⊢
      have hform := (releaseRefhold_of_present hi hs hpres).trans (enterForming_of_ne hat hne)
      rw [hmoved.mailbox, hmoved.islandAt, hform, ← hsame.timebase]
      exact ⟨(tap_writeMailbox ..).1, islandAt_formingMeas hat⟩
    resumed := fun i e hi hat hs hpres hz hrun he hyoung => by
      obtain ⟨hinj, hi, hat, hpres⟩ := hfound hi hat hpres
      rw [← hsame.timebase] at hyoung
      rw [← hinj] at hmoved ⊢
      obtain ⟨hsuspended, hquiet, j, hj, hres⟩ := releaseRefhold_resumes hi hat hs hpres (hsame.settleTime.trans hz)
        (hsame.partRunning.trans hrun) ((congrFun hsame.waitingEntry i).trans he) hyoung
      obtain ⟨hconnected, hnone⟩ := tap_writeMailbox i.injector .quiet
        (putIsland (i.formingWith ⟨_, _⟩) (answeredMeas o rraw decided r p m))
      have hlevel := congrArg Mailbox.level hconnected
      rw [hmoved.mailbox, hmoved.ramp]
      refine ⟨?_, hquiet, j, (hmoved.islandAt _).trans hj, hres.captured, hres.mode, hres.means, hres.counts, hres.quality,
        hres.demand, hres.slot, fun h => ?_, fun h hu => hres.pos h hu hlevel, fun h hu => hres.neg h hu hlevel⟩
      · rw [hmoved.meas, ← hsame.suspended]; exact hsuspended
      · obtain ⟨hstate, htaps⟩ := hres.quiet h
        exact ⟨hstate, (congrArg (fun taps => (taps.get i.injector).ramp) htaps).trans hnone⟩
    started := fun i row hi hat hs hpres hz hrun hrow hold => by
      obtain ⟨hinj, hi, hat, hpres⟩ := hfound hi hat hpres
      rw [← hinj, hmoved.mailbox, hmoved.ramp, hmoved.islandAt, ← hinj, ← hsame.timebase, ← hsame.domConst, ← hsame.domConst]
      exact releaseRefhold_starts hi hat hs hpres (hsame.settleTime.trans hz) (hsame.partRunning.trans hrun)
        ((congrFun hsame.cycleRow _).trans hrow) fun e he => by
          rw [hsame.timebase]; exact hold e ((congrFun hsame.waitingEntry i).symm.trans he) }

theorem finishRef_frame {m : Meas} {r : RefCheck} {p : PendingRec} (o : RefOutcome) (rraw : Option Nat) (decided : Time)
    (hr : m.ref = some r) (hp : m.pendRchk = some p) :
    (finishRef o rraw decided m).doms = m.doms ∧ (finishRef o rraw decided m).topo = m.topo ∧
    (finishRef o rraw decided m).resultNumber = m.resultNumber ∧ (finishRef o rraw decided m).pendXclaim = m.pendXclaim := by
  have h := steady_releaseRefhold r.tap (answeredMeas o rraw decided r p m)
  rw [finishRef_eq o rraw decided hr hp]
  exact ⟨h.domsEq, h.topo, h.resultNumber, h.pendXclaim⟩

/-- Settles O18: the island's RAMP_HOME at and away from level 0, and the check's. -/
theorem plateauTimerEndsCycle : Obligations.PlateauTimerEndsCycle := by
  refine ⟨fun s ds i c ph tm hi hs hc ht hdue => ?_, fun s r ph tm hr hs ht hdue hl => ⟨_, rfl, ?_⟩, ?_⟩
  · obtain rfl := islandAt_members hi
    rw [← Island.row_of_captured hc]
    have hmoved := onEvent_moved (f := plateauExpiry i.members) (s := s) (plateauExpiry_of_due hi hs ht hdue)
      (congrArg (enterRamp .rampHome i.members) (publish_plateauExpiry hi hc))
    have hout : islandAt (timedOutMeas i c s.meas) i.members = some (i.timedOut c s.meas.timebase (s.meas.resultNumber + 1)) :=
      islandAt_putIsland (m := { raise .cycleFail s.meas with resultNumber := s.meas.resultNumber + 1 })
        (i := i.timedOut c s.meas.timebase (s.meas.resultNumber + 1)) hi rfl
    have hsteady := steady_enterRamp .rampHome i.members (timedOutMeas i c s.meas)
    obtain ⟨j, hj, hslot, hsusp, haway, hhome, hinterval⟩ := cycleLeft_rampHome hout
    refine ⟨onEvent (plateauExpiry i.members) s, j, rfl, (hmoved.islandAt _).trans hj, ?_, ?_, ?_, ?_, ?_, ?_, hmoved.loader,
      hmoved.pending, ?_, fun hl => ?_, hhome, fun hl hd hint => ?_⟩
    · refine (hmoved.flagSet _).trans ?_
      show flagSet (enterRamp .rampHome i.members (timedOutMeas i c s.meas)) .cycleFail = true
      rw [flagSet, hsteady.flags]
      simp [timedOutMeas, Flag.word, Flag.bit]
    · rw [hmoved.meas]; exact hsteady.resultNumber
    · rw [hslot, Island.row_of_captured hc]; rfl
    · rw [hmoved.meas]; exact hsteady.domsEq
    · rw [hmoved.meas]; exact hsusp
    · rw [hmoved.meas]; exact hsteady.topo
    · exact hmoved.upstream.trans (congrArg (s.link.txU.toList ++ s.link.upQueue ++ ·) hsteady.held)
    · obtain ⟨hstate, htap⟩ := haway hl
      rw [hmoved.ramp, hmoved.mailbox]
      exact ⟨hstate, congrArg Tap.ramp htap, (congrArg Tap.mailbox htap).trans rfl⟩
    · obtain ⟨hstate, htimer, hramp⟩ := hinterval hl hd hint
      exact ⟨hstate, htimer, (hmoved.ramp _).trans hramp⟩
  · exact onEvent_moved (refPlateauExpiry_of_due hr hs ht hdue) (refRamp_of_ne (changeRef_failed_ref s.meas.timebase hr) hl)
  · intro s r ph tm p hr hs ht hdue hl hp
    have hfailed := changeRef_failed_ref s.meas.timebase hr
    have hmoved := onEvent_moved (f := refPlateauExpiry) (s := s) (refPlateauExpiry_of_due hr hs ht hdue)
      (refRamp_home_of_eq hfailed hl)
    have hsteady : Steady s.meas _ :=
      (steady_changeTap (r.failed s.meas.timebase).tap (fun p => { p with ramp := none }) _ fun _ => rfl).after
        ((steady_changeRef RefCheck.rampingHome _).after (steady_changeRef (RefCheck.failed s.meas.timebase) s.meas))
    have hramping := congrArg (Option.map RefCheck.rampingHome) hfailed
    obtain ⟨hdoms, htopo, hnumber, hxclaim⟩ := finishRef_frame .fail none s.meas.timebase hramping (hsteady.pendRchk.trans hp)
    refine ⟨onEvent refPlateauExpiry s, rfl, checkEnded_of_finishRef hsteady rfl rfl hramping ⟨rfl, rfl, rfl⟩ hp hmoved, ?_, ?_,
      ?_, ?_, hmoved.loader, hmoved.pending⟩
    · rw [hmoved.meas]; exact hdoms
    · rw [hmoved.meas]; exact htopo
    · rw [hmoved.meas]; exact hnumber
    · rw [hmoved.meas]; exact hxclaim

end Sys2Proof.Machine
end

section
/-! PROOFS. The insulation arithmetic: the stages of a resistance with their cases and ranges (R54 to R61), and the result record (R53, R62,
R63). -/

namespace Sys2Proof.Machine

/-! ### The stages (R56, R57, R59, R60) and their range (R61) -/

theorem clampR_le (n : Nat) : clampR n ≤ 65535 := Nat.min_le_left _ _

theorem rrawOf_of_nonpos {u rc : Nat} {d2 : Int} (h : d2 ≤ 0) : rrawOf u rc d2 = 0 := if_pos h

/-- From `2 * u` up, the measurement is out of range (R56). -/
theorem rrawOf_of_saturated {u rc : Nat} {d2 : Int} (hpos : 0 < d2) (h : 2 * (u : Int) ≤ d2) : rrawOf u rc d2 = 65535 := by
  have hsat : 2 * u ≤ d2.toNat := by omega
  exact (if_neg (by omega)).trans (if_pos hsat)

/-- Between the two ends the quotient is the one over the integers, clamped: neither of its differences is cut off at 0 (R56). -/
theorem rrawOf_of_between {u rc : Nat} {d2 : Int} (hpos : 0 < d2) (h : d2 < 2 * (u : Int)) :
    (rrawOf u rc d2 : Int) = min 65535 ((rc : Int) * d2 / (2 * u - d2)) := by
  lift d2 to Nat using hpos.le
  have hle : d2 ≤ 2 * u := by omega
  have hquot : rrawOf u rc d2 = min 65535 (rc * d2 / (2 * u - d2)) := (if_neg (by omega)).trans (if_neg (by omega))
  rw [hquot]
  push_cast [hle]
  rfl

theorem rrawOf_le (u rc : Nat) (d2 : Int) : rrawOf u rc d2 ≤ 65535 := by
  unfold rrawOf
  split
  · exact Nat.zero_le _
  · dsimp only; split
    · exact le_rfl
    · exact clampR_le _

theorem risoOf_le (rraw rbal : Nat) : risoOf rraw rbal ≤ 65535 := by
  unfold risoOf
  split
  · exact le_rfl
  · split
    · exact le_rfl
    · exact clampR_le _

theorem sideOf_le (raw rbal : Nat) : sideOf raw rbal ≤ 65535 := by
  unfold sideOf
  dsimp only; split
  · exact le_rfl
  · exact clampR_le _

/-! ### The split (R58) -/

theorem splitOf_of_ubusMin {ms : Means} {a b : Nat} (rraw rbal : Nat) (ha : ms.vPlusQ = some a) (hb : ms.vMinusQ = some b)
    (h : 1200 ≤ a + b) :
    splitOf ms rraw rbal = some (sideOf (sideRawOf rraw (a + b) b) rbal, sideOf (sideRawOf rraw (a + b) a) rbal) := by
  simp only [splitOf, ha, hb]
  exact if_pos h

/-- A split comes of two quiet means that add up to UBUS_MIN, and of nothing else. -/
theorem splitOf_eq_some {ms : Means} {rraw rbal : Nat} {x : Nat × Nat} (h : splitOf ms rraw rbal = some x) :
    ∃ a b, ms.vPlusQ = some a ∧ ms.vMinusQ = some b ∧ 1200 ≤ a + b ∧
      x = (sideOf (sideRawOf rraw (a + b) b) rbal, sideOf (sideRawOf rraw (a + b) a) rbal) := by
  unfold splitOf at h
  split at h
  next a b ha hb =>
    obtain ⟨hmin, hx⟩ := Option.ite_none_right_eq_some.mp h
    exact ⟨a, b, ha, hb, hmin, (Option.some.inj hx).symm⟩
  next => cases h

theorem splitOf_isSome_iff {ms : Means} {rraw rbal : Nat} :
    (splitOf ms rraw rbal).isSome = true ↔ ∃ a b, ms.vPlusQ = some a ∧ ms.vMinusQ = some b ∧ 1200 ≤ a + b := by
  constructor
  · intro h
    obtain ⟨x, hx⟩ := Option.isSome_iff_exists.mp h
    obtain ⟨a, b, ha, hb, hmin, -⟩ := splitOf_eq_some hx
    exact ⟨a, b, ha, hb, hmin⟩
  · rintro ⟨a, b, ha, hb, hmin⟩
    rw [splitOf_of_ubusMin rraw rbal ha hb hmin]; rfl

theorem splitOf_le {ms : Means} {rraw rbal : Nat} {x : Nat × Nat} (h : splitOf ms rraw rbal = some x) :
    x.1 ≤ 65535 ∧ x.2 ≤ 65535 := by
  obtain ⟨a, b, -, -, -, rfl⟩ := splitOf_eq_some h
  exact ⟨sideOf_le _ _, sideOf_le _ _⟩

/-- Settles O21. -/
theorem resistanceStages : Obligations.ResistanceStages :=
  ⟨fun _ _ _ _ _ => ⟨rrawOf_of_nonpos, rrawOf_of_saturated, rrawOf_of_between⟩, fun _ _ => rfl, fun _ _ _ => rfl, fun _ _ => rfl,
    fun _ rraw rbal _ _ hplus hminus hmin => splitOf_of_ubusMin rraw rbal hplus hminus hmin⟩

/-! ### The result record (R53, R55, R63) -/

section

variable {i : Island} {c : Captured} {timedOut : Bool} {now : Time} {number : BitVec 16}

theorem resultOf_d2 {p n : Int} (hp : i.means.vp = some p) (hn : i.means.vn = some n) :
    (resultOf i c false now number).d2 = some (p - n) := by
  show d2Of i.means = _
  simp [d2Of, hp, hn]

theorem resultOf_outcome {d : Int} (h : (resultOf i c false now number).d2 = some d) :
    (resultOf i c false now number).outcome = if d < -(c.row.invMargin : Int) then .inverted else .valid := by
  have hd : d2Of i.means = some d := h
  simp [resultOf, outcomeOf, isInverted, hd]

/-- The four resistances of a VALID record, by the stages. -/
theorem resultOf_of_valid (h : (resultOf i c timedOut now number).outcome = .valid) :
    let r := resultOf i c timedOut now number
    let rraw := rrawOf c.row.injMv c.rc (r.d2.getD 0)
    r.rraw = some rraw ∧ r.riso = some (risoOf rraw c.rbal) ∧
      r.rp = (splitOf i.means rraw c.rbal).map (·.1) ∧ r.rn = (splitOf i.means rraw c.rbal).map (·.2) := by
  have hvalid : ((resultOf i c timedOut now number).outcome == .valid) = true := beq_iff_eq.mpr h
  exact ⟨if_pos hvalid, if_pos hvalid, if_pos hvalid, if_pos hvalid⟩

/-- A record that is not VALID holds no resistance (R63). -/
theorem resultOf_of_not_valid (h : (resultOf i c timedOut now number).outcome ≠ .valid) :
    let r := resultOf i c timedOut now number
    r.rraw = none ∧ r.riso = none ∧ r.rp = none ∧ r.rn = none := by
  have hvalid : ¬ ((resultOf i c timedOut now number).outcome == .valid) = true := mt beq_iff_eq.mp h
  exact ⟨if_neg hvalid, if_neg hvalid, if_neg hvalid, if_neg hvalid⟩

theorem resultOf_resistance_le {x : Nat} :
    let r := resultOf i c timedOut now number
    r.rraw = some x ∨ r.riso = some x ∨ r.rp = some x ∨ r.rn = some x → x ≤ 65535 := by
  intro r
  by_cases hvalid : r.outcome = .valid
  · obtain ⟨hrraw, hriso, hrp, hrn⟩ := resultOf_of_valid hvalid
    rintro (h | h | h | h)
    · obtain rfl := Option.some.inj (hrraw.symm.trans h)
      exact rrawOf_le _ _ _
    · obtain rfl := Option.some.inj (hriso.symm.trans h)
      exact risoOf_le _ _
    · obtain ⟨y, hy, rfl⟩ := Option.map_eq_some_iff.mp (hrp.symm.trans h)
      exact (splitOf_le hy).1
    · obtain ⟨y, hy, rfl⟩ := Option.map_eq_some_iff.mp (hrn.symm.trans h)
      exact (splitOf_le hy).2
  · obtain ⟨hrraw, hriso, hrp, hrn⟩ := resultOf_of_not_valid hvalid
    simp [r, hrraw, hriso, hrp, hrn]

end

/-- Settles O22: the clauses on presence by whether the record is VALID. -/
theorem resultOutcomes : Obligations.ResultOutcomes := by
  intro i c timedOut now number r
  refine ⟨⟨rfl, rfl, rfl, rfl, rfl, rfl, rfl, rfl, rfl, rfl⟩, ?_, ?_, ?_⟩
  · rintro rfl; exact ⟨rfl, rfl⟩
  · rintro p n rfl hp hn
    have hd2 : r.d2 = some (p - n) := resultOf_d2 hp hn
    have houtcome := resultOf_outcome hd2
    refine ⟨hd2, fun hinv => houtcome.trans (if_pos hinv), fun hmargin => ?_⟩
    have hvalid : r.outcome = .valid := houtcome.trans (if_neg (not_lt.mpr hmargin))
    obtain ⟨hrraw, hriso, hrp, hrn⟩ := resultOf_of_valid hvalid
    rw [hd2] at hrraw hriso hrp hrn
    refine ⟨hvalid, hrraw, hriso, fun a b ha hb hmin => ?_⟩
    have hsplit := splitOf_of_ubusMin (rrawOf c.row.injMv c.rc (p - n)) c.rbal ha hb hmin
    exact ⟨hrp.trans (congrArg (Option.map _) hsplit), hrn.trans (congrArg (Option.map _) hsplit)⟩
  · by_cases hvalid : r.outcome = .valid
    · obtain ⟨hrraw, hriso, hrp, hrn⟩ := resultOf_of_valid hvalid
      refine ⟨?_, ?_, ?_, ?_, fun _ => resultOf_resistance_le⟩
      · simp [r, hrraw, hvalid]
      · simp [r, hriso, hvalid]
      · simp [r, hrp, hrn]
      · simp only [r, hrp, Option.isSome_map, splitOf_isSome_iff, hvalid, true_and]
    · obtain ⟨hrraw, hriso, hrp, hrn⟩ := resultOf_of_not_valid hvalid
      refine ⟨?_, ?_, ?_, ?_, fun _ => resultOf_resistance_le⟩
      · simp [r, hrraw, hvalid]
      · simp [r, hriso, hvalid]
      · simp [r, hrp, hrn]
      · simp [r, hrp, hvalid]

end Sys2Proof.Machine
end

section
/-! PROOFS. The effective LIMIT record: the override row that counts and the blend of its fields (R69, R194); and the thresholds of a
record, quotients rounded up (R67). -/

namespace Sys2Proof.Machine

/-! ### The override row that counts -/

/-- Override row `j` names the domain and the profile, by its first two bytes (R194). -/
def OverrideNames (img : List Byte) (d : Dom) (p : Profile) (j : Nat) : Prop :=
  (img.getD (45 + 14 * j) 0).toNat = d.number ∧ (img.getD (46 + 14 * j) 0).toNat = p.code

/-- The byte `k` past the begin of override row `j`, by its place in the image. -/
theorem overrideBase_add (j k : Nat) : overrideBase j + k = 45 + k + 14 * j := Nat.add_right_comm _ _ _

theorem overrideNames_iff {img : List Byte} {d : Dom} {p : Profile} {j : Nat} :
    (overrideDom img j == d.number && overrideProfile img j == p.code) = true ↔ OverrideNames img d p j := by
  rw [Bool.and_eq_true, beq_iff_eq, beq_iff_eq, overrideProfile, overrideBase_add]
  rfl

theorem overrideFor_eq_none {img : List Byte} {d : Dom} {p : Profile}
    (h : ∀ j, j < limitCount img → ¬ OverrideNames img d p j) : overrideFor img d p = none := by
  refine List.find?_eq_none.mpr fun j hj => ?_
  rw [overrideNames_iff]
  exact h j (List.mem_range.mp hj)

theorem overrideFor_eq_some {img : List Byte} {d : Dom} {p : Profile} {j : Nat} (hj : j < limitCount img)
    (hnames : OverrideNames img d p j) (hfirst : ∀ i, i < j → ¬ OverrideNames img d p i) : overrideFor img d p = some j := by
  refine List.find?_range_eq_some.mpr ⟨overrideNames_iff.mpr hnames, List.mem_range.mpr hj, fun i hi => ?_⟩
  rw [Bool.not_eq_true', ← Bool.not_eq_true, overrideNames_iff]
  exact hfirst i hi

/-! ### The fields of the effective record -/

theorem limitBlock_eq (img : List Byte) (o : Nat) : limitBlock img o = limitFieldsAt img o := by
  simp [limitBlock, limitFieldsAt, nat16, nat8, Nat.mul_comm, Nat.add_assoc]

theorem overrideBlock_eq (img : List Byte) (j : Nat) : overrideBlock img j = limitFieldsAt img (48 + 14 * j) := by
  rw [overrideBlock, limitBlock_eq, overrideBase_add]

theorem overrideMask_eq (img : List Byte) (j : Nat) : overrideMask img j = img.getD (47 + 14 * j) 0 := by
  rw [overrideMask, overrideBase_add]

/-- Each field of a blend is picked by its own bit of the mask (R69). -/
theorem blendLimits_field (mask : Byte) (o df : Limits) :
    ∀ x ∈ [(0, Limits.warnOpv), (1, Limits.faultOpv), (2, Limits.ratedV), (3, Limits.faultCount), (4, Limits.clearCount),
        (5, Limits.hystPct), (6, Limits.maxAge)],
      x.2 (blendLimits mask o df) = if mask.getLsbD x.1 then x.2 o else x.2 df := by
  simp [blendLimits]

theorem effectiveRecord_effectiveLimits (img : List Byte) (d : Dom) (p : Profile) :
    EffectiveRecord img d p (effectiveLimits img d p) where
  noRow h := by
    rw [effectiveLimits, overrideFor_eq_none h]
    exact limitBlock_eq img _
  row j hj hdom hprofile hfirst x hx := by
    rw [effectiveLimits, overrideFor_eq_some hj ⟨hdom, hprofile⟩ hfirst, ← overrideMask_eq, ← overrideBlock_eq, ← limitBlock_eq]
    exact blendLimits_field _ _ _ x hx

/-! ### Thresholds -/

/-- The quotient rounded up is the one natural number within a divisor above the dividend. -/
theorem ceilDiv_bounds (a : Nat) {b : Nat} (hb : 0 < b) : a ≤ ceilDiv a b * b ∧ ceilDiv a b * b < a + b := by
  have hdiv : ceilDiv a b * b + (a + (b - 1)) % b = a + (b - 1) := Nat.div_add_mod' _ _
  have hmod : (a + (b - 1)) % b < b := Nat.mod_lt _ hb
  omega

theorem ceilDiv_mono {a a' : Nat} (b : Nat) (h : a ≤ a') : ceilDiv a b ≤ ceilDiv a' b := by
  unfold ceilDiv; gcongr

theorem clearLevel_mono {t t' : Nat} (hyst : Nat) (h : t ≤ t') : clearLevel t hyst ≤ clearLevel t' hyst :=
  Nat.add_le_add h (ceilDiv_mono 100 (Nat.mul_le_mul_right hyst h))

/-- A clear level is its threshold and the hysteresis rounded up (R67). -/
theorem clearLevel_bounds (t hyst : Nat) :
    ∃ x, (t * hyst ≤ x * 100 ∧ x * 100 < t * hyst + 100) ∧ clearLevel t hyst = t + x :=
  ⟨ceilDiv (t * hyst) 100, ceilDiv_bounds _ (by decide), rfl⟩

/-- A Tw that is there is the quotient of warn_opv rounded up, and Twc is its clear level (R67). -/
theorem thresholdsOf_tw_eq_some {l : Limits} {tw : Nat} (h : (thresholdsOf l).tw = some tw) :
    tw = ceilDiv (l.warnOpv * l.ratedV) 1000 ∧ (thresholdsOf l).twc = some (clearLevel tw l.hystPct) := by
  obtain ⟨-, hquot⟩ := Option.ite_none_left_eq_some.mp h
  exact ⟨(Option.some.inj hquot).symm, congrArg (Option.map (clearLevel · l.hystPct)) h⟩

theorem thresholdsOf_tw_eq_none {l : Limits} : (thresholdsOf l).tw = none ↔ l.warnOpv = 0 := by simp [thresholdsOf]

theorem thresholdsOf_twc_eq_none {l : Limits} : (thresholdsOf l).twc = none ↔ l.warnOpv = 0 := by simp [thresholdsOf]

/-- Settles O23: an ordered record's quotients are ordered, as rounding up and adding the hysteresis are monotone. -/
theorem thresholdsRoundUp : Obligations.ThresholdsRoundUp := by
  refine ⟨fun m img d p himg => ⟨effectiveRecord_effectiveLimits img d p, congrArg (Option.map _) himg⟩, fun l => ?_⟩
  refine ⟨ceilDiv_bounds _ (by decide), clearLevel_bounds _ _, thresholdsOf_tw_eq_none, thresholdsOf_twc_eq_none,
    fun tw twc htw htwc => ?_⟩
  obtain ⟨hquot, hclear⟩ := thresholdsOf_tw_eq_some htw
  obtain rfl : twc = clearLevel tw l.hystPct := Option.some.inj (htwc.symm.trans hclear)
  refine ⟨hquot ▸ ceilDiv_bounds _ (by decide), clearLevel_bounds _ _, fun hordered => ?_⟩
  have htf : (thresholdsOf l).tf ≤ tw := hquot ▸ ceilDiv_mono 1000 (Nat.mul_le_mul_right l.ratedV hordered)
  exact ⟨htf, clearLevel_mono l.hystPct htf⟩

end Sys2Proof.Machine
end

section
/-! PROOFS. The verdict machine: the level of a result (R73), what one result does from each verdict (R75 to R79), and the runs of results
that reach FAULT and leave it. -/

namespace Sys2Proof.Machine

/-! ### The level of a result (R73) -/

section

variable {th : Thresholds} {riso : Nat}

theorem levelOf_of_lt (unsettled : Bool) (h : riso < th.tf) : levelOf th riso unsettled = if unsettled then .warn else .fault := if_pos h

theorem levelOf_of_lt_tw (unsettled : Bool) (h : th.tf ≤ riso) {tw : Nat} (htw : th.tw = some tw) (hlt : riso < tw) :
    levelOf th riso unsettled = .warn := by
  simp [levelOf, not_lt.mpr h, htw, hlt]

theorem levelOf_of_ge (unsettled : Bool) (h : th.tf ≤ riso) (hge : ∀ tw, th.tw = some tw → tw ≤ riso) : levelOf th riso unsettled = .ok := by
  cases htw : th.tw with
  | none => simp [levelOf, not_lt.mpr h, htw]
  | some tw => simp [levelOf, not_lt.mpr h, htw, not_lt.mpr (hge tw htw)]

/-- The cap: a FAULT level is that of a settled result (R73). -/
theorem levelOf_unsettled_ne_fault (th : Thresholds) (riso : Nat) : levelOf th riso true ≠ .fault := by
  by_cases h : riso < th.tf
  · simp [levelOf_of_lt true h]
  · unfold levelOf; rw [if_neg h]; (repeat' split) <;> simp

end

/-! ### One result, by the verdict it meets (R75 to R78) -/

/-- The level of a worse run once a result of this level has joined it: the least severe one (R74). -/
def leastLevel (level : Level) (r : DomRec) : RunLevel := if level = .warn ∨ (0 < r.worse ∧ r.runLevel = .warn) then .warn else .fault

theorem countWorse_warn (r : DomRec) : countWorse .warn r = { r with worse := r.worse + 1, runLevel := leastLevel .warn r } := by
  simp [countWorse, leastLevel]

theorem countWorse_fault (r : DomRec) : countWorse .fault r = { r with worse := r.worse + 1, runLevel := leastLevel .fault r } := by
  by_cases hworse : r.worse = 0 <;> by_cases hwarn : r.runLevel = .warn <;>
    simp [countWorse, leastLevel, hworse, hwarn, Nat.pos_iff_ne_zero]

theorem leastLevel_fault {r : DomRec} (h : 0 < r.worse → r.runLevel = .fault) : leastLevel .fault r = .fault := by
  refine if_neg ?_
  rintro (hlevel | ⟨hpos, hwarn⟩)
  · cases hlevel
  · rw [h hpos] at hwarn; cases hwarn

/-- A result counts toward leaving FAULT: FULL, settled, and at or above the fault clear level (R78). -/
def Clears (l : Limits) (riso : Nat) (full unsettled : Bool) : Prop :=
  full = true ∧ unsettled = false ∧ (thresholdsOf l).tfc ≤ riso

/-- The below-clear mark once a result has counted toward leaving FAULT (R78). -/
def markedBelow (l : Limits) (riso : Nat) (r : DomRec) : Bool := r.belowClear || (thresholdsOf l).twc.any (riso < ·)

theorem markedBelow_iff {l : Limits} {riso : Nat} {r : DomRec} :
    markedBelow l riso r = true ↔ r.belowClear = true ∨ ∃ twc, (thresholdsOf l).twc = some twc ∧ riso < twc := by
  simp [markedBelow, Option.any_eq_true]

section

variable {l : Limits} {riso : Nat} {full unsettled : Bool} {r : DomRec}

theorem judge_unknown_ok (hv : r.verdict = .unknown) (hlevel : levelOf (thresholdsOf l) riso unsettled = .ok) :
    judge l riso full unsettled r = moveVerdict .ok r := by
  simp [judge, hv, hlevel]

theorem judge_unknown_warn (hv : r.verdict = .unknown) (hlevel : levelOf (thresholdsOf l) riso unsettled = .warn) :
    judge l riso full unsettled r = moveVerdict .warn r := by
  simp [judge, hv, hlevel]

theorem judge_unknown_fault (hv : r.verdict = .unknown) (hlevel : levelOf (thresholdsOf l) riso unsettled = .fault) :
    judge l riso full unsettled r =
      if l.faultCount = 1 then moveVerdict .fault r else { moveVerdict .warn r with worse := 1, runLevel := .fault } := by
  simp [judge, hv, hlevel]

theorem judge_ok_ok (hv : r.verdict = .ok) (hlevel : levelOf (thresholdsOf l) riso unsettled = .ok) :
    judge l riso full unsettled r = { r with worse := 0 } := by
  simp [judge, hv, hlevel]

theorem judge_ok_worse (hv : r.verdict = .ok) (hlevel : levelOf (thresholdsOf l) riso unsettled ≠ .ok) :
    judge l riso full unsettled r =
      let r' := { r with worse := r.worse + 1, runLevel := leastLevel (levelOf (thresholdsOf l) riso unsettled) r }
      if l.faultCount ≤ r.worse + 1 then moveVerdict r'.runLevel.verdict r' else r' := by
  cases hl : levelOf (thresholdsOf l) riso unsettled with
  | ok => exact absurd hl hlevel
  | warn => simp [judge, hv, hl, countWorse_warn]
  | fault => simp [judge, hv, hl, countWorse_fault]

theorem judge_warn_fault (hv : r.verdict = .warn) (hlevel : levelOf (thresholdsOf l) riso unsettled = .fault) :
    judge l riso full unsettled r =
      let r' := { resetBetter r with worse := r.worse + 1, runLevel := leastLevel .fault r }
      if l.faultCount ≤ r.worse + 1 then moveVerdict .fault r' else r' := by
  simp [judge, hv, hlevel, countWorse_fault, resetBetter, leastLevel]

theorem judge_warn_clear (hv : r.verdict = .warn) (hlevel : levelOf (thresholdsOf l) riso unsettled ≠ .fault)
    (hclear : warnClear (thresholdsOf l) ≤ riso) :
    judge l riso full unsettled r =
      let r' := { r with worse := 0, better := r.better + 1 }
      if l.clearCount ≤ r.better + 1 then moveVerdict .ok r' else r' := by
  simp [judge, hv, hlevel, hclear]

theorem judge_warn_not_clear (hv : r.verdict = .warn) (hlevel : levelOf (thresholdsOf l) riso unsettled ≠ .fault)
    (hclear : riso < warnClear (thresholdsOf l)) : judge l riso full unsettled r = resetRuns r := by
  simp [judge, hv, hlevel, not_le.mpr hclear]

theorem judge_fault_clears (hv : r.verdict = .fault) (h : Clears l riso full unsettled) :
    judge l riso full unsettled r =
      let r' := { r with better := r.better + 1, belowClear := markedBelow l riso r }
      if l.clearCount ≤ r.better + 1 then moveVerdict (if r'.belowClear then .warn else .ok) r' else r' := by
  obtain ⟨rfl, rfl, hclear⟩ := h
  cases htwc : (thresholdsOf l).twc <;> simp [judge, hv, hclear, markedBelow, htwc]

theorem judge_fault_not_clears (hv : r.verdict = .fault) (h : ¬ Clears l riso full unsettled) :
    judge l riso full unsettled r = resetBetter r := by
  have htest : ¬ (full && !unsettled && decide ((thresholdsOf l).tfc ≤ riso)) = true := by simpa [Clears, and_assoc] using h
  simp only [judge, hv, if_neg htest]

/-- The verdict machine writes the verdict, the runs with their level and the mark, and nothing else. -/
theorem judge_frame (l : Limits) (riso : Nat) (full unsettled : Bool) (r : DomRec) :
    let r' := judge l riso full unsettled r
    r' = { r with verdict := r'.verdict, worse := r'.worse, runLevel := r'.runLevel, better := r'.better, belowClear := r'.belowClear } := by
  unfold judge; dsimp only; (repeat' split) <;> rfl

/-- Only a FAULT level takes a verdict to FAULT. -/
theorem judge_ne_fault (hv : r.verdict ≠ .fault) (hlevel : levelOf (thresholdsOf l) riso unsettled ≠ .fault) :
    (judge l riso full unsettled r).verdict ≠ .fault := by
  cases hverdict : r.verdict with
  | unknown =>
    cases hl : levelOf (thresholdsOf l) riso unsettled with
    | ok => simp [judge_unknown_ok hverdict hl, moveVerdict]
    | warn => simp [judge_unknown_warn hverdict hl, moveVerdict]
    | fault => exact absurd hl hlevel
  | ok =>
    cases hl : levelOf (thresholdsOf l) riso unsettled with
    | ok => simp [judge_ok_ok hverdict hl, hverdict]
    | warn =>
      rw [judge_ok_worse hverdict (by simp [hl]), hl]
      dsimp only; split <;> simp [moveVerdict, leastLevel, RunLevel.verdict, hverdict]
    | fault => exact absurd hl hlevel
  | warn =>
    rcases le_or_gt (warnClear (thresholdsOf l)) riso with hclear | hclear
    · rw [judge_warn_clear hverdict hlevel hclear]
      dsimp only; split <;> simp [moveVerdict, hverdict]
    · simp [judge_warn_not_clear hverdict hlevel hclear, resetRuns, hverdict]
  | fault => exact absurd hverdict hv

end

/-- Settles O24. -/
theorem resultLevel : Obligations.ResultLevel :=
  ⟨fun _ _ unsettled => ⟨levelOf_of_lt unsettled, fun h _ => levelOf_of_lt_tw unsettled h, levelOf_of_ge unsettled⟩,
    fun _ _ _ _ hv => judge_ne_fault hv (levelOf_unsettled_ne_fault _ _)⟩

/-- Settles O27, by the verdict that the result meets and the result's level. -/
theorem verdictMachine : Obligations.VerdictMachine := by
  intro l riso full unsettled r
  dsimp only
  refine ⟨judge_frame l riso full unsettled r, fun hv => ⟨fun hl => ?_, fun hl => ?_, fun hl => ?_⟩,
    fun hv => ⟨fun hl => ?_, fun hl => ?_, ?_⟩, fun hv => ⟨fun hl => ?_, fun hl hclear => ?_, fun hl hclear => ?_, ?_⟩,
    fun hv => ⟨fun h hdone => ?_, fun h hmore => ?_, fun h => ?_⟩⟩
  · simp [judge_unknown_ok hv hl, moveVerdict, resetRuns]
  · simp [judge_unknown_warn hv hl, moveVerdict, resetRuns]
  · rw [judge_unknown_fault hv hl]; split <;> simp [moveVerdict, resetRuns]
  · simp [judge_ok_ok hv hl, hv]
  · rw [judge_ok_worse hv hl]; dsimp only; split
    · refine ⟨?_, rfl, rfl, rfl⟩
      show (leastLevel _ r).verdict = _
      unfold leastLevel; split <;> rfl
    · exact ⟨hv, rfl, rfl⟩
  · intro hbetter
    by_cases hl : levelOf (thresholdsOf l) riso unsettled = .ok
    · simp [judge_ok_ok hv hl, hbetter]
    · rw [judge_ok_worse hv hl]; dsimp only; split
      · rfl
      · exact hbetter
  · rw [judge_warn_fault hv hl]; dsimp only; split
    · exact ⟨rfl, rfl, rfl, rfl⟩
    · exact ⟨hv, rfl, rfl⟩
  · rw [judge_warn_clear hv hl hclear]; dsimp only; split
    · exact ⟨rfl, rfl, rfl, rfl⟩
    · exact ⟨hv, rfl, rfl⟩
  · rw [judge_warn_not_clear hv hl hclear]; exact ⟨hv, rfl, rfl, rfl⟩
  · intro hrun
    by_cases hl : levelOf (thresholdsOf l) riso unsettled = .fault
    · rw [judge_warn_fault hv hl, leastLevel_fault hrun]; dsimp only; split <;> exact fun _ => rfl
    · rcases le_or_gt (warnClear (thresholdsOf l)) riso with hclear | hclear
      · rw [judge_warn_clear hv hl hclear]; dsimp only; split <;> exact fun h => absurd h (Nat.lt_irrefl 0)
      · rw [judge_warn_not_clear hv hl hclear]; exact fun h => absurd h (Nat.lt_irrefl 0)
  · rw [judge_fault_clears hv h, if_pos hdone, ← markedBelow_iff]
    exact ⟨⟨rfl, rfl, rfl⟩, fun hmark => if_pos hmark, fun hmark => if_neg hmark⟩
  · rw [judge_fault_clears hv h, if_neg (not_le.mpr hmore)]
    exact ⟨hv, rfl, rfl, markedBelow_iff⟩
  · rw [judge_fault_not_clears hv h]; exact ⟨hv, rfl, rfl, rfl⟩

/-! ### FAULT results in a row (R75, R76) -/

/-- `n` FAULT results in a row stand behind a domain that is not in FAULT: none behind one in UNKNOWN (R75), and else the worse run of
that length, all of it FAULT (R76, R77). -/
structure FaultRun (n : Nat) (r : DomRec) : Prop where
  verdict : (r.verdict = .unknown ∧ n = 0) ∨ r.verdict = .ok ∨ r.verdict = .warn
  worse : r.worse = n
  level : 0 < n → r.runLevel = .fault

theorem FaultRun.leastLevel_eq {n : Nat} {r : DomRec} (h : FaultRun n r) : leastLevel .fault r = .fault :=
  leastLevel_fault fun hpos => h.level (h.worse ▸ hpos)

theorem FaultRun.ne_fault {n : Nat} {r : DomRec} (h : FaultRun n r) : r.verdict ≠ .fault := by
  rcases h.verdict with ⟨hv, -⟩ | hv | hv <;> simp [hv]

/-- One more FAULT result reaches FAULT at fault_count, and before it lengthens the run. -/
theorem FaultRun.judge {n riso : Nat} {l : Limits} {r : DomRec} (full : Bool) (h : FaultRun n r)
    (hlevel : levelOf (thresholdsOf l) riso false = .fault) :
    (n + 1 = l.faultCount → (judge l riso full false r).verdict = .fault) ∧
    (n + 1 < l.faultCount → FaultRun (n + 1) (judge l riso full false r)) := by
  rcases h.verdict with ⟨hv, rfl⟩ | hv | hv
  · rw [judge_unknown_fault hv hlevel]
    refine ⟨fun hcount => by rw [if_pos hcount.symm]; rfl, fun hcount => ?_⟩
    rw [if_neg hcount.ne']
    exact ⟨.inr (.inr rfl), rfl, fun _ => rfl⟩
  · rw [judge_ok_worse hv (by simp [hlevel]), hlevel, h.leastLevel_eq, h.worse]
    refine ⟨fun hcount => by rw [if_pos hcount.ge]; rfl, fun hcount => ?_⟩
    rw [if_neg (not_le.mpr hcount)]
    exact ⟨.inr (.inl hv), rfl, fun _ => rfl⟩
  · rw [judge_warn_fault hv hlevel, h.leastLevel_eq, h.worse]
    refine ⟨fun hcount => by rw [if_pos hcount.ge]; rfl, fun hcount => ?_⟩
    rw [if_neg (not_le.mpr hcount)]
    exact ⟨.inr (.inr hv), rfl, fun _ => rfl⟩

theorem FaultRun.foldl_judge {l : Limits} (rs : List (Nat × Bool)) (hrs : ∀ x ∈ rs, x.1 < (thresholdsOf l).tf) :
    ∀ {n : Nat} {r : DomRec}, FaultRun n r → n < l.faultCount → n + rs.length ≤ l.faultCount →
      ((rs.foldl (fun r x => Machine.judge l x.1 x.2 false r) r).verdict = .fault ↔ n + rs.length = l.faultCount) := by
  induction rs with
  | nil => exact fun h hlt _ => iff_of_false h.ne_fault hlt.ne
  | cons x rs ih =>
    intro n r h hlt hle
    obtain ⟨hreach, hgo⟩ := h.judge x.2 (levelOf_of_lt false (hrs x List.mem_cons_self))
    rw [List.length_cons] at hle ⊢
    rcases Nat.lt_or_ge (n + 1) l.faultCount with hcount | hcount
    · rw [List.foldl_cons, ih (fun y hy => hrs y (List.mem_cons_of_mem x hy)) (hgo hcount) hcount (by omega)]
      omega
    · obtain rfl : rs = [] := List.eq_nil_of_length_eq_zero (by omega)
      exact iff_of_true (hreach (by omega)) (by rw [List.length_nil] at hle ⊢; omega)

/-- Settles O25: a domain with its worse run at 0 has no FAULT result behind it. -/
theorem faultRunReachesFault : Obligations.FaultRunReachesFault := by
  intro l r rs hcount hv hworse _ hrs hlen
  have hrun : FaultRun 0 r := ⟨hv.elim (fun h => .inl ⟨h, rfl⟩) fun h => .inr (.inl h), hworse, fun h => absurd h (Nat.lt_irrefl 0)⟩
  simpa using hrun.foldl_judge rs hrs hcount (by omega)

/-! ### The results that leave FAULT (R78) -/

/-- A sequence of evaluated results (Riso, FULL, UNSETTLED), taken in turn. -/
def judgeAll (l : Limits) (r : DomRec) (rs : List (Nat × Bool × Bool)) : DomRec :=
  rs.foldl (fun r x => judge l x.1 x.2.1 x.2.2 r) r

/-- The last `n` results of a sequence all count toward leaving FAULT. -/
def EndsInClears (l : Limits) (n : Nat) (rs : List (Nat × Bool × Bool)) : Prop :=
  ∃ zs, zs <:+ rs ∧ zs.length = n ∧ ∀ x ∈ zs, Clears l x.1 x.2.1 x.2.2

theorem EndsInClears.concat {l : Limits} {n : Nat} {rs : List (Nat × Bool × Bool)} {x : Nat × Bool × Bool} (h : EndsInClears l n rs)
    (hx : Clears l x.1 x.2.1 x.2.2) : EndsInClears l (n + 1) (rs ++ [x]) := by
  obtain ⟨zs, ⟨pre, rfl⟩, rfl, hzs⟩ := h
  refine ⟨zs ++ [x], ⟨pre, (List.append_assoc ..).symm⟩, List.length_append, fun y hy => ?_⟩
  rcases List.mem_append.mp hy with hy | hy
  · exact hzs y hy
  · obtain rfl := List.mem_singleton.mp hy; exact hx

theorem EndsInClears.drop {l : Limits} {n k : Nat} {rs : List (Nat × Bool × Bool)} (h : EndsInClears l n rs) (hk : k ≤ n) :
    k ≤ rs.length ∧ ∀ x ∈ rs.drop (rs.length - k), Clears l x.1 x.2.1 x.2.2 := by
  obtain ⟨zs, hsuffix, rfl, hzs⟩ := h
  refine ⟨hk.trans hsuffix.length_le, fun x hx => hzs x ?_⟩
  have hdrop : rs.drop (rs.length - k) <:+ zs :=
    List.suffix_of_suffix_length_le (List.drop_suffix ..) hsuffix (by rw [List.length_drop]; omega)
  exact hdrop.subset hx

theorem judgeAll_concat (l : Limits) (r : DomRec) (rs : List (Nat × Bool × Bool)) (x : Nat × Bool × Bool) :
    judgeAll l r (rs ++ [x]) = judge l x.1 x.2.1 x.2.2 (judgeAll l r rs) := List.foldl_concat ..

/-- While a domain stays in FAULT its better run counts results that all qualify, the last ones (R78). -/
theorem endsInClears_better {l : Limits} {r : DomRec} (hbetter : r.better = 0) (rs : List (Nat × Bool × Bool)) :
    (∀ n ≤ rs.length, (judgeAll l r (rs.take n)).verdict = .fault) → EndsInClears l (judgeAll l r rs).better rs := by
  induction rs using List.reverseRecOn with
  | nil => exact fun _ => ⟨[], List.nil_suffix, hbetter.symm, by simp⟩
  | append_singleton rs x ih =>
    intro hstays
    have hprefix : ∀ n ≤ rs.length, (judgeAll l r (rs.take n)).verdict = .fault := fun n hn => by
      rw [← List.take_append_of_le_length hn (l₂ := [x])]
      exact hstays n (by rw [List.length_append]; omega)
    have hv : (judgeAll l r rs).verdict = .fault := by simpa using hprefix rs.length le_rfl
    have hnext := hstays (rs ++ [x]).length le_rfl
    rw [List.take_length] at hnext
    rw [judgeAll_concat] at hnext ⊢
    by_cases hx : Clears l x.1 x.2.1 x.2.2
    · rw [judge_fault_clears hv hx] at hnext ⊢
      by_cases hdone : l.clearCount ≤ (judgeAll l r rs).better + 1
      · rw [if_pos hdone] at hnext ⊢
        exact absurd hnext (by simp only [moveVerdict]; split <;> simp)
      · rw [if_neg hdone]
        exact (ih hprefix).concat hx
    · rw [judge_fault_not_clears hv hx]
      exact ⟨[], List.nil_suffix, rfl, by simp⟩

/-- Settles O26: the last result counts, and the better run it completes is of results that all do. -/
theorem faultLeftOnlyByClearRun : Obligations.FaultLeftOnlyByClearRun := by
  intro l r rs go hv hbetter hne hleft hstays
  obtain ⟨ys, x, rfl⟩ := (List.eq_nil_or_concat' rs).resolve_left hne
  have hprefix : ∀ n ≤ ys.length, (judgeAll l r (ys.take n)).verdict = .fault := fun n hn => by
    rw [← List.take_append_of_le_length hn (l₂ := [x])]
    exact hstays n (by rw [List.length_append, List.length_singleton]; omega)
  have hlast : (judgeAll l r ys).verdict = .fault := by simpa using hprefix ys.length le_rfl
  have hnext : (judge l x.1 x.2.1 x.2.2 (judgeAll l r ys)).verdict ≠ .fault := judgeAll_concat l r ys x ▸ hleft
  have hx : Clears l x.1 x.2.1 x.2.2 := by
    by_contra hx
    rw [judge_fault_not_clears hlast hx] at hnext
    exact hnext hlast
  rw [judge_fault_clears hlast hx] at hnext
  have hdone : l.clearCount ≤ (judgeAll l r ys).better + 1 := by
    by_contra hmore
    rw [if_neg hmore] at hnext
    exact hnext hlast
  exact ((endsInClears_better hbetter ys hprefix).concat hx).drop hdone

end Sys2Proof.Machine
end

section
/-! PROOFS. The asymmetry watch (R87 to R89), the aging expiry (R82), and the properties that every step keeps, at power-on. -/

namespace Sys2Proof.Machine

/-! ### The asymmetry watch (R87 to R89) -/

theorem watched_iff (b : Mailbox) (x : Sample) : watched b x = true ↔
    x.clip = false ∧ x.tflt = false ∧
      (x.applied = b.level ∧ (x.ref = true ↔ b.path = .ref) ∧ (x.bal = true ↔ b.balance = .connected)) ∧
      (b.level = 0 ∨ b.path = .ref) := by
  simp only [watched, Bool.and_eq_true, Bool.or_eq_true, Bool.not_eq_true', beq_iff_eq, echoes_iff, and_assoc]

theorem asymmetric_iff (pct : Nat) (x : Sample) : asymmetric pct x = true ↔
    1200 ≤ x.vPlus + x.vMinus ∧ min x.vPlus x.vMinus * 100 < pct * (x.vPlus + x.vMinus) :=
  Bool.and_eq_true_iff.trans (and_congr decide_eq_true_iff decide_eq_true_iff)

theorem PerDom.set_set {α : Type} (t : PerDom α) (d : Dom) (x y : α) : (t.set d x).set d y = t.set d y := by cases d <;> rfl

theorem changeDom_changeDom (d : Dom) (f g : DomRec → DomRec) (m : Meas) : changeDom d g (changeDom d f m) = changeDom d (g ∘ f) m := by
  simp [changeDom, PerDom.set_set]

/-- The marker and ASYM are set: the run stands at asym_count (R89). -/
def asymMarked (d : Dom) (m : Meas) : Meas :=
  raise .asym (changeDom d (fun r => { r with asymRun := satInc 100 r.asymRun, asymActive := true }) m)

theorem watchSample_of_not_watched {m : Meas} {d : Dom} {x : Sample} (h : ¬ watched (m.taps.get d).mailbox x = true) :
    watchSample d x m = m := if_neg h

section

variable {m : Meas} {d : Dom} {x : Sample} {row : CycleRow}

theorem watchSample_of_even (hrow : cycleRow m (profileInForce m d) = some row) (hw : watched (m.taps.get d).mailbox x = true)
    (ha : ¬ asymmetric row.asymPct x = true) :
    watchSample d x m = changeDom d (fun r => { r with asymRun := 0, asymActive := false }) m := by
  simp [watchSample, hw, hrow, ha]

theorem watchSample_of_counted (hrow : cycleRow m (profileInForce m d) = some row) (hw : watched (m.taps.get d).mailbox x = true)
    (ha : asymmetric row.asymPct x = true)
    (hrun : satInc 100 (m.doms.get d).asymRun < row.asymCount ∨ (m.doms.get d).asymActive = true) :
    watchSample d x m = changeDom d (fun r => { r with asymRun := satInc 100 r.asymRun }) m := by
  have hnot : ¬ (row.asymCount ≤ satInc 100 (m.doms.get d).asymRun ∧ (m.doms.get d).asymActive = false) := by
    rintro ⟨hcount, hclear⟩
    rcases hrun with hlt | hset
    · exact absurd hcount (not_le.mpr hlt)
    · rw [hclear] at hset; cases hset
  simp [watchSample, hw, hrow, ha, hnot]

theorem watchSample_of_reached (hrow : cycleRow m (profileInForce m d) = some row) (hw : watched (m.taps.get d).mailbox x = true)
    (ha : asymmetric row.asymPct x = true) (hcount : row.asymCount ≤ satInc 100 (m.doms.get d).asymRun)
    (hclear : (m.doms.get d).asymActive = false) : watchSample d x m = demandOn d .fast (asymMarked d m) := by
  simp [watchSample, hw, hrow, ha, hcount, hclear, changeDom_changeDom, asymMarked, Function.comp_def]

theorem demandOn_of_untaken (md : Mode) (h : ∀ i, islandOf m d = some i →
    i.state = .stalled ∨ i.state = .handoff ∨ i.state = .external ∨ i.state = .refhold) : demandOn d md m = m := by
  unfold demandOn
  cases hi : islandOf m d with
  | none => rfl
  | some i => rcases h i hi with hs | hs | hs | hs <;> simp [hs]

end

/-- Settles O29, by the class of the sample, and where the run reaches asym_count by the state of the island that holds the domain. -/
theorem asymmetryWatch : Obligations.AsymmetryWatch := by
  intro m d x row hrow
  dsimp only
  rw [← watched_iff, ← asymmetric_iff]
  refine ⟨watchSample_of_not_watched, watchSample_of_even hrow, watchSample_of_counted hrow, fun hw ha hcount hclear => ?_⟩
  rw [watchSample_of_reached hrow hw ha hcount hclear]
  exact ⟨fun i hi hs => demandOn_of_held (m := asymMarked d m) .fast hi hs,
    fun i hi hs => demandOn_of_interval (m := asymMarked d m) .fast hi hs, demandOn_of_untaken (m := asymMarked d m) .fast⟩

/-! ### The aging expiry (R82) -/

/-- A change of a domain's verdict (R80, R81). -/
theorem putVerdict_of_changed {m : Meas} {d : Dom} {r : DomRec} (h : r.verdict ≠ (m.doms.get d).verdict) :
    putVerdict d r m = followConditions (raise .verdictChanged (changeDom d (fun _ => r) m)) := by
  simp [putVerdict, h]

/-- Settles O30: the test is due, and the change of the verdict sets VERDICT_CHANGED. -/
theorem agingExpiryForgets : Obligations.AgingExpiryForgets := by
  intro s d n l hv hnewest hlimits hage hfree
  have hdue : agingDue s.meas d = true := (agingDue_iff ..).mpr ⟨hv, hfree, n, l, hnewest, hlimits, hage⟩
  have hchanged : (moveVerdict .unknown (s.meas.doms.get d)).verdict ≠ (s.meas.doms.get d).verdict := by
    rcases hv with hv | hv <;> simp [moveVerdict, hv]
  have hexpiry : agingExpiryOf d s.meas = some (followConditions (raise .verdictChanged
      (changeDom d (fun _ => moveVerdict .unknown (s.meas.doms.get d)) s.meas))) := by
    rw [agingExpiryOf, if_pos hdue, agingTest, if_pos hdue, putVerdict_of_changed hchanged]
  refine ⟨_, _, _, rfl, onEvent_moved hexpiry rfl, ?_, ?_⟩
  · exact (flagSet_followConditions .verdictChanged _).trans (by simp [flagSet_raise])
  · rw [raise_flags, BitVec.or_assoc]
    ext k
    simp +contextual

/-! ### Power-on -/

theorem receiver_reset_bounded : Receiver.reset.Bounded := ⟨by decide, by decide, by decide, by decide⟩

/-- No condition holds at power-on: nothing is fitted, and the topology state is UNRESOLVED (R21, R91). -/
theorem conditionHolds_reset (f : Flag) : conditionHolds Meas.reset f = false := by cases f <;> decide

/-- Settles O60: at power-on the queues are empty, the counters at 0 and the built-in FORWARD table active; no condition holds, no domain
is fitted, and there is no entry and no island. -/
theorem resetMeetsProperties : Obligations.ResetMeetsProperties := by
  refine ⟨⟨by decide, by decide, by decide, by decide, by decide, receiver_reset_bounded, receiver_reset_bounded⟩, by decide,
    fun f hf => ?_, iff_of_false (by decide) ?_, List.nodup_nil, partitionFollows_of_unknown (by decide) rfl⟩
  · rw [State.reset, conditionHolds_reset] at hf; cases hf
  · rintro ⟨d, hfitted, -⟩; cases hfitted

end Sys2Proof.Machine
end

section
/-! PROOFS. The evaluation of a VALID result (R72): the solo result (R84), the verdict and the newest result, the fault record (R85), and
its attribution list in order (R86). -/

namespace Sys2Proof.Machine

/-! ### The attribution list (R86) -/

/-- An entry's Riso in the order of the list: solo data goes before none. -/
def AttribEntry.key (e : AttribEntry) : WithTop Nat := e.solo.elim ⊤ fun x => (x.1 : WithTop Nat)

/-- An entry's place in the order of the list: by its key, and among equal ones by its domain. -/
def AttribEntry.rank (e : AttribEntry) : WithTop Nat ×ₗ Nat := toLex (e.key, e.dom.index)

theorem entryBefore_iff (a b : AttribEntry) : entryBefore a b = true ↔ a.key ≤ b.key := by
  cases ha : a.solo <;> cases hb : b.solo <;> simp [entryBefore, AttribEntry.key, ha, hb]

theorem AttribEntry.rank_lt_iff (a b : AttribEntry) : a.rank < b.rank ↔ a.key < b.key ∨ a.key = b.key ∧ a.dom.index < b.dom.index :=
  Prod.Lex.toLex_lt_toLex

theorem insertEntry_perm (e : AttribEntry) (xs : List AttribEntry) : (insertEntry e xs).Perm (e :: xs) := by
  induction xs with
  | nil => exact .refl _
  | cons x xs ih =>
    unfold insertEntry; split
    · exact .refl _
    · exact (ih.cons x).trans (.swap e x xs)

theorem sortEntries_perm (xs : List AttribEntry) : (sortEntries xs).Perm xs := by
  induction xs with
  | nil => exact .refl _
  | cons x xs ih => exact (insertEntry_perm x (sortEntries xs)).trans (ih.cons x)

/-- An entry of a lower domain than a list's goes to its place in the order: it stays before its equals. -/
theorem insertEntry_pairwise {e : AttribEntry} {xs : List AttribEntry} (hlow : ∀ x ∈ xs, e.dom.index < x.dom.index)
    (hxs : xs.Pairwise (·.rank < ·.rank)) : (insertEntry e xs).Pairwise (·.rank < ·.rank) := by
  induction xs with
  | nil => exact List.pairwise_singleton ..
  | cons x xs ih =>
    obtain ⟨hx, htail⟩ := List.pairwise_cons.mp hxs
    unfold insertEntry; split
    · next hbefore =>
      have hex : e.rank < x.rank := (AttribEntry.rank_lt_iff e x).mpr <|
        ((entryBefore_iff e x).mp hbefore).lt_or_eq.imp_right fun heq => ⟨heq, hlow x List.mem_cons_self⟩
      refine List.pairwise_cons.mpr ⟨fun y hy => ?_, hxs⟩
      rcases List.mem_cons.mp hy with rfl | hy
      · exact hex
      · exact hex.trans (hx y hy)
    · next hafter =>
      have hxe : x.rank < e.rank := (AttribEntry.rank_lt_iff x e).mpr (.inl (not_le.mp fun h => hafter ((entryBefore_iff e x).mpr h)))
      refine List.pairwise_cons.mpr ⟨fun y hy => ?_, ih (fun y hy => hlow y (List.mem_cons_of_mem x hy)) htail⟩
      rcases List.mem_cons.mp ((insertEntry_perm e xs).mem_iff.mp hy) with rfl | hy
      · exact hxe
      · exact hx y hy

theorem sortEntries_pairwise {xs : List AttribEntry} (h : xs.Pairwise (·.dom.index < ·.dom.index)) :
    (sortEntries xs).Pairwise (·.rank < ·.rank) := by
  induction xs with
  | nil => exact .nil
  | cons x xs ih =>
    obtain ⟨hx, htail⟩ := List.pairwise_cons.mp h
    exact insertEntry_pairwise (fun y hy => hx y ((sortEntries_perm xs).mem_iff.mp hy)) (ih htail)

theorem attribEntry_dom (m : Meas) (attribAge : Nat) (now : Time) (d : Dom) : (attribEntry m attribAge now d).dom = d := by
  unfold attribEntry; (repeat' split) <;> rfl

theorem attribEntry_solo_iff (m : Meas) (attribAge : Nat) (now : Time) (d : Dom) (v : Nat × Nat) :
    (attribEntry m attribAge now d).solo = some v ↔ ∃ o, (m.doms.get d).solo = some o ∧
      (now - o.time).toNat < attribAge * 1000 ∧ v = (o.riso, (now - o.time).toNat / 1000) := by
  cases hsolo : (m.doms.get d).solo with
  | none => simp [attribEntry, hsolo]
  | some o =>
    by_cases hage : age now o.time < attribAge * 1000
    · simp only [attribEntry, hsolo, if_pos hage, Option.some.injEq, exists_eq_left']
      exact ⟨fun h => ⟨hage, h.symm⟩, fun h => h.2.symm⟩
    · simp only [attribEntry, hsolo, if_neg hage, Option.some.injEq, exists_eq_left', reduceCtorEq, false_iff]
      exact fun h => hage h.1

/-- An attribution list depends on the solo results alone. -/
theorem attribution_congr {m m' : Meas} (h : ∀ d, (m.doms.get d).solo = (m'.doms.get d).solo) (attribAge : Nat) (now : Time)
    (ds : DomSet) : attribution m attribAge now ds = attribution m' attribAge now ds := by
  have hentry : attribEntry m attribAge now = attribEntry m' attribAge now := funext fun d => by simp only [attribEntry, h]
  simp only [attribution, hentry]

theorem attribution_doms_perm (m : Meas) (attribAge : Nat) (now : Time) (ds : DomSet) :
    ((attribution m attribAge now ds).map (·.dom)).Perm (members ds) := by
  refine ((sortEntries_perm _).map _).trans (.of_eq ?_)
  rw [List.map_map]
  exact (List.map_congr_left fun d _ => attribEntry_dom m attribAge now d).trans (List.map_id _)

theorem attribution_entry {m : Meas} {attribAge : Nat} {now : Time} {ds : DomSet} {e : AttribEntry}
    (he : e ∈ attribution m attribAge now ds) : e = attribEntry m attribAge now e.dom := by
  obtain ⟨d, -, rfl⟩ := List.mem_map.mp ((sortEntries_perm _).mem_iff.mp he)
  rw [attribEntry_dom]

theorem attribution_pairwise (m : Meas) (attribAge : Nat) (now : Time) (ds : DomSet) :
    (attribution m attribAge now ds).Pairwise (·.rank < ·.rank) :=
  sortEntries_pairwise <| List.pairwise_map.mpr <| (members_pairwise ds).imp fun {a b} h => by
    rwa [attribEntry_dom, attribEntry_dom]

/-! ### The records, domain by domain -/

theorem PerDom.set_get_self {α : Type} (t : PerDom α) (d : Dom) : t.set d (t.get d) = t := by cases d <;> rfl

/-- A fold whose step for a domain changes that domain's record alone changes each listed record once. -/
theorem foldl_doms_get {P : Meas → Prop} {f : Meas → Dom → Meas} {g : Dom → DomRec → DomRec}
    (hf : ∀ m e, P m → P (f m e) ∧ (f m e).doms = m.doms.set e (g e (m.doms.get e))) {ds : List Dom} (hds : ds.Nodup) {m : Meas}
    (hm : P m) (d : Dom) : (ds.foldl f m).doms.get d = if d ∈ ds then g d (m.doms.get d) else m.doms.get d := by
  induction ds generalizing m with
  | nil => simp
  | cons e ds ih =>
    obtain ⟨he, hds⟩ := List.nodup_cons.mp hds
    obtain ⟨hP, hdoms⟩ := hf m e hm
    rw [List.foldl_cons, ih hds hP, hdoms, PerDom.get_set]
    by_cases hd : d = e
    · subst hd; simp [he]
    · simp [hd]

theorem judging_foldl {f : Meas → Dom → Meas} (h : ∀ m d, Judging m (f m d)) (ds : List Dom) (m : Meas) : Judging m (ds.foldl f m) := by
  induction ds generalizing m with
  | nil => exact .refl m
  | cons d ds ih => exact (h m d).trans (ih _)

theorem members_nodup (ds : DomSet) : (members ds).Nodup := Dom.all_nodup.filter _

theorem members_eq_singleton {ds : DomSet} {d : Dom} : members ds = [d] ↔ ds = single d := by
  constructor
  · intro h
    refine DomSet.ext fun e => Bool.eq_iff_iff.mpr ?_
    rw [← mem_members, h, inSet_single, List.mem_singleton, decide_eq_true_iff]
  · rintro rfl; cases d <;> decide

theorem putVerdict_doms (d : Dom) (r : DomRec) (m : Meas) : (putVerdict d r m).doms = m.doms.set d r := by
  unfold putVerdict; dsimp only; split <;> rfl

theorem judging_putVerdict (d : Dom) (r : DomRec) (m : Meas) : Judging m (putVerdict d r m) := by
  unfold putVerdict; dsimp only; split <;> rfl

theorem flagSet_putVerdict {m : Meas} {d : Dom} {r : DomRec} (h : r.verdict ≠ (m.doms.get d).verdict) :
    flagSet (putVerdict d r m) .verdictChanged = true := by
  rw [putVerdict_of_changed h, flagSet_followConditions, flagSet_raise]; simp

/-- The verdict machine writes no fault record. -/
theorem judge_faultRecord (l : Limits) (riso : Nat) (full unsettled : Bool) (r : DomRec) :
    (judge l riso full unsettled r).fault = r.fault := by rw [judge_frame]

/-- The verdict machine does not read the solo result. -/
theorem judge_solo (l : Limits) (riso : Nat) (full unsettled : Bool) (r : DomRec) (solo : Option Solo) :
    judge l riso full unsettled { r with solo := solo } = { judge l riso full unsettled r with solo := solo } := by
  suffices key : ∀ r', r' = { r with solo := solo } →
      judge l riso full unsettled r' = { judge l riso full unsettled r with solo := solo } from key _ rfl
  intro r' hr'
  have hsame : r'.verdict = r.verdict := by rw [hr']
  cases hv : r.verdict with
  | unknown =>
    cases hl : levelOf (thresholdsOf l) riso unsettled with
    | ok => rw [judge_unknown_ok hv hl, judge_unknown_ok (hsame.trans hv) hl, hr']; rfl
    | warn => rw [judge_unknown_warn hv hl, judge_unknown_warn (hsame.trans hv) hl, hr']; rfl
    | fault => rw [judge_unknown_fault hv hl, judge_unknown_fault (hsame.trans hv) hl, hr']; split <;> rfl
  | ok =>
    by_cases hl : levelOf (thresholdsOf l) riso unsettled = .ok
    · rw [judge_ok_ok hv hl, judge_ok_ok (hsame.trans hv) hl, hr']
    · rw [judge_ok_worse hv hl, judge_ok_worse (hsame.trans hv) hl, hr']; dsimp only; split <;> rfl
  | warn =>
    by_cases hl : levelOf (thresholdsOf l) riso unsettled = .fault
    · rw [judge_warn_fault hv hl, judge_warn_fault (hsame.trans hv) hl, hr']; dsimp only; split <;> rfl
    · rcases le_or_gt (warnClear (thresholdsOf l)) riso with hclear | hclear
      · rw [judge_warn_clear hv hl hclear, judge_warn_clear (hsame.trans hv) hl hclear, hr']; dsimp only; split <;> rfl
      · rw [judge_warn_not_clear hv hl hclear, judge_warn_not_clear (hsame.trans hv) hl hclear, hr']; rfl
  | fault =>
    by_cases h : Clears l riso full unsettled
    · rw [judge_fault_clears hv h, judge_fault_clears (hsame.trans hv) h, hr']; dsimp only; split <;> rfl
    · rw [judge_fault_not_clears hv h, judge_fault_not_clears (hsame.trans hv) h, hr']; rfl

/-! ### The three steps of an evaluation (R72) -/

section

variable (p : Profile) (attribAge riso : Nat) (r : ResultRecord)

/-- A result that becomes the solo result of a domain: a settled FULL one of the domain alone (R84). -/
def SoloOf (d : Dom) : Prop := r.members = single d ∧ r.mode = .full ∧ r.quality.unsettled = false

/-- A domain's record after the second step: the verdict machine's answer and the newest result. -/
def judgedRec (l : Limits) (x : DomRec) : DomRec :=
  { judge l riso (r.mode == .full) r.quality.unsettled x with newest := some ⟨r.number, r.time⟩ }

/-- A domain's record after the third step: entry to FAULT writes the fault record (R85). -/
def faultedRec (before : Verdict) (f : FaultRecord) (x : DomRec) : DomRec :=
  if x.verdict = .fault ∧ before ≠ .fault then { x with fault := some f } else x

theorem judging_updateSolo (m : Meas) : Judging m (updateSolo r riso m) := by
  unfold updateSolo; (repeat' split) <;> rfl

theorem updateSolo_get (m : Meas) (d : Dom) : ∃ solo, (updateSolo r riso m).doms.get d = { m.doms.get d with solo := solo } ∧
    (SoloOf r d → solo = some ⟨riso, r.time⟩) ∧ (¬ SoloOf r d → solo = (m.doms.get d).solo) := by
  by_cases hsolo : SoloOf r d
  · obtain ⟨hmembers, hmode, hsettled⟩ := id hsolo
    exact ⟨some ⟨riso, r.time⟩, by simp [updateSolo, members_eq_singleton.mpr hmembers, hmode, hsettled],
      fun _ => rfl, fun h => absurd hsolo h⟩
  · refine ⟨(m.doms.get d).solo, ?_, fun h => absurd h hsolo, fun _ => rfl⟩
    unfold updateSolo; split
    · next e he =>
      split
      · next hfull =>
        have hne : d ≠ e := by
          rintro rfl
          exact hsolo ⟨members_eq_singleton.mp he, by simpa using hfull⟩
        rw [changeDom_doms, PerDom.get_set_of_ne _ _ hne]
      · rfl
    · rfl

variable {p riso r}

theorem evaluateDomain_of_limits {m : Meas} {d : Dom} {l : Limits} (hl : limitsOf m d p = some l) :
    evaluateDomain p r riso m d = putVerdict d (judgedRec riso r l (m.doms.get d)) m := by
  simp only [evaluateDomain, hl, judgedRec]

theorem limitsOf_of_image {m : Meas} {img : List Byte} (h : m.tables.limit = some img) (d : Dom) :
    limitsOf m d p = some (effectiveLimits img d p) := by simp [limitsOf, h]

theorem judging_evaluateDomain (m : Meas) (d : Dom) : Judging m (evaluateDomain p r riso m d) := by
  unfold evaluateDomain; split
  · exact .refl m
  · exact judging_putVerdict ..

theorem evaluateDomain_limit (m : Meas) (d : Dom) : (evaluateDomain p r riso m d).tables.limit = m.tables.limit := by
  rw [judging_evaluateDomain m d]

theorem foldl_evaluateDomain_get {img : List Byte} {ds : List Dom} (hds : ds.Nodup) {m : Meas} (hm : m.tables.limit = some img)
    (d : Dom) : (ds.foldl (evaluateDomain p r riso) m).doms.get d =
      if d ∈ ds then judgedRec riso r (effectiveLimits img d p) (m.doms.get d) else m.doms.get d :=
  foldl_doms_get (P := fun m => m.tables.limit = some img) (g := fun d => judgedRec riso r (effectiveLimits img d p))
    (fun m e hm => ⟨(evaluateDomain_limit m e).trans hm, by
      rw [evaluateDomain_of_limits (limitsOf_of_image hm e), putVerdict_doms]⟩) hds hm d

/-- A verdict that the evaluation changes sets VERDICT_CHANGED, and what follows leaves it set (R80). -/
theorem foldl_evaluateDomain_flag {d : Dom} {l : Limits} {ds : List Dom} (hds : ds.Nodup) (hd : d ∈ ds) {m : Meas}
    (hl : limitsOf m d p = some l) (hchanged : (judgedRec riso r l (m.doms.get d)).verdict ≠ (m.doms.get d).verdict) :
    flagSet (ds.foldl (evaluateDomain p r riso) m) .verdictChanged = true := by
  induction ds generalizing m with
  | nil => cases hd
  | cons e ds ih =>
    obtain ⟨he, hds⟩ := List.nodup_cons.mp hds
    rw [List.foldl_cons]
    by_cases hde : d = e
    · subst hde
      refine (sound_foldl (sound_evaluateDomain p r riso) ds _).flags _ ?_
      rw [evaluateDomain_of_limits hl]
      exact flagSet_putVerdict hchanged
    · have hget : (evaluateDomain p r riso m e).doms.get d = m.doms.get d := by
        unfold evaluateDomain; split
        · rfl
        · rw [putVerdict_doms, PerDom.get_set_of_ne _ _ hde]
      have hl' : limitsOf (evaluateDomain p r riso m e) d p = some l := by rw [limitsOf, evaluateDomain_limit]; exact hl
      exact ih hds ((List.mem_cons.mp hd).resolve_left hde) hl' (hget ▸ hchanged)

variable (p r)

theorem recordFault_doms (before : PerDom DomRec) (m : Meas) (d : Dom) : (recordFault before p attribAge r m d).doms =
    m.doms.set d (faultedRec (before.get d).verdict (faultRecordOf m d p attribAge r) (m.doms.get d)) := by
  unfold recordFault faultedRec
  by_cases h : (m.doms.get d).verdict = .fault ∧ (before.get d).verdict ≠ .fault
  · rw [if_pos h, if_pos (by simpa using h)]; rfl
  · rw [if_neg h, if_neg (by simpa using h), PerDom.set_get_self]

theorem judging_recordFault (before : PerDom DomRec) (m : Meas) (d : Dom) : Judging m (recordFault before p attribAge r m d) := by
  unfold recordFault; split <;> rfl

theorem faultedRec_solo (before : Verdict) (f : FaultRecord) (x : DomRec) : (faultedRec before f x).solo = x.solo := by
  unfold faultedRec; split <;> rfl

/-- The third step takes the solo results as the first left them: no record it writes changes one. -/
theorem foldl_recordFault_get (before : PerDom DomRec) {ds : List Dom} (hds : ds.Nodup) (m : Meas) (d : Dom) :
    (ds.foldl (recordFault before p attribAge r) m).doms.get d =
      if d ∈ ds then faultedRec (before.get d).verdict (faultRecordOf m d p attribAge r) (m.doms.get d) else m.doms.get d :=
  foldl_doms_get (P := fun m' => ∀ e, (m'.doms.get e).solo = (m.doms.get e).solo)
    (g := fun d => faultedRec (before.get d).verdict (faultRecordOf m d p attribAge r))
    (fun m' e hsolo => by
      have hrecord : faultRecordOf m' e p attribAge r = faultRecordOf m e p attribAge r := by
        simp only [faultRecordOf, attribution_congr hsolo]
      rw [recordFault_doms, hrecord]
      refine ⟨fun d => ?_, rfl⟩
      rw [PerDom.get_set]; split
      · next h => rw [faultedRec_solo, h, hsolo]
      · exact hsolo d) hds (fun _ => rfl) d

variable {r}

/-- The evaluation of a VALID result while a LIMIT table is active is its three steps (R72). -/
theorem evaluate_of_valid {m : Meas} {img : List Byte} (hvalid : r.outcome = .valid) (hriso : r.riso = some riso)
    (himg : m.tables.limit = some img) : evaluate p attribAge r m =
      (members r.members).foldl (recordFault (updateSolo r riso m).doms p attribAge r)
        ((members r.members).foldl (evaluateDomain p r riso) (updateSolo r riso m)) := by
  have htables : (updateSolo r riso m).tables = m.tables := by rw [judging_updateSolo riso r m]
  simp [evaluate, hvalid, hriso, htables, himg]

theorem judging_evaluate (m : Meas) : Judging m (evaluate p attribAge r m) := by
  unfold evaluate; split
  · dsimp only; split
    · exact (judging_updateSolo ..).trans
        ((judging_foldl judging_evaluateDomain _ _).trans (judging_foldl (judging_recordFault p attribAge r _) _ _))
    · exact judging_updateSolo ..
  · exact .refl m

end

/-- A domain's record after an evaluation, from the one before it: `solo` is its solo result, and a fault record, written on entry to
FAULT, lists the members with their solo results after the first step (R72, R84 to R86). -/
theorem evaluate_get (p : Profile) (attribAge : Nat) {riso : Nat} {r : ResultRecord} {m : Meas} {img : List Byte}
    (hvalid : r.outcome = .valid) (hriso : r.riso = some riso) (himg : m.tables.limit = some img) (d : Dom) :
    (evaluate p attribAge r m).doms.get d =
      if d ∈ members r.members then
        faultedRec (m.doms.get d).verdict (faultRecordOf (evaluate p attribAge r m) d p attribAge r)
          (judgedRec riso r (effectiveLimits img d p) ((updateSolo r riso m).doms.get d))
      else m.doms.get d := by
  have hlimit : (updateSolo r riso m).tables.limit = some img := by rw [judging_updateSolo riso r m]; exact himg
  have heval := evaluate_of_valid p attribAge hvalid hriso himg
  have hthird := foldl_recordFault_get p attribAge r (updateSolo r riso m).doms (members_nodup r.members)
    ((members r.members).foldl (evaluateDomain p r riso) (updateSolo r riso m))
  rw [← heval] at hthird
  have hsolos : ∀ e, ((evaluate p attribAge r m).doms.get e).solo =
      (((members r.members).foldl (evaluateDomain p r riso) (updateSolo r riso m)).doms.get e).solo := fun e => by
    rw [hthird]; split
    · exact faultedRec_solo ..
    · rfl
  obtain ⟨solo, hfirst, -, hkeep⟩ := updateSolo_get riso r m d
  rw [hthird, foldl_evaluateDomain_get (members_nodup r.members) hlimit]
  by_cases hd : d ∈ members r.members
  · rw [if_pos hd, if_pos hd, if_pos hd, faultRecordOf, faultRecordOf, attribution_congr hsolos, hfirst]
  · have hnot : ¬ SoloOf r d := fun h => hd (by rw [members_eq_singleton.mpr h.1]; exact List.mem_singleton_self d)
    rw [if_neg hd, if_neg hd, if_neg hd, hfirst, hkeep hnot]

/-- A member's verdict that the evaluation changes sets VERDICT_CHANGED (R80). -/
theorem flagSet_evaluate (p : Profile) (attribAge : Nat) {riso : Nat} {r : ResultRecord} {m : Meas} {img : List Byte} {d : Dom}
    (hvalid : r.outcome = .valid) (hriso : r.riso = some riso) (himg : m.tables.limit = some img) (hd : inSet r.members d = true)
    (hchanged : (judge (effectiveLimits img d p) riso (r.mode == .full) r.quality.unsettled (m.doms.get d)).verdict ≠
      (m.doms.get d).verdict) : flagSet (evaluate p attribAge r m) .verdictChanged = true := by
  have hlimit : (updateSolo r riso m).tables.limit = some img := by rw [judging_updateSolo riso r m]; exact himg
  obtain ⟨solo, hfirst, -⟩ := updateSolo_get riso r m d
  rw [evaluate_of_valid p attribAge hvalid hriso himg]
  refine (sound_foldl (sound_recordFault _ p attribAge r) _ _).flags _ ?_
  refine foldl_evaluateDomain_flag (members_nodup _) (mem_members.mpr hd) (limitsOf_of_image hlimit d) ?_
  rw [hfirst, judgedRec, judge_solo]
  exact hchanged

theorem AttribEntry.rank_lt_cases {a b : AttribEntry} (h : a.rank < b.rank) :
    match a.solo, b.solo with
    | some u, some v => u.1 < v.1 ∨ (u.1 = v.1 ∧ a.dom.index < b.dom.index)
    | some _, none => True
    | none, some _ => False
    | none, none => a.dom.index < b.dom.index := by
  rw [AttribEntry.rank_lt_iff, AttribEntry.key, AttribEntry.key] at h
  cases ha : a.solo with
  | none =>
    cases hb : b.solo with
    | none => simpa [ha, hb] using h
    | some v => simp [ha, hb] at h
  | some u =>
    cases hb : b.solo with
    | none => trivial
    | some v => simpa [ha, hb] using h

/-- Settles O28: the record before, taken through the three steps. -/
theorem evaluationUpdatesRecords : Obligations.EvaluationUpdatesRecords := by
  intro m p attribAge riso r d l hvalid hriso hlimits t x y j alone enters
  obtain ⟨img, himg, rfl⟩ := Option.map_eq_some_iff.mp hlimits
  have hget := evaluate_get p attribAge hvalid hriso himg d
  refine ⟨judging_evaluate p attribAge m, fun hd => ?_, fun hd => ?_⟩
  · exact hget.trans (if_neg (by simp [hd]))
  · obtain ⟨solo, hfirst, halone, hkeep⟩ := updateSolo_get riso r m d
    rw [if_pos (mem_members.mpr hd), hfirst, judgedRec, judge_solo] at hget
    have hy : y = faultedRec x.verdict (faultRecordOf t d p attribAge r)
      { j with newest := some ⟨r.number, r.time⟩, solo := solo } := hget
    have hsolo : y.solo = solo := by rw [hy, faultedRec_solo]
    refine ⟨?_, fun hchanged => ?_, fun h => hsolo.trans (halone h), fun h => hsolo.trans (hkeep h), fun h => ?_, fun h => ?_⟩
    · rw [hy]; unfold faultedRec; split <;> rfl
    · exact flagSet_evaluate p attribAge hvalid hriso himg hd hchanged
    · rw [hy, faultedRec, if_neg fun hc => h hc.symm]
      exact judge_faultRecord ..
    · refine ⟨attribution t attribAge r.time r.members, ?_, attribution_doms_perm .., fun e he v => ?_,
        (attribution_pairwise ..).imp AttribEntry.rank_lt_cases⟩
      · rw [hy, faultedRec, if_pos h.symm, faultRecordOf, hriso]; rfl
      · rw [attribution_entry he, attribEntry_dom]; exact attribEntry_solo_iff ..

end Sys2Proof.Machine
end

section
/-! PROOFS. The suspend list: its entries stay apart by member set at every step (R106), and an old entry is discarded (R111). -/

namespace Sys2Proof.Machine

/-! ### Entries apart by member set (R106) -/

theorem entriesDistinct_good : Good EntriesDistinct := fun _ _ h => h.entries

/-- An empty suspend list is one whose entries stand apart. -/
theorem entriesDistinct_of_nil {m : Meas} (h : m.suspended = []) : EntriesDistinct m := by
  rw [EntriesDistinct, h]; exact List.nodup_nil

theorem entriesDistinct_takeTopo (positions : BitVec 16) (inlet : Nat) (m : Meas) (h : EntriesDistinct m) :
    EntriesDistinct (takeTopo positions inlet m) := by
  unfold takeTopo
  dsimp only
  split
  · obtain ⟨-, -, -, -, hentries, -⟩ := kept_resolve_followed true _ _ _
    exact hentries h
  · exact h

/-- Settles O58 by `step_keeps`: a change of partition and an activation only discard entries or put one in place of its own, a restart
discards them all, and every other change keeps them apart (`Sound`). -/
theorem stepKeepsSuspendListDistinct : Obligations.StepKeepsSuspendListDistinct := fun _ _ h hstep =>
  step_keeps entriesDistinct_good
    (hreset := entriesDistinct_of_nil rfl)
    (htopo := entriesDistinct_takeTopo)
    (hstat := fun _ h => h)
    (hmask := fun _ _ h => h)
    (ha := fun l img s _ => (follow_activateMeas l.table img s.meas).2.2)
    (hrestart := fun m _ => by
      obtain ⟨-, -, hsuspended, -⟩ := restartMeas_spec m
      exact entriesDistinct_of_nil hsuspended)
    (hstale := fun m => by
      obtain ⟨-, -, -, -, hentries, -⟩ := becomeStale_spec m
      exact hentries)
    (htick := fun _ _ h => h)
    h hstep

/-! ### An entry expires (R111) -/

theorem suspendExpiry_of_old {m : Meas} {ds : DomSet} {e : SuspendEntry} (he : entryAt m ds = some e)
    (hold : e.captured.row.resumeAge * 1000 < (m.timebase - e.time).toNat) : suspendExpiry ds m = some (dropEntry ds m) := by
  unfold suspendExpiry
  rw [he]
  exact if_pos (decide_eq_true hold)

/-- Settles O34: the expiry is due, and drops the entry. -/
theorem suspendEntryExpires : Obligations.SuspendEntryExpires := fun _ _ he hold =>
  ⟨_, rfl, onEvent_some (suspendExpiry_of_old he hold)⟩

end Sys2Proof.Machine
end

section
/-! SUPPORT. What the claim covers and how a grant answers (R93, R99), and the handoff expiry that forces a claim (R98, R100, R116). -/

namespace Sys2Proof.Machine

/-! ### Coverage (R93) -/

/-- The member set of a domain's island is the first of the listed member sets that holds the domain. -/
theorem islandOf_members (m : Meas) (d : Dom) :
    (islandOf m d).map (·.members) = (m.islands.map (·.members)).find? (inSet · d) := by
  rw [List.find?_map]; rfl

/-- What a claim covers follows from whether it exists, its domain, the topology state, the fitted set and the member sets of the
islands. -/
theorem coveredSet_congr {m m' : Meas} (hstate : m'.claim.state = .none ↔ m.claim.state = .none) (hdom : m'.claim.dom = m.claim.dom)
    (htopo : m'.topo = m.topo) (htables : m'.tables = m.tables)
    (hislands : m'.islands.map (·.members) = m.islands.map (·.members)) : coveredSet m' = coveredSet m := by
  have hfit : fittedSet m' = fittedSet m := by unfold fittedSet fitted; rw [htables]
  have hof : ∀ d, (islandOf m' d).map (·.members) = (islandOf m d).map (·.members) := fun d => by
    rw [islandOf_members, islandOf_members, hislands]
  by_cases hs : m.claim.state = .none
  · simp [coveredSet, hs, hstate.2 hs]
  · have hs' : m'.claim.state ≠ .none := mt hstate.1 hs
    simp only [coveredSet, claimedIsland, beq_iff_eq, hs, hs', if_false, hdom, htopo, hfit]
    cases m.claim.dom with
    | none => rfl
    | some c =>
      have hc := hof c
      simp only [Option.bind_some]
      cases h : islandOf m c <;> cases h' : islandOf m' c <;> simp [h, h'] at hc ⊢
      rw [hc]

/-- A change of one island that leaves its member set leaves every member set. -/
theorem changeIsland_members {ds : DomSet} {f : Island → Island} (hf : ∀ i, (f i).members = i.members) (m : Meas) :
    (changeIsland ds f m).islands.map (·.members) = m.islands.map (·.members) := by
  rw [changeIsland_islands, List.map_map]
  refine List.map_congr_left fun i _ => ?_
  simp only [Function.comp]
  split
  · exact hf i
  · rfl

/-! ### A grant (R99, R100) -/

/-- A grant changes the claim's state, the claimed island's, the flags and the XCLAIM's answer, and nothing else. -/
theorem grantWith_eq (st : Status) (m : Meas) : grantWith st m = { m with
    claim := { m.claim with state := .granted }, islands := (grantWith st m).islands, flags := (grantWith st m).flags
    pendXclaim := none, heldResponses := (grantWith st m).heldResponses } := by
  rw [← grantWith_claim st m, ← grantWith_pendXclaim st m]
  unfold grantWith deferXclaim
  dsimp only
  (repeat' split) <;> rfl

theorem grantWith_members (st : Status) {m : Meas} (hs : m.claim.state = .handoff) :
    (grantWith st m).islands.map (·.members) = m.islands.map (·.members) := by
  obtain ⟨hsome, hnone⟩ := grantWith_islands st hs
  cases hc : claimedIsland m with
  | none => rw [hnone hc]
  | some i => rw [hsome i hc]; exact changeIsland_members (f := Island.granted) (fun _ => rfl) m

/-- A grant leaves what the claim covers. -/
theorem coveredSet_grantWith (st : Status) {m : Meas} (hs : m.claim.state = .handoff) :
    coveredSet (grantWith st m) = coveredSet m := by
  have hg := grantWith_eq st m
  refine coveredSet_congr ?_ ?_ ?_ ?_ (grantWith_members st hs)
  · rw [grantWith_claim, hs]; simp
  · rw [grantWith_claim]
  · rw [hg]
  · rw [hg]

/-- The answer of a grant: the claimed domain and the covered taps that are not confirmed (R99, R100, R186). -/
theorem grantWith_answer (st : Status) {m : Meas} {p : PendingRec} (hp : m.pendXclaim = some p) (hs : m.claim.state = .handoff) :
    (grantWith st m).heldResponses = m.heldResponses ++ [responseFrame 0 p.kind p.tag st
      [BitVec.ofNat 8 (m.claim.dom.elim 0 (·.number)), coveredSet m &&& ~~~ m.claim.confirmed] (grantWith st m)] := by
  obtain ⟨-, -, -, hheld, -⟩ := grantWith_spec (st := st) hp hs
  have hset : BitVec.ofNat 8 (unconfirmedSet (grantWith st m)).toNat = coveredSet m &&& ~~~ m.claim.confirmed := by
    rw [BitVec.ofNat_toNat, BitVec.setWidth_eq, unconfirmedSet, coveredSet_grantWith st hs, grantWith_claim]
  rw [hheld, ← hset]; rfl

/-- A grant makes the claimed island EXTERNAL (R99, R100). -/
theorem islandAt_grantWith_claimed (st : Status) {m : Meas} (hs : m.claim.state = .handoff) {i : Island}
    (hi : claimedIsland m = some i) : islandAt (grantWith st m) i.members = (islandAt m i.members).map Island.granted := by
  rw [islandAt, (grantWith_islands st hs).1 i hi]
  exact islandAt_changeIsland (f := Island.granted) fun _ => rfl

/-! ### The taps that a forced handoff writes (R100, R116) -/

/-- A forced handoff drops a covered tap: it is under reference check, or its mailbox holds the grant back. -/
def forces (m : Meas) (d : Dom) : Bool := underRef m d || !(m.taps.get d).mailbox.clearOfDomain

theorem forceTap_of_forces {m : Meas} {t : Dom} (h : forces m t = true) : forceTap m t = dropInjector t m := by
  unfold forceTap dropInjector
  split
  · rfl
  · next hu => rw [if_neg]; simpa [forces, hu] using h

theorem forceTap_of_not_forces {m : Meas} {t : Dom} (h : forces m t = false) : forceTap m t = m := by
  obtain ⟨hu, hc⟩ : underRef m t = false ∧ (m.taps.get t).mailbox.clearOfDomain = true := by simpa [forces] using h
  unfold forceTap
  rw [if_neg (by simp [hu]), if_pos hc]

/-- The taps of a set that is empty have been dropped in the same state. -/
theorem TapsDropped.refl {w : Dom → Bool} (h : ∀ d, w d = false) (m : Meas) : TapsDropped w m m where
  timebase := rfl
  ref := by simp [h]
  claim := rfl
  written d hd := by simp [h] at hd
  kept _ _ := ⟨rfl, rfl, rfl⟩

theorem tapsDropped_forceTap (t : Dom) (m : Meas) : TapsDropped (fun d => d == t && forces m d) m (forceTap m t) := by
  cases h : forces m t with
  | false =>
    rw [forceTap_of_not_forces h]
    refine .refl (fun d => ?_) m
    by_cases hd : d = t <;> simp [hd, h]
  | true =>
    rw [forceTap_of_forces h, show (fun d => d == t && forces m d) = (· == t) from funext fun d => by
      by_cases hd : d = t <;> simp [hd, h]]
    exact tapsDropped_dropInjector t m

/-- A forced handoff of several taps drops those of them that it forces. -/
theorem tapsDropped_force {l : List Dom} (hl : l.Nodup) (m : Meas) :
    TapsDropped (fun d => decide (d ∈ l) && forces m d) m (l.foldl forceTap m) := by
  induction l generalizing m with
  | nil => exact .refl (fun _ => rfl) m
  | cons t l ih =>
    obtain ⟨ht, hl⟩ := List.nodup_cons.1 hl
    have hfirst := tapsDropped_forceTap t m
    have hrest := ih hl (forceTap m t)
    have hforces : ∀ d, (d == t && forces m d || decide (d ∈ l) && forces (forceTap m t) d) =
        (decide (d ∈ t :: l) && forces m d) := fun d => by
      by_cases hd : d = t
      · subst hd; simp [ht]
      · have hsame : forces (forceTap m t) d = forces m d := by
          rw [forces, hfirst.underRef, forceTap_of_ne hd]; rfl
        simp [hd, hsame]
    rw [List.foldl_cons]
    simpa only [hforces] using hfirst.trans hrest

theorem forceTap_islands (m : Meas) (t : Dom) : (forceTap m t).islands = m.islands := by
  unfold forceTap endPreemptOn
  (repeat' split) <;> rfl

theorem forceTap_suspended (m : Meas) (t : Dom) : (forceTap m t).suspended = m.suspended := by
  unfold forceTap endPreemptOn
  (repeat' split) <;> rfl

/-- The measurement side once a forced handoff has dropped its covered taps (R100). -/
def forcedTaps (m : Meas) : Meas := (members (coveredSet m)).foldl forceTap m

section

variable {m : Meas}

theorem handoffExpiry_of_due (hs : m.claim.state = .handoff) (hdue : m.claim.limit ≤ (m.timebase - m.claim.acceptance).toNat) :
    handoffExpiry m = some (forceHandoff m) :=
  if_pos (Bool.and_eq_true_iff.2 ⟨beq_iff_eq.2 hs, decide_eq_true hdue⟩)

theorem steady_forcedTaps (m : Meas) : Steady m (forcedTaps m) := steady_foldl steady_forceTap _ m

theorem forcedTaps_islands (m : Meas) : (forcedTaps m).islands = m.islands := foldl_keeps (·.islands) forceTap_islands _ m

theorem forcedTaps_suspended (m : Meas) : (forcedTaps m).suspended = m.suspended :=
  foldl_keeps (·.suspended) forceTap_suspended _ m

theorem coveredSet_forcedTaps (m : Meas) : coveredSet (forcedTaps m) = coveredSet m := by
  have h := steady_forcedTaps m
  exact coveredSet_congr (by rw [h.claim]) (by rw [h.claim]) h.topo h.tables (by rw [forcedTaps_islands])

theorem tapsDropped_forcedTaps (m : Meas) : TapsDropped (fun d => inSet (coveredSet m) d && forces m d) m (forcedTaps m) := by
  unfold forcedTaps
  simpa only [mem_members, Bool.decide_eq_true] using tapsDropped_force (members_nodup (coveredSet m)) m

/-- A mailbox holds the grant back: a DOMAIN-path level, or a connected balance network (R98). -/
theorem clearOfDomain_eq_false {b : Mailbox} : b.clearOfDomain = false ↔
    (b.level ≠ 0 ∧ b.path = .domain) ∨ b.balance = .connected := by
  obtain ⟨level, path, balance⟩ := b
  cases path <;> cases balance <;> simp [Mailbox.clearOfDomain]

/-- A forced handoff drops this tap (R100). -/
def ForcedToRest (m : Meas) (d : Dom) : Prop :=
  inSet (coveredSet m) d = true ∧ underRef m d = false ∧
    (((m.taps.get d).mailbox.level ≠ 0 ∧ (m.taps.get d).mailbox.path = .domain) ∨ (m.taps.get d).mailbox.balance = .connected)

/-- A forced handoff ends the PREEMPT of a check on this tap (R116). -/
def ForcedToRef (m : Meas) (d : Dom) : Prop :=
  inSet (coveredSet m) d = true ∧ ∃ c, m.ref = some c ∧ c.tap = d ∧ c.step = .preempt

theorem forcedTaps_of_rest {d : Dom} (h : ForcedToRest m d) : ((forcedTaps m).taps.get d).mailbox = .rest ∧
    ((forcedTaps m).taps.get d).ramp = none ∧ inSet (forcedTaps m).claim.confirmed d = false := by
  obtain ⟨hcov, hu, hheld⟩ := h
  have hw := (tapsDropped_forcedTaps m).written d (by simp [hcov, forces, clearOfDomain_eq_false.2 hheld])
    (droppable_of_not_underRef hu)
  rwa [dropMailbox, hu] at hw

theorem forcedTaps_of_ref {d : Dom} (h : ForcedToRef m d) : ((forcedTaps m).taps.get d).mailbox = .refQuiet ∧
    ((forcedTaps m).taps.get d).ramp = none ∧ inSet (forcedTaps m).claim.confirmed d = false := by
  obtain ⟨hcov, c, hc, rfl, hstep⟩ := h
  have hu : underRef m c.tap = true := by simp [underRef_of_some hc]
  have hw := (tapsDropped_forcedTaps m).written c.tap (by simp [hcov, forces, hu])
    (fun c' hc' _ => by rw [hc] at hc'; cases hc'; exact hstep)
  rwa [dropMailbox, hu] at hw

theorem forcedTaps_of_neither {d : Dom} (hrest : ¬ ForcedToRest m d) (href : ¬ ForcedToRef m d) :
    ((forcedTaps m).taps.get d).mailbox = (m.taps.get d).mailbox ∧ ((forcedTaps m).taps.get d).ramp = (m.taps.get d).ramp ∧
      inSet (forcedTaps m).claim.confirmed d = inSet m.claim.confirmed d := by
  refine (tapsDropped_forcedTaps m).kept d fun ⟨hw, hd⟩ => ?_
  obtain ⟨hcov, hforces⟩ := Bool.and_eq_true_iff.1 hw
  cases hu : underRef m d with
  | false => exact hrest ⟨hcov, hu, clearOfDomain_eq_false.1 (by simpa [forces, hu] using hforces)⟩
  | true =>
    cases hc : m.ref with
    | none => simp [underRef_of_none hc] at hu
    | some c =>
      have ht : c.tap = d := by simpa [underRef_of_some hc] using hu
      exact href ⟨hcov, c, hc, ht, hd c hc ht⟩

/-- Exactly the taps that were written are confirmed no longer (R98). -/
theorem confirmed_forcedTaps (m : Meas) (d : Dom) : inSet (forcedTaps m).claim.confirmed d = true ↔
    inSet m.claim.confirmed d = true ∧ ¬ ForcedToRest m d ∧ ¬ ForcedToRef m d := by
  by_cases hd : ForcedToRest m d
  · simp [(forcedTaps_of_rest hd).2.2, hd]
  · by_cases hr : ForcedToRef m d
    · simp [(forcedTaps_of_ref hr).2.2, hr]
    · simp [(forcedTaps_of_neither hd hr).2.2, hd, hr]

/-- The check on a covered tap in PREEMPT is switched, and any other goes on (R100, R116). -/
theorem forcedTaps_ref (m : Meas) :
    (∀ c, m.ref = some c → inSet (coveredSet m) c.tap = true → c.step = .preempt →
      (forcedTaps m).ref = some (switchedCheck m.timebase c)) ∧
    ((∀ c, m.ref = some c → inSet (coveredSet m) c.tap = true → c.step ≠ .preempt) → (forcedTaps m).ref = m.ref) := by
  have href := (tapsDropped_forcedTaps m).ref
  cases hc : m.ref with
  | none => simp [hc] at href; simp [href]
  | some c =>
    have hf : forces m c.tap = true := by simp [forces, underRef_of_some hc]
    simp only [hc, hf, Bool.and_true, Option.map_some] at href
    refine ⟨fun c' he hcov hs => ?_, fun hn => ?_⟩
    · cases he
      rw [href, if_pos ⟨hs, hcov⟩]
    · rw [href, if_neg fun ⟨hs, hcov⟩ => hn c rfl hcov hs]

/-! ### The forced grant (R100) -/

/-- A forced handoff leaves what the drop of its taps leaves, but for the claim's state and arming, the claimed island, the flags and the
XCLAIM's answer. -/
theorem forceHandoff_eq (m : Meas) : forceHandoff m = { forcedTaps m with
    claim := { (forcedTaps m).claim with state := .granted, armed := (forceHandoff m).claim.armed }
    islands := (forceHandoff m).islands, flags := (forceHandoff m).flags, pendXclaim := none
    heldResponses := (forceHandoff m).heldResponses } := by
  have ha := armClaim_eq (forcedTaps m)
  have hg := grantWith_eq .timeout (armClaim (forcedTaps m))
  change forceHandoff m = _ at hg
  rw [hg, ha]

variable (hs : m.claim.state = .handoff)
include hs

theorem state_armClaim_forcedTaps : (armClaim (forcedTaps m)).claim.state = .handoff := by
  rw [((steady_armClaim _).after (steady_forcedTaps m)).claim]; exact hs

theorem forceHandoff_answer {p : PendingRec} (hp : m.pendXclaim = some p) :
    (forceHandoff m).heldResponses = m.heldResponses ++ [responseFrame 0 p.kind p.tag .timeout
      [BitVec.ofNat 8 (m.claim.dom.elim 0 (·.number)), coveredSet m &&& ~~~ (forceHandoff m).claim.confirmed] (forceHandoff m)] := by
  have ha := armClaim_eq (forcedTaps m)
  have hsteady := (steady_armClaim _).after (steady_forcedTaps m)
  have hanswer := grantWith_answer .timeout (hsteady.pendXclaim.trans hp) (state_armClaim_forcedTaps hs)
  have hcovered : coveredSet (armClaim (forcedTaps m)) = coveredSet m := by
    rw [ha, ← coveredSet_forcedTaps m]; rfl
  have hdom : (armClaim (forcedTaps m)).claim.dom = m.claim.dom := by rw [hsteady.claim]
  have hconfirmed : (armClaim (forcedTaps m)).claim.confirmed = (forceHandoff m).claim.confirmed := by
    rw [forceHandoff_eq, ha]
  rwa [hcovered, hdom, hconfirmed, hsteady.held] at hanswer

theorem islandAt_forceHandoff {i : Island} (hi : claimedIsland m = some i) :
    islandAt (forceHandoff m) i.members = (islandAt m i.members).map Island.granted := by
  have hislands : (armClaim (forcedTaps m)).islands = m.islands := by rw [armClaim_eq, forcedTaps_islands]
  have hclaimed : claimedIsland (armClaim (forcedTaps m)) = some i := by
    rw [claimedIsland, ((steady_armClaim _).after (steady_forcedTaps m)).claim]
    unfold islandOf
    rw [hislands]; exact hi
  have hat := islandAt_grantWith_claimed .timeout (state_armClaim_forcedTaps hs) hclaimed
  rwa [show islandAt (armClaim (forcedTaps m)) i.members = islandAt m i.members by unfold islandAt; rw [hislands]] at hat

end

/-- Settles O33: the outputs follow the forced handoff, whose taps are those of `forcedTaps`. -/
theorem handoffTimeoutForces : Obligations.HandoffTimeoutForces := by
  intro s p hs hp hdue
  have hmoved := onEvent_some (handoffExpiry_of_due hs hdue)
  have hg := forceHandoff_eq s.meas
  have hanswer := forceHandoff_answer hs hp
  have hsteady := steady_forcedTaps s.meas
  set g := forceHandoff s.meas with hgdef
  set t := onEvent handoffExpiry s
  have hclaim : t.meas.claim = g.claim := by rw [hmoved.meas]
  have hconfirmed : g.claim.confirmed = (forcedTaps s.meas).claim.confirmed := by rw [hg]
  have htap : ∀ d, (t.meas.taps.get d).mailbox = ((forcedTaps s.meas).taps.get d).mailbox ∧
      (t.meas.taps.get d).ramp = ((forcedTaps s.meas).taps.get d).ramp := fun d => by
    rw [hmoved.mailbox, hmoved.ramp, ← show g.taps = (forcedTaps s.meas).taps by rw [hg]]; exact ⟨rfl, rfl⟩
  have href : t.meas.ref = (forcedTaps s.meas).ref := by rw [hmoved.meas, hg]
  refine ⟨t, rfl, by rw [hclaim, hg], by rw [hmoved.meas, hg], ?_, ?_, fun i hi => ?_, fun d => ⟨fun hd => ?_, fun hd => ?_,
    fun hd hr => ?_, ?_⟩, ?_, ?_, ?_, ?_, ?_, hmoved.loader, hmoved.pending⟩
  · rw [hmoved.flagSet]; exact grantWith_handoffDone ..
  · rw [hmoved.upstream, responseFrame_congr hmoved, hclaim]
    simp [outgoing, hanswer]
  · rw [hmoved.islandAt]; exact islandAt_forceHandoff hs hi
  · rw [(htap d).1, (htap d).2]
    obtain ⟨hm, hr, -⟩ := forcedTaps_of_rest (m := s.meas) hd
    exact ⟨hm, hr⟩
  · rw [(htap d).1, (htap d).2]
    obtain ⟨hm, hr, -⟩ := forcedTaps_of_ref (m := s.meas) hd
    exact ⟨hm, hr⟩
  · rw [(htap d).1, (htap d).2]
    obtain ⟨hm, hr, -⟩ := forcedTaps_of_neither (m := s.meas) hd hr
    exact ⟨hm, hr⟩
  · rw [hclaim, hconfirmed]; exact confirmed_forcedTaps s.meas d
  · rw [href]; exact (forcedTaps_ref s.meas).1
  · rw [href]; exact (forcedTaps_ref s.meas).2
  · rw [hmoved.meas, hg]; exact hsteady.domsEq
  · rw [hmoved.meas, hg]; exact hsteady.topo
  · rw [hmoved.meas, hg]; exact forcedTaps_suspended s.meas

end Sys2Proof.Machine
end

section
/-! PROOFS. XREL: the release of a claim (R104, R112), its responses (log 15), and the aging tests at the end of the hold (R82, R83). -/

namespace Sys2Proof.Machine

/-! ### The profiles in force -/

/-- The island of a domain is the island with its member set. -/
theorem islandAt_of_islandOf {m : Meas} {d : Dom} {i : Island} (h : islandOf m d = some i) : islandAt m i.members = some i := by
  obtain ⟨hd, before, after, hsplit, hbefore⟩ := List.find?_eq_some_iff_append.1 h
  refine List.find?_eq_some_iff_append.2 ⟨beq_self_eq_true _, before, after, hsplit, fun k hk => ?_⟩
  have hfree := hbefore k hk
  simp only [Bool.not_eq_true', beq_eq_false_iff_ne] at hfree ⊢
  intro he
  rw [he, hd] at hfree
  cases hfree

/-- Every domain stays under its profile (R13). -/
structure ProfilesKept (m m' : Meas) : Prop where
  inForce : ∀ d, profileInForce m' d = profileInForce m d

theorem ProfilesKept.refl (m : Meas) : ProfilesKept m m := ⟨fun _ => rfl⟩

theorem ProfilesKept.after {a b c : Meas} (k : ProfilesKept b c) (h : ProfilesKept a b) : ProfilesKept a c :=
  ⟨fun d => (k.inForce d).trans (h.inForce d)⟩

theorem profilesKept_of_islands {m m' : Meas} (h : m'.islands = m.islands) : ProfilesKept m m' :=
  ⟨fun d => by simp only [profileInForce, islandOf, h]⟩

theorem profilesKept_changeIsland {m m' : Meas} {ds : DomSet} {f : Island → Island}
    (h : m'.islands = (changeIsland ds f m).islands) (hmembers : ∀ i, (f i).members = i.members)
    (hprofile : ∀ i, (f i).profile = i.profile) : ProfilesKept m m' := by
  refine (profilesKept_of_islands h).after ⟨fun d => ?_⟩
  unfold profileInForce
  rw [islandOf_changeIsland hmembers]
  cases islandOf m d with
  | none => rfl
  | some i => simp only [Option.map_some]; split <;> simp [hprofile]

theorem profilesKept_putIsland {m m' : Meas} {ds : DomSet} {i j : Island} (h : m'.islands = (putIsland i m).islands)
    (hj : islandAt m ds = some j) (hmembers : i.members = j.members) (hprofile : i.profile = j.profile) : ProfilesKept m m' := by
  refine (profilesKept_of_islands h).after ⟨fun d => ?_⟩
  have hds : j.members = ds := islandAt_members hj
  have hof : islandOf (putIsland i m) d = (islandOf m d).map fun k => if k.members == i.members then i else k := by
    simp only [islandOf, putIsland_islands, List.find?_map]
    have hsame : ((fun k : Island => inSet k.members d) ∘ fun k => if (k.members == i.members) = true then i else k)
        = fun k : Island => inSet k.members d := by
      funext k; simp only [Function.comp]; split <;> simp_all
    rw [hsame]
  unfold profileInForce
  rw [hof]
  cases hk : islandOf m d with
  | none => rfl
  | some k =>
    simp only [Option.map_some]
    split
    · next he =>
      have hkj : k = j := by
        have hat := islandAt_of_islandOf hk
        rw [show k.members = ds by rw [← hds, ← hmembers]; simpa using he, hj] at hat
        exact (Option.some.inj hat).symm
      rw [hprofile, hkj]
    · rfl

theorem profilesKept_enterSettle (p : Phase) (ds : DomSet) (m : Meas) : ProfilesKept m (enterSettle p ds m) :=
  profilesKept_changeIsland rfl (fun _ => rfl) fun _ => rfl

theorem profilesKept_startCycle (md : Mode) (ds : DomSet) (m : Meas) : ProfilesKept m (startCycle md ds m) := by
  unfold startCycle; split
  · exact .refl m
  · next i hi =>
    split
    · exact .refl m
    · exact (profilesKept_enterSettle ..).after (profilesKept_putIsland rfl hi rfl rfl)

theorem profilesKept_enterInterval (ds : DomSet) (m : Meas) : ProfilesKept m (enterInterval ds m) := by
  unfold enterInterval; split
  · exact .refl m
  · next i hi =>
    dsimp only; split
    · exact (profilesKept_startCycle ..).after (profilesKept_putIsland rfl hi rfl rfl)
    · exact profilesKept_putIsland rfl hi rfl rfl

theorem profilesKept_endCycle (ds : DomSet) (m : Meas) : ProfilesKept m (endCycle ds m) := by
  unfold endCycle; split
  · exact .refl m
  · next i hi =>
    split
    · exact (profilesKept_startCycle ..).after (profilesKept_putIsland rfl hi rfl rfl)
    · exact profilesKept_enterInterval ..

theorem profilesKept_afterCycleRamp (ds : DomSet) (m : Meas) : ProfilesKept m (afterCycleRamp ds m) := by
  unfold afterCycleRamp
  (repeat' split) <;> first
    | exact .refl m
    | exact profilesKept_endCycle ..
    | exact profilesKept_changeIsland rfl (fun _ => rfl) fun _ => rfl

theorem profilesKept_enterRamp (st : CycleStep) (ds : DomSet) (m : Meas) : ProfilesKept m (enterRamp st ds m) := by
  unfold enterRamp startRamp; split
  · exact .refl m
  · next i hi =>
    dsimp only; split
    · exact (profilesKept_afterCycleRamp ..).after (profilesKept_putIsland rfl hi rfl rfl)
    · exact profilesKept_putIsland rfl hi rfl rfl

theorem profilesKept_resumeCycle (e : SuspendEntry) (ds : DomSet) (m : Meas) : ProfilesKept m (resumeCycle e ds m) := by
  unfold resumeCycle; dsimp only
  split
  · exact (profilesKept_enterSettle ..).after (profilesKept_changeIsland rfl (fun _ => rfl) fun _ => rfl)
  · exact (profilesKept_enterRamp ..).after (profilesKept_changeIsland rfl (fun _ => rfl) fun _ => rfl)
  · exact (profilesKept_enterRamp ..).after (profilesKept_changeIsland rfl (fun _ => rfl) fun _ => rfl)

theorem profilesKept_startFirst (ds : DomSet) (m : Meas) : ProfilesKept m (startFirst ds m) := by
  unfold startFirst; split
  · exact .refl m
  · next i hi => exact (profilesKept_startCycle ..).after (profilesKept_putIsland rfl hi rfl rfl)

theorem profilesKept_enterStalled (ds : DomSet) (m : Meas) : ProfilesKept m (enterStalled ds m) := by
  unfold enterStalled; split
  · exact .refl m
  · next i hi => exact profilesKept_putIsland rfl hi rfl rfl

theorem profilesKept_endForming (ds : DomSet) (m : Meas) : ProfilesKept m (endForming ds m) := by
  unfold endForming; split
  · exact .refl m
  · split
    · exact profilesKept_enterStalled ..
    · split
      · dsimp only; split
        · exact (profilesKept_startFirst ..).after (profilesKept_of_islands rfl)
        · exact (profilesKept_resumeCycle ..).after (profilesKept_of_islands rfl)
      · exact profilesKept_startFirst ..

theorem profilesKept_settleEnd (ds : DomSet) (m : Meas) : ProfilesKept m (settleEnd ds m) := by
  unfold settleEnd; split
  · exact profilesKept_endForming ..
  · exact profilesKept_changeIsland rfl (fun _ => rfl) fun _ => rfl

theorem profilesKept_enterForming (ds : DomSet) (m : Meas) : ProfilesKept m (enterForming ds m) := by
  cases hi : islandAt m ds with
  | none => rw [enterForming, hi]; exact .refl m
  | some i =>
    have hforming : ProfilesKept m (formingMeas i m) :=
      profilesKept_putIsland rfl hi rfl rfl
    by_cases hzero : settleTime m = 0
    · rw [enterForming_of_eq hi hzero]; exact (profilesKept_settleEnd ..).after hforming
    · rw [enterForming_of_ne hi hzero]; exact hforming

theorem profilesKept_releaseIsland (m : Meas) : ProfilesKept m (releaseIsland m) := by
  unfold releaseIsland; dsimp only
  split
  · exact profilesKept_of_islands rfl
  · split
    · exact profilesKept_changeIsland rfl (fun _ => rfl) fun _ => rfl
    · exact (profilesKept_enterForming ..).after (profilesKept_of_islands rfl)

/-! ### The release, up to its aging tests (R104, R112) -/

/-- A domain of the hold that lapses at its end: in OK or WARN, with a result older than max_age (R82, R83). -/
def LapsesAtRelease (m : Meas) (d : Dom) : Prop :=
  inSet (coveredSet m) d = true ∧ ((m.doms.get d).verdict = .ok ∨ (m.doms.get d).verdict = .warn) ∧
    ∃ n l, (m.doms.get d).newest = some n ∧ limitsOf m d (profileInForce m d) = some l ∧
      l.maxAge * 1000 < (m.timebase - n.time).toNat

section

variable {m : Meas}

theorem releaseIsland_claim (m : Meas) : (releaseIsland m).claim.state = .none ∧ (releaseIsland m).claim.confirmed = 0 ∧
    (releaseIsland m).claim.dom = m.claim.dom := by
  have hclaim := (steady_releaseIsland m).claim
  refine ⟨by rw [hclaim]; rfl, DomSet.ext fun d => ?_, by rw [hclaim]; rfl⟩
  refine (Bool.eq_false_iff.2 fun hd => ?_).trans (inSet_zero d).symm
  have hfree := (quiet_releaseIsland m).confirmed d hd
  exact absurd (hfree.symm.trans (inSet_zero d)) (by decide)

/-- Once nothing is held, the aging test of a domain looks at its record alone (R82, R83). -/
theorem agingDue_releaseIsland {d : Dom} (hd : inSet (coveredSet m) d = true) :
    agingDue (releaseIsland m) d = true ↔ LapsesAtRelease m d := by
  have hsteady := steady_releaseIsland m
  have hfree : inSet (coveredSet (releaseIsland m)) d = false := by
    simp [coveredSet, (releaseIsland_claim m).1]
  have hlimits : limitsOf (releaseIsland m) d (profileInForce (releaseIsland m) d) = limitsOf m d (profileInForce m d) := by
    rw [(profilesKept_releaseIsland m).inForce d, limitsOf, hsteady.tables]; rfl
  rw [agingDue_iff, hsteady.domsEq, hsteady.timebase, hlimits, hfree, LapsesAtRelease, hd]
  simp only [true_and]; rfl

/-- The island of a claim whose injector is under reference check waits for it in REFHOLD (R104). -/
theorem releaseIsland_checked {i : Island} (hi : claimedIsland m = some i) (hat : islandAt m i.members = some i)
    (hu : underRef m i.injector = true) : islandAt (releaseIsland m) i.members = some { i with state := .refhold } := by
  have hu' : underRef (changeClaim (fun c => { c with state := .none, armed := false, confirmed := 0 }) m) i.injector = true := hu
  unfold releaseIsland
  rw [hi]
  dsimp only
  rw [if_pos hu']
  exact islandAt_changeIsland_some hat fun _ => rfl

/-- Any other island of a claim enters FORMING (R104). -/
theorem releaseIsland_unchecked {i : Island} (hi : claimedIsland m = some i) (hat : islandAt m i.members = some i)
    (hu : underRef m i.injector = false) (hsettle : settleTime m ≠ 0) :
    releaseIsland m = formingMeas i (changeClaim (fun c => { c with state := .none, armed := false, confirmed := 0 }) m) := by
  have hu' : underRef (changeClaim (fun c => { c with state := .none, armed := false, confirmed := 0 }) m) i.injector = false := hu
  unfold releaseIsland
  rw [hi]
  dsimp only
  rw [hu', if_neg (by decide)]
  exact enterForming_of_ne (m := changeClaim _ m) hat hsettle

/-! ### The aging tests -/

/-- An aging test that is due changes a verdict, which sets VERDICT_CHANGED (R80, R82). -/
theorem flagSet_agingTests {ds : List Dom} (hds : ds.Nodup) {d : Dom} (hd : d ∈ ds) (m : Meas) (hdue : agingDue m d = true) :
    flagSet (agingTests ds m) .verdictChanged = true := by
  induction ds generalizing m with
  | nil => simp at hd
  | cons e ds ih =>
    obtain ⟨he, hds⟩ := List.nodup_cons.1 hds
    change flagSet (agingTests ds (agingTest e m)) .verdictChanged = true
    by_cases hed : d = e
    · subst hed
      refine (sound_agingTests ds _).flags _ ?_
      rw [agingTest, if_pos hdue]
      obtain ⟨hv, -⟩ := (agingDue_iff m d).1 hdue
      refine flagSet_putVerdict ?_
      rcases hv with hv | hv <;> simp [moveVerdict, hv]
    · exact ih hds (by simpa [hed] using hd) _ (by rw [agingDue_agingTest hed]; exact hdue)

/-- A released claim changes the records that lapse, and no other (R82, R83). -/
theorem releaseClaim_doms (m : Meas) (d : Dom) :
    (LapsesAtRelease m d → (releaseClaim m).doms.get d = moveVerdict .unknown (m.doms.get d) ∧
      flagSet (releaseClaim m) .verdictChanged = true) ∧
    (¬ LapsesAtRelease m d → (releaseClaim m).doms.get d = m.doms.get d) := by
  have hsame : (releaseIsland m).doms = m.doms := (steady_releaseIsland m).domsEq
  rw [releaseClaim_eq, agingTests_get (members_nodup _), hsame]
  refine ⟨fun h => ?_, fun h => if_neg fun ⟨hd, hdue⟩ => h ((agingDue_releaseIsland (mem_members.1 hd)).1 hdue)⟩
  have hdue := (agingDue_releaseIsland h.1).2 h
  exact ⟨if_pos ⟨mem_members.2 h.1, hdue⟩, flagSet_agingTests (members_nodup _) (mem_members.2 h.1) _ hdue⟩

/-- The parts of a release that its aging tests do not touch. -/
theorem releaseClaim_frame (m : Meas) : (releaseClaim m).claim = (releaseIsland m).claim ∧ (releaseClaim m).topo = m.topo ∧
    (releaseClaim m).ref = m.ref ∧ (releaseClaim m).heldResponses = m.heldResponses ∧ (releaseClaim m).pendXclaim = m.pendXclaim ∧
    (releaseClaim m).taps = (releaseIsland m).taps ∧ ∀ ds, islandAt (releaseClaim m) ds = islandAt (releaseIsland m) ds := by
  have hjudged : Judging (releaseIsland m) (releaseClaim m) := judging_agingTests ..
  have hsteady := steady_releaseIsland m
  rw [hjudged]
  exact ⟨rfl, hsteady.topo, (quiet_releaseIsland m).ref, hsteady.held, hsteady.pendXclaim, rfl, fun _ => rfl⟩

/-! ### The claimed island at a release (R104) -/

theorem releaseClaim_checked {i : Island} (hi : claimedIsland m = some i) (hat : islandAt m i.members = some i)
    (hu : underRef m i.injector = true) : islandAt (releaseClaim m) i.members = some { i with state := .refhold } := by
  obtain ⟨-, -, -, -, -, -, hislands⟩ := releaseClaim_frame m
  rw [hislands, releaseIsland_checked hi hat hu]

theorem releaseClaim_unchecked {i : Island} (hi : claimedIsland m = some i) (hat : islandAt m i.members = some i)
    (hu : underRef m i.injector = false) (hsettle : settleTime m ≠ 0) :
    ((releaseClaim m).taps.get i.injector).mailbox = .quiet ∧
    islandAt (releaseClaim m) i.members = some (i.formingWith ⟨m.timebase, settleTime m⟩) := by
  obtain ⟨-, -, -, -, -, htaps, hislands⟩ := releaseClaim_frame m
  rw [htaps, hislands, releaseIsland_unchecked hi hat hu hsettle]
  exact ⟨(tap_writeMailbox ..).1, islandAt_formingMeas (m := changeClaim _ m) hat⟩

end

/-! ### The responses to XREL (R104, R112) -/

/-- The measurement side after an XREL that finds a claim: the claim released, its XCLAIM no longer pending. -/
def releasedMeas (m : Meas) : Meas := { releaseClaim m with pendXclaim := if m.claim.state = .handoff then none else m.pendXclaim }

/-- The answer to the XCLAIM that a release cancels, its summary byte formed after the release (log 15). -/
def cancelledFrames (m : Meas) : List Frame :=
  if m.claim.state = .handoff then m.pendXclaim.toList.map fun p =>
    responseFrame 0 p.kind p.tag .cancelled [BitVec.ofNat 8 (m.claim.dom.elim 0 (·.number))] (releasedMeas m)
  else []

theorem outgoing_answered {q : Frame} {st : Status} {values : List Byte} {s : State} (h : s.meas.heldResponses = []) :
    outgoing (answered q st values s) = outgoing s ++ [responseFrame 0 q.kind q.tag st values s.meas] := by
  simp [outgoing, answered, h]

/-- A cancelled XCLAIM takes one place, and is pending no more. -/
theorem cancelXclaim_of_room {s : State} (hroom : s.link.upQueue.length < Config.upstreamPlaces) (hheld : s.meas.heldResponses = []) :
    (cancelXclaim s).meas = { s.meas with pendXclaim := none } ∧ (cancelXclaim s).loader = s.loader ∧
    (cancelXclaim s).pending = s.pending ∧ (cancelXclaim s).link.upQueue.length ≤ s.link.upQueue.length + 1 ∧
    outgoing (cancelXclaim s) = outgoing s ++ s.meas.pendXclaim.toList.map fun p =>
      responseFrame 0 p.kind p.tag .cancelled (be8 (claimedNumber s.meas)) s.meas := by
  unfold cancelXclaim
  cases hp : s.meas.pendXclaim with
  | none => dsimp only; exact ⟨by rw [← hp], rfl, rfl, Nat.le_succ _, by simp⟩
  | some p =>
    dsimp only
    rw [respond_of_room hroom]
    exact ⟨rfl, rfl, rfl, by simp [answered, State.withMeas], outgoing_answered hheld⟩

/-- XREL releases the claim, answers the XCLAIM that it cancels, and then itself (R104, R112). -/
theorem doXrel_releases {s : State} {q : Frame} {rest : List Frame} (hc : s.meas.claim.state ≠ .none)
    (h : HeadRequest 0x12 0 (if s.meas.claim.state = .handoff then 2 else 1) q rest s) :
    ∃ u, OutputsMoved u (doXrel q (taken rest s)) ∧ u.meas = releasedMeas s.meas ∧ u.loader = s.loader ∧ u.pending = s.pending ∧
      outgoing u = outgoing s ++ cancelledFrames s.meas ++ [responseFrame 0 q.kind q.tag .ok [] (releasedMeas s.meas)] := by
  obtain ⟨-, -, -, hheld, hroom⟩ := h
  obtain ⟨hclaim, -, -, hheld', hpend, -, -⟩ := releaseClaim_frame s.meas
  have hout : outgoing ((taken rest s).withMeas releaseClaim) = outgoing s := by
    simp [outgoing, taken, State.withMeas, hheld']
  cases hs : s.meas.claim.state with
  | none => exact absurd hs hc
  | granted =>
    rw [hs, if_neg (by decide)] at hroom
    have hmeas : releaseClaim s.meas = releasedMeas s.meas := by simp [releasedMeas, hs, ← hpend]
    refine ⟨answered q .ok [] ((taken rest s).withMeas releaseClaim), ?_, hmeas, rfl, rfl, ?_⟩
    · simp only [doXrel, taken, hs]
      exact respond_both_moved hroom
    · rw [outgoing_answered (hheld'.trans hheld), hout, cancelledFrames, if_neg (by simp [hs]), List.append_nil, ← hmeas]; rfl
  | handoff =>
    rw [hs, if_pos rfl] at hroom
    have hpend' : ((taken rest s).withMeas releaseClaim).meas.pendXclaim = s.meas.pendXclaim := hpend
    have hnumber : claimedNumber ((taken rest s).withMeas releaseClaim).meas = s.meas.claim.dom.elim 0 (·.number) := by
      obtain ⟨-, -, hdom⟩ := releaseIsland_claim s.meas
      rw [← hdom, ← hclaim]; rfl
    obtain ⟨hmeas, hloader, hpending, hlen, houtc⟩ := cancelXclaim_of_room (s := (taken rest s).withMeas releaseClaim)
      (Nat.lt_of_succ_le (Nat.le_of_succ_le hroom)) (hheld'.trans hheld)
    have hmeas' : (cancelXclaim ((taken rest s).withMeas releaseClaim)).meas = releasedMeas s.meas := by
      rw [hmeas, releasedMeas, if_pos hs]; rfl
    refine ⟨answered q .ok [] (cancelXclaim ((taken rest s).withMeas releaseClaim)), ?_, hmeas', hloader, hpending, ?_⟩
    · simp only [doXrel, taken, hs]
      exact respond_both_moved (Nat.lt_of_le_of_lt hlen hroom)
    · rw [outgoing_answered (by rw [hmeas]; exact hheld'.trans hheld), houtc, hout, hmeas', cancelledFrames, if_pos hs, hpend', hnumber]; rfl

/-- Settles O32: the release on the measurement side, and one answer after another upstream. -/
theorem xrelReleases : Obligations.XrelReleases := by
  intro s q rest h
  have hresponses : responsesOf q s.meas ≤ if s.meas.claim.state = .handoff then 2 else 1 := by
    obtain ⟨-, hkind, -⟩ := h
    simp [responsesOf, hkind, kindXrel]
  have htaken : takeRequest (· == kindXrel) doXrel s = doXrel q (taken rest s) :=
    takeRequest_of_head h hresponses (by decide) (by decide)
  refine ⟨doXrel q (taken rest s), by rw [← htaken]; rfl, ?_⟩
  by_cases hc : s.meas.claim.state = .none
  · have hmoved : OutputsMoved (answered q .ok [] (taken rest s)) (doXrel q (taken rest s)) := by
      simp only [doXrel, taken, hc]
      exact respond_both_moved (h.room (by simp [hc]))
    refine ⟨fun _ => hmoved, fun _ hh => ?_, fun hg => ?_, fun hne => absurd hc hne, fun hne => absurd hc hne, ?_⟩
    · simp [hc] at hh
    · simp [hc] at hg
    · rw [hmoved.meas]; exact ⟨rfl, rfl, hmoved.loader, hmoved.pending⟩
  · obtain ⟨u, hmoved, hmeas, hloader, hpending, hout⟩ := doXrel_releases hc h
    obtain ⟨hclaim, htopo, href, -, -, -, -⟩ := releaseClaim_frame s.meas
    obtain ⟨hstate, hconfirmed, -⟩ := releaseIsland_claim s.meas
    have hframe : ∀ k tg st v, responseFrame 0 k tg st v (doXrel q (taken rest s)).meas =
        responseFrame 0 k tg st v (releasedMeas s.meas) := fun k tg st v => by rw [responseFrame_congr hmoved, hmeas]
    have hsent := hmoved.upstream.trans hout
    refine ⟨fun hn => absurd hn hc, fun p hh hp => ⟨?_, ?_⟩, fun hg => ?_,
      fun _ => ⟨?_, ?_, fun i _ hi hat => ⟨fun hu => ?_, fun hu hsettle => ?_⟩⟩, fun _ d => ?_, ?_, ?_,
      hmoved.loader.trans hloader, hmoved.pending.trans hpending⟩
    · rw [hmoved.meas, hmeas]; simp [releasedMeas, hh]
    · rw [hsent, hframe, hframe]; simp [cancelledFrames, hh, hp]
    · rw [hsent, hframe]; simp [cancelledFrames, hg]
    · rw [hmoved.meas, hmeas]; exact (congrArg Claim.state hclaim).trans hstate
    · rw [hmoved.meas, hmeas]; exact (congrArg Claim.confirmed hclaim).trans hconfirmed
    · rw [hmoved.islandAt, hmeas]; exact releaseClaim_checked hi hat hu
    · rw [hmoved.islandAt, hmoved.mailbox, hmeas]; exact releaseClaim_unchecked hi hat hu hsettle
    · have hdoms : (doXrel q (taken rest s)).meas.doms = (releaseClaim s.meas).doms := by rw [hmoved.meas, hmeas]; rfl
      have hflag : flagSet (doXrel q (taken rest s)).meas .verdictChanged = flagSet (releaseClaim s.meas) .verdictChanged := by
        rw [hmoved.flagSet, hmeas]; rfl
      dsimp only
      rw [hdoms, hflag]
      exact releaseClaim_doms s.meas d
    · rw [hmoved.meas, hmeas]; exact htopo
    · rw [hmoved.meas, hmeas]; exact href

end Sys2Proof.Machine
end

section
/-! PROOFS. XCLAIM: the claimed island and its suspended cycle (R95, R97, R107), and the grant test at the acceptance (R98, R99). -/

namespace Sys2Proof.Machine

/-! ### A suspension and a claim's ramp-down (R97, R107) -/

/-- A suspension by the part's own steps is the one of R107's table. -/
theorem suspendCycle_suspended {i : Island} {c : Captured} (hc : i.captured = some c) (st : CycleStep) (cause : SuspendCause)
    (m : Meas) : (suspendCycle i st cause m).suspended = suspendedList m.suspended i c st m.timebase cause := by
  unfold suspendCycle suspendedList
  rw [hc]
  by_cases hage : c.row.resumeAge = 0
  · rw [if_pos hage]
    cases suspendPhase st <;> simp [hage]
  · rw [if_neg hage]
    cases st <;> simp [suspendPhase, hage, suspendedEntry, dropEntry, keptMeans, keptCounts, Means.none, Counts.zero]

/-- A suspension touches nothing but the suspend list. -/
theorem suspendCycle_eq (i : Island) (st : CycleStep) (cause : SuspendCause) (m : Meas) :
    suspendCycle i st cause m = { m with suspended := (suspendCycle i st cause m).suspended } := by
  unfold suspendCycle
  (repeat' split) <;> rfl

section

variable {m : Meas} {t : Dom} {slew : Nat}

theorem rampDown_suspended (t : Dom) (slew : Nat) (m : Meas) : (rampDown t slew m).suspended = m.suspended := by
  unfold rampDown startRamp; split <;> rfl

/-- With no tap confirmed, the float command at the end of a ramp-down takes none away. -/
theorem rampDown_claim (h : m.claim.confirmed = 0) : (rampDown t slew m).claim = m.claim := by
  unfold rampDown startRamp
  split
  · have hkeep : m.claim.confirmed &&& ~~~ (single t) = m.claim.confirmed := by simp [h]
    simp only [floatCommand, writeMailbox_claim, changeTap_claim, hkeep]
  · rfl

/-- A ramp-down from level 0 ends as it begins, with the float command (R30, R97). -/
theorem rampDown_of_zero (h : (m.taps.get t).mailbox.level = 0) :
    ((rampDown t slew m).taps.get t).mailbox = .rest ∧ ((rampDown t slew m).taps.get t).ramp = none := by
  rw [rampDown, startRamp_of_eq h]
  exact tap_writeMailbox ..

/-- A ramp-down from another level leaves the mailbox and begins a ramp (R30, R97). -/
theorem rampDown_of_ne (h : (m.taps.get t).mailbox.level ≠ 0) :
    ((rampDown t slew m).taps.get t).mailbox = (m.taps.get t).mailbox ∧
    ((rampDown t slew m).taps.get t).ramp = some ⟨0, slew * 20, .domain, .connected, .claim⟩ := by
  rw [rampDown, startRamp_of_ne h]
  simp

end

/-! ### The claimed island at the acceptance (R95) -/

/-- A change that takes an island into HANDOFF: its member set, demand and slot stay. -/
structure TakesIsland (f : Island → Island) : Prop where
  members : ∀ i, (f i).members = i.members
  demand : ∀ i, (f i).demand = i.demand
  slot : ∀ i, (f i).slot = i.slot
  handoff : ∀ i, (f i).state = .handoff

section

variable {m : Meas} {i : Island}

theorem takeIsland_of_free (h : ¬ (m.topo.state = .known ∧ ∃ i, claimedIsland m = some i)) : takeIsland m = m := by
  unfold takeIsland
  by_cases hk : m.topo.state = .known
  · cases hi : claimedIsland m with
    | none => simp
    | some i => exact absurd ⟨hk, i, hi⟩ h
  · rw [if_neg (by simpa using hk)]

theorem takeIsland_of_cycle (hk : m.topo.state = .known) (hi : claimedIsland m = some i) {st : CycleStep} (hs : i.state = .cycle st) :
    takeIsland m = rampDown i.injector i.row.slew
      (changeIsland i.members (fun j => { clearCyclePart j with state := .handoff }) (suspendCycle i st .claim m)) := by
  simp only [takeIsland, hk, hi, hs]; rfl

theorem takeIsland_of_waiting (hk : m.topo.state = .known) (hi : claimedIsland m = some i)
    (hs : i.state = .forming ∨ i.state = .interval) :
    takeIsland m = rampDown i.injector i.row.slew
      (changeIsland i.members (fun j => { stopTimers j with state := .handoff }) m) := by
  rcases hs with hs | hs <;> simp only [takeIsland, hk, hi, hs] <;> rfl

theorem takeIsland_of_idle (hk : m.topo.state = .known) (hi : claimedIsland m = some i)
    (hs : i.state = .stalled ∨ i.state = .refhold) :
    takeIsland m = changeIsland i.members (fun j => { j with state := .handoff }) m := by
  rcases hs with hs | hs <;> simp only [takeIsland, hk, hi, hs] <;> rfl

theorem takeIsland_of_taken (hk : m.topo.state = .known) (hi : claimedIsland m = some i)
    (hs : i.state = .handoff ∨ i.state = .external) : takeIsland m = m := by
  rcases hs with hs | hs <;> simp only [takeIsland, hk, hi, hs] <;> rfl

/-- The states of an island that a claim finds, as the acceptance tells them apart (R95). -/
theorem islandState_cases (i : Island) : (∃ st, i.state = .cycle st) ∨ (i.state = .forming ∨ i.state = .interval) ∨
    (i.state = .stalled ∨ i.state = .refhold) ∨ (i.state = .handoff ∨ i.state = .external) := by
  cases i.state <;> simp

/-- An island that no claim holds is taken into HANDOFF (R95). -/
theorem takeIsland_islands (hk : m.topo.state = .known) (hi : claimedIsland m = some i) (hh : i.state ≠ .handoff)
    (he : i.state ≠ .external) :
    ∃ f, TakesIsland f ∧ (takeIsland m).islands = (changeIsland i.members f m).islands := by
  rcases islandState_cases i with ⟨st, hs⟩ | hs | hs | hs
  · refine ⟨fun j => { clearCyclePart j with state := .handoff }, ⟨fun _ => rfl, fun _ => rfl, fun _ => rfl, fun _ => rfl⟩, ?_⟩
    rw [takeIsland_of_cycle hk hi hs, rampDown_islands, changeIsland_islands, suspendCycle_islands]; rfl
  · refine ⟨fun j => { stopTimers j with state := .handoff }, ⟨fun _ => rfl, fun _ => rfl, fun _ => rfl, fun _ => rfl⟩, ?_⟩
    rw [takeIsland_of_waiting hk hi hs, rampDown_islands]
  · refine ⟨fun j => { j with state := .handoff }, ⟨fun _ => rfl, fun _ => rfl, fun _ => rfl, fun _ => rfl⟩, ?_⟩
    rw [takeIsland_of_idle hk hi hs]
  · rcases hs with hs | hs
    · exact absurd hs hh
    · exact absurd hs he

/-- A claim suspends the captured cycle of the island that it takes (R107). -/
theorem takeIsland_suspends (hk : m.topo.state = .known) (hi : claimedIsland m = some i) {st : CycleStep} (hs : i.state = .cycle st)
    {c : Captured} (hc : i.captured = some c) :
    (takeIsland m).suspended = suspendedList m.suspended i c st m.timebase .claim := by
  rw [takeIsland_of_cycle hk hi hs, rampDown_suspended]
  exact suspendCycle_suspended hc ..

/-- A claim makes no other entry (R107). -/
theorem takeIsland_suspends_nothing (h : ∀ i st c, m.topo.state = .known → claimedIsland m = some i → i.state = .cycle st →
    i.captured = some c → False) : (takeIsland m).suspended = m.suspended := by
  by_cases hfree : m.topo.state = .known ∧ ∃ i, claimedIsland m = some i
  · obtain ⟨hk, i, hi⟩ := hfree
    rcases islandState_cases i with ⟨st, hs⟩ | hs | hs | hs
    · rw [takeIsland_of_cycle hk hi hs, rampDown_suspended]
      cases hc : i.captured with
      | none => simp [suspendCycle, hc]
      | some c => exact (h i st c hk hi hs hc).elim
    · rw [takeIsland_of_waiting hk hi hs, rampDown_suspended]; rfl
    · rw [takeIsland_of_idle hk hi hs]; rfl
    · rw [takeIsland_of_taken hk hi hs]
  · rw [takeIsland_of_free hfree]

/-- A claim floats an injector that is at level 0 (R97). -/
theorem takeIsland_floats (hk : m.topo.state = .known) (hi : claimedIsland m = some i)
    (hs : i.state = .forming ∨ i.state = .interval ∨ ∃ st, i.state = .cycle st) (hzero : (m.taps.get i.injector).mailbox.level = 0) :
    ((takeIsland m).taps.get i.injector).mailbox = .rest ∧ ((takeIsland m).taps.get i.injector).ramp = none := by
  rcases or_assoc.2 hs with hs | ⟨st, hs⟩
  · rw [takeIsland_of_waiting hk hi hs]
    exact rampDown_of_zero hzero
  · rw [takeIsland_of_cycle hk hi hs, suspendCycle_eq]
    exact rampDown_of_zero hzero

/-- A claim walks the injector of a running cycle down at the captured slew (R97). -/
theorem takeIsland_walks_down (hk : m.topo.state = .known) (hi : claimedIsland m = some i) {st : CycleStep} (hs : i.state = .cycle st)
    {c : Captured} (hc : i.captured = some c) (haway : (m.taps.get i.injector).mailbox.level ≠ 0) :
    ((takeIsland m).taps.get i.injector).mailbox = (m.taps.get i.injector).mailbox ∧
    ((takeIsland m).taps.get i.injector).ramp = some ⟨0, c.row.slew * 20, .domain, .connected, .claim⟩ := by
  rw [takeIsland_of_cycle hk hi hs, suspendCycle_eq, Island.row_of_captured hc]
  exact rampDown_of_ne haway

/-- With no tap confirmed, taking the island leaves the claim record. -/
theorem takeIsland_claim (h : m.claim.confirmed = 0) : (takeIsland m).claim = m.claim := by
  by_cases hfree : m.topo.state = .known ∧ ∃ i, claimedIsland m = some i
  · obtain ⟨hk, i, hi⟩ := hfree
    rcases islandState_cases i with ⟨st, hs⟩ | hs | hs | hs
    · rw [takeIsland_of_cycle hk hi hs, suspendCycle_eq]
      exact rampDown_claim h
    · rw [takeIsland_of_waiting hk hi hs]
      exact rampDown_claim h
    · rw [takeIsland_of_idle hk hi hs]; rfl
    · rw [takeIsland_of_taken hk hi hs]
  · rw [takeIsland_of_free hfree]

end

/-! ### The grant test (R98, R99) -/

section

variable {m : Meas}

theorem claimedIsland_of_handoff {d : Dom} (hs : m.claim.state = .handoff) (hd : m.claim.dom = some d) :
    claimedIsland m = islandOf m d := by
  simp [claimedIsland, hs, hd]

/-- The grant test leaves what the claim covers. -/
theorem coveredSet_claimCheck (hs : m.claim.state = .handoff) : coveredSet (claimCheck m) = coveredSet m := by
  have harm : coveredSet (armClaim m) = coveredSet m := by rw [armClaim_eq]; rfl
  rcases claimCheck_outcome m with ⟨h, -⟩ | ⟨h, -⟩ <;> rw [h]
  · exact harm
  · exact (coveredSet_grantWith .ok (by rw [armClaim_eq]; exact hs)).trans harm

/-- After the grant test a claim's island is as it was, or EXTERNAL when the claim was granted (R99). -/
theorem islandOf_claimCheck {d : Dom} {j : Island} (hs : m.claim.state = .handoff) (hd : m.claim.dom = some d)
    (hj : islandOf m d = some j) :
    islandOf (claimCheck m) d = some (if (claimCheck m).claim.state = .handoff then j else j.granted) := by
  have harm : islandOf (armClaim m) d = some j := by rw [armClaim_eq]; exact hj
  have hs' : (armClaim m).claim.state = .handoff := by rw [armClaim_eq]; exact hs
  rcases claimCheck_outcome m with ⟨h, -⟩ | ⟨h, -⟩ <;> rw [h]
  · rw [if_pos hs', harm]
  · have hclaimed : claimedIsland (armClaim m) = some j := by
      rw [claimedIsland_of_handoff hs' (by rw [armClaim_eq]; exact hd), harm]
    have hislands : islandOf (grantWith .ok (armClaim m)) d = islandOf (changeIsland j.members Island.granted (armClaim m)) d := by
      rw [islandOf, (grantWith_islands .ok hs').1 j hclaimed]; rfl
    rw [if_neg (by simp [grantWith_claim]), hislands, islandOf_changeIsland (f := Island.granted) (fun _ => rfl), harm]
    simp

/-- With no tap confirmed, the grant test grants a claim that is armed and has no PRESENT tap (R99). -/
theorem claimCheck_granted_iff (hs : m.claim.state = .handoff) (hzero : m.claim.confirmed = 0) :
    (claimCheck m).claim.state = .granted ↔
      (armClaim m).claim.armed = true ∧ ∀ e, inSet (coveredSet m) e = true → isPresent m e = false := by
  have hall : allConfirmed m = true ↔ ∀ e, inSet (coveredSet m) e = true → isPresent m e = false := by
    simp [allConfirmed_iff, hzero, inSet_zero]
  rw [← hall]
  rcases claimCheck_outcome m with ⟨h, hno⟩ | ⟨h, -, harmed, hconf⟩ <;> rw [h]
  · have hs' : (armClaim m).claim.state = .handoff := by rw [armClaim_eq]; exact hs
    refine ⟨fun hg => ?_, fun ⟨ha, hc⟩ => absurd ⟨hs, ha, hc⟩ hno⟩
    rw [hs'] at hg; cases hg
  · exact ⟨fun _ => ⟨harmed, hconf⟩, fun _ => by rw [grantWith_claim]⟩

end

/-! ### The acceptance (R94) -/

/-- The measurement side with an accepted XCLAIM on record and nothing else done. -/
def acceptedMeas (d : Dom) (q : Frame) (limit : Nat) (m : Meas) : Meas :=
  { m with claim := ⟨.handoff, some d, m.timebase, limit, q.tag, false, 0⟩, pendXclaim := some ⟨q.kind, q.tag⟩ }

/-- An accepted XCLAIM with the claimed island taken, before the grant test. -/
def claimTaken (d : Dom) (q : Frame) (limit : Nat) (m : Meas) : Meas := takeIsland (acceptedMeas d q limit m)

section

variable {m : Meas} {d : Dom} {q : Frame} {limit : Nat}

theorem acceptXclaim_of_row {row : CycleRow} (h : cycleRow m (profileInForce m d) = some row) :
    acceptXclaim d q m = claimCheck (claimTaken d q row.handoffLimit m) := by
  simp only [acceptXclaim, h]; rfl

theorem claimTaken_claim : (claimTaken d q limit m).claim = ⟨.handoff, some d, m.timebase, limit, q.tag, false, 0⟩ :=
  takeIsland_claim rfl

theorem claimTaken_claimedIsland : claimedIsland (acceptedMeas d q limit m) = islandOf m d :=
  claimedIsland_of_handoff rfl rfl

/-- What taking a claim leaves. -/
theorem claimTaken_frame : (claimTaken d q limit m).pendXclaim = some ⟨q.kind, q.tag⟩ ∧
    (claimTaken d q limit m).heldResponses = m.heldResponses ∧ (claimTaken d q limit m).doms = m.doms ∧
    (claimTaken d q limit m).topo = m.topo ∧ (claimTaken d q limit m).ref = m.ref ∧
    ∀ e, isPresent (claimTaken d q limit m) e = isPresent m e := by
  have hsteady := steady_takeIsland (acceptedMeas d q limit m)
  exact ⟨hsteady.pendXclaim, hsteady.held, hsteady.domsEq, hsteady.topo, takeIsland_ref _, hsteady.isPresent⟩

/-- A claim on an island that no claim holds finds it in HANDOFF, its demand and slot as they were (R95). -/
theorem claimTaken_island {i : Island} (hk : m.topo.state = .known) (hi : islandOf m d = some i) (hh : i.state ≠ .handoff)
    (he : i.state ≠ .external) :
    ∃ j, islandOf (claimTaken d q limit m) d = some j ∧ j.members = i.members ∧ j.demand = i.demand ∧ j.slot = i.slot ∧
      j.state = .handoff := by
  obtain ⟨f, hf, hislands⟩ := takeIsland_islands (m := acceptedMeas d q limit m) hk (claimTaken_claimedIsland.trans hi) hh he
  refine ⟨f i, ?_, hf.members i, hf.demand i, hf.slot i, hf.handoff i⟩
  have hof : islandOf (claimTaken d q limit m) d = islandOf (changeIsland i.members f m) d := by
    rw [islandOf, claimTaken, hislands]; rfl
  rw [hof, islandOf_changeIsland hf.members, hi]
  simp

/-- The claim is in HANDOFF with its answer to come, or granted and answered at once (R94, R99). -/
theorem acceptXclaim_answer : let c := claimCheck (claimTaken d q limit m)
    c.claim.state = .handoff ∧ c.pendXclaim = some ⟨q.kind, q.tag⟩ ∧ c.heldResponses = m.heldResponses ∨
    c.claim.state = .granted ∧ c.pendXclaim = none ∧ flagSet c .handoffDone = true ∧
      ∃ f, c.heldResponses = m.heldResponses ++ [f] ∧ f.kind = q.kind ∧ f.tag = q.tag ∧ f.payload.head? = some 0 ∧
        f.payload.drop 2 = [BitVec.ofNat 8 d.number, coveredSet (claimTaken d q limit m)] := by
  obtain ⟨hpend, hheld, -⟩ := claimTaken_frame (m := m) (d := d) (q := q) (limit := limit)
  have hs : (claimTaken d q limit m).claim.state = .handoff := by rw [claimTaken_claim]
  obtain ⟨hwaits, hanswers⟩ := claimCheck_answer (claimTaken d q limit m)
  rcases claimCheck_outcome (claimTaken d q limit m) with ⟨h, -⟩ | ⟨h, -⟩
  · have hs' : (claimCheck (claimTaken d q limit m)).claim.state = .handoff := by rw [h, armClaim_eq]; exact hs
    exact .inl ⟨hs', by rw [h, armClaim_eq]; exact hpend, (hwaits (hs'.trans hs.symm)).trans hheld⟩
  · have hs' : (claimCheck (claimTaken d q limit m)).claim.state = .granted := by rw [h, grantWith_claim]
    obtain ⟨f, hf, -, -, hkind, htag, hok, hvalues⟩ := hanswers _ hpend (by rw [hs, hs']; decide)
    have hall : coveredSet (claimTaken d q limit m) &&& ~~~ (0 : DomSet) = coveredSet (claimTaken d q limit m) :=
      BitVec.and_allOnes
    refine .inr ⟨hs', by rw [h, grantWith_pendXclaim], by rw [h]; exact grantWith_handoffDone .., f, by rw [hf, hheld], hkind, htag,
      hok, ?_⟩
    rw [hvalues, coveredSet_claimCheck hs, claimCheck_claim, claimTaken_claim, hall]; rfl

/-- The grant test is armed when no covered mailbox holds a DOMAIN-path level or a connected balance network (R98). -/
theorem claimCheck_claimTaken_armed : (claimCheck (claimTaken d q limit m)).claim.armed = true ↔
    ∀ e, inSet (coveredSet (claimTaken d q limit m)) e = true →
      ((claimTaken d q limit m).taps.get e).mailbox.clearOfDomain = true := by
  rw [claimCheck_claim, armClaim_armed (by simp [claimTaken_claim]), claimTaken_claim]
  simp

end

/-! ### The command -/

theorem exec_xclaim_of_head {q : Frame} {rest : List Frame} {s : State} (h : HeadRequest 0x11 1 1 q rest s) :
    exec .xclaim s = .next (doXclaim q (taken rest s)) := by
  have ⟨_, hkind, _⟩ := h
  have htaken : takeRequest (· == kindXclaim) doXclaim s = doXclaim q (taken rest s) :=
    takeRequest_of_head h (responses_one hkind (by decide) (by decide)).le (by decide) (by decide)
  rw [← htaken]; rfl

/-- The checks of XCLAIM, in their order (R94). -/
theorem xclaim_refused {q : Frame} {rest : List Frame} {s : State} (h : HeadRequest 0x11 1 1 q rest s) :
    ((∀ d, Dom.ofNumber (nat8 q.payload 0) = some d → fitted s.meas d = false) →
      OutputsMoved (answered q .badArg [] (taken rest s)) (doXclaim q (taken rest s))) ∧
    ∀ d, Dom.ofNumber (nat8 q.payload 0) = some d → fitted s.meas d = true →
      (partRunning s.meas = false → OutputsMoved (answered q .wrongState [] (taken rest s)) (doXclaim q (taken rest s))) ∧
      (partRunning s.meas = true → s.meas.claim.state ≠ .none →
        OutputsMoved (answered q .busy [] (taken rest s)) (doXclaim q (taken rest s))) := by
  have hroom := h.room one_pos
  refine ⟨fun hnone => ?_, fun d hd hfit => ⟨fun hidle => ?_, fun hrun hclaim => ?_⟩⟩
  · have harg : fittedArg (taken rest s).meas q 0 = none := fittedArg_none hnone
    simp only [doXclaim, harg]
    exact respond_up_moved hroom
  · have harg : fittedArg (taken rest s).meas q 0 = some d := fittedArg_some hd hfit
    have hidle' : partRunning (taken rest s).meas = false := hidle
    simp only [doXclaim, harg, hidle', Bool.not_false, if_true]
    exact respond_up_moved hroom
  · have harg : fittedArg (taken rest s).meas q 0 = some d := fittedArg_some hd hfit
    have hrun' : partRunning (taken rest s).meas = true := hrun
    have hclaim' : ((taken rest s).meas.claim.state != .none) = true := bne_iff_ne.2 hclaim
    simp only [doXclaim, harg, hrun', hclaim', Bool.not_true, Bool.false_eq_true, if_false, if_true]
    exact respond_up_moved hroom

/-- An XCLAIM that passes its checks leaves what the acceptance leaves, its outputs moved on (R94). -/
theorem xclaim_accepted {q : Frame} {rest : List Frame} {s : State} {d : Dom} {row : CycleRow}
    (hd : Dom.ofNumber (nat8 q.payload 0) = some d) (hfit : fitted s.meas d = true) (hrun : partRunning s.meas = true)
    (hclaim : s.meas.claim.state = .none) (hrow : cycleRow s.meas (profileInForce s.meas d) = some row) :
    OutputsMoved { taken rest s with meas := claimCheck (claimTaken d q row.handoffLimit s.meas) } (doXclaim q (taken rest s)) := by
  have harg : fittedArg (taken rest s).meas q 0 = some d := fittedArg_some hd hfit
  have hrun' : partRunning (taken rest s).meas = true := hrun
  have hclaim' : ((taken rest s).meas.claim.state != .none) = false := by rw [bne_eq_false_iff_eq]; exact hclaim
  simp only [doXclaim, harg, hrun', hclaim', Bool.not_true, Bool.false_eq_true, if_false]
  rw [← acceptXclaim_of_row hrow]
  exact pumpBoth_moved ((taken rest s).withMeas (acceptXclaim d q))

/-- What the outputs and the grant test leave of a taken claim. -/
theorem moved_claimTaken {d : Dom} {q : Frame} {limit : Nat} {m : Meas} {u t : State} (h : OutputsMoved u t)
    (hu : u.meas = claimCheck (claimTaken d q limit m)) :
    t.meas.claim = ⟨(claimCheck (claimTaken d q limit m)).claim.state, some d, m.timebase, limit, q.tag,
      (claimCheck (claimTaken d q limit m)).claim.armed, 0⟩ ∧
    coveredSet t.meas = coveredSet (claimTaken d q limit m) ∧
    (∀ e, (t.meas.taps.get e).mailbox = ((claimTaken d q limit m).taps.get e).mailbox ∧
      (t.meas.taps.get e).ramp = ((claimTaken d q limit m).taps.get e).ramp) ∧
    t.meas.suspended = (claimTaken d q limit m).suspended ∧ t.meas.doms = m.doms ∧ t.meas.topo = m.topo ∧ t.meas.ref = m.ref := by
  have hcheck := claimCheck_eq (claimTaken d q limit m)
  obtain ⟨-, -, hdoms, htopo, href, -⟩ := claimTaken_frame (m := m) (d := d) (q := q) (limit := limit)
  have htaps : u.meas.taps = (claimTaken d q limit m).taps := by rw [hu, hcheck]
  refine ⟨?_, ?_, fun e => ⟨?_, ?_⟩, ?_, ?_, ?_, ?_⟩
  · rw [h.meas, hu]
    change (claimCheck (claimTaken d q limit m)).claim = _
    rw [claimCheck_claim, claimTaken_claim]
  · rw [h.meas, hu]
    exact coveredSet_claimCheck (m := claimTaken d q limit m) (by rw [claimTaken_claim])
  · rw [h.mailbox, htaps]
  · rw [h.ramp, htaps]
  · rw [h.meas, hu, hcheck]
  · rw [h.meas, hu, hcheck]; exact hdoms
  · rw [h.meas, hu, hcheck]; exact htopo
  · rw [h.meas, hu, hcheck]; exact href

/-- While the partition is not KNOWN a claim takes no island, and writes no mailbox. -/
theorem claimTaken_of_unknown {d : Dom} {q : Frame} {limit : Nat} {m : Meas} (h : m.topo.state ≠ .known) :
    claimTaken d q limit m = acceptedMeas d q limit m :=
  takeIsland_of_free fun ⟨hk, _⟩ => h hk

/-- Settles O31: the claim is recorded, its island taken, and the grant test made. -/
theorem xclaimTaken : Obligations.XclaimTaken := by
  refine ⟨fun s q rest d row h hd hfit hrun hnone hrow => ?_, fun s q rest h => ?_⟩
  · have hmoved := xclaim_accepted (rest := rest) hd hfit hrun hnone hrow
    refine ⟨doXclaim q (taken rest s), exec_xclaim_of_head h, ?_⟩
    generalize doXclaim q (taken rest s) = t at hmoved
    obtain ⟨hclaim, hcov, htaps, hsusp, hdoms, htopo, href⟩ := moved_claimTaken hmoved rfl
    obtain ⟨-, -, -, -, -, hpresent⟩ := claimTaken_frame (m := s.meas) (d := d) (q := q) (limit := row.handoffLimit)
    have hof : ∀ {i}, islandOf s.meas d = some i → claimedIsland (acceptedMeas d q row.handoffLimit s.meas) = some i :=
      fun hi => claimTaken_claimedIsland.trans hi
    have hhandoff : (claimTaken d q row.handoffLimit s.meas).claim.state = .handoff := by rw [claimTaken_claim]
    rw [hclaim, hcov, hsusp]
    refine ⟨rfl, rfl, rfl, rfl, ?_, rfl, ?_, ?_, fun i st c hk hi hs hc => ⟨?_, fun haway => ?_⟩, fun hfree => ?_,
      fun i hk hi hs hzero => ?_, fun i hk hi hh he => ?_, fun hk e => ?_, hdoms, htopo, href, hmoved.loader, hmoved.pending⟩
    · have hflag := hmoved.flagSet .handoffDone
      have hpend : t.meas.pendXclaim = (claimCheck (claimTaken d q row.handoffLimit s.meas)).pendXclaim := by rw [hmoved.meas]
      rcases acceptXclaim_answer (m := s.meas) (d := d) (q := q) (limit := row.handoffLimit) with
        ⟨hs, hp, hout⟩ | ⟨hs, hp, hdone, f, hout, hanswer⟩
      · refine .inl ⟨hs, hpend.trans hp, ?_⟩
        rw [hmoved.upstream]
        simp [outgoing, taken, hout]
      · refine .inr ⟨hs, hpend.trans hp, hflag.trans hdone, f, ?_, hanswer⟩
        rw [hmoved.upstream]
        simp [outgoing, taken, hout]
    · rw [claimCheck_claimTaken_armed]
      simp [htaps, Mailbox.clearOfDomain]
    · simp only [← hpresent]
      rw [claimCheck_granted_iff hhandoff (by rw [claimTaken_claim]), claimCheck_claim]
    · exact takeIsland_suspends (m := acceptedMeas d q _ s.meas) hk (hof hi) hs hc
    · rw [(htaps _).1, (htaps _).2]
      exact takeIsland_walks_down (m := acceptedMeas d q _ s.meas) hk (hof hi) hs hc haway
    · exact takeIsland_suspends_nothing (m := acceptedMeas d q _ s.meas) fun i st c hk hi hs hc =>
        hfree i st c hk (claimTaken_claimedIsland.symm.trans hi) hs hc
    · rw [(htaps _).1, (htaps _).2]
      exact takeIsland_floats (m := acceptedMeas d q _ s.meas) hk (hof hi) hs hzero
    · obtain ⟨j, hj, hmembers, hdemand, hslot, hstate⟩ := claimTaken_island (q := q) (limit := row.handoffLimit) hk hi hh he
      have hislands : islandOf t.meas d = islandOf (claimCheck (claimTaken d q row.handoffLimit s.meas)) d := by
        rw [hmoved.meas]; rfl
      rw [hislands, islandOf_claimCheck hhandoff (by rw [claimTaken_claim]) hj]
      refine ⟨_, rfl, ?_⟩
      split
      · exact ⟨hmembers, hdemand, hslot, hstate⟩
      · exact ⟨hmembers, hdemand, hslot, rfl⟩
    · rw [(htaps e).1, claimTaken_of_unknown hk]; rfl
  · exact ⟨_, exec_xclaim_of_head h, xclaim_refused h⟩

end Sys2Proof.Machine
end

section
/-! PROOFS. The reference cycle's samples (R33 to R40, R117) and the judgement of the reference (R66, R118). -/

namespace Sys2Proof.Machine

/-! ### The judgement (R66, R118) -/

theorem distance_eq_natAbs (a b : Nat) : distance a b = ((a : Int) - b).natAbs := by
  unfold distance; omega

/-- An inverted D2 is FAIL with no Rraw (R55, R118). -/
theorem judgeRef_of_inverted {row : CycleRow} {d2 : Int} (rc rref : Nat) (h : d2 < -(row.invMargin : Int)) :
    judgeRef row rc rref d2 = (.fail, none) := if_pos (decide_eq_true h)

/-- Any other D2 is judged on the tolerance of its Rraw (R66, R118). -/
theorem judgeRef_of_measured {row : CycleRow} {d2 : Int} (rc rref : Nat) (h : -(row.invMargin : Int) ≤ d2) :
    judgeRef row rc rref d2 =
      (if ((rrawOf row.injMv rc d2 : Int) - rref).natAbs * 100 ≤ rref * row.refTol then .pass else .fail,
        some (rrawOf row.injMv rc d2)) := by
  rw [← distance_eq_natAbs]
  exact if_neg (by simpa [isInverted] using h)

/-! ### The check that a sample reaches (R33, R117) -/

/-- A sample of the tap under check in a sampling step, as the check's accumulators take it (R117). -/
def takenByCheck (m : Meas) (r : RefCheck) (stage : Stage) (ph : Phase) (delta : Nat) (x : Sample) : Taken :=
  takeSample stage ph r.row r.row.nFull r.row.settleBlocks (m.taps.get r.tap).mailbox delta x r.acc

/-- The step that a sample is used in: the SETTLE step at the settle stage, the PLATEAU step at the plateau stage. -/
theorem sampling_of_stage {step : RefStep} {st : Stage} {ph : Phase}
    (h : (st = .settle ∧ step = .cycle (settleStep ph)) ∨ (st = .plateau ∧ step = .cycle (plateauStep ph))) :
    ∃ c, step = .cycle c ∧ c.sampling = some (st, ph) := by
  rcases h with ⟨rfl, h⟩ | ⟨rfl, h⟩
  · exact ⟨_, h, sampling_settleStep ph⟩
  · exact ⟨_, h, sampling_plateauStep ph⟩

section

variable {m : Meas} {r : RefCheck} {ph : Phase} {delta : Nat} {x : Sample}

theorem changeRef_of_some (f : RefCheck → RefCheck) (hr : m.ref = some r) : changeRef f m = { m with ref := some (f r) } := by
  simp [changeRef, hr]

/-- A used sample is taken, and enters the PLATEAU that it settles or completes the plateau that it fills (R38, R40, R117). -/
theorem refSample_of_sampling {step : CycleStep} {stage : Stage} (delta : Nat) (x : Sample) (hr : m.ref = some r)
    (hs : r.step = .cycle step) (hst : step.sampling = some (stage, ph)) :
    refSample r.tap delta x m =
      if (takenByCheck m r stage ph delta x).settled then
        refPlateau ph { m with ref := some { r with acc := (takenByCheck m r stage ph delta x).acc } }
      else if (takenByCheck m r stage ph delta x).full then
        refComplete ph { m with ref := some { r with acc := (takenByCheck m r stage ph delta x).acc } }
      else { m with ref := some { r with acc := (takenByCheck m r stage ph delta x).acc } } := by
  simp only [refSample, hr, hs, hst, beq_self_eq_true, if_true, changeRef_of_some _ hr]
  rfl

/-- The sample of another tap, or in another step, is not used (R33, R117). -/
theorem refSample_of_unused {t : Dom} (delta : Nat) (x : Sample)
    (h : ∀ r ph, m.ref = some r → r.tap = t → r.step ≠ .cycle (settleStep ph) ∧ r.step ≠ .cycle (plateauStep ph)) :
    refSample t delta x m = m := by
  unfold refSample
  split
  · rfl
  · next r hr =>
    split
    · next ht =>
      split
      · rfl
      · next step hs =>
        split
        · rfl
        · next stage ph hst =>
          obtain ⟨hsettle, hplateau⟩ := h r ph hr (by simpa using ht)
          rcases sampling_eq_some hst with rfl | rfl
          · exact absurd hs hsettle
          · exact absurd hs hplateau
    · rfl

/-! ### A completed plateau (R40, R117, R118) -/

/-- A check whose plateau a valid sample has filled (R36, R40). -/
def RefCheck.filled (ph : Phase) (delta : Nat) (x : Sample) (r : RefCheck) : RefCheck :=
  { r with acc := (takePlateau 0 ph false x (gapLeaves r.row.maxGap delta r.acc)).acc }

@[simp] theorem RefCheck.filled_tap (ph : Phase) (delta : Nat) (x : Sample) (r : RefCheck) : (r.filled ph delta x).tap = r.tap := rfl

@[simp] theorem RefCheck.filled_row (ph : Phase) (delta : Nat) (x : Sample) (r : RefCheck) : (r.filled ph delta x).row = r.row := rfl

/-- What a check keeps of a completed plateau: nothing of QUIET, Vp of POS, and of NEG Vn with the judgement (R117, R118). -/
def RefCheck.completed (ph : Phase) (now : Time) (r : RefCheck) : RefCheck :=
  let mean := meanOf r.acc.sumVs r.row.nFull
  match ph with
  | .quiet => r
  | .pos => { r with vp := some mean }
  | .neg =>
    let j := judgeRef r.row r.rc r.rref (r.vp.getD 0 - mean)
    { r with vn := some mean, outcome := some j.1, rraw := j.2, decided := some now }

/-- The ramp step that follows a phase's plateau (R32). -/
def Phase.rampAfter : Phase → CycleStep
  | .quiet => .rampPos
  | .pos => .rampNeg
  | .neg => .rampHome

theorem rampTarget_rampAfter (ph : Phase) (u : Nat) :
    rampTarget ph.rampAfter u = if ph = .quiet then (u : Int) else if ph = .pos then -(u : Int) else 0 := by
  cases ph <;> rfl

@[simp] theorem RefCheck.completed_tap (ph : Phase) (now : Time) (r : RefCheck) : (r.completed ph now).tap = r.tap := by
  cases ph <;> rfl

@[simp] theorem RefCheck.completed_row (ph : Phase) (now : Time) (r : RefCheck) : (r.completed ph now).row = r.row := by
  cases ph <;> rfl

theorem RefCheck.completed_acc (ph : Phase) (now : Time) (r : RefCheck) : (r.completed ph now).acc = r.acc := by
  cases ph <;> rfl

/-- A completed plateau is kept, and its phase's ramp begins (R117). -/
theorem refComplete_of_some (hr : m.ref = some r) :
    refComplete ph m = refRamp ph.rampAfter { m with ref := some (r.completed ph m.timebase) } := by
  cases ph with
  | quiet =>
    have hm : { m with ref := some r } = m := by rw [← hr]
    simp only [refComplete, hr, Phase.rampAfter, RefCheck.completed, hm]
  | pos => simp only [refComplete, hr, changeRef_of_some _ hr]; rfl
  | neg => simp only [refComplete, hr, changeRef_of_some _ hr]; rfl

/-- The valid sample that fills a plateau of the check completes it (R40, R117). -/
theorem refSample_of_full (hr : m.ref = some r) (hs : r.step = .cycle (plateauStep ph))
    (he : echoes (m.taps.get r.tap).mailbox x = true) (hclip : x.clip = false) (htflt : x.tflt = false)
    (hn : (gapLeaves r.row.maxGap delta r.acc).plateauCount + 1 = r.row.nFull) :
    refSample r.tap delta x m = refComplete ph { m with ref := some (r.filled ph delta x) } := by
  have hk : takenByCheck m r .plateau ph delta x = _ := takeSample_plateau_gap _ _ _ _ he hclip htflt
  have hfull : (takenByCheck m r .plateau ph delta x).full = true := by rw [hk]; exact decide_eq_true hn.ge
  have hsettled : (takenByCheck m r .plateau ph delta x).settled = false := by rw [hk]; rfl
  rw [refSample_of_sampling delta x hr hs (sampling_plateauStep ph), if_neg (by simp [hsettled]), if_pos hfull, hk]
  rfl

/-- With the tap away from the target, the ramp of the completed plateau's phase begins on the reference path (R117). -/
theorem refSample_of_full_ramps (hr : m.ref = some r) (hs : r.step = .cycle (plateauStep ph))
    (he : echoes (m.taps.get r.tap).mailbox x = true) (hclip : x.clip = false) (htflt : x.tflt = false)
    (hn : (gapLeaves r.row.maxGap delta r.acc).plateauCount + 1 = r.row.nFull)
    (hl : (m.taps.get r.tap).mailbox.level ≠ rampTarget ph.rampAfter r.row.injMv) :
    refSample r.tap delta x m = { m with
      ref := some { (r.filled ph delta x).completed ph m.timebase with
        step := .cycle ph.rampAfter, phaseTimer := none, plateauTimer := none }
      taps := m.taps.set r.tap { m.taps.get r.tap with
        ramp := some ⟨rampTarget ph.rampAfter r.row.injMv, r.row.slew * 20, .ref, .floating, .refCheck⟩
        refreshStart := some m.timebase } } := by
  rw [refSample_of_full hr hs he hclip htflt hn, refComplete_of_some rfl, refRamp_of_ne rfl (by simpa using hl)]
  simp

end

/-- Settles O36: a used sample and an unused one, the completed plateaus, and the judgement. -/
theorem referenceJudgement : Obligations.ReferenceJudgement := by
  refine ⟨?_, fun m t delta x h => refSample_of_unused delta x h, ?_, fun row rc rref d2 =>
    ⟨judgeRef_of_inverted rc rref, fun h => ?_⟩⟩
  · intro m t r delta x st ph hr ht hstage k
    obtain ⟨step, hs, hst⟩ := sampling_of_stage hstage
    have hsample := refSample_of_sampling delta x hr hs hst
    subst ht
    have hk : takenByCheck m r st ph delta x = k := rfl
    rw [hk] at hsample
    refine ⟨fun hsettled hfull => ?_, fun hsettled => ?_⟩
    · rw [hsample, hsettled, hfull]; rfl
    · rw [hsample]; exact if_pos hsettled
  · intro m t r delta x ph hr ht hs he hclip htflt n a1 hpos hn acc target ramping hl
    subst ht
    have htarget : rampTarget ph.rampAfter r.row.injMv = target := rampTarget_rampAfter ph r.row.injMv
    have hacc : acc = (r.filled ph delta x).acc := by
      simp only [acc]; rw [takeSample_plateau_gap _ _ _ _ he hclip htflt]; rfl
    have hsample := refSample_of_full_ramps hr hs he hclip htflt hn (htarget ▸ hl)
    have hramp : refSample r.tap delta x m = ramping ph.rampAfter ((r.filled ph delta x).completed ph m.timebase) := by
      rw [hsample, htarget]
      dsimp only [ramping]
      rw [hacc, ← (r.filled ph delta x).completed_acc ph m.timebase]
    refine ⟨fun hph => ?_, meanOf (a1.sumVs + x.vs) n, (meanOf_rounds _ hpos).1, (meanOf_rounds _ hpos).2, fun hph => ?_,
      fun p hph hvp => ?_⟩
    · subst hph; exact hramp
    · subst hph; exact hramp
    · subst hph
      have hvp' : (r.filled .neg delta x).vp.getD 0 = p := by rw [RefCheck.filled, hvp]; rfl
      rw [hramp]
      simp only [RefCheck.completed, hvp']
      rfl
  · rw [judgeRef_of_measured rc rref h]
    refine ⟨rfl, ?_, ?_⟩ <;> split <;> simp [*]

end Sys2Proof.Machine
end

section
/-! PROOFS. RCHK: its checks, the check that it begins, and what that does to the tap, its island and the suspended cycle (R107, R114 to
R116). -/

namespace Sys2Proof.Machine

/-! ### A tap taken by a check (R115, R116) -/

/-- From `m` to `m'` the check `r` has taken its tap: its record goes on with what it captured and without a judgement, its response stays
deferred, and neither a verdict record nor a flag is touched. -/
structure TapTaken (r : RefCheck) (m m' : Meas) : Prop where
  ref : ∃ r', m'.ref = some r' ∧ r'.tap = r.tap ∧ r'.tag = r.tag ∧ r'.row = r.row ∧ r'.rc = r.rc ∧ r'.rref = r.rref ∧
    r'.outcome = r.outcome ∧ r'.rraw = r.rraw
  pendRchk : m'.pendRchk = m.pendRchk
  held : m'.heldResponses = m.heldResponses
  doms : m'.doms = m.doms
  flags : m'.flags = m.flags

/-- A check in PREEMPT on the injector of an island (R116). -/
def RefCheck.preempting (i : Island) (r : RefCheck) : RefCheck :=
  { r with step := .preempt, preemptSlew := i.captured.map (·.row.slew) }

/-- The measurement side with PREEMPT begun, before the walk down: the island, changed by `f`, is in REFHOLD (R115). -/
def preemptBegun (i : Island) (f : Island → Island) (r : RefCheck) (m : Meas) : Meas :=
  { changeIsland i.members (fun j => { f j with state := .refhold }) m with ref := some (r.preempting i) }

@[simp] theorem preemptBegun_taps (i : Island) (f : Island → Island) (r : RefCheck) (m : Meas) :
    (preemptBegun i f r m).taps = m.taps := rfl

@[simp] theorem preemptBegun_ref (i : Island) (f : Island → Island) (r : RefCheck) (m : Meas) :
    (preemptBegun i f r m).ref = some (r.preempting i) := rfl

/-- A change of an island by which its member set, demand and slot stay, as before REFHOLD (R115). -/
structure KeepsPlace (f : Island → Island) : Prop where
  members : ∀ i, (f i).members = i.members
  demand : ∀ i, (f i).demand = i.demand
  slot : ∀ i, (f i).slot = i.slot

theorem keepsPlace_clearCyclePart : KeepsPlace clearCyclePart := ⟨fun _ => rfl, fun _ => rfl, fun _ => rfl⟩

theorem keepsPlace_stopTimers : KeepsPlace stopTimers := ⟨fun _ => rfl, fun _ => rfl, fun _ => rfl⟩

section

variable {m : Meas} {r : RefCheck} {i : Island} {f : Island → Island} {t : Dom}

/-- The tap is switched to its reference path (R116). -/
theorem switchToRef_of_some (hr : m.ref = some r) (t : Dom) :
    switchToRef t m = { writeMailbox t .refQuiet m with ref := some (switchedCheck m.timebase r) } := by
  rw [switchToRef, refSettle, changeRef_of_some _ (show (writeMailbox t .refQuiet m).ref = some r from hr)]
  rfl

theorem beginPreempt_of_some (hr : m.ref = some r) : beginPreempt i f m =
    startRamp i.injector ⟨0, i.row.slew * 20, .domain, .connected, .refCheck⟩ (afterRefRamp i.injector) (preemptBegun i f r m) :=
  congrArg (startRamp _ _ _) (changeRef_of_some _ hr)

/-- PREEMPT of an injector at level 0 ends as it begins, with the switch (R30, R116). -/
theorem beginPreempt_of_zero (hr : m.ref = some r) (h : (m.taps.get i.injector).mailbox.level = 0) :
    beginPreempt i f m =
      { writeMailbox i.injector .refQuiet (changeTap i.injector (fun p => { p with ramp := none }) (preemptBegun i f r m)) with
        ref := some (switchedCheck m.timebase (r.preempting i)) } := by
  calc beginPreempt i f m
    _ = afterRefRamp i.injector (changeTap i.injector (fun p => { p with ramp := none }) (preemptBegun i f r m)) :=
      (beginPreempt_of_some hr).trans (startRamp_of_eq (m := preemptBegun i f r m) h)
    _ = _ := switchToRef_of_some (r := r.preempting i) rfl _

/-- PREEMPT of an injector at another level leaves its mailbox and begins the walk down (R116). -/
theorem beginPreempt_of_ne (hr : m.ref = some r) (h : (m.taps.get i.injector).mailbox.level ≠ 0) :
    beginPreempt i f m = changeTap i.injector (fun p => { p with
      ramp := some ⟨0, i.row.slew * 20, .domain, .connected, .refCheck⟩, refreshStart := some m.timebase }) (preemptBegun i f r m) :=
  (beginPreempt_of_some hr).trans (startRamp_of_ne (m := preemptBegun i f r m) h)

/-- PREEMPT changes the islands as it begins and not as it ends, and no suspend entry. -/
theorem beginPreempt_islands (hr : m.ref = some r) :
    (beginPreempt i f m).islands = (preemptBegun i f r m).islands ∧ (beginPreempt i f m).suspended = m.suspended := by
  by_cases h : (m.taps.get i.injector).mailbox.level = 0
  · rw [beginPreempt_of_zero hr h]; simp [preemptBegun]
  · rw [beginPreempt_of_ne hr h]; simp [preemptBegun]

theorem tapTaken_switchToRef (hr : m.ref = some r) (t : Dom) : TapTaken r m (switchToRef t m) := by
  rw [switchToRef_of_some hr]
  exact ⟨⟨_, rfl, rfl, rfl, rfl, rfl, rfl, rfl, rfl⟩, rfl, rfl, rfl, rfl⟩

theorem tapTaken_beginPreempt (hr : m.ref = some r) (i : Island) (f : Island → Island) : TapTaken r m (beginPreempt i f m) := by
  by_cases h : (m.taps.get i.injector).mailbox.level = 0
  · rw [beginPreempt_of_zero hr h]
    refine ⟨⟨_, rfl, rfl, rfl, rfl, rfl, rfl, rfl, rfl⟩, ?_, ?_, ?_, ?_⟩ <;> simp [preemptBegun]
  · rw [beginPreempt_of_ne hr h]
    refine ⟨⟨_, preemptBegun_ref i f r m, rfl, rfl, rfl, rfl, rfl, rfl, rfl⟩, ?_, ?_, ?_, ?_⟩ <;> simp [preemptBegun]

/-! ### The tap's place in the partition (R115) -/

theorem preemptTap_of_none (hi : injectedBy m t = none) : preemptTap t m = switchToRef t m := by
  simp [preemptTap, hi]

theorem preemptTap_of_cycle (hi : injectedBy m t = some i) {st : CycleStep} (hs : i.state = .cycle st) :
    preemptTap t m = beginPreempt i clearCyclePart (suspendCycle i st .refchk m) := by
  simp [preemptTap, hi, hs]

theorem preemptTap_of_waiting (hi : injectedBy m t = some i) (hs : i.state = .forming ∨ i.state = .interval) :
    preemptTap t m = beginPreempt i stopTimers m := by
  rcases hs with hs | hs <;> simp [preemptTap, hi, hs]

theorem preemptTap_of_idle (hi : injectedBy m t = some i)
    (hs : (i.state = .stalled ∨ i.state = .refhold) ∨ (i.state = .handoff ∨ i.state = .external)) :
    preemptTap t m = switchToRef t m := by
  rcases hs with (hs | hs) | (hs | hs) <;> simp [preemptTap, hi, hs]

theorem suspendCycle_ref (i : Island) (st : CycleStep) (cause : SuspendCause) (m : Meas) : (suspendCycle i st cause m).ref = m.ref := by
  rw [suspendCycle_eq]

theorem tapTaken_preemptTap (hr : m.ref = some r) (t : Dom) : TapTaken r m (preemptTap t m) := by
  cases hi : injectedBy m t with
  | none => rw [preemptTap_of_none hi]; exact tapTaken_switchToRef hr t
  | some i =>
    rcases islandState_cases i with ⟨st, hs⟩ | hs | hs
    · rw [preemptTap_of_cycle hi hs]
      have htaken := tapTaken_beginPreempt ((suspendCycle_ref i st .refchk m).trans hr) i clearCyclePart
      have hsteady := steady_suspendCycle i st .refchk m
      exact ⟨htaken.ref, htaken.pendRchk.trans hsteady.pendRchk, htaken.held.trans hsteady.held, htaken.doms.trans hsteady.domsEq,
        htaken.flags.trans hsteady.flags⟩
    · rw [preemptTap_of_waiting hi hs]; exact tapTaken_beginPreempt hr i stopTimers
    · rw [preemptTap_of_idle hi hs]; exact tapTaken_switchToRef hr t

/-- A check suspends the captured cycle of the island that it preempts (R107). -/
theorem preemptTap_suspends (hr : m.ref = some r) (hi : injectedBy m t = some i) {st : CycleStep} (hs : i.state = .cycle st)
    {c : Captured} (hc : i.captured = some c) :
    (preemptTap t m).suspended = suspendedList m.suspended i c st m.timebase .refchk := by
  rw [preemptTap_of_cycle hi hs, (beginPreempt_islands ((suspendCycle_ref ..).trans hr)).2]
  exact suspendCycle_suspended hc ..

/-- A check makes no other entry (R107). -/
theorem preemptTap_suspends_nothing (hr : m.ref = some r)
    (h : ∀ i st c, injectedBy m t = some i → i.state = .cycle st → i.captured = some c → False) :
    (preemptTap t m).suspended = m.suspended := by
  cases hi : injectedBy m t with
  | none => rw [preemptTap_of_none hi]; rfl
  | some i =>
    rcases islandState_cases i with ⟨st, hs⟩ | hs | hs
    · rw [preemptTap_of_cycle hi hs, (beginPreempt_islands ((suspendCycle_ref ..).trans hr)).2]
      cases hc : i.captured with
      | none => simp [suspendCycle, hc]
      | some c => exact (h i st c hi hs hc).elim
    · rw [preemptTap_of_waiting hi hs, (beginPreempt_islands hr).2]
    · rw [preemptTap_of_idle hi hs]; rfl

/-- An island that waits or runs a cycle has PREEMPT begun on its injector, its cycle gone (R115). -/
theorem preemptTap_of_active (hi : injectedBy m t = some i)
    (hs : i.state = .forming ∨ i.state = .interval ∨ ∃ st, i.state = .cycle st) :
    ∃ f l, KeepsPlace f ∧ ((∃ st, i.state = .cycle st) → ∀ j, (f j).captured = none) ∧
      preemptTap t m = beginPreempt i f { m with suspended := l } := by
  rcases or_assoc.2 hs with hs | ⟨st, hs⟩
  · refine ⟨stopTimers, m.suspended, keepsPlace_stopTimers, fun ⟨st, hst⟩ => ?_, preemptTap_of_waiting hi hs⟩
    rcases hs with hs | hs <;> cases hs.symm.trans hst
  · exact ⟨clearCyclePart, (suspendCycle i st .refchk m).suspended, keepsPlace_clearCyclePart, fun _ _ => rfl,
      (preemptTap_of_cycle hi hs).trans (congrArg _ (suspendCycle_eq ..))⟩

/-- The island that PREEMPT was begun on is in REFHOLD, its demand and slot kept, and no cycle in progress (R115). -/
theorem preemptTap_island (hr : m.ref = some r) (hi : injectedBy m t = some i) (hat : islandAt m i.members = some i)
    (hs : i.state = .forming ∨ i.state = .interval ∨ ∃ st, i.state = .cycle st) :
    ∃ j, islandAt (preemptTap t m) i.members = some j ∧ j.state = .refhold ∧ j.demand = i.demand ∧ j.slot = i.slot ∧
      ((∃ st, i.state = .cycle st) → j.captured = none) := by
  obtain ⟨f, l, hf, hcaptured, htap⟩ := preemptTap_of_active hi hs
  refine ⟨{ f i with state := .refhold }, ?_, rfl, hf.demand i, hf.slot i, fun h => hcaptured h i⟩
  rw [htap, islandAt, (beginPreempt_islands (m := { m with suspended := l }) hr).1]
  exact islandAt_changeIsland_some hat hf.members

/-- PREEMPT at level 0 is over, and the tap on its reference path in QUIET_SETTLE (R116). -/
theorem preemptTap_of_zero (hr : m.ref = some r) (hi : injectedBy m t = some i)
    (hs : i.state = .forming ∨ i.state = .interval ∨ ∃ st, i.state = .cycle st) (h : (m.taps.get t).mailbox.level = 0) :
    (preemptTap t m).ref = some (switchedCheck m.timebase (r.preempting i)) ∧
    ((preemptTap t m).taps.get t).mailbox = .refQuiet ∧ ((preemptTap t m).taps.get t).ramp = none := by
  obtain rfl := injectedBy_injector hi
  obtain ⟨f, l, -, -, htap⟩ := preemptTap_of_active hi hs
  rw [htap, beginPreempt_of_zero (m := { m with suspended := l }) hr h]
  exact ⟨rfl, tap_writeMailbox ..⟩

/-- PREEMPT away from level 0 walks the injector down at the captured slew (R116). -/
theorem preemptTap_of_ne (hr : m.ref = some r) (hi : injectedBy m t = some i) {st : CycleStep} (hs : i.state = .cycle st)
    {c : Captured} (hc : i.captured = some c) (h : (m.taps.get t).mailbox.level ≠ 0) :
    (preemptTap t m).ref = some (r.preempting i) ∧
    ((preemptTap t m).taps.get t).mailbox = (m.taps.get t).mailbox ∧
    ((preemptTap t m).taps.get t).ramp = some ⟨0, c.row.slew * 20, .domain, .connected, .refCheck⟩ := by
  obtain rfl := injectedBy_injector hi
  obtain ⟨f, l, -, -, htap⟩ := preemptTap_of_active hi (.inr (.inr ⟨st, hs⟩))
  rw [htap, beginPreempt_of_ne (m := { m with suspended := l }) hr h, Island.row_of_captured hc]
  simp

end

/-! ### The command (R114) -/

/-- The measurement side with an accepted RCHK on record, before its tap is taken. -/
def checkAccepted (t : Dom) (q : Frame) (row : CycleRow) (m : Meas) : Meas :=
  { m with ref := some (newRef t q.tag row m), pendRchk := some ⟨q.kind, q.tag⟩ }

theorem acceptRchk_of_row {t : Dom} {q : Frame} {row : CycleRow} {m : Meas} (h : cycleRow m (profileInForce m t) = some row) :
    acceptRchk t q m = preemptTap t (checkAccepted t q row m) := by
  simp only [acceptRchk, h]; rfl

section

variable {q : Frame} {rest : List Frame} {s : State}

theorem exec_rchk_of_head (h : HeadRequest 0x14 1 1 q rest s) : exec .rchk s = .next (doRchk q (taken rest s)) := by
  have ⟨_, hkind, _⟩ := h
  have htaken : takeRequest (· == kindRchk) doRchk s = doRchk q (taken rest s) :=
    takeRequest_of_head h (responses_one hkind (by decide) (by decide)).le (by decide) (by decide)
  rw [← htaken]; rfl

/-- RCHK of a fitted tap: the checks of R114 that follow, in their order, and the acceptance. -/
theorem doRchk_of_fitted {d : Dom} (hd : Dom.ofNumber (nat8 q.payload 0) = some d) (hfit : fitted s.meas d = true) :
    doRchk q (taken rest s) =
      if partRunning s.meas = false then pumpUp (respond q .wrongState [] (taken rest s))
      else if s.meas.ref.isSome = true then pumpUp (respond q .busy [] (taken rest s))
      else if isPresent s.meas d = false ∨ inSet (coveredSet s.meas) d = true then pumpUp (respond q .wrongState [] (taken rest s))
      else pumpBoth ((taken rest s).withMeas (acceptRchk d q)) := by
  have harg : fittedArg (taken rest s).meas q 0 = some d := fittedArg_some hd hfit
  simp only [doRchk, harg, Bool.not_eq_true', Bool.or_eq_true, held]
  rfl

/-- The checks of RCHK, in their order (R114). -/
theorem rchk_refused (h : HeadRequest 0x14 1 1 q rest s) :
    ((∀ d, Dom.ofNumber (nat8 q.payload 0) = some d → fitted s.meas d = false) →
      OutputsMoved (answered q .badArg [] (taken rest s)) (doRchk q (taken rest s))) ∧
    ∀ d, Dom.ofNumber (nat8 q.payload 0) = some d → fitted s.meas d = true →
      (partRunning s.meas = false → OutputsMoved (answered q .wrongState [] (taken rest s)) (doRchk q (taken rest s))) ∧
      (partRunning s.meas = true → s.meas.ref.isSome = true →
        OutputsMoved (answered q .busy [] (taken rest s)) (doRchk q (taken rest s))) ∧
      (partRunning s.meas = true → s.meas.ref = none → (isPresent s.meas d = false ∨ inSet (coveredSet s.meas) d = true) →
        OutputsMoved (answered q .wrongState [] (taken rest s)) (doRchk q (taken rest s))) := by
  have hanswer : ∀ st, OutputsMoved (answered q st [] (taken rest s)) (pumpUp (respond q st [] (taken rest s))) :=
    fun _ => respond_up_moved (h.room one_pos)
  refine ⟨fun hnone => ?_, fun d hd hfit => ?_⟩
  · have harg : fittedArg (taken rest s).meas q 0 = none := fittedArg_none hnone
    simp only [doRchk, harg]
    exact hanswer _
  rw [doRchk_of_fitted hd hfit]
  refine ⟨fun hidle => ?_, fun hrun hbusy => ?_, fun hrun hfree hnot => ?_⟩
  · rw [if_pos hidle]; exact hanswer _
  · rw [if_neg (ne_false_of_eq_true hrun), if_pos hbusy]; exact hanswer _
  · rw [if_neg (ne_false_of_eq_true hrun), if_neg (by simp [hfree]), if_pos hnot]; exact hanswer _

/-- An RCHK that passes its checks takes its tap, and the outputs move on (R114, R115). -/
theorem rchk_accepted {d : Dom} {row : CycleRow} (hd : Dom.ofNumber (nat8 q.payload 0) = some d) (hfit : fitted s.meas d = true)
    (hrun : partRunning s.meas = true) (hfree : s.meas.ref = none) (hpresent : isPresent s.meas d = true)
    (hcov : inSet (coveredSet s.meas) d = false) (hrow : cycleRow s.meas (profileInForce s.meas d) = some row) :
    OutputsMoved { taken rest s with meas := preemptTap d (checkAccepted d q row s.meas) } (doRchk q (taken rest s)) := by
  rw [doRchk_of_fitted hd hfit, if_neg (ne_false_of_eq_true hrun), if_neg (by simp [hfree]),
    if_neg (by simp [hpresent, hcov]), ← acceptRchk_of_row hrow]
  exact pumpBoth_moved ((taken rest s).withMeas (acceptRchk d q))

end

/-- Settles O35: the accepted check takes its tap by its place in the partition, and the checks before it. -/
theorem rchkTaken : Obligations.RchkTaken := by
  refine ⟨fun s q rest d row h hd hfit hrun hfree hpresent hcov hrow => ?_,
    fun s q rest h => ⟨_, exec_rchk_of_head h, rchk_refused h⟩⟩
  have hmoved := rchk_accepted (rest := rest) hd hfit hrun hfree hpresent hcov hrow
  have hnew : (checkAccepted d q row s.meas).ref = some (newRef d q.tag row s.meas) := rfl
  have htaken := tapTaken_preemptTap hnew d
  obtain ⟨r, hr, htap, htag, hrow', hrc, hrref, hout, hrraw⟩ := htaken.ref
  have hstep : ∀ {c}, (preemptTap d (checkAccepted d q row s.meas)).ref = some c → r = c :=
    fun hc => Option.some.inj (hr.symm.trans hc)
  refine ⟨doRchk q (taken rest s), r, exec_rchk_of_head h, ?_⟩
  generalize doRchk q (taken rest s) = t at hmoved
  rw [hmoved.upstream, hmoved.mailbox, hmoved.ramp, hmoved.loader, hmoved.pending]
  simp only [hmoved.islandAt]
  refine ⟨?_, htap, htag, hrow', hrc, hrref, hout, hrraw, ?_, ?_, rfl, rfl, ?_, ?_, fun i st c hi hs hc => ?_, fun hnone => ?_,
    fun hi => ?_, fun i hi hat hs hzero => ?_, fun i st c hi hat hs hc haway => ?_⟩
  · rw [hmoved.meas]; exact hr
  · rw [hmoved.meas]; exact htaken.pendRchk
  · exact congrArg (s.link.txU.toList ++ s.link.upQueue ++ ·) htaken.held
  · rw [hmoved.meas]; exact htaken.doms
  · rw [hmoved.meas]; exact htaken.flags
  · rw [hmoved.meas]; exact preemptTap_suspends hnew hi hs hc
  · rw [hmoved.meas]; exact preemptTap_suspends_nothing hnew hnone
  · have hswitch := (preemptTap_of_none (m := checkAccepted d q row s.meas) hi).trans (switchToRef_of_some hnew d)
    obtain rfl := hstep (by rw [hswitch])
    refine ⟨rfl, ?_, ?_, rfl⟩
    · rw [hmoved.meas]; dsimp only; rw [hswitch]; rfl
    · rw [hswitch]; exact (tap_writeMailbox ..).1
  · obtain ⟨href, hmail, hramp⟩ := preemptTap_of_zero hnew hi hs hzero
    obtain rfl := hstep href
    exact ⟨rfl, hmail, hramp, rfl, preemptTap_island hnew hi hat hs⟩
  · obtain ⟨href, hmail, hramp⟩ := preemptTap_of_ne hnew hi hs hc haway
    obtain rfl := hstep href
    obtain ⟨j, hj, hstate, hdemand, hslot, hcaptured⟩ := preemptTap_island hnew hi hat (.inr (.inr ⟨st, hs⟩))
    exact ⟨rfl, hmail, hramp, j, hj, hstate, hdemand, hslot, hcaptured ⟨st, hs⟩⟩

end Sys2Proof.Machine
end

section
/-! PROOFS. The places of the queues and the ranges of the link counters at every step (R125, R137, R143, R148, R150, R151, R155). -/

namespace Sys2Proof.Machine

/-! ### The high mark of the active FORWARD table (R143) -/

/-- The active FORWARD table's high mark lies within its range (R143). -/
def HighMarkWithin (m : Meas) : Prop := fwdHighMark (forwardImage m) ≤ 24

theorem HighMarkWithin.of_tables {m m' : Meas} (h : HighMarkWithin m) (ht : m'.tables = m.tables) : HighMarkWithin m' :=
  (highMark_of_tables ht).trans_le h

/-- A FORWARD image that passes its validation has a high mark within its range (R143, check 1). -/
theorem highMark_of_validate {m : Meas} {img : List Byte} (h : validate m .forward img = none) : fwdHighMark img ≤ 24 := by
  simp only [validate, firstFailure, Option.map_eq_none_iff, List.find?_eq_none] at h
  have hmark := h ⟨within 8 24 (fwdHighMark img), 0xFF, 1⟩ (by simp [forwardChecks])
  simp only [within, Bool.not_eq_true', Bool.not_eq_false, Bool.and_eq_true, decide_eq_true_eq] at hmark
  exact hmark.2

theorem takeTopo_tables (positions : BitVec 16) (inlet : Nat) (m : Meas) : (takeTopo positions inlet m).tables = m.tables := by
  unfold takeTopo
  dsimp only
  split
  · exact (kept_resolve_followed true _ _ _).2.1
  · rfl

theorem activateTopology_forward (img : List Byte) (m : Meas) : (activateTopology img m).tables.forward = m.tables.forward := by
  unfold activateTopology reresolve
  dsimp only
  split
  · split
    · rw [(kept_resolve_followed false img _ _).2.1]
    · rw [(becomeStale_spec _).2.1]
  · rfl

/-- An activation leaves the active FORWARD table, but for its own. -/
theorem activateTable_forward (t : TableId) (img : List Byte) (m : Meas) :
    (activateTable t img m).tables.forward = if t = .forward then some img else m.tables.forward := by
  cases t with
  | domain => rfl
  | topology => exact activateTopology_forward img m
  | cycle => rfl
  | limit => simp only [activateTable, activateLimit, (sound_agingTests _ _).tables, reduceCtorEq, if_false]
  | forward => rfl

theorem highMarkWithin_activateMeas {t : TableId} {img : List Byte} {m : Meas} (hv : validate m t img = none) (h : HighMarkWithin m) :
    HighMarkWithin (activateMeas t img m) := by
  have htable : HighMarkWithin (activateTable t img m) := by
    unfold HighMarkWithin forwardImage
    rw [activateTable_forward]
    split
    · next ht => subst ht; exact highMark_of_validate hv
    · exact h
  unfold activateMeas
  dsimp only
  refine HighMarkWithin.of_tables ?_ (sound_raise .tableDone _).tables
  split
  · exact htable.of_tables (steady_endExpiredFormings _).tables
  · exact htable

/-- Every step keeps the high mark within its range: a FORWARD image is validated before it is active (R143, R172). -/
theorem step_keeps_highMark {s t : State} (h : HighMarkWithin s.meas) (hstep : step s = .next t) : HighMarkWithin t.meas :=
  step_keeps (P := HighMarkWithin) (fun _ _ hs h => h.of_tables hs.tables)
    (hreset := resetMeetsProperties.2.1)
    (htopo := fun _ _ _ h => h.of_tables (takeTopo_tables ..))
    (hstat := fun _ h => h)
    (hmask := fun _ _ h => h)
    (ha := fun _ _ _ hok => highMarkWithin_activateMeas (validate_of_judgeImage hok))
    (hrestart := fun m h => h.of_tables (restartMeas_spec m).2.2.2.2.2.2.2.2.2.1)
    (hstale := fun m h => h.of_tables (becomeStale_spec m).2.1)
    (htick := fun _ _ h => h)
    h hstep

/-! ### The bodies of the requests -/

section

variable {s : State} (q : Frame) (h : LinkBounded s.link)
include h

/-- An answer joins a queue of bounded places, and the outputs follow. -/
theorem linkBounded_answerUp (st : Status) (values : List Byte) : LinkBounded (pumpUp (respond q st values s)).link :=
  linkBounded_pumpUp _ (linkBounded_respond _ _ _ _ h)

theorem linkBounded_answerBoth (st : Status) (values : List Byte) : LinkBounded (pumpBoth (respond q st values s)).link :=
  linkBounded_pumpBoth _ (linkBounded_respond _ _ _ _ h)

theorem linkBounded_doXclaim : LinkBounded (doXclaim q s).link := by
  unfold doXclaim
  (repeat' split) <;> first
    | exact linkBounded_answerUp q h _ _
    | exact linkBounded_pumpBoth _ h

theorem linkBounded_doXrel : LinkBounded (doXrel q s).link := by
  unfold doXrel
  split
  · exact linkBounded_answerBoth q h _ _
  · exact linkBounded_answerBoth q (linkBounded_cancelXclaim (s.withMeas releaseClaim) h) _ _
  · exact linkBounded_answerBoth (s := s.withMeas releaseClaim) q h _ _

theorem linkBounded_doMeas : LinkBounded (doMeas q s).link := by
  unfold doMeas
  (repeat' split) <;> first
    | exact linkBounded_answerUp q h _ _
    | exact linkBounded_answerBoth (s := s.withMeas _) q h _ _

theorem linkBounded_doRchk : LinkBounded (doRchk q s).link := by
  unfold doRchk
  (repeat' split) <;> first
    | exact linkBounded_answerUp q h _ _
    | exact linkBounded_pumpBoth _ h

theorem linkBounded_doIsord : LinkBounded (doIsord q s).link := by
  unfold doIsord
  dsimp only
  split <;> exact linkBounded_answerUp q h _ _

theorem linkBounded_doResrd : LinkBounded (doResrd q s).link := by
  unfold doResrd
  (repeat' split) <;> exact linkBounded_answerUp q h _ _

theorem linkBounded_doFltrd : LinkBounded (doFltrd q s).link := by
  unfold doFltrd
  (repeat' split) <;> exact linkBounded_answerUp q h _ _

theorem linkBounded_doRestart : LinkBounded (doRestart q s).link := by
  unfold doRestart
  refine linkBounded_pumpBoth _ (linkBounded_respond _ _ _ _ (linkBounded_cancelRchk _ ?_))
  split
  · exact linkBounded_cancelXclaim s h
  · exact h

theorem linkBounded_doLdtab : LinkBounded (doLdtab q s).link := by
  unfold doLdtab
  dsimp only
  (repeat' split) <;> first
    | exact linkBounded_answerUp q h _ _
    | exact linkBounded_answerUp (s := s.withLoader _) q h _ _

theorem linkBounded_finishLoad (l : Load) (img : List Byte) (expected : Byte) :
    LinkBounded (finishLoad q l img expected s).link := by
  unfold finishLoad
  refine linkBounded_pumpBoth _ (linkBounded_respond _ _ _ _ ?_)
  split
  · show LinkBounded (activateLink l.table s.link)
    unfold activateLink
    split
    · exact linkBounded_decim s _ h
    · exact h
  · exact h

theorem linkBounded_doSeg : LinkBounded (doSeg q s).link := by
  unfold doSeg
  split
  · exact linkBounded_answerUp q h _ _
  · dsimp only
    split
    · exact linkBounded_answerUp (s := s.withLoader _) q h _ _
    · split
      · exact linkBounded_answerUp (s := raiseIn .tableAbort (closeLoad s)) q h _ _
      · split
        · exact linkBounded_answerUp (s := s.withLoader _) q h _ _
        · exact linkBounded_finishLoad q h _ _ _

theorem linkBounded_doTsum : LinkBounded (doTsum q s).link := by
  unfold doTsum
  dsimp only
  (repeat' split) <;> exact linkBounded_answerUp q h _ _

theorem linkBounded_doFreeze : LinkBounded (doFreeze q s).link := by
  unfold doFreeze
  dsimp only
  (repeat' split) <;> first
    | exact linkBounded_answerUp q h _ _
    | exact linkBounded_answerUp (s := s.withLoader _) q h _ _

theorem linkBounded_doFrls : LinkBounded (doFrls q s).link := by
  unfold doFrls
  split
  · exact linkBounded_answerUp q h _ _
  · exact linkBounded_answerUp (s := s.withLoader _) q h _ _

end

/-! ### Every command -/

/-- A port's next frame leaves the queues with one frame fewer at most. -/
theorem linkBounded_idle {l : Link} (h : LinkBounded l) (txU txD : Option Frame) : LinkBounded { l with txU := txU, txD := txD } :=
  ⟨h.upQueue, h.downQueue, h.buffer, h.overrun, h.drops, h.rxU, h.rxD⟩

theorem linkBounded_exec {c : Instr} {s t : State} (hm : HighMarkWithin s.meas) (h : LinkBounded s.link) (he : exec c s = .next t) :
    LinkBounded t.link := by
  have hrequest : ∀ {mine : Byte → Bool} {body : Frame → State → State},
      (∀ {s} (q), LinkBounded s.link → LinkBounded (body q s).link) → LinkBounded (takeRequest mine body s).link :=
    fun hbody => linkBounded_takeRequest (fun q s hs => hbody q hs) s h
  cases c <;> injection he with he <;> subst he
  case powerOn => exact resetMeetsProperties.1
  case requestFrameReceived | hostTapFrame | sampleFrame | tapResponse => exact linkBounded_receiveFrame _ _ _ s hm h
  case receiveError p c =>
    (repeat' split) <;> first
      | exact linkBounded_restartIdle p s h
      | exact linkBounded_receiveFault p _ s h
      | exact h
  case rxGapTimeout p =>
    split
    · have hfault := linkBounded_receiveFault p .gap s h
      exact linkBounded_putRx p _ _ hfault (rx_bounded p _ hfault)
    · exact h
  case rxRecoveryDone p =>
    split
    · exact linkBounded_putRx p _ s h (rx_bounded p s h)
    · exact h
  case portDTxDone =>
    split
    · exact linkBounded_pumpDown _ (linkBounded_idle h s.link.txU none)
    · exact h
  case portUTxDone =>
    split
    · exact linkBounded_pumpUp _ (linkBounded_idle h none s.link.txD)
    · exact h
  case topo => exact hrequest fun {s} q h => linkBounded_answerBoth (s := s.withMeas _) q h _ _
  case xclaim => exact hrequest linkBounded_doXclaim
  case xrel => exact hrequest linkBounded_doXrel
  case meas => exact hrequest linkBounded_doMeas
  case rchk => exact hrequest linkBounded_doRchk
  case stat =>
    exact hrequest fun {s} q h => linkBounded_answerUp (s := (s.withMeas clearReported).withLink clearCounters) q
      (linkBounded_clearCounters s h) _ _
  case mask => exact hrequest fun {s} q h => linkBounded_answerUp (s := s.withMeas _) q h _ _
  case isord => exact hrequest linkBounded_doIsord
  case resrd => exact hrequest linkBounded_doResrd
  case fltrd => exact hrequest linkBounded_doFltrd
  case ldtab => exact hrequest linkBounded_doLdtab
  case seg => exact hrequest linkBounded_doSeg
  case tsum => exact hrequest linkBounded_doTsum
  case freeze => exact hrequest linkBounded_doFreeze
  case frls => exact hrequest linkBounded_doFrls
  case restart => exact hrequest linkBounded_doRestart
  case unknownRequest =>
    split
    · exact h
    · next q rest hb =>
      split
      · exact linkBounded_answerUp q (s := taken rest s) (linkBounded_taken q rest s hb h) _ _
      · exact h
  case freshnessExpiry | settleTimerExpiry | intervalExpiry | phaseTimerExpiry | plateauTimerExpiry | refreshTimerExpiry |
      lossTimerExpiry | joinRunTimeout | handoffTimeout | suspendEntryExpiry | agingExpiry => exact linkBounded_onEvent _ s h
  case loadGapTimeout => (repeat' split) <;> exact h
  case characterReceived p c => exact linkBounded_receiveChar p c s hm h

/-- Settles O56: a command keeps the bounds by `linkBounded_exec`, and a tick touches no port. -/
theorem stepKeepsLinkBounds : Obligations.StepKeepsLinkBounds := by
  intro s t h hm hstep
  refine ⟨?_, step_keeps_highMark hm hstep⟩
  rcases step_cases hstep with ⟨c, rest, -, he⟩ | rfl
  · exact linkBounded_exec (s := { s with pending := rest }) hm h he
  · exact h

end Sys2Proof.Machine
end

section
/-! SUPPORT and PROOFS. The receivers (R123 to R127): line characters, the characters of a frame, receive errors, and what a frame received
whole brings. -/

namespace Sys2Proof.Machine

/-! ### Line characters (R123) -/

section

variable (b : Byte)

/-- The bits of a line character after its start bit: the data, the parity, the stop bit. -/
theorem getLsbD_lineChar_succ {k : Nat} (hk : k < 10) :
    (lineChar b).getLsbD (k + 1) = if k < 8 then b.getLsbD k else ((oddParity b).toNat + 2).testBit (k - 8) := by
  have hhalf : (b.toNat * 2 + (oddParity b).toNat * 512 + 1024) / 2 = 2 ^ 8 * ((oddParity b).toNat + 2) + b.toNat := by omega
  have hin : k + 1 < 11 := by omega
  rw [lineChar, BitVec.getLsbD_ofNat, Nat.testBit_succ, hhalf, Nat.testBit_two_pow_mul_add _ b.isLt]
  simp only [hin, decide_true, Bool.true_and]
  rfl

theorem getLsbD_lineChar_data {k : Nat} (hk : k < 8) : (lineChar b).getLsbD (k + 1) = b.getLsbD k := by
  rw [getLsbD_lineChar_succ b (by omega), if_pos hk]

theorem getLsbD_lineChar_start : (lineChar b).getLsbD 0 = false := by
  simp only [lineChar, BitVec.getLsbD_ofNat, Nat.testBit_zero, Bool.and_eq_false_iff, decide_eq_false_iff_not]
  omega

theorem getLsbD_lineChar_parity : (lineChar b).getLsbD 9 = oddParity b := by
  rw [getLsbD_lineChar_succ b (k := 8) (by omega)]
  cases oddParity b <;> rfl

theorem getLsbD_lineChar_stop : (lineChar b).getLsbD 10 = true := by
  rw [getLsbD_lineChar_succ b (k := 9) (by omega)]
  cases oddParity b <;> rfl

/-- The receiver reads the data bits back. -/
@[simp] theorem charData_lineChar : charData (lineChar b) = b := by
  refine BitVec.eq_of_getLsbD_eq fun k hk => ?_
  rw [← getLsbD_lineChar_data b hk, charData, BitVec.getLsbD_ofNat, ← Nat.testBit_succ]
  simp only [hk, decide_true, Bool.true_and]
  rfl

@[simp] theorem parityOk_lineChar : parityOk (lineChar b) = true := by
  rw [parityOk, charData_lineChar, getLsbD_lineChar_parity, beq_self_eq_true]

@[simp] theorem stopOk_lineChar : stopOk (lineChar b) = true := getLsbD_lineChar_stop b

end

/-- A fold of exclusive or tells whether an odd number of bits is set. -/
theorem foldl_xor_eq_countP (p : Nat → Bool) (l : List Nat) (x : Bool) :
    l.foldl (fun x i => x ^^ p i) x = (x ^^ decide (l.countP p % 2 = 1)) := by
  induction l generalizing x with
  | nil => simp
  | cons i l ih =>
    rw [List.foldl_cons, ih, List.countP_cons]
    cases hp : p i with
    | false => simp
    | true =>
      have hflip : decide ((l.countP p + 1) % 2 = 1) = !decide (l.countP p % 2 = 1) := by
        rw [← decide_not, decide_eq_decide]; omega
      simp [hflip]

/-- The data bits and the parity bit together hold an odd number of ones (R123). -/
theorem countP_lineChar_odd (b : Byte) : ((List.range 9).countP fun k => (lineChar b).getLsbD (k + 1)) % 2 = 1 := by
  have hdata : (List.range 8).countP (fun k => (lineChar b).getLsbD (k + 1)) = (List.range 8).countP b.getLsbD :=
    List.countP_congr fun k hk => by rw [getLsbD_lineChar_data b (List.mem_range.1 hk)]
  have hparity : oddParity b = !decide ((List.range 8).countP b.getLsbD % 2 = 1) := by
    rw [oddParity, foldl_xor_eq_countP, Bool.false_xor]
  rw [List.range_succ, List.countP_append, hdata, List.countP_singleton, getLsbD_lineChar_parity, hparity]
  by_cases h : (List.range 8).countP b.getLsbD % 2 = 1
  · simp [h]
  · simp [h]; omega

/-- Settles O45. -/
theorem lineCharacters : Obligations.LineCharacters := fun b =>
  ⟨getLsbD_lineChar_start b, fun _ hk => getLsbD_lineChar_data b hk, countP_lineChar_odd b, getLsbD_lineChar_stop b,
    charData_lineChar b, parityOk_lineChar b, stopOk_lineChar b⟩

/-! ### A port's receiver -/

section

variable (p : Port) (r : Receiver) (s : State)

@[simp] theorem rxOf_putRx : rxOf p (putRx p r s) = r := by cases p <;> rfl

@[simp] theorem rxOf_withMeas (f : Meas → Meas) : rxOf p (s.withMeas f) = rxOf p s := by cases p <;> rfl

@[simp] theorem putRx_putRx (r' : Receiver) : putRx p r (putRx p r' s) = putRx p r s := by cases p <;> rfl

@[simp] theorem putRx_withMeas (f : Meas → Meas) : putRx p r (s.withMeas f) = (putRx p r s).withMeas f := by cases p <;> rfl

/-- A port's receiver with nothing collected, as it stands after the last character of a frame (R124). -/
def listening : State := putRx p { rxOf p s with state := .ready, chars := [], idle := false } s

/-- A port's receiver at a receive error, its counters as given: the frame is discarded, the receiver is RECOVERING, and LINK_ERR is
set (R125). -/
def rxFailed : State := raiseIn (linkErr p) (putRx p { r with state := .recovering, chars := [], idle := false } s)

end

/-- A port's receiver within a frame, with some characters collected (R124). -/
def collecting (p : Port) (chars : List Byte) (s : State) : State :=
  putRx p { rxOf p s with state := .inFrame, chars := chars, idle := false } s

section

variable {p : Port} {s : State}

/-- A receive error at the end of a frame counts on the counters as they stand. -/
theorem receiveFault_listening (e : RxFault) :
    receiveFault p e (listening p s) = rxFailed p (countFault e (rxOf p s)) s := by
  unfold receiveFault listening rxFailed
  rw [rxOf_putRx, putRx_putRx]
  cases e <;> rfl

/-- A READY receiver with nothing collected only ends its measure of the idle. -/
theorem listening_of_ready (hr : (rxOf p s).state = .ready) (hc : (rxOf p s).chars = []) :
    listening p s = putRx p { rxOf p s with idle := false } s := by
  rw [listening, ← hr, ← hc]

/-! ### Frames received whole (R124, R126) -/

theorem endFrame_of_crc {f : RxFrame} (marker : Byte) (h : rxCrcOk f = true) :
    endFrame p marker f s = pumpBoth (dispatchFrame p (keptFrame marker f) (listening p s)) := if_pos h

theorem endFrame_of_bad_crc {f : RxFrame} (marker : Byte) (h : rxCrcOk f = false) :
    endFrame p marker f s = rxFailed p (countFault .crc (rxOf p s)) s :=
  (if_neg (by simp [h])).trans (receiveFault_listening .crc)

/-- The end of a frame does not ask what was collected. -/
theorem endFrame_collecting (marker : Byte) (f : RxFrame) (chars : List Byte) :
    endFrame p marker f (collecting p chars s) = endFrame p marker f s := by
  unfold endFrame collecting
  rw [rxOf_putRx, putRx_putRx]

/-- A whole frame of an admissible length that arrives from READY is received to its end. -/
theorem receiveFrame_of_ready {marker : Byte} {f : RxFrame} (hr : (rxOf p s).state = .ready) (hc : (rxOf p s).chars = [])
    (hlen : f.payload.length ≤ 120) : receiveFrame p marker f s = endFrame p marker f s := by
  have hlen' : ¬ Config.maxPayload < f.payload.length := Nat.not_lt.2 hlen
  unfold receiveFrame
  simp [hr, hc, hlen']

end

/-! ### The characters of a frame (R126) -/

section

variable (marker : Byte) (f : RxFrame)

theorem rxBytes_length : (rxBytes marker f).length = 7 + f.payload.length := by
  simp only [rxBytes, bodyBytes, List.length_cons, List.length_append, be16_length]; omega

variable {marker f}

/-- The length character gives the payload's length back. -/
theorem toNat_length_char (h : f.payload.length ≤ 120) : (BitVec.ofNat 8 f.payload.length : Byte).toNat = f.payload.length := by
  rw [BitVec.toNat_ofNat, Nat.mod_eq_of_lt (by omega)]

/-- Once it is among the characters collected, the length character says how many there are to be. -/
theorem nat8_length_char {chars rest : List Byte} (h : chars ++ rest = rxBytes marker f) (hlen : f.payload.length ≤ 120)
    (htwo : 2 ≤ chars.length) : nat8 chars 1 = f.payload.length := by
  have hget : (chars ++ rest).getD 1 0 = chars.getD 1 0 := List.getD_append _ _ _ _ (by omega)
  rw [nat8, ← hget, h]
  exact toNat_length_char hlen

theorem ofNat_nat16_be16 (c : BitVec 16) (l : List Byte) {n : Nat} (h : l.length = n) :
    BitVec.ofNat 16 (nat16 (l ++ be16 c.toNat) n) = c := by
  have hlt := c.isLt
  subst h
  apply BitVec.eq_of_toNat_eq
  simp [nat16, nat8, be16]
  omega

/-- The characters of a frame spell it. -/
theorem rxFrameOf_rxBytes (marker : Byte) (h : f.payload.length ≤ 120) : rxFrameOf (rxBytes marker f) = f := by
  have hlength : nat8 (rxBytes marker f) 1 = f.payload.length := toNat_length_char h
  have hpayload : ((rxBytes marker f).drop 5).take f.payload.length = f.payload := List.take_left
  have hcrc : BitVec.ofNat 16 (nat16 (rxBytes marker f) (5 + f.payload.length)) = f.crc :=
    ofNat_nat16_be16 f.crc (marker :: bodyBytes f.address f.kind f.tag f.payload) (by simp [bodyBytes]; omega)
  simp only [rxFrameOf, hlength, hpayload, hcrc]
  rfl

end

/-! ### One character (R124, R126) -/

section

variable {p : Port} {s : State} {c : Byte}

/-- A marker of the port begins a frame in READY (R127). -/
theorem receiveChar_of_marker (hr : (rxOf p s).state = .ready) (hm : markerAccepted p c = true) :
    receiveChar p c s = collecting p [c] s := by
  simp only [receiveChar, hr, hm, if_true]; rfl

/-- Any other character of a READY receiver is a framing error (R125). -/
theorem receiveChar_of_no_marker (hr : (rxOf p s).state = .ready) (hm : markerAccepted p c = false) :
    receiveChar p c s = receiveFault p .framing s := by
  simp only [receiveChar, hr, hm, Bool.false_eq_true, if_false]

theorem receiveChar_of_recovering (hr : (rxOf p s).state = .recovering) : receiveChar p c s = restartIdle p s := by
  simp only [receiveChar, hr]

/-- A character that is neither a length above 120 nor the frame's last is collected. -/
theorem receiveChar_of_collected (hr : (rxOf p s).state = .inFrame)
    (hlen : ¬ (((rxOf p s).chars ++ [c]).length = 2 ∧ 120 < c.toNat))
    (hlast : ¬ (2 ≤ ((rxOf p s).chars ++ [c]).length ∧
      ((rxOf p s).chars ++ [c]).length = 7 + nat8 ((rxOf p s).chars ++ [c]) 1)) :
    receiveChar p c s = putRx p { rxOf p s with chars := (rxOf p s).chars ++ [c], idle := false } s := by
  simp only [receiveChar, hr]
  exact (if_neg hlen).trans (if_neg hlast)

/-- The last character of a frame ends it. -/
theorem receiveChar_of_last {marker : Byte} {f : RxFrame} (hr : (rxOf p s).state = .inFrame)
    (hc : (rxOf p s).chars ++ [c] = rxBytes marker f) (hlen : f.payload.length ≤ 120) :
    receiveChar p c s = endFrame p marker f s := by
  have hlength := rxBytes_length marker f
  have hnat : nat8 (rxBytes marker f) 1 = f.payload.length := toNat_length_char hlen
  simp only [receiveChar, hr, hc]
  rw [if_neg (by omega), if_pos (by omega), rxFrameOf_rxBytes marker hlen]
  rfl

/-- A character in the middle of a frame of an admissible length is collected. -/
theorem receiveChar_collecting {marker : Byte} {f : RxFrame} {chars rest : List Byte} (hne : chars ≠ []) (hrest : rest ≠ [])
    (h : chars ++ c :: rest = rxBytes marker f) (hlen : f.payload.length ≤ 120) :
    receiveChar p c (collecting p chars s) = collecting p (chars ++ [c]) s := by
  have hsplit : (chars ++ [c]) ++ rest = rxBytes marker f := by rw [List.append_assoc]; exact h
  have hcount := congrArg List.length hsplit
  rw [rxBytes_length, List.length_append] at hcount
  have hpos : 0 < rest.length := List.length_pos_iff.2 hrest
  have hchars : 0 < chars.length := List.length_pos_iff.2 hne
  have hnat := nat8_length_char hsplit hlen (by simp; omega)
  have hrx : rxOf p (collecting p chars s) = { rxOf p s with state := .inFrame, chars := chars, idle := false } := rxOf_putRx ..
  rw [receiveChar_of_collected (by rw [hrx]) ?_ ?_, hrx, collecting, putRx_putRx, collecting]
  · rw [hrx]
    rintro ⟨htwo, hlong⟩
    obtain ⟨a, rfl⟩ : ∃ a, chars = [a] := List.length_eq_one_iff.1 (by simpa using htwo)
    have : c.toNat = f.payload.length := hnat
    omega
  · rw [hrx]
    rintro ⟨-, hend⟩
    dsimp only at hend
    omega

/-- The characters of a frame after some of them, one by one, end it. -/
theorem foldl_receiveChar_collecting {marker : Byte} {f : RxFrame} (hlen : f.payload.length ≤ 120) (rest : List Byte) :
    ∀ chars, chars ≠ [] → rest ≠ [] → chars ++ rest = rxBytes marker f →
      rest.foldl (fun s c => receiveChar p c s) (collecting p chars s) = endFrame p marker f s := by
  induction rest with
  | nil => exact fun _ _ h => absurd rfl h
  | cons c rest ih =>
    intro chars hne _ h
    rw [List.foldl_cons]
    by_cases hrest : rest = []
    · subst hrest
      have hrx : rxOf p (collecting p chars s) = { rxOf p s with state := .inFrame, chars := chars, idle := false } := rxOf_putRx ..
      rw [receiveChar_of_last (by rw [hrx]) (by rw [hrx]; exact h) hlen, List.foldl_nil, endFrame_collecting]
    · rw [receiveChar_collecting hne hrest h hlen]
      exact ih (chars ++ [c]) (by simp) hrest (by rw [List.append_assoc]; exact h)

/-- The characters of a frame, one by one from READY, end it. -/
theorem foldl_receiveChar_rxBytes {marker : Byte} {f : RxFrame} (hr : (rxOf p s).state = .ready)
    (hm : markerAccepted p marker = true) (hlen : f.payload.length ≤ 120) :
    (rxBytes marker f).foldl (fun s c => receiveChar p c s) s = endFrame p marker f s := by
  rw [rxBytes, List.foldl_cons, receiveChar_of_marker hr hm]
  exact foldl_receiveChar_collecting hlen _ [marker] (by simp) (by simp [bodyBytes]) rfl

end

/-- Characters as commands, one after another. -/
theorem execAll_characters (p : Port) (cs : List Byte) (s : State) :
    execAll (cs.map (.characterReceived p)) s = .next (cs.foldl (fun s c => receiveChar p c s) s) := by
  induction cs generalizing s with
  | nil => rfl
  | cons c cs ih => exact ih (receiveChar p c s)

/-- A frame's characters do what its frame command does (R124, R126). -/
theorem execAll_rxBytes {p : Port} {s : State} {marker : Byte} {f : RxFrame} (hr : (rxOf p s).state = .ready)
    (hc : (rxOf p s).chars = []) (hm : markerAccepted p marker = true) (hlen : f.payload.length ≤ 120) :
    execAll ((rxBytes marker f).map (.characterReceived p)) s = .next (receiveFrame p marker f s) := by
  rw [execAll_characters, foldl_receiveChar_rxBytes hr hm hlen, receiveFrame_of_ready hr hc hlen]

/-- Settles O44: on either port the characters and the frame command both end the frame. -/
theorem charactersMakeFrame : Obligations.CharactersMakeFrame := fun _ _ hlen =>
  ⟨fun hr hc => ⟨execAll_rxBytes (p := .u) hr hc rfl hlen, execAll_rxBytes (p := .u) hr hc rfl hlen⟩,
    fun hr hc => ⟨execAll_rxBytes (p := .d) hr hc rfl hlen, execAll_rxBytes (p := .d) hr hc rfl hlen⟩⟩

/-! ### Receive errors (R125) -/

section

variable {p : Port} {s : State} {c : BitVec 11}

theorem exec_receiveError_of_recovering (hr : (rxOf p s).state = .recovering) :
    exec (.receiveError p c) s = .next (restartIdle p s) := by
  simp only [exec, execReceiveError, hr, beq_self_eq_true, if_true]

theorem exec_receiveError_of_parity (hr : (rxOf p s).state ≠ .recovering) (hp : parityOk c = false) :
    exec (.receiveError p c) s = .next (receiveFault p .parity s) := by
  simp [exec, execReceiveError, hr, hp]

theorem exec_receiveError_of_stop (hr : (rxOf p s).state ≠ .recovering) (hp : parityOk c = true) (hs : stopOk c = false) :
    exec (.receiveError p c) s = .next (receiveFault p .framing s) := by
  simp [exec, execReceiveError, hr, hp, hs]

theorem exec_receiveError_of_content (hr : (rxOf p s).state ≠ .recovering) (hp : parityOk c = true) (hs : stopOk c = true)
    (hc : contentFault p (rxOf p s) (charData c) = true) : exec (.receiveError p c) s = .next (receiveFault p .framing s) := by
  simp [exec, execReceiveError, hr, hp, hs, hc]

end

/-- Two bytes put together are sent as they stand. -/
theorem be16_append (high low : Byte) : be16 (high ++ low : BitVec 16).toNat = [high, low] := by
  have hsum : (high ++ low : BitVec 16).toNat = high.toNat * 256 + low.toNat := by
    rw [BitVec.toNat_append, ← Nat.shiftLeft_add_eq_or_of_lt low.isLt, Nat.shiftLeft_eq]
  have hlow := low.isLt
  have hhigh : BitVec.ofNat 8 ((high.toNat * 256 + low.toNat) / 256) = high := by
    apply BitVec.eq_of_toNat_eq; rw [BitVec.toNat_ofNat]; omega
  have hlow : BitVec.ofNat 8 (high.toNat * 256 + low.toNat) = low := by
    apply BitVec.eq_of_toNat_eq; rw [BitVec.toNat_ofNat]; omega
  rw [be16, hsum, hhigh, hlow]

/-- The last character of a frame whose CRC does not match is a CRC error (R126). -/
theorem exec_characterReceived_of_bad_crc {p : Port} {s : State} {c len marker high : Byte} {body : List Byte}
    (hr : (rxOf p s).state = .inFrame) (hc : (rxOf p s).chars = marker :: len :: (body ++ [high]))
    (hbody : body.length = 3 + len.toNat) (hlen : len.toNat ≤ 120) (hcrc : crc16 (len :: body) ≠ high ++ c) :
    exec (.characterReceived p c) s = .next (rxFailed p (countFault .crc (rxOf p s)) s) := by
  obtain ⟨a, k, t, payload, rfl⟩ : ∃ a k t payload, body = a :: k :: t :: payload := by
    rcases body with _ | ⟨a, _ | ⟨k, _ | ⟨t, payload⟩⟩⟩
    case cons.cons.cons => exact ⟨a, k, t, payload, rfl⟩
    all_goals simp only [List.length_cons, List.length_nil] at hbody; omega
  have hpayload : payload.length = len.toNat := by simp at hbody; omega
  have hlenchar : (BitVec.ofNat 8 payload.length : Byte) = len := by rw [hpayload, BitVec.ofNat_toNat, BitVec.setWidth_eq]
  have hbytes : (rxOf p s).chars ++ [c] = rxBytes marker ⟨a, k, t, payload, high ++ c⟩ := by
    rw [hc, rxBytes, bodyBytes, hlenchar, be16_append]
    simp
  have hbad : rxCrcOk ⟨a, k, t, payload, high ++ c⟩ = false := by
    rw [rxCrcOk, bodyBytes, hlenchar]
    exact beq_false_of_ne hcrc
  show Host.Outcome.next (receiveChar p c s) = _
  rw [receiveChar_of_last hr hbytes (hpayload.trans_le hlen), endFrame_of_bad_crc marker hbad]

/-- A whole frame that arrives from READY with a CRC that does not match is a CRC error (log 5). -/
theorem receiveFrame_of_bad_crc {p : Port} {s : State} {f : RxFrame} (marker : Byte) (hr : (rxOf p s).state = .ready)
    (hc : (rxOf p s).chars = []) (hlen : f.payload.length ≤ 120) (hcrc : rxCrcOk f = false) :
    receiveFrame p marker f s = rxFailed p (countFault .crc (rxOf p s)) s := by
  rw [receiveFrame_of_ready hr hc hlen, endFrame_of_bad_crc marker hcrc]

/-- A frame received whole on Port D that fails R127's content checks is a framing error. -/
theorem dispatchFrame_of_misfit {f : Frame} {s : State}
    (h : (f.address = 0 ∨ 8 < f.address.toNat) ∨ (f.marker = 0xC9 ∧ (f.payload.length ≠ 9 ∨ f.kind ≠ 0x01))) :
    dispatchFrame .d f s = receiveFault .d .framing s := by
  unfold dispatchFrame
  by_cases haddr : 1 ≤ f.address.toNat ∧ f.address.toNat ≤ 8
  · rcases h with (hzero | hhigh) | ⟨hmarker, hsample⟩
    · rw [hzero] at haddr; exact absurd haddr.1 (by decide)
    · omega
    · have hmisfit : ¬ (f.payload.length = 9 ∧ f.kind = 0x01) := by tauto
      simp only [haddr, if_true, and_self, hmarker, hmisfit, if_false]
      rfl
  · exact if_neg haddr

/-- The end of such a frame, whose CRC matches. -/
theorem endFrame_of_misfit {f : RxFrame} {s : State} {marker : Byte} (hcrc : rxCrcOk f = true)
    (h : (f.address = 0 ∨ 8 < f.address.toNat) ∨ (marker = 0xC9 ∧ (f.payload.length ≠ 9 ∨ f.kind ≠ 0x01))) :
    OutputsMoved (rxFailed .d (countFault .framing s.link.rxD) s) (endFrame .d marker f s) := by
  rw [endFrame_of_crc marker hcrc, dispatchFrame_of_misfit (f := keptFrame marker f) h, receiveFault_listening]
  exact pumpBoth_moved _

/-- Settles O42. -/
theorem receiveErrorCounts : Obligations.ReceiveErrorCounts := by
  unfold Obligations.ReceiveErrorCounts
  refine ⟨fun s p c => ⟨exec_receiveError_of_parity, exec_receiveError_of_stop, fun hp hs wrong => ?_,
    exec_receiveError_of_recovering⟩, fun s p c len body marker high => exec_characterReceived_of_bad_crc,
    fun s f hlen hcrc => ?_, fun s f hlen hcrc => ⟨fun hr hc => ?_, fun marker c hr hc hmisfit => ?_⟩⟩
  · rcases wrong with ⟨hr, hmarker⟩ | ⟨hr, hone, hlong⟩
    · exact exec_receiveError_of_content (by rw [hr]; decide) hp hs (by rw [contentFault, hr, hmarker]; rfl)
    · refine exec_receiveError_of_content (by rw [hr]; decide) hp hs ?_
      rw [contentFault, hr, hone]
      exact decide_eq_true hlong
  · have hbad : rxCrcOk f = false := beq_false_of_ne hcrc.symm
    have hwhole : ∀ (p : Port) (marker : Byte), (rxOf p s).state = .ready → (rxOf p s).chars = [] →
        (.next (receiveFrame p marker f s) : Result) = .next (rxFailed p (countFault .crc (rxOf p s)) s) :=
      fun p marker hr hc => congrArg Host.Outcome.next (receiveFrame_of_bad_crc marker hr hc hlen hbad)
    exact ⟨fun hr hc => ⟨hwhole .u _ hr hc, hwhole .u _ hr hc⟩, fun hr hc => ⟨hwhole .d _ hr hc, hwhole .d _ hr hc⟩⟩
  · refine ⟨_, _, congrArg Host.Outcome.next (receiveFrame_of_ready hr hc hlen), fun h => ?_,
      congrArg Host.Outcome.next (receiveFrame_of_ready hr hc hlen), fun h => endFrame_of_misfit hcrc (.inl h)⟩
    exact endFrame_of_misfit hcrc (h.imp_right fun h => ⟨rfl, h⟩)
  · exact ⟨_, congrArg Host.Outcome.next (receiveChar_of_last hr hc hlen), endFrame_of_misfit hcrc hmisfit⟩

/-! ### The receive states (R124, R125) -/

/-- A gap error leaves the receiver READY at once, nothing collected (R124). -/
theorem exec_rxGapTimeout {p : Port} {s : State} (hr : (rxOf p s).state = .inFrame) :
    exec (.rxGapTimeout p) s = .next (raiseIn (linkErr p)
      (putRx p { countFault .gap (rxOf p s) with state := .ready, chars := [], idle := true } s)) := by
  show Host.Outcome.next _ = _
  rw [hr, receiveFault]
  simp only [raiseIn, rxOf_withMeas, putRx_withMeas, rxOf_putRx, putRx_putRx, beq_self_eq_true, if_true]

theorem exec_rxRecoveryDone {p : Port} {s : State} (hr : (rxOf p s).state = .recovering) :
    exec (.rxRecoveryDone p) s = .next (putRx p { rxOf p s with state := .ready, idle := true } s) := by
  show Host.Outcome.next _ = _
  rw [hr]
  rfl

/-- Settles O43. -/
theorem receiverStates : Obligations.ReceiverStates := by
  unfold Obligations.ReceiverStates
  refine ⟨fun s p => ⟨exec_rxGapTimeout, exec_rxRecoveryDone⟩, fun s p c => ⟨receiveChar p c s, rfl, fun hr hm => ?_,
    receiveChar_of_collected, receiveChar_of_recovering, fun hr hm => ?_⟩⟩
  · rw [receiveChar_of_marker hr hm]; rfl
  · rw [receiveChar_of_no_marker hr hm]
    refine exec_receiveError_of_content (by rw [hr]; decide) (parityOk_lineChar c) (stopOk_lineChar c) ?_
    rw [contentFault, hr, charData_lineChar, hm]; rfl

/-! ### Tap responses and requests (R138, R155) -/

/-- A tap response is offered below the limit of its class (R150). -/
theorem dispatchFrame_of_response {f : Frame} {s : State} (hlow : 1 ≤ f.address.toNat) (hhigh : f.address.toNat ≤ 8)
    (hm : f.marker = markerResponse) : dispatchFrame .d f s = offerRelayed Config.tapResponseLimit f s := by
  simp only [dispatchFrame, hlow, hhigh, and_self, if_true, hm]
  rfl

/-- A frame at address 0 on Port U is a request (R155). -/
theorem dispatchFrame_of_request {f : Frame} {s : State} (h : f.address = 0) : dispatchFrame .u f s = bufferRequest f s := by
  simp only [dispatchFrame, h]
  rfl

theorem offerRelayed_of_lt {limit : Nat} {f : Frame} {s : State} (h : s.link.upQueue.length < limit) :
    offerRelayed limit f s = { s with link := { s.link with upQueue := s.link.upQueue ++ [f] } } :=
  (if_pos h).trans (congrArg (fun l => { s with link := l }) (if_pos h))

theorem offerRelayed_of_le {limit : Nat} {f : Frame} {s : State} (h : limit ≤ s.link.upQueue.length) :
    offerRelayed limit f s = countDrop s := if_neg (Nat.not_lt.2 h)

/-- Settles O40. -/
theorem responseAndRequestIntake : Obligations.ResponseAndRequestIntake := by
  unfold Obligations.ResponseAndRequestIntake
  constructor
  · intro s f hr hc hcrc hlen hlow hhigh s1
    have hone : listening .d s = s1 := listening_of_ready (p := .d) hr hc
    have hoffered : dispatchFrame .d (keptFrame markerResponse f) s1 = _ := dispatchFrame_of_response hlow hhigh rfl
    refine ⟨_, congrArg Host.Outcome.next (receiveFrame_of_ready hr hc hlen), fun hroom => ?_, fun hfull => ?_⟩
    · rw [endFrame_of_crc _ hcrc, hone, hoffered, offerRelayed_of_lt (limit := Config.tapResponseLimit) (s := s1) hroom]
      exact pumpBoth_moved _
    · rw [endFrame_of_crc _ hcrc, hone, hoffered, offerRelayed_of_le (limit := Config.tapResponseLimit) (s := s1) hfull]
      exact pumpBoth_moved _
  · intro s f hr hc hcrc hlen haddr s1
    have hone : listening .u s = s1 := listening_of_ready (p := .u) hr hc
    have hrequest : dispatchFrame .u (keptFrame markerRequest f) s1 = _ := dispatchFrame_of_request haddr
    refine ⟨_, congrArg Host.Outcome.next (receiveFrame_of_ready hr hc hlen), fun hroom => ?_, fun hfull => ?_⟩
    · have hbuffer : bufferRequest (keptFrame markerRequest f) s1 = _ := if_pos hroom
      rw [endFrame_of_crc _ hcrc, hone, hrequest, hbuffer, keptFrame, haddr]
      exact pumpBoth_moved _
    · have hbuffer : bufferRequest (keptFrame markerRequest f) s1 = _ := if_neg (Nat.not_lt.2 hfull)
      rw [endFrame_of_crc _ hcrc, hone, hrequest, hbuffer]
      exact pumpBoth_moved _

end Sys2Proof.Machine
end

section
/-! PROOFS. The transmitters (R135, R136, R148): the end of a transmission, and the level frame. -/

namespace Sys2Proof.Machine

/-- The arbiter leaves Port D idle only when no level frame is due and the downstream queue is empty (R136). -/
theorem pumpDown_idle {s : State} (h : (pumpDown s).link.txD = none) :
    (pumpDown s).link.downQueue = [] ∧ ∀ d, ((pumpDown s).meas.taps.get d).due = false := by
  revert h
  unfold pumpDown
  split
  · rename_i f hbusy
    intro h
    rw [hbusy] at h
    cases h
  · split
    · exact fun h => nomatch h
    · rename_i hnone
      split
      · exact fun h => nomatch h
      · rename_i hempty
        exact fun _ => ⟨hempty, find_all_none hnone⟩

/-- The end of a transmission on Port D, once Port U and its queue have moved as far as they can. -/
theorem exec_portDTxDone {s : State} (h : s.link.txD.isSome = true) :
    exec .portDTxDone s = .next (pumpDown { s with link := { s.link with txD := none } }) :=
  congrArg Host.Outcome.next (if_pos h)

theorem exec_portUTxDone {s : State} {f : Frame} (h : s.link.txU = some f) :
    exec .portUTxDone s = .next (pumpUp { s with link := { s.link with txU := none } }) :=
  congrArg Host.Outcome.next (if_pos (by rw [h]; rfl))

/-- Port U holds the oldest of what is on its way to the host, once its pump has run (R148). -/
theorem pumpUp_txU (s : State) : (pumpUp s).link.txU = (outgoing (pumpUp s)).head? := by
  obtain ⟨-, -, hidle, -⟩ := pumpUp_spec s
  cases h : (pumpUp s).link.txU with
  | none => rw [hidle h]; rfl
  | some f => rw [outgoing, h]; rfl

/-- The two bytes of a signed field read back as the number, within sixteen bits (R178). -/
theorem beInt16_toInt {i : Int} (hlow : -32768 ≤ i) (hhigh : i ≤ 32767) :
    ((beInt16 i).getD 0 0 ++ (beInt16 i).getD 1 0 : BitVec 16).toInt = i := by
  have hbytes : ((beInt16 i).getD 0 0 ++ (beInt16 i).getD 1 0 : BitVec 16) = BitVec.ofInt 16 i := by
    have hlt := (BitVec.ofInt 16 i).isLt
    apply BitVec.eq_of_toNat_eq
    simp only [beInt16, be16, List.getD_cons_zero, List.getD_cons_succ]
    rw [BitVec.toNat_append, ← Nat.shiftLeft_add_eq_or_of_lt (BitVec.isLt _), Nat.shiftLeft_eq, BitVec.toNat_ofNat, BitVec.toNat_ofNat]
    omega
  rw [hbytes, BitVec.toInt_ofInt, Int.bmod_def]
  omega

/-- The level frame's fields (R135, R182). -/
theorem levelLayout_levelFrame (d : Dom) (p : Tap) (hlow : -32768 ≤ p.mailbox.level) (hhigh : p.mailbox.level ≤ 32767) :
    LevelLayout d p (levelFrame d p) where
  marker := rfl
  address := by cases d <;> rfl
  kind := rfl
  tag := BitVec.toNat_add ..
  length := rfl
  level := beInt16_toInt hlow hhigh
  path := by
    show BitVec.ofNat 8 p.mailbox.path.code = _
    cases p.mailbox.path <;> rfl
  balance := by
    show BitVec.ofNat 8 p.mailbox.balance.code = _
    cases p.mailbox.balance <;> rfl

/-- Settles O46. -/
theorem transmittersGoOn : Obligations.TransmittersGoOn := by
  unfold Obligations.TransmittersGoOn
  refine ⟨fun s hbusy hup hheld => ⟨_, exec_portDTxDone hbusy, pumpDown_self_moved _ hup hheld, pumpDown_idle⟩,
    fun s f more hf hout => ?_, levelLayout_levelFrame⟩
  have hrest : outgoing { s with link := { s.link with txU := none } } = more := by
    rw [outgoing, hf] at hout
    exact (List.cons.inj hout).2
  have hmore := (outgoing_pumpUp { s with link := { s.link with txU := none } }).trans hrest
  exact ⟨_, exec_portUTxDone hf, pumpUp_moved _, hmore, by rw [pumpUp_txU, hmore]⟩

end Sys2Proof.Machine
end

section
/-! PROOFS. The refresh expiry (R134, R135): the level frame due, the ramp step, and what the end of a ramp brings. -/

namespace Sys2Proof.Machine

section

variable {t : Dom} {m : Meas} {r : Ramp}

/-- The measurement side after the ramp step that reaches the target (R30, R134; log 16). -/
def rampEnded (t : Dom) (r : Ramp) (m : Meas) : Meas :=
  { m with
    taps := m.taps.set t { m.taps.get t with
      mailbox := ⟨r.target, r.path, r.balance⟩, ramp := none, due := true, refreshStart := some m.timebase }
    claim := { m.claim with confirmed := m.claim.confirmed &&& ~~~ (single t) } }

theorem refreshExpiry_eq {st : Time} (hf : fitted m t = true) (hst : (m.taps.get t).refreshStart = some st)
    (hrun : 20 ≤ (m.timebase - st).toNat) : refreshExpiry t m = some (refreshTap t m) := by
  have hexp : startExpired (m.taps.get t).refreshStart Config.refreshMs m.timebase = true := by
    rw [hst]; exact decide_eq_true hrun
  simp [refreshExpiry, hf, hexp]

/-- Without a ramp a level frame becomes due and the timer restarts (R134). -/
theorem refreshTap_of_no_ramp (h : (m.taps.get t).ramp = none) :
    refreshTap t m = changeTap t (fun p => { p with due := true, refreshStart := some m.timebase }) m := by
  simp [refreshTap, h]

/-- A ramp step that leaves the target ahead (R30). -/
theorem refreshTap_of_ramping (h : (m.taps.get t).ramp = some r)
    (hne : stepLevel (m.taps.get t).mailbox.level r.target r.step ≠ r.target) :
    refreshTap t m = { m with
      taps := m.taps.set t { m.taps.get t with
        mailbox := ⟨stepLevel (m.taps.get t).mailbox.level r.target r.step, r.path, r.balance⟩
        due := true, refreshStart := some m.timebase }
      claim := { m.claim with confirmed := m.claim.confirmed &&& ~~~ (single t) } } := by
  simp [refreshTap, h, rampStepTap, unconfirm, changeTap, hne]

/-- The ramp step that reaches the target, and what follows the ramp's end (R30, R98). -/
theorem refreshTap_of_ramped (h : (m.taps.get t).ramp = some r)
    (heq : stepLevel (m.taps.get t).mailbox.level r.target r.step = r.target) :
    refreshTap t m = claimCheck (afterRamp t r.owner (rampEnded t r m)) := by
  simp [refreshTap, h, rampStepTap, unconfirm, changeTap, heq, rampEnded]

/-- A mailbox write after the last step of a ramp leaves what a ramp to its level would. -/
theorem writeMailbox_rampEnded (b : Mailbox) :
    writeMailbox t b (rampEnded t r m) = rampEnded t { r with target := b.level, path := b.path, balance := b.balance } m := by
  simp [writeMailbox, unconfirm, changeTap, rampEnded, writeTap, BitVec.and_assoc, PerDom.set_set]

/-- The last step of a ramp keeps the partition and every record but the tap's and the claim's confirmed taps. -/
theorem steady_rampEnded : Steady m (rampEnded t r m) where
  timebase := rfl
  resetCause := rfl
  flags := rfl
  mask := rfl
  pendXclaim := rfl
  pendRchk := rfl
  held := rfl
  tables := rfl
  isoAlert := rfl
  topo := rfl
  resultNumber := rfl
  claim := rfl
  presence d := by
    simp only [rampEnded, PerDom.get_set]
    split
    · subst_vars; rfl
    · rfl
  doms _ := rfl
  entries := id
  domsEq := rfl
  islands _ := rfl

/-! ### The ends of a cycle's ramps (R38, R43) -/

variable {i j : Island} {ph : Phase} {c : Captured} {row : CycleRow} {md : Mode}

theorem afterRamp_of_cycle (hi : injectedBy m t = some i) : afterRamp t .cycle m = afterCycleRamp i.members m := by
  simp [afterRamp, hi]

/-- RAMP_POS and RAMP_NEG end in the SETTLE step of their phase (R38). -/
theorem afterCycleRamp_of_phase (hat : islandAt m i.members = some i)
    (hph : (i.state = .cycle .rampPos ∧ ph = .pos) ∨ (i.state = .cycle .rampNeg ∧ ph = .neg)) :
    afterCycleRamp i.members m = enterSettle ph i.members m := by
  obtain ⟨hpos, hneg, -⟩ := afterCycleRamp_of hat
  rcases hph with ⟨hs, rfl⟩ | ⟨hs, rfl⟩
  · exact hpos hs
  · exact hneg hs

/-- A cycle started on an island just put (R28). -/
theorem startCycle_putIsland (hat : islandAt m i.members = some i) (hm : j.members = i.members)
    (hrow : cycleRow m j.profile = some row) :
    startCycle md i.members (putIsland j m) = putIsland { j with
      state := .cycle .quietSettle, mode := md,
      captured := some ⟨row, j.profile, domConst domRc m j.injector, domConst domRbal m j.injector⟩,
      means := .none, counts := .zero, quality := .clear, acc := clearForSettle j.acc,
      phaseTimer := some ⟨m.timebase, row.phaseTimeout⟩, plateauTimer := none, settleTimer := .stopped,
      intervalTimer := none } (writeMailbox j.injector ⟨0, .domain, .connected⟩ m) := by
  rw [startCycle_spec md (islandAt_put_changed hat hm) hrow, writeMailbox_putIsland]
  refine putIsland_putIsland _ j _ ?_
  rfl

/-- A RAMP_HOME that is over, with no demand and no interval to wait, or with a demand, starts a cycle (R43, R44; log 7). -/
theorem endCycle_starts (hat : islandAt m i.members = some i) (hcap : i.captured = some c)
    (hmd : i.demand = some md ∨ (i.demand = none ∧ c.row.interval = 0 ∧ md = .full)) (hrow : cycleRow m i.profile = some row) :
    endCycle i.members m = putIsland { i with
      state := .cycle .quietSettle, mode := md, demand := none,
      captured := some ⟨row, i.profile, domConst domRc m i.injector, domConst domRbal m i.injector⟩,
      means := .none, counts := .zero, quality := .clear, acc := clearForSettle i.acc,
      phaseTimer := some ⟨m.timebase, row.phaseTimeout⟩, plateauTimer := none, settleTimer := .stopped,
      intervalTimer := none } (writeMailbox i.injector ⟨0, .domain, .connected⟩ m) := by
  rcases hmd with hdemand | ⟨hnone, hzero, rfl⟩
  · rw [endCycle_of_demand hat hdemand, startCycle_putIsland hat (j := { i with demand := none }) rfl hrow]
  · have hinterval : i.row.interval = 0 := by rw [Island.row, hcap]; exact hzero
    rw [endCycle_of_no_demand hat hnone, enterInterval_of_eq hat hinterval,
      startCycle_putIsland hat (j := i.pausing m.timebase) rfl hrow, ← hnone]
    rfl

/-- A RAMP_HOME that is over, with an interval to wait and no demand (R43). -/
theorem endCycle_pauses (hat : islandAt m i.members = some i) (hcap : i.captured = some c) (hdemand : i.demand = none)
    (hne : c.row.interval ≠ 0) :
    endCycle i.members m = putIsland { i with
      state := .interval, phaseTimer := none, plateauTimer := none, settleTimer := .stopped,
      intervalTimer := some ⟨m.timebase, c.row.interval⟩ } m := by
  have hrow : i.row = c.row := by rw [Island.row, hcap]; rfl
  rw [endCycle_of_no_demand hat hdemand, enterInterval_of_ne hat (hrow ▸ hne), Island.pausing, hrow]
  rfl

end

/-! ### The end of a claim's ramp (R97, R98) -/

/-- A grant test with a covered PRESENT tap unconfirmed only arms. -/
theorem claimCheck_of_unconfirmed {m : Meas} {d : Dom} (hc : inSet (coveredSet m) d = true) (hp : isPresent m d = true)
    (hu : inSet m.claim.confirmed d = false) : claimCheck m = armClaim m := by
  rcases claimCheck_outcome m with ⟨h, -⟩ | ⟨-, -, -, hall⟩
  · exact h
  · rw [(allConfirmed_iff m).1 hall d hc hp] at hu
    cases hu

theorem clearOfDomain_iff (b : Mailbox) :
    b.clearOfDomain = true ↔ (b.level = 0 ∨ b.path = .ref) ∧ b.balance = .floating := by
  simp [Mailbox.clearOfDomain]

/-- The end of a claim's ramp floats the injector, and arms the grant test when no other covered mailbox holds it back. -/
theorem armClaim_floated {m : Meas} {t : Dom} {r : Ramp} (hs : m.claim.state = .handoff) (hc : inSet (coveredSet m) t = true)
    (hp : isPresent m t = true) :
    ∃ a : Bool, (a = true ↔ m.claim.armed = true ∨ ∀ d, inSet (coveredSet m) d = true → d ≠ t →
        ((m.taps.get d).mailbox.level = 0 ∨ (m.taps.get d).mailbox.path = .ref) ∧ (m.taps.get d).mailbox.balance = .floating) ∧
      claimCheck (floatCommand t (rampEnded t r m)) = { m with
        taps := m.taps.set t { m.taps.get t with
          mailbox := ⟨0, .domain, .floating⟩, ramp := none, due := true, refreshStart := some m.timebase }
        claim := { m.claim with confirmed := m.claim.confirmed &&& ~~~ (single t), armed := a } } := by
  obtain ⟨m', hm'⟩ : ∃ m', m' = floatCommand t (rampEnded t r m) := ⟨_, rfl⟩
  have hfloat : m' = rampEnded t { r with target := 0, path := .domain, balance := .floating } m := by
    rw [hm']; exact writeMailbox_rampEnded _
  have hcovered : coveredSet m' = coveredSet m := by rw [hfloat]; rfl
  have hpresent : isPresent m' t = true := by rw [isPresent, tapState, hfloat, steady_rampEnded.presence]; exact hp
  have hunconfirmed : inSet m'.claim.confirmed t = false := by rw [hfloat]; simp [rampEnded, inSet_and, inSet_not, inSet_single]
  have hstate : m'.claim.state ≠ .none := by rw [hfloat]; exact fun h => by rw [rampEnded, hs] at h; cases h
  rw [← hm']
  refine ⟨(armClaim m').claim.armed, ?_, ?_⟩
  · rw [armClaim_armed hstate, hcovered, hfloat]
    refine or_congr Iff.rfl (forall₂_congr fun d _ => ?_)
    by_cases hd : d = t
    · subst hd; simp [rampEnded, clearOfDomain_iff]
    · simp [rampEnded, clearOfDomain_iff, hd, PerDom.get_set_of_ne _ _ hd]
  · rw [claimCheck_of_unconfirmed (hcovered ▸ hc) hpresent hunconfirmed, armClaim_eq]
    rw [hfloat]
    rfl

/-! ### The ends of a check's ramps (R116, R117, R119) -/

/-- A check that enters the SETTLE step of a phase of its reference cycle (R117). -/
def RefCheck.settling (r : RefCheck) (ph : Phase) (m : Meas) : RefCheck :=
  { r with
    step := .cycle (settleStep ph), acc := clearForSettle r.acc, plateauTimer := none
    phaseTimer := some ⟨m.timebase, r.row.phaseTimeout⟩ }

section

variable {m : Meas} {t : Dom} {r : RefCheck} {ph : Phase}

/-- RAMP_POS and RAMP_NEG of the reference cycle end in the SETTLE step of their phase (R117). -/
theorem afterRefRamp_of_phase (hr : m.ref = some r)
    (hph : (r.step = .cycle .rampPos ∧ ph = .pos) ∨ (r.step = .cycle .rampNeg ∧ ph = .neg)) :
    afterRefRamp t m = { m with ref := some (r.settling ph m) } := by
  have hsettle : afterRefRamp t m = refSettle ph m := by
    rcases hph with ⟨hs, rfl⟩ | ⟨hs, rfl⟩ <;> simp [afterRefRamp, hr, hs]
  rw [hsettle, refSettle, changeRef_of_some _ hr]
  rfl

/-- PREEMPT ends with the switch to the reference path (R116). -/
theorem afterRefRamp_of_preempt (hr : m.ref = some r) (hs : r.step = .preempt) : afterRefRamp t m = switchToRef t m := by
  simp [afterRefRamp, hr, hs]

end

/-- The grant test moves neither a tap nor the check. -/
theorem OutputsMoved.claimCheck_kept {s u : State} {m : Meas} (h : OutputsMoved { s with meas := claimCheck m } u) (d : Dom) :
    u.meas.ref = m.ref ∧ (u.meas.taps.get d).mailbox = (m.taps.get d).mailbox ∧
      (u.meas.taps.get d).ramp = (m.taps.get d).ramp := by
  rw [claimCheck_eq m] at h
  exact ⟨by rw [h.meas], h.mailbox d, h.ramp d⟩

/-- Settles O14. -/
theorem refreshTimerSteps : Obligations.RefreshTimerSteps := by
  unfold Obligations.RefreshTimerSteps
  intro s t st hfit hst hrun p ended
  have hexpiry := refreshExpiry_eq hfit hst hrun
  have hmoved : ∀ {r m'}, p.ramp = some r → stepLevel p.mailbox.level r.target r.step = r.target →
      claimCheck (afterRamp t r.owner (rampEnded t r s.meas)) = m' →
      OutputsMoved { s with meas := m' } (onEvent (refreshExpiry t) s) :=
    fun hr heq hm => onEvent_moved hexpiry ((refreshTap_of_ramped hr heq).trans hm)
  have hmoved_of_none : ∀ {r m'}, p.ramp = some r → stepLevel p.mailbox.level r.target r.step = r.target →
      afterRamp t r.owner (rampEnded t r s.meas) = m' → m'.claim.state = .none →
      OutputsMoved { s with meas := m' } (onEvent (refreshExpiry t) s) :=
    fun hr heq hm hnone => hmoved hr heq ((congrArg claimCheck hm).trans (claimCheck_of_none hnone))
  refine ⟨onEvent (refreshExpiry t) s, rfl, fun h => onEvent_moved hexpiry (refreshTap_of_no_ramp h),
    fun r hr hne => onEvent_moved hexpiry (refreshTap_of_ramping hr hne), fun r i ph hr heq ho hi hat hph hclaim => ?_,
    fun r i c hr heq ho hi hat hs hcap hclaim => ?_, fun r hr heq ho hs hc hp => ?_, fun r c ph hr heq ho href hct => ?_,
    fun r c o at_ pr hr heq ho href hct hs hout hdec hpend hclaim => ?_⟩
  · refine hmoved_of_none hr heq ?_ hclaim
    rw [ho, afterRamp_of_cycle (m := rampEnded t r s.meas) hi, afterCycleRamp_of_phase (m := rampEnded t r s.meas) hat hph]
    rfl
  · obtain rfl := injectedBy_injector hi
    have hend : afterRamp i.injector r.owner (rampEnded i.injector r s.meas) =
        endCycle i.members (rampEnded i.injector r s.meas) := by
      rw [ho, afterRamp_of_cycle (m := rampEnded i.injector r s.meas) hi,
        (afterCycleRamp_of (m := rampEnded i.injector r s.meas) hat).2.2 hs]
    exact ⟨fun hd hne => hmoved_of_none hr heq (hend.trans (endCycle_pauses hat hcap hd hne)) hclaim,
      fun md row hmd hrow => hmoved_of_none hr heq (hend.trans (endCycle_starts hat hcap hmd hrow)) hclaim⟩
  · obtain ⟨a, ha, hm⟩ := armClaim_floated (r := r) hs hc hp
    exact ⟨a, ha, hmoved hr heq (by rw [ho]; exact hm)⟩
  · have href' : (rampEnded t r s.meas).ref = some c := href
    refine ⟨fun hs => ?_, fun hph => ?_⟩
    · have hafter : afterRamp t r.owner (rampEnded t r s.meas) =
          { rampEnded t { r with target := 0, path := .ref, balance := .floating } s.meas with
            ref := some (switchedCheck s.meas.timebase c) } := by
        rw [ho, afterRamp, afterRefRamp_of_preempt href' hs, switchToRef_of_some href', writeMailbox_rampEnded]
        rfl
      obtain ⟨href, hbox, hramp⟩ := (hmoved hr heq (congrArg claimCheck hafter)).claimCheck_kept t
      exact ⟨href, hbox.trans (by simp [rampEnded]), hramp.trans (by simp [rampEnded]), hmoved_of_none hr heq hafter⟩
    · have hafter : afterRamp t r.owner (rampEnded t r s.meas) = { rampEnded t r s.meas with ref := some (c.settling ph s.meas) } := by
        rw [ho]; exact afterRefRamp_of_phase (t := t) href' hph
      obtain ⟨href, hbox, hramp⟩ := (hmoved hr heq (congrArg claimCheck hafter)).claimCheck_kept t
      exact ⟨href, hbox.trans (by simp [rampEnded]), hramp.trans (by simp [rampEnded]), hmoved_of_none hr heq hafter⟩
  · have href' : (rampEnded t r s.meas).ref = some c := href
    have hfinish : afterRamp t r.owner (rampEnded t r s.meas) = finishRef o c.rraw at_ (rampEnded t r s.meas) := by
      rw [ho, afterRamp, afterRefRamp_home href' hs, hout, hdec]; rfl
    have hnone : (finishRef o c.rraw at_ (rampEnded t r s.meas)).claim.state = .none := by
      rw [finishRef_eq o c.rraw at_ href' hpend, (steady_releaseRefhold _ _).claim]; exact hclaim
    exact checkEnded_of_finishRef steady_rampEnded rfl rfl href' ⟨rfl, rfl, rfl⟩ hpend (hmoved_of_none hr heq hfinish hnone)

end Sys2Proof.Machine
end

section
/-! SUPPORT and PROOFS. The loss of a tap (R130), and what the grant test leaves (R98, R99). -/

namespace Sys2Proof.Machine

/-! ### The grant test -/

section

variable {m : Meas}

theorem armClaim_of_armed (h : m.claim.armed = true) : armClaim m = m := by
  unfold armClaim
  split
  · rfl
  · simp only [changeClaim, h, Bool.true_or]
    rw [← h]

/-- With the test armed and every covered PRESENT tap confirmed, a claim in HANDOFF is granted (R99). -/
theorem claimCheck_of_confirmed (hs : m.claim.state = .handoff) (ha : m.claim.armed = true)
    (hall : ∀ d, inSet (coveredSet m) d = true → isPresent m d = true → inSet m.claim.confirmed d = true) :
    claimCheck m = grantWith .ok m := by
  rcases claimCheck_outcome m with ⟨-, hno⟩ | ⟨h, -⟩
  · rw [armClaim_of_armed ha] at hno
    exact absurd ⟨hs, ha, (allConfirmed_iff m).2 hall⟩ hno
  · rw [h, armClaim_of_armed ha]

/-- With the test armed and a covered PRESENT tap unconfirmed, the claim waits on (R99). -/
theorem claimCheck_of_waiting {d : Dom} (ha : m.claim.armed = true) (hc : inSet (coveredSet m) d = true)
    (hp : isPresent m d = true) (hu : inSet m.claim.confirmed d = false) : claimCheck m = m := by
  rw [claimCheck_of_unconfirmed hc hp hu, armClaim_of_armed ha]

/-- A claim in HANDOFF whose test is armed is granted when every covered PRESENT tap is confirmed, and only then. -/
theorem claimCheck_granted_iff_confirmed (hs : m.claim.state = .handoff) (ha : m.claim.armed = true) :
    (claimCheck m).claim.state = .granted ↔
      ∀ d, inSet (coveredSet m) d = true → isPresent m d = true → inSet m.claim.confirmed d = true := by
  refine ⟨fun h => ?_, fun h => by rw [claimCheck_of_confirmed hs ha h, grantWith_claim]⟩
  rcases claimCheck_outcome m with ⟨heq, -⟩ | ⟨-, -, -, hall⟩
  · rw [heq, armClaim_of_armed ha, hs] at h
    cases h
  · exact (allConfirmed_iff m).1 hall

theorem grantWith_flags (st : Status) (m : Meas) : (grantWith st m).flags = m.flags ||| Flag.handoffDone.word := by
  unfold grantWith deferXclaim
  dsimp only
  (repeat' split) <;> rfl

/-- The grant test sets no flag but HANDOFF_DONE. -/
theorem flagSet_claimCheck {f : Flag} (hf : f ≠ .handoffDone) (m : Meas) : flagSet (claimCheck m) f = flagSet m f := by
  rcases claimCheck_outcome m with ⟨h, -⟩ | ⟨h, -⟩ <;> rw [h, armClaim_eq m]
  · rfl
  · have hraised := flagSet_raise .handoffDone f m
    rw [decide_eq_false hf, Bool.or_false] at hraised
    rw [flagSet, grantWith_flags]
    exact hraised

/-- A grant without a pending XCLAIM answers nothing. -/
theorem grantWith_held_of_none (st : Status) (h : m.pendXclaim = none) : (grantWith st m).heldResponses = m.heldResponses := by
  have hdefer : ∀ (vs : List Byte) (x : Meas), x.pendXclaim = none → x.heldResponses = m.heldResponses →
      (deferXclaim st vs x).heldResponses = m.heldResponses := by
    intro vs x hx hheld
    simp only [deferXclaim, hx, hheld]
  unfold grantWith
  dsimp only
  split
  · exact hdefer _ _ h rfl
  · exact hdefer _ _ h rfl

/-- The grant test holds at most the XCLAIM's answer, at the end. -/
theorem claimCheck_held_append (m : Meas) : ∃ more, (claimCheck m).heldResponses = m.heldResponses ++ more ∧
    ((claimCheck m).claim.state = m.claim.state → more = []) ∧
    ∀ p, m.pendXclaim = some p → (claimCheck m).claim.state ≠ m.claim.state →
      ∃ g, more = [g] ∧ GrantAnswer p (claimCheck m) g := by
  obtain ⟨hsame, hanswer⟩ := claimCheck_answer m
  by_cases hstate : (claimCheck m).claim.state = m.claim.state
  · exact ⟨[], by rw [hsame hstate, List.append_nil], fun _ => rfl, fun _ _ hne => absurd hstate hne⟩
  · cases hp : m.pendXclaim with
    | some p =>
      obtain ⟨f, hheld, hf⟩ := hanswer p hp hstate
      exact ⟨[f], hheld, fun h => absurd h hstate, fun _ hq _ => ⟨f, rfl, by cases hq; exact hf⟩⟩
    | none =>
      refine ⟨[], ?_, fun h => absurd h hstate, fun _ hq => nomatch hq⟩
      rw [List.append_nil]
      rcases claimCheck_outcome m with ⟨h, -⟩ | ⟨h, -⟩ <;> rw [h, armClaim_eq m]
      exact grantWith_held_of_none (m := { m with claim := _ }) .ok hp

/-- The grant test moves an island's state alone, and without a claim nothing. -/
theorem islandAt_claimCheck_state {ds : DomSet} {i : Island} (hi : islandAt m ds = some i) :
    ∃ st, islandAt (claimCheck m) ds = some { i with state := st } ∧ (m.claim.state = .none → st = i.state) := by
  rcases claimCheck_outcome m with ⟨h, -⟩ | ⟨h, hs, -⟩
  · exact ⟨i.state, by rw [h, armClaim_eq]; exact hi, fun _ => rfl⟩
  · have hnone : m.claim.state ≠ .none := by rw [hs]; decide
    have hs' : (armClaim m).claim.state = .handoff := by rw [armClaim_eq]; exact hs
    have hi' : islandAt (armClaim m) ds = some i := by rw [armClaim_eq]; exact hi
    obtain ⟨hsome, hfree⟩ := grantWith_islands .ok hs'
    rw [h]
    cases hc : claimedIsland (armClaim m) with
    | none => exact ⟨i.state, by rw [islandAt, hfree hc]; exact hi', fun h => absurd h hnone⟩
    | some k =>
      rw [islandAt, hsome k hc]
      by_cases hk : ds = k.members
      · subst hk
        exact ⟨_, islandAt_changeIsland_some (f := Island.granted) hi' fun _ => rfl, fun h => absurd h hnone⟩
      · exact ⟨i.state, (islandAt_changeIsland_of_ne (f := Island.granted) (fun _ => rfl) hk).trans hi', fun h => absurd h hnone⟩

end

/-- What is held at the end joins what is on its way to the host. -/
theorem outgoing_of_held {s t : State} {m : Meas} {l : List Frame} (hm : OutputsMoved { s with meas := m } t)
    (h : m.heldResponses = s.meas.heldResponses ++ l) : outgoing t = outgoing s ++ l := by
  rw [hm.upstream, outgoing, h, ← List.append_assoc]
  rfl

/-! ### What is left as it was by the blocks that are told of a loss -/

/-- From `m` to `m'` the tables, the topology, the presence and verdict records and the last result number stay. -/
structure RecordsKept (m m' : Meas) : Prop where
  timebase : m'.timebase = m.timebase
  tables : m'.tables = m.tables
  topo : m'.topo = m.topo
  resultNumber : m'.resultNumber = m.resultNumber
  doms : m'.doms = m.doms
  presence : ∀ d, (m'.taps.get d).presence = (m.taps.get d).presence

theorem RecordsKept.refl (m : Meas) : RecordsKept m m := ⟨rfl, rfl, rfl, rfl, rfl, fun _ => rfl⟩

theorem RecordsKept.after {a b c : Meas} (k : RecordsKept b c) (h : RecordsKept a b) : RecordsKept a c :=
  ⟨k.timebase.trans h.timebase, k.tables.trans h.tables, k.topo.trans h.topo, k.resultNumber.trans h.resultNumber,
    k.doms.trans h.doms, fun d => (k.presence d).trans (h.presence d)⟩

theorem Steady.recordsKept {m m' : Meas} (h : Steady m m') : RecordsKept m m' :=
  ⟨h.timebase, h.tables, h.topo, h.resultNumber, h.domsEq, h.presence⟩

theorem recordsKept_claimCheck (m : Meas) : RecordsKept m (claimCheck m) := by
  rw [claimCheck_eq m]
  exact ⟨rfl, rfl, rfl, rfl, rfl, fun _ => rfl⟩

theorem recordsKept_finishRef (o : RefOutcome) (rraw : Option Nat) (decided : Time) (m : Meas) :
    RecordsKept m (finishRef o rraw decided m) := by
  unfold finishRef
  split
  · exact .refl m
  · next r _ =>
    refine (steady_releaseRefhold ..).recordsKept.after (.after ?_ (steady_writeMailbox r.tap .rest m).recordsKept)
    unfold deferRchk
    split <;> split <;> exact ⟨rfl, rfl, rfl, rfl, rfl, fun _ => rfl⟩

theorem recordsKept_refLost (t : Dom) (m : Meas) : RecordsKept m (refLost t m) := by
  unfold refLost
  split
  · exact recordsKept_finishRef ..
  · exact .refl m

/-! ### A loss -/

/-- A tap that is LOST, its flag set, before any block is told (R130). -/
def lostMeas (t : Dom) (p : Presence) (m : Meas) : Meas :=
  followConditions (putPresence t { p with state := .lost, joinRun := 0, lastSeq := none, lossStart := none } m)

/-- The blocks told of a loss (R130; log 14). -/
def lossTold (t : Dom) (p : Presence) (m : Meas) : Meas := claimCheck (refLost t (stallOnLoss t (lostMeas t p m)))

section

variable {m : Meas} {t : Dom} {p : Presence} {i j : Island}

theorem lossExpiry_eq {st : Time} (hp : (m.taps.get t).presence = some p) (hs : p.state = .present) (hst : p.lossStart = some st)
    (hrun : 100 ≤ (m.timebase - st).toNat) : lossExpiry t m = some
      (changeDom t (fun r => { r with asymRun := 0, asymActive := false }) (lossTold t p m)) := by
  have hexp : startExpired p.lossStart Config.lossMs m.timebase = true := by rw [hst]; exact decide_eq_true hrun
  simp only [lossExpiry, hp, hs, hexp, beq_self_eq_true, Bool.and_self, if_true]
  rfl

/-- After a loss the tap is PRESENT no longer, and every other tap is what it was. -/
theorem isPresent_lostMeas (d : Dom) : isPresent (lostMeas t p m) d = (decide (d ≠ t) && isPresent m d) := by
  unfold isPresent tapState lostMeas putPresence
  simp only [followConditions_taps, changeTap_taps, PerDom.get_set]
  by_cases h : d = t <;> simp [h]

/-- A loss sets TAP_LOST (R160). -/
theorem flagSet_lostMeas (hf : fitted m t = true) : flagSet (lostMeas t p m) .tapLost = true := by
  have hlost : conditionHolds (putPresence t { p with state := .lost, joinRun := 0, lastSeq := none, lossStart := none } m) .tapLost =
      true := by
    refine List.any_eq_true.2 ⟨t, Dom.mem_all t, ?_⟩
    exact Bool.and_eq_true_iff.2 ⟨hf, by simp [tapState, putPresence]⟩
  rw [lostMeas, flagSet_followConditions, hlost, Bool.or_true]

/-- Told of a loss, the blocks keep the presence records as the loss left them. -/
theorem recordsKept_lossTold : RecordsKept (lostMeas t p m) (lossTold t p m) :=
  (recordsKept_claimCheck _).after ((recordsKept_refLost _ _).after (steady_stallOnLoss _ _).recordsKept)

theorem sound_lossTold : Sound (lostMeas t p m) (lossTold t p m) :=
  (sound_claimCheck _).after ((sound_refLost _ _).after (steady_stallOnLoss _ _).sound)

/-! ### The stall of an island (R26) -/

/-- An island that stalls. -/
def Island.stalled (i : Island) : Island := { clearCyclePart i with state := .stalled, demand := none }

theorem stallOnLoss_of_free (h : ∀ i, injectedBy m t = some i → i.state = .handoff) : stallOnLoss t m = m := by
  unfold stallOnLoss
  split
  · rfl
  · next i hi => rw [h i hi]

theorem stallOnLoss_of_running (hi : injectedBy m t = some i)
    (hs : i.state = .forming ∨ i.state = .interval ∨ ∃ x, i.state = .cycle x) : stallOnLoss t m = enterStalled i.members m := by
  unfold stallOnLoss
  rw [hi]
  rcases hs with hs | hs | ⟨x, hs⟩ <;> simp only [hs]

theorem stallOnLoss_cases (t : Dom) (m : Meas) : stallOnLoss t m = m ∨
    ∃ i, injectedBy m t = some i ∧ stallOnLoss t m = enterStalled i.members m := by
  unfold stallOnLoss
  split
  · exact .inl rfl
  · next i hi => split <;> first | exact .inl rfl | exact .inr ⟨i, hi, rfl⟩

theorem islandAt_enterStalled (hat : islandAt m i.members = some i) :
    islandAt (enterStalled i.members m) i.members = some i.stalled := by
  rw [enterStalled_spec hat]
  exact islandAt_putIsland (m := m) hat rfl

theorem taps_enterStalled (hat : islandAt m i.members = some i) :
    (enterStalled i.members m).taps = (writeMailbox i.injector .rest m).taps := by
  rw [enterStalled_spec hat]
  rfl

theorem claim_enterStalled (hat : islandAt m i.members = some i) :
    (enterStalled i.members m).claim = (writeMailbox i.injector .rest m).claim := by
  rw [enterStalled_spec hat]
  rfl

theorem members_enterStalled (hat : islandAt m i.members = some i) :
    (enterStalled i.members m).islands.map (·.members) = m.islands.map (·.members) := by
  rw [enterStalled_spec hat]
  show (putIsland _ m).islands.map (·.members) = _
  rw [putIsland, List.map_map]
  refine List.map_congr_left fun j _ => ?_
  by_cases hj : j.members = i.members
  · simp [Function.comp, clearCyclePart, stopTimers, hj]
  · simp [Function.comp, clearCyclePart, stopTimers, hj]

/-- An island put in place of the one that a tap injects is the one that it injects now. -/
theorem injectedBy_putIsland (hi : injectedBy m t = some i) (hat : islandAt m i.members = some i) (hm : j.members = i.members)
    (hj : j.injector = t) : injectedBy (putIsland j m) t = some j := by
  have key : ∀ l : List Island, l.find? (fun k => k.injector == t) = some i → l.find? (fun k => k.members == i.members) = some i →
      (l.map fun k => if k.members == i.members then j else k).find? (fun k => k.injector == t) = some j := by
    intro l
    induction l with
    | nil => exact fun h => nomatch h
    | cons k l ih =>
      intro hinj hmem
      by_cases hk : k.members = i.members
      · simp [hk, hj]
      · have hne : k.injector ≠ t := by
          intro he
          simp only [List.find?_cons, he, beq_self_eq_true, Option.some.injEq] at hinj
          exact hk (by rw [hinj])
        rw [List.find?_cons_of_neg (by simpa using hne)] at hinj
        rw [List.find?_cons_of_neg (by simpa using hk)] at hmem
        rw [List.map_cons, if_neg (by simpa using hk), List.find?_cons_of_neg (by simpa using hne)]
        exact ih hinj hmem
  rw [injectedBy, putIsland, hm]
  exact key m.islands hi hat

/-! ### The tap under check is lost (R119, R120) -/

/-- From `m` to `m'` a claim and the taps that it covers stay, but for the confirmation of tap `t`. -/
structure ClaimKept (t : Dom) (m m' : Meas) : Prop where
  claim : m'.claim = { m.claim with confirmed := m'.claim.confirmed }
  confirmed : ∀ d, d ≠ t → inSet m'.claim.confirmed d = inSet m.claim.confirmed d
  topo : m'.topo = m.topo
  tables : m'.tables = m.tables
  members : m'.islands.map (·.members) = m.islands.map (·.members)

theorem ClaimKept.refl (t : Dom) (m : Meas) : ClaimKept t m m := ⟨rfl, fun _ _ => rfl, rfl, rfl, rfl⟩

theorem ClaimKept.after {a b c : Meas} (k : ClaimKept t b c) (h : ClaimKept t a b) : ClaimKept t a c where
  claim := by rw [k.claim, h.claim]
  confirmed d hd := (k.confirmed d hd).trans (h.confirmed d hd)
  topo := k.topo.trans h.topo
  tables := k.tables.trans h.tables
  members := k.members.trans h.members

theorem ClaimKept.coveredSet {m' : Meas} (h : ClaimKept t m m') : coveredSet m' = coveredSet m :=
  coveredSet_congr (by rw [h.claim]) (by rw [h.claim]) h.topo h.tables h.members

theorem claimKept_writeMailbox (t : Dom) (b : Mailbox) (m : Meas) : ClaimKept t m (writeMailbox t b m) where
  claim := rfl
  confirmed d hd := by simp [inSet_and, inSet_not, inSet_single, hd]
  topo := rfl
  tables := rfl
  members := rfl

theorem claimKept_enterStalled (hi : injectedBy m t = some i) (hat : islandAt m i.members = some i) :
    ClaimKept t m (enterStalled i.members m) := by
  obtain rfl := injectedBy_injector hi
  have hsteady := steady_enterStalled i.members m
  have hwrite := claimKept_writeMailbox i.injector .rest m
  have hclaim := claim_enterStalled hat
  exact ⟨by rw [hclaim]; exact hwrite.claim, by rw [hclaim]; exact hwrite.confirmed, hsteady.topo, hsteady.tables,
    members_enterStalled hat⟩

/-- The island that a tap injects is the one that its member set finds. -/
def InjectsFirst (t : Dom) (m : Meas) : Prop := ∀ i, injectedBy m t = some i → islandAt m i.members = some i

theorem claimKept_stallOnLoss (h : InjectsFirst t m) : ClaimKept t m (stallOnLoss t m) := by
  rcases stallOnLoss_cases t m with heq | ⟨i, hi, heq⟩ <;> rw [heq]
  · exact .refl t m
  · exact claimKept_enterStalled hi (h i hi)

theorem injectsFirst_stallOnLoss (h : InjectsFirst t m) : InjectsFirst t (stallOnLoss t m) := by
  rcases stallOnLoss_cases t m with heq | ⟨i, hi, heq⟩ <;> rw [heq]
  · exact h
  · have hstalled : injectedBy (enterStalled i.members m) t = some i.stalled := by
      rw [enterStalled_spec (h i hi)]
      exact injectedBy_putIsland (j := i.stalled) hi (h i hi) rfl (show i.injector = t from injectedBy_injector hi)
    intro k hk
    obtain rfl : i.stalled = k := Option.some.inj (hstalled.symm.trans hk)
    exact islandAt_enterStalled (h i hi)

/-- The island of a tap that is not PRESENT stalls at the end of its check, if it waited (R119). -/
theorem releaseRefhold_cases (hp : isPresent m t = false) : releaseRefhold t m = m ∨
    ∃ i, injectedBy m t = some i ∧ releaseRefhold t m = enterStalled i.members m := by
  unfold releaseRefhold
  rw [hp]
  split
  · exact .inl rfl
  · next i hi => split <;> first | exact .inl rfl | exact .inr ⟨i, hi, rfl⟩

theorem claimKept_releaseRefhold (hp : isPresent m t = false) (h : InjectsFirst t m) : ClaimKept t m (releaseRefhold t m) := by
  rcases releaseRefhold_cases hp with heq | ⟨i, hi, heq⟩ <;> rw [heq]
  · exact .refl t m
  · exact claimKept_enterStalled hi (h i hi)

/-- A tap at rest stays at rest when an island stalls. -/
theorem mailbox_enterStalled_of_rest {ds : DomSet} (h : (m.taps.get t).mailbox = .rest) :
    ((enterStalled ds m).taps.get t).mailbox = .rest := by
  unfold enterStalled
  split
  · exact h
  · next k _ =>
    show ((writeMailbox k.injector .rest m).taps.get t).mailbox = .rest
    rw [writeMailbox_taps, PerDom.get_set]
    split
    · rfl
    · exact h

/-! ### What a loss leaves -/

theorem refLost_of_not_underRef (h : underRef m t = false) : refLost t m = m := if_neg (by simp [h])

/-- The island of a lost injector stalls; the claim may make it EXTERNAL (R26, R99). -/
theorem lossTold_stalls (hi : injectedBy m t = some i) (hat : islandAt m i.members = some i)
    (hs : i.state = .forming ∨ i.state = .interval ∨ ∃ x, i.state = .cycle x) (hu : underRef m t = false) :
    ((lossTold t p m).taps.get t).mailbox = .rest ∧
    ∃ st, islandAt (lossTold t p m) i.members = some { i.stalled with state := st } ∧ (m.claim.state = .none → st = .stalled) := by
  have hat' : islandAt (lostMeas t p m) i.members = some i := hat
  have hstall : stallOnLoss t (lostMeas t p m) = enterStalled i.members (lostMeas t p m) :=
    stallOnLoss_of_running (m := lostMeas t p m) hi hs
  have hunder : underRef (enterStalled i.members (lostMeas t p m)) t = false := by
    rw [underRef, (quiet_enterStalled ..).ref]; exact hu
  have hclaim := (steady_enterStalled i.members (lostMeas t p m)).claim
  rw [lossTold, hstall, refLost_of_not_underRef hunder]
  obtain ⟨st, hst, hnone⟩ := islandAt_claimCheck_state (islandAt_enterStalled hat')
  refine ⟨?_, st, hst, fun h => hnone (by rw [hclaim]; exact h)⟩
  rw [claimCheck_eq, taps_enterStalled hat', injectedBy_injector hi]
  exact (tap_writeMailbox t .rest _).1

end

section

variable {m : Meas} {r : RefCheck} {p : Presence} {pr : PendingRec}

/-- The check of a lost tap, ended NOT_COMPLETED (R120). -/
def checkLost (r : RefCheck) (p : Presence) (pr : PendingRec) (m : Meas) : Meas :=
  answeredMeas .notCompleted none m.timebase r pr (stallOnLoss r.tap (lostMeas r.tap p m))

theorem stallOnLoss_ref (t : Dom) (m : Meas) : (stallOnLoss t m).ref = m.ref := by
  rcases stallOnLoss_cases t m with heq | ⟨i, -, heq⟩ <;> rw [heq]
  exact (quiet_enterStalled ..).ref

/-- The loss of the tap under check ends the check, and the grant test follows (R120; log 14). -/
theorem lossTold_of_check (hr : m.ref = some r) (hpr : m.pendRchk = some pr) :
    lossTold r.tap p m = claimCheck (releaseRefhold r.tap (checkLost r p pr m)) := by
  have hsteady := steady_stallOnLoss r.tap (lostMeas r.tap p m)
  have href : (stallOnLoss r.tap (lostMeas r.tap p m)).ref = some r := (stallOnLoss_ref ..).trans hr
  have hpend : (stallOnLoss r.tap (lostMeas r.tap p m)).pendRchk = some pr := hsteady.pendRchk.trans hpr
  have htime : (stallOnLoss r.tap (lostMeas r.tap p m)).timebase = m.timebase := hsteady.timebase
  have hunder : underRef (stallOnLoss r.tap (lostMeas r.tap p m)) r.tap = true := by simp [underRef_of_some href]
  rw [lossTold, refLost, if_pos hunder, finishRef_eq _ _ _ href hpend, htime]
  rfl

theorem isPresent_checkLost (d : Dom) : isPresent (checkLost r p pr m) d = (decide (d ≠ r.tap) && isPresent m d) := by
  have hrest := (steady_writeMailbox r.tap .rest (stallOnLoss r.tap (lostMeas r.tap p m))).after
    (steady_stallOnLoss r.tap (lostMeas r.tap p m))
  exact (hrest.isPresent d).trans (isPresent_lostMeas d)

theorem mailbox_releaseRefhold_checkLost :
    ((releaseRefhold r.tap (checkLost r p pr m)).taps.get r.tap).mailbox = .rest := by
  have hrest : ((checkLost r p pr m).taps.get r.tap).mailbox = .rest := (tap_writeMailbox r.tap .rest _).1
  rcases releaseRefhold_cases (t := r.tap) (m := checkLost r p pr m) (by simp [isPresent_checkLost]) with heq | ⟨i, -, heq⟩ <;> rw [heq]
  · exact hrest
  · exact mailbox_enterStalled_of_rest hrest

/-- A claim keeps what it covers, and its confirmations but the lost tap's. -/
theorem claimKept_checkLost (h : InjectsFirst r.tap m) :
    ClaimKept r.tap m (releaseRefhold r.tap (checkLost r p pr m)) := by
  have hlost : InjectsFirst r.tap (lostMeas r.tap p m) := h
  have hstall := injectsFirst_stallOnLoss hlost
  have hanswered : ClaimKept r.tap (stallOnLoss r.tap (lostMeas r.tap p m)) (checkLost r p pr m) := by
    obtain ⟨h1, h2, h3, h4, h5⟩ := claimKept_writeMailbox r.tap .rest (stallOnLoss r.tap (lostMeas r.tap p m))
    exact ⟨h1, h2, h3, h4, h5⟩
  have hinjects : InjectsFirst r.tap (checkLost r p pr m) := hstall
  exact (claimKept_releaseRefhold (by simp [isPresent_checkLost]) hinjects).after
    (hanswered.after ((claimKept_stallOnLoss hlost).after ⟨rfl, fun _ _ => rfl, rfl, rfl, rfl⟩))

end

/-! ### The obligation -/

/-- A loss that leaves an island of a claim in HANDOFF alone tells the grant test only. -/
theorem lossTold_of_handoff {m : Meas} {t : Dom} {p : Presence} (hi : ∀ i, injectedBy m t = some i → i.state = .handoff)
    (hu : underRef m t = false) : lossTold t p m = claimCheck (lostMeas t p m) := by
  rw [lossTold, stallOnLoss_of_free (m := lostMeas t p m) hi, refLost_of_not_underRef (m := lostMeas t p m) hu]

/-- The part of O37 about the records, the flag and the stalled island. -/
theorem lossTimer_records (s : State) (d : Dom) (p : Presence) (st : Time) (hp : (s.meas.taps.get d).presence = some p)
    (hs : p.state = .present) (hst : p.lossStart = some st) (hrun : 100 ≤ (s.meas.timebase - st).toNat) (hf : fitted s.meas d = true) :
    ∃ t, exec (.lossTimerExpiry d) s = .next t ∧
      (t.meas.taps.get d).presence = some { p with state := .lost, joinRun := 0, lastSeq := none, lossStart := none } ∧
      (∀ e, e ≠ d → (t.meas.taps.get e).presence = (s.meas.taps.get e).presence) ∧
      flagSet t.meas .tapLost = true ∧ t.meas.doms = s.meas.doms.set d
        { s.meas.doms.get d with asymRun := 0, asymActive := false } ∧
      t.meas.resultNumber = s.meas.resultNumber ∧ t.meas.topo = s.meas.topo ∧ t.meas.tables = s.meas.tables ∧
      t.loader = s.loader ∧ t.pending = s.pending ∧
      ∀ i, injectedBy s.meas d = some i → islandAt s.meas i.members = some i →
        (i.state = .forming ∨ i.state = .interval ∨ ∃ x, i.state = .cycle x) → underRef s.meas d = false →
        (t.meas.taps.get d).mailbox = ⟨0, .domain, .floating⟩ ∧
        ∃ j, islandAt t.meas i.members = some j ∧ j.slot = i.slot ∧ j.demand = none ∧ j.captured = none ∧
          j.means = .none ∧ (s.meas.claim.state = .none → j.state = .stalled) := by
  have hmoved := onEvent_some (s := s) (lossExpiry_eq hp hs hst hrun)
  have hkept := recordsKept_lossTold (m := s.meas) (t := d) (p := p)
  have hdoms : (lossTold d p s.meas).doms = s.meas.doms := hkept.doms
  refine ⟨_, rfl, ?_, fun e he => ?_, ?_, ?_, ?_, ?_, ?_, hmoved.loader, hmoved.pending, fun i hi hat hst hu => ?_⟩
  · rw [hmoved.presence]
    exact (hkept.presence d).trans (by simp [lostMeas, putPresence])
  · rw [hmoved.presence]
    exact (hkept.presence e).trans (by simp [lostMeas, putPresence, PerDom.get_set_of_ne _ _ he])
  · rw [hmoved.flagSet]
    exact sound_lossTold.flags _ (flagSet_lostMeas hf)
  · rw [hmoved.meas]
    simp only [changeDom, hdoms]
  · rw [hmoved.meas]; exact hkept.resultNumber
  · rw [hmoved.meas]; exact hkept.topo
  · rw [hmoved.meas]; exact hkept.tables
  · obtain ⟨hbox, x, hx, hnone⟩ := lossTold_stalls (p := p) hi hat hst hu
    exact ⟨(hmoved.mailbox d).trans hbox, _, (hmoved.islandAt _).trans hx, rfl, rfl, rfl, rfl, hnone⟩

/-- The part of O37 about an armed claim in HANDOFF. -/
theorem lossTimer_handoff (s : State) (d : Dom) (p : Presence) (st : Time) (hp : (s.meas.taps.get d).presence = some p)
    (hs : p.state = .present) (hst : p.lossStart = some st) (hrun : 100 ≤ (s.meas.timebase - st).toNat)
    (hclaim : s.meas.claim.state = .handoff) (harmed : s.meas.claim.armed = true)
    (hfree : ∀ i, injectedBy s.meas d = some i → i.state = .handoff) (hu : underRef s.meas d = false) :
    let waits := fun e => inSet (coveredSet s.meas) e = true ∧ isPresent s.meas e = true ∧ e ≠ d ∧
      inSet s.meas.claim.confirmed e = false
    ∃ t, exec (.lossTimerExpiry d) s = .next t ∧ t.meas.claim.confirmed = s.meas.claim.confirmed ∧
      (∀ e, (t.meas.taps.get e).mailbox = (s.meas.taps.get e).mailbox ∧ (t.meas.taps.get e).ramp = (s.meas.taps.get e).ramp) ∧
      t.meas.suspended = s.meas.suspended ∧
      ((∃ e, waits e) → t.meas.claim.state = .handoff ∧ t.meas.pendXclaim = s.meas.pendXclaim ∧
        t.meas.islands = s.meas.islands ∧ outgoing t = outgoing s) ∧
      ((∀ e, ¬ waits e) → t.meas.claim.state = .granted ∧ t.meas.pendXclaim = none ∧ flagSet t.meas .handoffDone = true ∧
        (∀ i, claimedIsland s.meas = some i →
          islandAt t.meas i.members = (islandAt s.meas i.members).map fun j => { j with state := .external }) ∧
        ∀ pr, s.meas.pendXclaim = some pr → ∃ f, outgoing t = outgoing s ++ [f] ∧ GrantAnswer pr t.meas f) := by
  intro waits
  have hmoved := onEvent_some (s := s) (lossExpiry_eq hp hs hst hrun)
  rw [lossTold_of_handoff hfree hu] at hmoved
  have hcovered : coveredSet (lostMeas d p s.meas) = coveredSet s.meas := rfl
  have htap : ∀ e, ((lostMeas d p s.meas).taps.get e).mailbox = (s.meas.taps.get e).mailbox ∧
      ((lostMeas d p s.meas).taps.get e).ramp = (s.meas.taps.get e).ramp := fun e => by
    simp only [lostMeas, putPresence, followConditions_taps, changeTap_taps, PerDom.get_set]
    split
    · subst_vars; exact ⟨rfl, rfl⟩
    · exact ⟨rfl, rfl⟩
  refine ⟨_, rfl, ?_, fun e => ⟨?_, ?_⟩, ?_, fun ⟨e, hcov, hpres, hne, hunc⟩ => ?_, fun hnone => ?_⟩
  · rw [hmoved.meas]
    show (claimCheck (lostMeas d p s.meas)).claim.confirmed = _
    rw [claimCheck_claim]
    rfl
  · rw [hmoved.mailbox, ← (htap e).1, changeDom_taps, claimCheck_eq]
  · rw [hmoved.ramp, ← (htap e).2, changeDom_taps, claimCheck_eq]
  · rw [hmoved.meas]
    show (claimCheck (lostMeas d p s.meas)).suspended = _
    rw [claimCheck_eq]
    rfl
  · have hpres' : isPresent (lostMeas d p s.meas) e = true := by simp [isPresent_lostMeas, hne, hpres]
    have hwaits : claimCheck (lostMeas d p s.meas) = lostMeas d p s.meas := claimCheck_of_waiting harmed hcov hpres' hunc
    rw [hwaits] at hmoved
    refine ⟨?_, by rw [hmoved.meas]; rfl, by rw [hmoved.meas]; rfl, hmoved.upstream⟩
    rw [hmoved.meas]
    exact hclaim
  · have hall : ∀ e, inSet (coveredSet (lostMeas d p s.meas)) e = true → isPresent (lostMeas d p s.meas) e = true →
        inSet (lostMeas d p s.meas).claim.confirmed e = true := by
      intro e hcov hpres
      rw [isPresent_lostMeas, Bool.and_eq_true, decide_eq_true_iff] at hpres
      by_contra hunc
      rw [Bool.not_eq_true] at hunc
      exact hnone e ⟨hcov, hpres.2, hpres.1, hunc⟩
    have hgrant : claimCheck (lostMeas d p s.meas) = grantWith .ok (lostMeas d p s.meas) :=
      claimCheck_of_confirmed hclaim harmed hall
    have hstate : (claimCheck (lostMeas d p s.meas)).claim.state = .granted := by rw [hgrant, grantWith_claim]
    refine ⟨?_, ?_, ?_, fun i hi => ?_, fun pr hpr => ?_⟩
    · rw [hmoved.meas]; exact hstate
    · rw [hmoved.meas]
      exact (congrArg Meas.pendXclaim hgrant).trans (grantWith_pendXclaim ..)
    · rw [hmoved.flagSet]
      show flagSet (claimCheck (lostMeas d p s.meas)) .handoffDone = true
      rw [hgrant, grantWith_handoffDone]
    · rw [hmoved.islandAt]
      show islandAt (claimCheck (lostMeas d p s.meas)) i.members = _
      rw [hgrant]
      exact islandAt_grantWith_claimed (m := lostMeas d p s.meas) .ok hclaim hi
    · obtain ⟨f, hheld, hf⟩ := (claimCheck_answer (lostMeas d p s.meas)).2 pr hpr
        (by rw [hstate]; exact fun h => by rw [show (lostMeas d p s.meas).claim.state = _ from hclaim] at h; cases h)
      refine ⟨f, outgoing_of_held hmoved hheld, GrantAnswer.moved ?_ hmoved⟩
      exact hf

/-- The part of O37 about the tap under check. -/
theorem lossTimer_check (s : State) (p : Presence) (st : Time) (r : RefCheck) (pr : PendingRec) (hr : s.meas.ref = some r)
    (hpr : s.meas.pendRchk = some pr) (hp : (s.meas.taps.get r.tap).presence = some p) (hs : p.state = .present)
    (hst : p.lossStart = some st) (hrun : 100 ≤ (s.meas.timebase - st).toNat) :
    ∃ t, exec (.lossTimerExpiry r.tap) s = .next t ∧ t.meas.ref = none ∧ t.meas.pendRchk = none ∧
      (t.meas.taps.get r.tap).mailbox = ⟨0, .domain, .floating⟩ ∧
      flagSet t.meas .refDone = true ∧ flagSet t.meas .refFail = flagSet s.meas .refFail ∧
      (s.meas.claim.state = .handoff → s.meas.claim.armed = true →
        (∀ i, injectedBy s.meas r.tap = some i → islandAt s.meas i.members = some i) →
        (t.meas.claim.state = .granted ↔ ∀ e, inSet (coveredSet s.meas) e = true → isPresent s.meas e = true → e ≠ r.tap →
          inSet s.meas.claim.confirmed e = true)) ∧
      ∃ f more, outgoing t = outgoing s ++ f :: more ∧ f.kind = pr.kind ∧ f.tag = pr.tag ∧
        f.payload.drop 2 = be8 r.tap.number ++ [2, 0, 0, 0] ++ be16 r.rref ++ be8 r.row.refTol ++ be32 s.meas.timebase.toNat ∧
        (t.meas.claim.state = s.meas.claim.state → more = []) ∧
        ∀ x, s.meas.pendXclaim = some x → t.meas.claim.state ≠ s.meas.claim.state → ∃ g, more = [g] ∧ GrantAnswer x t.meas g := by
  have hmoved := onEvent_some (s := s) (lossExpiry_eq hp hs hst hrun)
  rw [lossTold_of_check hr hpr] at hmoved
  have hstall := steady_stallOnLoss r.tap (lostMeas r.tap p s.meas)
  have hrelease := steady_releaseRefhold r.tap (checkLost r p pr s.meas)
  have hpresent := isPresent_checkLost (m := s.meas) (r := r) (p := p) (pr := pr)
  obtain ⟨released, hreleased⟩ : ∃ x, x = releaseRefhold r.tap (checkLost r p pr s.meas) := ⟨_, rfl⟩
  rw [← hreleased] at hmoved hrelease
  have hflags : ∀ f, f ≠ .handoffDone → flagSet (claimCheck released) f =
      flagSet (checkLost r p pr s.meas) f := fun f hf => by
    rw [flagSet_claimCheck hf, flagSet, hrelease.flags]; rfl
  have hstate : released.claim.state = s.meas.claim.state := by
    have hfinished : released.claim.state = (stallOnLoss r.tap (lostMeas r.tap p s.meas)).claim.state := by rw [hrelease.claim]; rfl
    rw [hfinished, hstall.claim]
    rfl
  have hpend : released.pendXclaim = s.meas.pendXclaim := hrelease.pendXclaim.trans hstall.pendXclaim
  have hheld : released.heldResponses = s.meas.heldResponses ++ [checkResponse .notCompleted none s.meas.timebase r pr
      (stallOnLoss r.tap (lostMeas r.tap p s.meas))] := by
    rw [hrelease.held]
    exact congrArg (· ++ _) hstall.held
  obtain ⟨more, hmore, hsame, hanswer⟩ := claimCheck_held_append released
  have htstate : (onEvent (lossExpiry r.tap) s).meas.claim.state = (claimCheck released).claim.state := by rw [hmoved.meas]; rfl
  refine ⟨_, rfl, ?_, ?_, ?_, ?_, ?_, fun hclaim harmed hinj => ?_,
    checkResponse .notCompleted none s.meas.timebase r pr (stallOnLoss r.tap (lostMeas r.tap p s.meas)), more, outgoing_of_held hmoved (l := _ :: more) ?_,
      rfl, rfl, ?_, fun h => hsame ?_, fun x hx hne => ?_⟩
  · rw [hmoved.meas]
    show (claimCheck released).ref = none
    rw [claimCheck_eq, hreleased, releaseRefhold_ref]
    rfl
  · rw [hmoved.meas]
    show (claimCheck released).pendRchk = none
    rw [claimCheck_eq]
    exact hrelease.pendRchk
  · rw [hmoved.mailbox, changeDom_taps, claimCheck_eq, hreleased]
    exact mailbox_releaseRefhold_checkLost
  · rw [hmoved.flagSet]
    exact (hflags .refDone (by decide)).trans (checkFlags_refDone ..)
  · rw [hmoved.flagSet]
    refine (hflags .refFail (by decide)).trans ((checkFlags_refFail ..).trans ?_)
    rw [hstall.flags]
    have hlost := flagSet_followConditions .refFail
      (putPresence r.tap { p with state := .lost, joinRun := 0, lastSeq := none, lossStart := none } s.meas)
    exact (Bool.or_false _).trans (hlost.trans (Bool.or_false _))
  · have hkept : ClaimKept r.tap s.meas released := hreleased ▸ claimKept_checkLost hinj
    have harmed' : released.claim.armed = true := by rw [hkept.claim]; exact harmed
    rw [htstate, claimCheck_granted_iff_confirmed (hstate.trans hclaim) harmed', hkept.coveredSet]
    simp only [hrelease.isPresent, hpresent, Bool.and_eq_true, decide_eq_true_iff]
    refine forall₂_congr fun e _ => ⟨fun h hp he => ?_, fun h ⟨he, hp⟩ => ?_⟩
    · rw [← hkept.confirmed e he]; exact h ⟨he, hp⟩
    · rw [hkept.confirmed e he]; exact h hp he
  · rw [changeDom_heldResponses, hmore, hheld, List.append_assoc]
    rfl
  · exact (checkResponse_payload .notCompleted none s.meas.timebase r pr _).2
  · rw [← htstate, h, hstate]
  · obtain ⟨g, hg, hgrant⟩ := hanswer x (hpend.trans hx) (by rw [← htstate, hstate]; exact hne)
    refine ⟨g, hg, GrantAnswer.moved ?_ hmoved⟩
    exact hgrant

/-- Settles O37. -/
theorem lossTimerLoses : Obligations.LossTimerLoses :=
  ⟨lossTimer_records, fun s d p st hp hs hst hrun hclaim harmed _ hfree hu =>
    lossTimer_handoff s d p st hp hs hst hrun hclaim harmed hfree hu, lossTimer_check⟩

end Sys2Proof.Machine
end

section
/-! SUPPORT and PROOFS. The sample intake (R128): what every block leaves of presence and of deferred responses, the traffic unit's frame
(R152, R153, R181), and how a sample frame is accepted; sequence numbers and joins (R129, R132). -/

namespace Sys2Proof.Machine

/-! ### What a sample leaves of presence and of deferred responses -/

/-- From `m` to `m'` the presence records stay; a deferred request is kept or answered, and while none is answered nothing more is held. -/
structure TakenIn (m m' : Meas) : Prop where
  presence : ∀ d, (m'.taps.get d).presence = (m.taps.get d).presence
  xclaim : m'.pendXclaim = m.pendXclaim ∨ m'.pendXclaim = none
  rchk : m'.pendRchk = m.pendRchk ∨ m'.pendRchk = none
  held : m'.pendXclaim = m.pendXclaim → m'.pendRchk = m.pendRchk → m'.heldResponses = m.heldResponses

theorem TakenIn.refl (m : Meas) : TakenIn m m := ⟨fun _ => rfl, .inl rfl, .inl rfl, fun _ _ => rfl⟩

/-- A record that is kept over two steps, each of which keeps or clears it, is kept over the first. -/
theorem kept_first {α : Type} {a b c : Option α} (hab : b = a ∨ b = none) (hbc : c = b ∨ c = none) (h : c = a) : b = a := by
  rcases hab with hb | hb
  · exact hb
  · rcases hbc with hc | hc
    · rw [← hc, h]
    · rw [hb, ← h, hc]

theorem kept_or_none {α : Type} {a b c : Option α} (hab : b = a ∨ b = none) (hbc : c = b ∨ c = none) : c = a ∨ c = none := by
  rcases hbc with hc | hc
  · rw [hc]; exact hab
  · exact .inr hc

theorem TakenIn.after {a b c : Meas} (k : TakenIn b c) (h : TakenIn a b) : TakenIn a c where
  presence d := (k.presence d).trans (h.presence d)
  xclaim := kept_or_none h.xclaim k.xclaim
  rchk := kept_or_none h.rchk k.rchk
  held hx hr := by
    have hx' := kept_first h.xclaim k.xclaim hx
    have hr' := kept_first h.rchk k.rchk hr
    rw [k.held (hx.trans hx'.symm) (hr.trans hr'.symm), h.held hx' hr']

theorem Steady.takenIn {m m' : Meas} (h : Steady m m') : TakenIn m m' :=
  ⟨h.presence, .inl h.pendXclaim, .inl h.pendRchk, fun _ _ => h.held⟩

/-- What moves neither a tap nor a deferred record takes nothing in. -/
theorem takenIn_of_eq {m m' : Meas} (ht : m'.taps = m.taps) (hx : m'.pendXclaim = m.pendXclaim) (hr : m'.pendRchk = m.pendRchk)
    (hh : m'.heldResponses = m.heldResponses) : TakenIn m m' :=
  ⟨fun d => by rw [ht], .inl hx, .inl hr, fun _ _ => hh⟩

theorem Judging.takenIn {m m' : Meas} (h : Judging m m') : TakenIn m m' := by
  unfold Judging at h
  rw [h]
  exact takenIn_of_eq rfl rfl rfl rfl

theorem takenIn_publish (ds : DomSet) (timedOut : Bool) (m : Meas) : TakenIn m (publish ds timedOut m) := by
  unfold publish
  split
  · exact .refl m
  · split
    · exact .refl m
    · refine (judging_evaluate ..).takenIn.after ?_
      split <;> exact takenIn_of_eq rfl rfl rfl rfl

theorem takenIn_completePlateau (ph : Phase) (ds : DomSet) (m : Meas) : TakenIn m (completePlateau ph ds m) := by
  unfold completePlateau
  split
  · exact .refl m
  · have hput : ∀ k, TakenIn m (putIsland k m) := fun k => takenIn_of_eq rfl rfl rfl rfl
    dsimp only
    split
    · exact (steady_enterRamp ..).takenIn.after (hput _)
    · exact (steady_enterRamp ..).takenIn.after (hput _)
    · exact (steady_enterRamp ..).takenIn.after ((takenIn_publish ..).after (hput _))

theorem takenIn_cycleSample (t : Dom) (delta : Nat) (x : Sample) (m : Meas) : TakenIn m (cycleSample t delta x m) := by
  have hput : ∀ k, TakenIn m (putIsland k m) := fun k => takenIn_of_eq rfl rfl rfl rfl
  unfold cycleSample
  split
  · exact .refl m
  · split
    · split
      · exact .refl m
      · dsimp only
        split
        · exact (steady_enterPlateau ..).takenIn.after (hput _)
        · split
          · exact (takenIn_completePlateau ..).after (hput _)
          · exact hput _
    · exact .refl m

theorem takenIn_deferRchk (st : Status) (vs : List Byte) (m : Meas) : TakenIn m (deferRchk st vs m) := by
  unfold deferRchk
  split
  · exact .refl m
  · next p hp => exact ⟨fun _ => rfl, .inl rfl, .inr rfl, fun _ h => by rw [hp] at h; cases h⟩

theorem takenIn_finishRef (o : RefOutcome) (rraw : Option Nat) (decided : Time) (m : Meas) :
    TakenIn m (finishRef o rraw decided m) := by
  unfold finishRef
  split
  · exact .refl m
  · next r _ =>
    have hended : ∀ m : Meas, TakenIn m { m with ref := none } := fun _ => takenIn_of_eq rfl rfl rfl rfl
    have hraise : ∀ g (m : Meas), TakenIn m (raise g m) := fun _ _ => takenIn_of_eq rfl rfl rfl rfl
    have hraised := (hraise .refDone _).after (steady_writeMailbox r.tap .rest m).takenIn
    refine (steady_releaseRefhold ..).takenIn.after ((hended _).after ((takenIn_deferRchk ..).after ?_))
    split
    · exact (hraise ..).after hraised
    · exact hraised

theorem takenIn_afterRefRamp (t : Dom) (m : Meas) : TakenIn m (afterRefRamp t m) := by
  unfold afterRefRamp
  split
  · exact .refl m
  · next r hr =>
    split
    · exact (steady_switchToRef ..).takenIn
    · exact (steady_changeRef ..).takenIn
    · exact (steady_changeRef ..).takenIn
    · rw [endRef, hr]; exact takenIn_finishRef ..
    · exact .refl m

theorem takenIn_startRamp (t : Dom) (r : Ramp) {onEnd : Meas → Meas} (m : Meas) (h : ∀ m, TakenIn m (onEnd m)) :
    TakenIn m (startRamp t r onEnd m) := by
  unfold startRamp
  split
  · exact (h _).after (Steady.takenIn (steady_changeTap t _ m fun _ => rfl))
  · exact Steady.takenIn (steady_changeTap t _ m fun _ => rfl)

theorem takenIn_refRamp (st : CycleStep) (m : Meas) : TakenIn m (refRamp st m) := by
  unfold refRamp
  split
  · exact .refl m
  · exact (takenIn_startRamp _ _ _ (takenIn_afterRefRamp _)).after (steady_changeRef ..).takenIn

theorem takenIn_refComplete (ph : Phase) (m : Meas) : TakenIn m (refComplete ph m) := by
  unfold refComplete
  split
  · exact .refl m
  · dsimp only
    split
    · exact takenIn_refRamp ..
    · exact (takenIn_refRamp ..).after (steady_changeRef ..).takenIn
    · exact (takenIn_refRamp ..).after (steady_changeRef ..).takenIn

theorem takenIn_refSample (t : Dom) (delta : Nat) (x : Sample) (m : Meas) : TakenIn m (refSample t delta x m) := by
  have hchange : ∀ f, TakenIn m (changeRef f m) := fun f => (steady_changeRef f m).takenIn
  unfold refSample
  split
  · exact .refl m
  · split
    · split
      · exact .refl m
      · split
        · exact .refl m
        · dsimp only
          split
          · exact (steady_changeRef ..).takenIn.after (hchange _)
          · split
            · exact (takenIn_refComplete ..).after (hchange _)
            · exact hchange _
    · exact .refl m

theorem takenIn_claimCheck (m : Meas) : TakenIn m (claimCheck m) := by
  refine ⟨fun d => by rw [claimCheck_eq m], ?_, .inl (by rw [claimCheck_eq m]), fun hx _ => ?_⟩
  · rcases claimCheck_outcome m with ⟨h, -⟩ | ⟨h, -⟩ <;> rw [h]
    · rw [armClaim_eq]; exact .inl rfl
    · exact .inr (grantWith_pendXclaim ..)
  · rcases claimCheck_outcome m with ⟨h, -⟩ | ⟨h, -⟩ <;> rw [h] at hx ⊢
    · rw [armClaim_eq]
    · rw [grantWith_pendXclaim] at hx
      rw [armClaim_eq m]
      exact grantWith_held_of_none (m := { m with claim := _ }) .ok hx.symm

/-- The watch changes verdict records and flags alone, or it demands a FAST cycle (R89). -/
theorem watchSample_cases (d : Dom) (x : Sample) (m : Meas) :
    Judging m (watchSample d x m) ∨ watchSample d x m = demandOn d .fast (asymMarked d m) := by
  by_cases hw : watched (m.taps.get d).mailbox x = true
  · cases hrow : cycleRow m (profileInForce m d) with
    | none => left; simp [watchSample, hw, hrow, Judging.refl]
    | some row =>
      by_cases ha : asymmetric row.asymPct x = true
      · by_cases hreach : row.asymCount ≤ satInc 100 (m.doms.get d).asymRun ∧ (m.doms.get d).asymActive = false
        · exact .inr (watchSample_of_reached hrow hw ha hreach.1 hreach.2)
        · left
          rw [watchSample_of_counted hrow hw ha (by
            rw [not_and_or, not_le, Bool.not_eq_false] at hreach; exact hreach)]
          rfl
      · left; rw [watchSample_of_even hrow hw ha]; rfl
  · left; rw [watchSample_of_not_watched hw]; exact .refl m

theorem takenIn_watchSample (d : Dom) (x : Sample) (m : Meas) : TakenIn m (watchSample d x m) := by
  rcases watchSample_cases d x m with h | h
  · exact h.takenIn
  · rw [h]
    exact (steady_demandOn ..).takenIn.after (takenIn_of_eq rfl rfl rfl rfl)

theorem takenIn_serveSample (t : Dom) (delta : Nat) (x : Sample) (m : Meas) : TakenIn m (serveSample t delta x m) :=
  (takenIn_watchSample ..).after ((takenIn_claimCheck _).after ((steady_confirmSample ..).takenIn.after
    ((takenIn_refSample ..).after (takenIn_cycleSample ..))))

/-! ### A frame in service (R128) -/

/-- The measurement side when the blocks are told of a frame in service: its presence record renewed, and a join or a gap told of. -/
def arrivedMeas (t : Dom) (delta : Nat) (joined : Bool) (p : Presence) (x : Sample) (m : Meas) : Meas :=
  if joined = true then recoverOnPresent t (putPresence t { p with latest := some x } m)
  else if 2 ≤ delta then raise .sampleGap (putPresence t { p with latest := some x } m)
  else putPresence t { p with latest := some x } m

/-- The measurement side after a frame in service. -/
def servedMeas (t : Dom) (delta : Nat) (joined : Bool) (p : Presence) (x : Sample) (m : Meas) : Meas :=
  serveSample t delta x (arrivedMeas t delta joined p x m)

section

variable {t : Dom} {delta : Nat} {joined : Bool} {p : Presence} {x : Sample} {m : Meas}

theorem takenIn_arrivedMeas : TakenIn (putPresence t { p with latest := some x } m) (arrivedMeas t delta joined p x m) := by
  unfold arrivedMeas
  split
  · exact (steady_recoverOnPresent ..).takenIn
  · split
    · exact takenIn_of_eq rfl rfl rfl rfl
    · exact .refl _

theorem takenIn_servedMeas : TakenIn (putPresence t { p with latest := some x } m) (servedMeas t delta joined p x m) :=
  (takenIn_serveSample t delta x _).after takenIn_arrivedMeas

/-- A frame in service leaves the deferred responses alone while it completes none. -/
theorem held_servedMeas (hx : (servedMeas t delta joined p x m).pendXclaim = m.pendXclaim)
    (hr : (servedMeas t delta joined p x m).pendRchk = m.pendRchk) :
    (servedMeas t delta joined p x m).heldResponses = m.heldResponses :=
  takenIn_servedMeas.held hx hr

theorem presence_servedMeas (d : Dom) : ((servedMeas t delta joined p x m).taps.get d).presence =
    if d = t then some { p with latest := some x } else (m.taps.get d).presence := by
  rw [takenIn_servedMeas.presence d, putPresence_taps, PerDom.get_set]
  split <;> rfl

theorem sound_servedMeas {p₀ : Presence} (hp : (m.taps.get t).presence = some p₀) (h : p.state = .lost → p₀.state = .lost) :
    Sound m (servedMeas t delta joined p x m) := by
  refine (sound_serveSample ..).after ?_
  have hput : Sound m (putPresence t { p with latest := some x } m) := sound_putPresence hp h
  unfold arrivedMeas
  split
  · exact (steady_recoverOnPresent ..).sound.after hput
  · split
    · exact (sound_raise ..).after hput
    · exact hput

end

/-! ### The frame that the traffic unit admits (R181) -/

theorem getLsbD_ofNat8 (n : Nat) {i : Nat} (hi : i < 8) : (BitVec.ofNat 8 n).getLsbD i = decide (n / 2 ^ i % 2 = 1) := by
  rw [BitVec.getLsbD_ofNat, Nat.testBit_eq_decide_div_mod_eq]
  simp [hi]

theorem decide_toNat_eq_one (b : Bool) : decide (b.toNat = 1) = b := by cases b <;> rfl

/-- Tag byte A holds a verdict, two bits, the topology state and the claim state. -/
theorem tagA_layout {v t c : Nat} {h a : Bool} (hv : v < 4) (ht : t < 4) (hc : c < 4) :
    let b : Byte := BitVec.ofNat 8 (v + byteOfBits [(h, 2), (a, 3)] + t * 16 + c * 64)
    b.toNat % 4 = v ∧ b.getLsbD 2 = h ∧ b.getLsbD 3 = a ∧ b.toNat / 16 % 4 = t ∧ b.toNat / 64 = c := by
  have hh := Bool.toNat_le h
  have ha := Bool.toNat_le a
  have hsum : byteOfBits [(h, 2), (a, 3)] = h.toNat * 4 + a.toNat * 8 := rfl
  have hbit2 : (v + (h.toNat * 4 + a.toNat * 8) + t * 16 + c * 64) / 2 ^ 2 % 2 = h.toNat := by omega
  have hbit3 : (v + (h.toNat * 4 + a.toNat * 8) + t * 16 + c * 64) / 2 ^ 3 % 2 = a.toNat := by omega
  dsimp only
  rw [hsum, getLsbD_ofNat8 _ (by decide), getLsbD_ofNat8 _ (by decide), hbit2, hbit3, decide_toNat_eq_one, decide_toNat_eq_one,
    BitVec.toNat_ofNat]
  refine ⟨?_, rfl, rfl, ?_, ?_⟩ <;> omega

/-- Tag byte B holds an island code, a mode bit and the asymmetry marker. -/
theorem tagB_layout {i md : Nat} {s : Bool} (hi : i < 16) (hmd : md < 2) :
    let b : Byte := BitVec.ofNat 8 (i + md * 16 + byteOfBits [(s, 5)])
    b.toNat % 16 = i ∧ b.getLsbD 4 = decide (md = 1) ∧ b.toNat % 32 = i + md * 16 ∧ b.getLsbD 5 = s ∧ b.toNat / 64 = 0 := by
  have hs := Bool.toNat_le s
  have hsum : byteOfBits [(s, 5)] = s.toNat * 32 := by simp [byteOfBits]
  have hbit4 : (i + md * 16 + s.toNat * 32) / 2 ^ 4 % 2 = md := by omega
  have hbit5 : (i + md * 16 + s.toNat * 32) / 2 ^ 5 % 2 = s.toNat := by omega
  dsimp only
  rw [hsum, getLsbD_ofNat8 _ (by decide), getLsbD_ofNat8 _ (by decide), hbit4, hbit5, decide_toNat_eq_one, BitVec.toNat_ofNat]
  refine ⟨?_, rfl, ?_, rfl, ?_⟩ <;> omega

theorem verdict_code_lt (v : Verdict) : v.code < 4 := by cases v <;> decide
theorem topoState_code_lt (s : TopoState) : s.code < 4 := by cases s <;> decide
theorem claimState_code_lt (s : ClaimState) : s.code < 4 := by cases s <;> decide
theorem mode_code_lt (md : Mode) : md.code < 2 := by cases md <;> decide
theorem mode_code_eq_one (md : Mode) : md.code = 1 ↔ md = .full := by cases md <;> decide

theorem islandState_code_lt (s : IslandState) : s.code < 16 := by
  cases s with
  | cycle st => cases st <;> decide
  | _ => decide

/-- The two tag bytes (R181). -/
theorem tagLayout_tags (m : Meas) (d : Dom) : TagLayout m d (BitVec.ofNat 8 (tagA m d)) (BitVec.ofNat 8 (tagB m d)) := by
  obtain ⟨hverdict, hheld, hattention, htopo, hclaim⟩ := tagA_layout (h := held m d) (a := attention m)
    (verdict_code_lt (m.doms.get d).verdict) (topoState_code_lt m.topo.state) (claimState_code_lt m.claim.state)
  have hcode : islandCode m d < 16 := by
    unfold islandCode
    cases islandOf m d with
    | none => decide
    | some i => exact islandState_code_lt i.state
  obtain ⟨hisland, hmode, hlow, hasym, hunused⟩ := tagB_layout (s := (m.doms.get d).asymActive) hcode (mode_code_lt (islandMode m d))
  exact {
    verdict := hverdict
    external := hheld
    attention := hattention.trans (Bool.eq_iff_iff.2 (by simp [attention]))
    topology := htopo
    claim := hclaim
    island := fun i hi => by
      have hstate : islandCode m d = i.state.code := by rw [islandCode, hi]; rfl
      have hfull : islandMode m d = i.mode := by rw [islandMode, hi]; rfl
      exact ⟨hisland.trans hstate, hmode.trans (by rw [hfull]; exact decide_eq_decide.2 (mode_code_eq_one _))⟩
    noIsland := fun hi => by
      have hstate : islandCode m d = 0 := by rw [islandCode, hi]; rfl
      have hfast : (islandMode m d).code = 0 := by rw [islandMode, hi]; rfl
      exact hlow.trans (by rw [hstate, hfast])
    asym := hasym
    unused := hunused }

/-- The tag bytes do not ask what is moved on. -/
theorem TagLayout.moved {u t : State} {d : Dom} {a b : Byte} (h : TagLayout u.meas d a b) (k : OutputsMoved u t) :
    TagLayout t.meas d a b := by
  rw [k.meas]
  exact ⟨h.verdict, h.external, h.attention, h.topology, h.claim, h.island, h.noIsland, h.asym, h.unused⟩

theorem forwardedFrame_of_plain {d : Dom} {f : Frame} {m : Meas} (h : fwdAnnotate (forwardImage m) d ≠ 1) :
    forwardedFrame d f m = f := if_neg h

theorem forwardedFrame_of_annotated {d : Dom} {f : Frame} {m : Meas} (h : fwdAnnotate (forwardImage m) d = 1) :
    ∃ a b, forwardedFrame d f m = { f with payload := f.payload ++ [a, b] } ∧ TagLayout m d a b := by
  refine ⟨_, _, (if_pos h).trans ?_, tagLayout_tags m d⟩
  rw [be8, be8, List.append_assoc]
  rfl

/-! ### Forwarding (R152) -/

section

variable {d : Dom} {f : Frame} {s : State}

theorem forwardSample_of_zero (h : fwdDecimation (forwardImage s.meas) d = 0) : forwardSample d f s = s := if_pos h

theorem forwardSample_of_counted (h : s.link.decim.get d + 1 < fwdDecimation (forwardImage s.meas) d) :
    forwardSample d f s = { s with link := { s.link with decim := s.link.decim.set d (s.link.decim.get d + 1) } } :=
  (if_neg (by omega)).trans (if_pos h)

theorem forwardSample_of_offered (hk : 0 < fwdDecimation (forwardImage s.meas) d)
    (hn : fwdDecimation (forwardImage s.meas) d ≤ s.link.decim.get d + 1) :
    forwardSample d f s = offerRelayed (fwdHighMark (forwardImage s.meas)) (forwardedFrame d f s.meas)
      { s with link := { s.link with decim := s.link.decim.set d 0 } } :=
  (if_neg (by omega)).trans (if_neg (by omega))

theorem forwardSample_of_admitted (hk : 0 < fwdDecimation (forwardImage s.meas) d)
    (hn : fwdDecimation (forwardImage s.meas) d ≤ s.link.decim.get d + 1)
    (hroom : s.link.upQueue.length < fwdHighMark (forwardImage s.meas)) :
    forwardSample d f s = { s with link := { s.link with
      decim := s.link.decim.set d 0, upQueue := s.link.upQueue ++ [forwardedFrame d f s.meas] } } :=
  (forwardSample_of_offered hk hn).trans (offerRelayed_of_lt hroom)

theorem forwardSample_of_dropped (hk : 0 < fwdDecimation (forwardImage s.meas) d)
    (hn : fwdDecimation (forwardImage s.meas) d ≤ s.link.decim.get d + 1)
    (hfull : fwdHighMark (forwardImage s.meas) ≤ s.link.upQueue.length) :
    forwardSample d f s = { s with
      link := { s.link with decim := s.link.decim.set d 0, drops := min 65535 (s.link.drops + 1) }, meas := raise .fwdDrop s.meas } :=
  (forwardSample_of_offered hk hn).trans (offerRelayed_of_le hfull)

/-- The four ways of a sample at the traffic unit. -/
theorem forwardSample_cases (d : Dom) (f : Frame) (s : State) :
    (∃ decim up, (up = [] ∨ up = [forwardedFrame d f s.meas] ∧ s.link.upQueue.length < fwdHighMark (forwardImage s.meas)) ∧
      forwardSample d f s = { s with link := { s.link with decim := decim, upQueue := s.link.upQueue ++ up } }) ∨
    forwardSample d f s = { s with
      link := { s.link with decim := s.link.decim.set d 0, drops := min 65535 (s.link.drops + 1) }, meas := raise .fwdDrop s.meas } := by
  rcases Nat.eq_zero_or_pos (fwdDecimation (forwardImage s.meas) d) with hk | hk
  · exact .inl ⟨s.link.decim, [], .inl rfl, by rw [forwardSample_of_zero hk, List.append_nil]⟩
  · rcases Nat.lt_or_ge (s.link.decim.get d + 1) (fwdDecimation (forwardImage s.meas) d) with hn | hn
    · exact .inl ⟨_, [], .inl rfl, by rw [forwardSample_of_counted hn, List.append_nil]⟩
    · rcases Nat.lt_or_ge s.link.upQueue.length (fwdHighMark (forwardImage s.meas)) with hq | hq
      · exact .inl ⟨_, _, .inr ⟨rfl, hq⟩, forwardSample_of_admitted hk hn hq⟩
      · exact .inr (forwardSample_of_dropped hk hn hq)

/-- The traffic unit changes of the measurement side FWD_DROP alone. -/
theorem forwardSample_meas (d : Dom) (f : Frame) (s : State) :
    (forwardSample d f s).meas = { s.meas with flags := (forwardSample d f s).meas.flags } ∧
    ∀ g, g ≠ .fwdDrop → flagSet (forwardSample d f s).meas g = flagSet s.meas g := by
  rcases forwardSample_cases d f s with ⟨decim, up, -, h⟩ | h <;> rw [h]
  · exact ⟨rfl, fun _ _ => rfl⟩
  · refine ⟨rfl, fun g hg => ?_⟩
    rw [flagSet_raise, decide_eq_false hg, Bool.or_false]

theorem forwardSample_frame (d : Dom) (f : Frame) (s : State) :
    (forwardSample d f s).pending = s.pending ∧ (forwardSample d f s).loader = s.loader := by
  rcases forwardSample_cases d f s with ⟨decim, up, -, h⟩ | h <;> rw [h] <;> exact ⟨rfl, rfl⟩

end

/-! ### Sample frames received whole (R127, R128) -/

/-- A sample frame received whole on Port D from READY. -/
theorem exec_sampleFrame {s : State} {f : RxFrame} {d : Dom} (hr : s.link.rxD.state = .ready) (hc : s.link.rxD.chars = [])
    (hcrc : rxCrcOk f = true) (hlen : f.payload.length = 9) (hkind : f.kind = 0x01) (haddr : f.address = BitVec.ofNat 8 d.number) :
    exec (.sampleFrame f) s = .next (pumpBoth (acceptSample (keptFrame markerSample f)
      { s with link := { s.link with rxD := { s.link.rxD with idle := false } } })) := by
  have hone := listening_of_ready (p := .d) hr hc
  have hfit : 1 ≤ f.address.toNat ∧ f.address.toNat ≤ 8 := by rw [haddr]; cases d <;> decide
  have hdispatch : ∀ s, dispatchFrame .d (keptFrame markerSample f) s = acceptSample (keptFrame markerSample f) s := fun s => by
    simp [dispatchFrame, keptFrame, hfit, hlen, hkind]
  show Host.Outcome.next (receiveFrame .d markerSample f s) = _
  rw [receiveFrame_of_ready (p := .d) hr hc (by omega), endFrame_of_crc _ hcrc, hone, hdispatch]
  rfl

section

variable {s : State} {f : Frame} {d : Dom} {p p' : Presence}

theorem ofNumber_address (haddr : f.address = BitVec.ofNat 8 d.number) : Dom.ofNumber f.address.toNat = some d := by
  rw [haddr]; cases d <;> rfl

/-- An unfitted tap's frame is discarded (R128). -/
theorem acceptSample_of_unfitted (haddr : f.address = BitVec.ofNat 8 d.number) (hf : fitted s.meas d = false) :
    acceptSample f s = s := by
  simp [acceptSample, ofNumber_address haddr, hf]

theorem acceptSample_of_duplicate (haddr : f.address = BitVec.ofNat 8 d.number) (hf : fitted s.meas d = true)
    (hp : (s.meas.taps.get d).presence = some p) (hj : judgeSeq f.tag s.meas.timebase p = (.duplicate, p')) :
    acceptSample f s = s := by
  simp [acceptSample, ofNumber_address haddr, hf, hp, intake, hj]

theorem acceptSample_of_joining (haddr : f.address = BitVec.ofNat 8 d.number) (hf : fitted s.meas d = true)
    (hp : (s.meas.taps.get d).presence = some p) (hj : judgeSeq f.tag s.meas.timebase p = (.joining, p')) :
    acceptSample f s = forwardSample d f { s with meas := putPresence d p' s.meas } := by
  simp [acceptSample, ofNumber_address haddr, hf, hp, intake, hj]

theorem acceptSample_of_inService {delta : Nat} {joined : Bool} (haddr : f.address = BitVec.ofNat 8 d.number)
    (hf : fitted s.meas d = true) (hp : (s.meas.taps.get d).presence = some p)
    (hj : judgeSeq f.tag s.meas.timebase p = (.inService delta joined, p')) :
    acceptSample f s =
      forwardSample d f (admitHeld { s with meas := servedMeas d delta joined p' (sampleOf f.payload) s.meas }) := by
  simp [acceptSample, ofNumber_address haddr, hf, hp, intake, hj, servedMeas, arrivedMeas]

end

/-! ### The judgement of a sequence number (R129, R132) -/

section

variable {seq l : Byte} {now : Time} {p : Presence}

theorem seqDelta_ne_zero (h : seq ≠ l) : (seq - l).toNat ≠ 0 := by
  intro hz
  have : seq - l = 0 := BitVec.eq_of_toNat_eq hz
  exact h (by rwa [sub_eq_zero] at this)

theorem seqDelta_next (l : Byte) : (l + 1 - l).toNat = 1 := by
  rw [add_sub_cancel_left]; rfl

theorem seqDelta_ne_one (h : seq ≠ l + 1) : (seq - l).toNat ≠ 1 := by
  intro hone
  have : seq - l = 1 := BitVec.eq_of_toNat_eq hone
  exact h (by rw [← this]; exact (add_sub_cancel l seq).symm)

/-- The repeated number of a PRESENT tap is a duplicate. -/
theorem judgeSeq_of_repeated (hs : p.state = .present) (hl : p.lastSeq = some l) : judgeSeq l now p = (.duplicate, p) := by
  simp [judgeSeq, hs, hl, seqDelta]

theorem judgeSeq_of_service (hs : p.state = .present) (hl : p.lastSeq = some l) (h : seq ≠ l) :
    judgeSeq seq now p = (.inService (seq - l).toNat false, { p with lastSeq := some seq, lossStart := some now }) := by
  simp only [judgeSeq, hs, hl, seqDelta, beq_self_eq_true, if_true, if_neg (seqDelta_ne_zero h)]

theorem judgeSeq_of_first (hs : p.state ≠ .present) (hz : p.joinRun = 0) :
    judgeSeq seq now p = (.joining, { p with lastSeq := some seq, lossStart := some now, joinRun := 1 }) := by
  simp [judgeSeq, hs, hz]

section

variable (hs : p.state ≠ .present) (hrun : 0 < p.joinRun) (hl : p.lastSeq = some l)

include hs hrun hl

theorem judgeSeq_of_join_repeated : judgeSeq l now p = (.duplicate, p) := by
  have hne : p.joinRun ≠ 0 := hrun.ne'
  simp [judgeSeq, hs, hl, seqDelta, hne]

theorem judgeSeq_of_join_next : judgeSeq (l + 1) now p =
    if p.joinRun + 1 < 3 then (.joining, { p with lastSeq := some (l + 1), lossStart := some now, joinRun := p.joinRun + 1 })
    else (.inService 1 true, { p with lastSeq := some (l + 1), lossStart := some now, state := .present, joinRun := 0 }) := by
  have hne : p.joinRun ≠ 0 := hrun.ne'
  simp only [judgeSeq, beq_false_of_ne hs, Bool.false_eq_true, if_false, hne, hl, seqDelta, seqDelta_next, one_ne_zero, if_true]
  rfl

theorem judgeSeq_of_join_gap (h : seq ≠ l) (hn : seq ≠ l + 1) :
    judgeSeq seq now p = (.joining, { p with lastSeq := some seq, lossStart := some now, joinRun := 1 }) := by
  have hne : p.joinRun ≠ 0 := hrun.ne'
  simp only [judgeSeq, beq_false_of_ne hs, Bool.false_eq_true, if_false, hne, hl, seqDelta, if_neg (seqDelta_ne_zero h),
    if_neg (seqDelta_ne_one hn)]

end

end

end Sys2Proof.Machine
end

section
/-! PROOFS. Sequence numbers, joins and the recovery of a stalled island (R27, R129, R132), and what a frame in service leaves. -/

namespace Sys2Proof.Machine

/-! ### What a frame in service leaves (R128) -/

/-- State `t` is what a frame in service leaves when the blocks leave `m`: but for the outputs and FWD_DROP its measurement side is `m`. -/
structure FrameServed (s : State) (m : Meas) (t : State) : Prop where
  meas : t.meas = { m with taps := t.meas.taps, flags := t.meas.flags, heldResponses := t.meas.heldResponses }
  flags : ∀ g, g ≠ .fwdDrop → flagSet t.meas g = flagSet m g
  tap : ∀ e, t.meas.taps.get e = { m.taps.get e with due := (t.meas.taps.get e).due, levelSeq := (t.meas.taps.get e).levelSeq }
  loader : t.loader = s.loader
  pending : t.pending = s.pending

theorem frameServed_of_moved {s t : State} {m : Meas} {d : Dom} {f : Frame}
    (h : OutputsMoved (forwardSample d f (admitHeld { s with meas := m })) t) : FrameServed s m t := by
  obtain ⟨hmeas, hflags⟩ := forwardSample_meas d f (admitHeld { s with meas := m })
  obtain ⟨hpending, hloader⟩ := forwardSample_frame d f (admitHeld { s with meas := m })
  refine ⟨?_, fun g hg => (h.flagSet g).trans (hflags g hg), fun e => ?_, h.loader.trans hloader, h.pending.trans hpending⟩
  · rw [h.meas, hmeas]
    rfl
  · have htap := h.tap e
    rw [hmeas] at htap
    exact htap

section

variable {s t : State} {m : Meas} (h : FrameServed s m t)

include h

theorem FrameServed.islandAt (ds : DomSet) : islandAt t.meas ds = islandAt m ds := by rw [h.meas]; rfl

theorem FrameServed.mailbox (e : Dom) : (t.meas.taps.get e).mailbox = (m.taps.get e).mailbox := by rw [h.tap e]

theorem FrameServed.ramp (e : Dom) : (t.meas.taps.get e).ramp = (m.taps.get e).ramp := by rw [h.tap e]

theorem FrameServed.presence (e : Dom) : (t.meas.taps.get e).presence = (m.taps.get e).presence := by rw [h.tap e]

theorem FrameServed.refreshStart (e : Dom) : (t.meas.taps.get e).refreshStart = (m.taps.get e).refreshStart := by rw [h.tap e]

end

/-- A sample frame in service, received whole (R128). -/
theorem exec_sampleFrame_inService {s : State} {f : RxFrame} {d : Dom} {p p' : Presence} {delta : Nat} {joined : Bool}
    (hr : s.link.rxD.state = .ready) (hc : s.link.rxD.chars = []) (hcrc : rxCrcOk f = true) (hlen : f.payload.length = 9)
    (hkind : f.kind = 0x01) (haddr : f.address = BitVec.ofNat 8 d.number) (hf : fitted s.meas d = true)
    (hp : (s.meas.taps.get d).presence = some p) (hj : judgeSeq f.tag s.meas.timebase p = (.inService delta joined, p')) :
    ∃ t, exec (.sampleFrame f) s = .next t ∧ OutputsMoved (forwardSample d (keptFrame markerSample f) (admitHeld
      { s with
        link := { s.link with rxD := { s.link.rxD with idle := false } }
        meas := servedMeas d delta joined p' (sampleOf f.payload) s.meas })) t := by
  have haccept := acceptSample_of_inService (f := keptFrame markerSample f)
    (s := { s with link := { s.link with rxD := { s.link.rxD with idle := false } } }) haddr hf hp hj
  refine ⟨_, exec_sampleFrame hr hc hcrc hlen hkind haddr, ?_⟩
  rw [haccept]
  exact pumpBoth_moved _

/-! ### Without a claim -/

theorem confirmSample_of_none {m : Meas} (h : m.claim.state = .none) (d : Dom) (x : Sample) : confirmSample d x m = m := by
  simp [confirmSample, h]

theorem claimCheck_confirmSample_of_none {m : Meas} (h : m.claim.state = .none) (d : Dom) (x : Sample) :
    claimCheck (confirmSample d x m) = m := by
  rw [confirmSample_of_none h, claimCheck_of_none h]

/-- The sample of a tap that is not under check does not reach the reference check unit (R117). -/
theorem refSample_of_not_underRef {m : Meas} {d : Dom} (h : underRef m d = false) (delta : Nat) (x : Sample) :
    refSample d delta x m = m := by
  refine refSample_of_unused delta x fun r ph hr ht => ?_
  rw [underRef_of_some hr, ht, beq_self_eq_true] at h
  cases h

/-! ### The recovery of a stalled island (R27) -/

/-- A FORMING island keeps all but its demand when the watch takes a sample, and a tap at level 0 on its domain stays so. -/
theorem watchSample_of_forming {m : Meas} {d : Dom} {ds : DomSet} {j : Island} (x : Sample) (hj : islandAt m ds = some j)
    (hs : j.state = .forming) (hbox : (m.taps.get d).mailbox = .quiet) (hramp : (m.taps.get d).ramp = none) :
    ((watchSample d x m).taps.get d).mailbox = .quiet ∧ ((watchSample d x m).taps.get d).ramp = none ∧
    ∃ demand, islandAt (watchSample d x m) ds = some { j with demand := demand } := by
  rcases watchSample_cases d x m with h | h
  · unfold Judging at h
    rw [h]
    exact ⟨hbox, hramp, j.demand, hj⟩
  · rw [h]
    obtain ⟨mk, hmk⟩ : ∃ mk, mk = asymMarked d m := ⟨_, rfl⟩
    have hj' : islandAt mk ds = some j := by rw [hmk]; exact hj
    have hbox' : (mk.taps.get d).mailbox = .quiet := by rw [hmk]; exact hbox
    have hramp' : (mk.taps.get d).ramp = none := by rw [hmk]; exact hramp
    rw [← hmk]
    have huntouched : ((mk.taps.get d).mailbox = .quiet ∧ (mk.taps.get d).ramp = none ∧
        ∃ demand, islandAt mk ds = some { j with demand := demand }) := ⟨hbox', hramp', j.demand, hj'⟩
    unfold demandOn
    split
    · exact huntouched
    · next k hk =>
      have hkat := islandAt_of_islandOf hk
      have hsame : k.members = ds → k = j := by
        rintro rfl
        exact Option.some.inj (hkat.symm.trans hj')
      split
      · next hks =>
        have hne : k.members ≠ ds := fun he => by rw [hsame he, hs] at hks; cases hks
        cases hrow : cycleRow mk k.profile with
        | none => simpa [startCycle, hkat, hrow] using huntouched
        | some row =>
          rw [startCycle_spec .fast hkat hrow]
          refine ⟨?_, ?_, j.demand, ?_⟩
          · rw [putIsland_taps, writeMailbox_taps, PerDom.get_set]
            split
            · rfl
            · exact hbox'
          · exact ramp_writeMailbox (t := k.injector) .quiet hramp'
          · refine Eq.trans (islandAt_putIsland_of_ne ?_) hj'
            exact hne
      all_goals first
        | exact huntouched
        | refine ⟨hbox', hramp', ?_⟩
          by_cases he : k.members = ds
          · obtain rfl := hsame he
            exact ⟨_, islandAt_put_changed hj' rfl⟩
          · refine ⟨j.demand, Eq.trans (islandAt_putIsland_of_ne ?_) hj'⟩
            exact he

section

variable {m : Meas} {d : Dom} {i : Island} {p : Presence} {x : Sample} {delta : Nat}

/-- A tap's entry to PRESENT brings its STALLED island to FORMING (R27). -/
theorem arrivedMeas_recovers (hi : injectedBy m d = some i) (hat : islandAt m i.members = some i) (hs : i.state = .stalled)
    (hz : settleTime m ≠ 0) :
    arrivedMeas d delta true p x m = formingMeas i (putPresence d { p with latest := some x } m) := by
  have hrecover : recoverOnPresent d (putPresence d { p with latest := some x } m) =
      enterForming i.members (putPresence d { p with latest := some x } m) := by
    have hi' : injectedBy (putPresence d { p with latest := some x } m) d = some i := hi
    simp [recoverOnPresent, hi', hs]
  rw [arrivedMeas, if_pos rfl, hrecover]
  exact enterForming_of_ne (m := putPresence d { p with latest := some x } m) hat hz

/-- The frame that completes a join leaves the island of its tap in FORMING, its injector at 0, DOMAIN, connected (R27, R129). -/
theorem servedMeas_recovers (hi : injectedBy m d = some i) (hat : islandAt m i.members = some i) (hs : i.state = .stalled)
    (hz : settleTime m ≠ 0) (hclaim : m.claim.state = .none) (hu : underRef m d = false) :
    ((servedMeas d delta true p x m).taps.get d).mailbox = .quiet ∧
    ((servedMeas d delta true p x m).taps.get d).ramp = none ∧
    ∃ demand, islandAt (servedMeas d delta true p x m) i.members =
      some { i.formingWith ⟨m.timebase, settleTime m⟩ with demand := demand } := by
  obtain ⟨mf, hmf⟩ : ∃ mf, mf = formingMeas i (putPresence d { p with latest := some x } m) := ⟨_, rfl⟩
  have hinj := injectedBy_injector hi
  have hforming : islandAt mf i.members = some (i.formingWith ⟨m.timebase, settleTime m⟩) := by
    rw [hmf]; exact islandAt_formingMeas (m := putPresence d { p with latest := some x } m) hat
  have hinjected : injectedBy mf d = some (i.formingWith ⟨m.timebase, settleTime m⟩) := by
    rw [hmf]
    exact injectedBy_putIsland (m := putPresence d { p with latest := some x } m) hi hat rfl hinj
  have hcycle : cycleSample d delta x mf = mf := by
    refine cycleSample_of_unused delta x fun k ph hk => ?_
    obtain rfl : i.formingWith ⟨m.timebase, settleTime m⟩ = k := Option.some.inj (hinjected.symm.trans hk)
    exact ⟨(nomatch ·), (nomatch ·)⟩
  have href : refSample d delta x mf = mf := refSample_of_not_underRef (by rw [hmf]; exact hu) delta x
  have hnone : claimCheck (confirmSample d x mf) = mf := claimCheck_confirmSample_of_none (by rw [hmf]; exact hclaim) d x
  obtain ⟨hbox, hramp⟩ : (mf.taps.get d).mailbox = .quiet ∧ (mf.taps.get d).ramp = none := by
    rw [hmf, ← hinj]; exact tap_writeMailbox i.injector .quiet _
  have hserved : servedMeas d delta true p x m = watchSample d x mf := by
    rw [servedMeas, arrivedMeas_recovers hi hat hs hz, ← hmf, serveSample, hcycle, href, hnone]
  rw [hserved]
  exact watchSample_of_forming x hforming rfl hbox hramp

end

theorem joinExpiry_eq {m : Meas} {t : Dom} {p : Presence} {st : Time} (hp : (m.taps.get t).presence = some p) (hs : p.state ≠ .present)
    (hrun : 0 < p.joinRun) (hst : p.lossStart = some st) (hexp : 100 ≤ (m.timebase - st).toNat) :
    joinExpiry t m = some (putPresence t { p with joinRun := 0, lastSeq := none, lossStart := none } m) := by
  have hexp' : startExpired p.lossStart Config.lossMs m.timebase = true := by rw [hst]; exact decide_eq_true hexp
  simp [joinExpiry, hp, hs, hrun, hexp']

/-- Settles O38. -/
theorem sequenceAndJoin : Obligations.SequenceAndJoin := by
  unfold Obligations.SequenceAndJoin
  refine ⟨fun seq now p => ⟨fun l hs hl => ⟨?_, judgeSeq_of_service hs hl⟩, judgeSeq_of_first, fun l hs hrun hl =>
      ⟨?_, ?_, ?_, judgeSeq_of_join_gap hs hrun hl⟩⟩,
    fun s d p st hp hs hrun hst hexp => ⟨_, rfl, onEvent_moved (joinExpiry_eq hp hs hrun hst hexp) rfl⟩,
    fun s f d p l hr hc hcrc hlen hkind haddr hf hp hs hrun hl htag hclaim hu => ?_⟩
  · rintro rfl; exact judgeSeq_of_repeated hs hl
  · rintro rfl; exact judgeSeq_of_join_repeated hs hrun hl
  · rintro rfl hone
    rw [judgeSeq_of_join_next hs hrun hl, if_pos (by omega), hone]
  · rintro rfl htwo
    rw [judgeSeq_of_join_next hs hrun hl, if_neg (by omega)]
  · have hj : judgeSeq f.tag s.meas.timebase p = (.inService 1 true,
        { p with lastSeq := some f.tag, lossStart := some s.meas.timebase, state := .present, joinRun := 0 }) := by
      rw [htag, judgeSeq_of_join_next hs (by omega) hl, if_neg (by omega)]
    obtain ⟨t, hexec, hmoved⟩ := exec_sampleFrame_inService hr hc hcrc hlen hkind haddr hf hp hj
    have hserved := frameServed_of_moved (m := servedMeas d 1 true _ (sampleOf f.payload) s.meas)
      (s := { s with link := { s.link with rxD := { s.link.rxD with idle := false } } }) hmoved
    refine ⟨t, hexec, ?_, fun e he => ?_, fun i hi hat hst hz => ?_⟩
    · rw [hserved.presence, presence_servedMeas, if_pos rfl]
    · rw [hserved.presence, presence_servedMeas, if_neg he]
    · obtain ⟨hbox, hramp, demand, hisland⟩ := servedMeas_recovers (delta := 1) (x := sampleOf f.payload)
        (p := { p with lastSeq := some f.tag, lossStart := some s.meas.timebase, state := .present, joinRun := 0 }) hi hat hst hz hclaim hu
      exact ⟨(hserved.mailbox d).trans hbox, (hserved.ramp d).trans hramp, _, (hserved.islandAt _).trans hisland, rfl⟩

end Sys2Proof.Machine
end

section
/-! PROOFS. The intake of a sample frame (R128, R152), block by block: the completed NEG plateau (R40, R42), the confirmation of a covered
tap (R98, R99), and the traffic unit (R152, R153, R181). -/

namespace Sys2Proof.Machine

/-! ### An evaluation asks for the verdict records and the tables alone (R72) -/

/-- What an evaluation reads of the measurement side is the same. -/
def SameVerdicts (m m' : Meas) : Prop := m.doms = m'.doms ∧ m.tables = m'.tables

section

variable {m m' : Meas} (p : Profile) (attribAge riso : Nat) (r : ResultRecord)

theorem sameVerdicts_evaluateDomain (h : SameVerdicts m m') (d : Dom) :
    SameVerdicts (evaluateDomain p r riso m d) (evaluateDomain p r riso m' d) := by
  obtain ⟨hdoms, htables⟩ := h
  have hlimits : limitsOf m d p = limitsOf m' d p := by rw [limitsOf, limitsOf, htables]
  refine ⟨?_, by rw [judging_evaluateDomain m d, judging_evaluateDomain m' d]; exact htables⟩
  cases hl : limitsOf m d p with
  | none =>
    have hl' := hlimits.symm.trans hl
    simp only [evaluateDomain, hl, hl', hdoms]
  | some l =>
    rw [evaluateDomain_of_limits hl, evaluateDomain_of_limits (hlimits.symm.trans hl), putVerdict_doms, putVerdict_doms, hdoms]

theorem sameVerdicts_recordFault (before : PerDom DomRec) (h : SameVerdicts m m') (d : Dom) :
    SameVerdicts (recordFault before p attribAge r m d) (recordFault before p attribAge r m' d) := by
  obtain ⟨hdoms, htables⟩ := h
  have hrecord : faultRecordOf m d p attribAge r = faultRecordOf m' d p attribAge r := by
    simp only [faultRecordOf, attribution_congr (m := m) (m' := m') (fun _ => by rw [hdoms])]
  refine ⟨?_, by rw [judging_recordFault p attribAge r before m d, judging_recordFault p attribAge r before m' d]; exact htables⟩
  rw [recordFault_doms, recordFault_doms, hrecord, hdoms]

theorem sameVerdicts_updateSolo (h : SameVerdicts m m') : SameVerdicts (updateSolo r riso m) (updateSolo r riso m') := by
  obtain ⟨hdoms, htables⟩ := h
  refine ⟨?_, by rw [judging_updateSolo riso r m, judging_updateSolo riso r m']; exact htables⟩
  unfold updateSolo
  split
  · split
    · simp only [changeDom, hdoms]
    · exact hdoms
  · exact hdoms

theorem sameVerdicts_evaluate (h : SameVerdicts m m') : SameVerdicts (evaluate p attribAge r m) (evaluate p attribAge r m') := by
  unfold evaluate
  split
  · next riso _ _ =>
    have hsolo := sameVerdicts_updateSolo riso r h
    dsimp only
    rw [hsolo.1, hsolo.2]
    split
    · exact List.foldl_rel (List.foldl_rel hsolo fun d _ _ _ h => sameVerdicts_evaluateDomain p riso r h d)
        fun d _ _ _ h => sameVerdicts_recordFault p attribAge r _ h d
    · exact hsolo
  · exact h

end

/-- An evaluation sets no edge flag but VERDICT_CHANGED (R80, R160). -/
theorem flagSet_evaluate_of_edge {f : Flag} (hf : f ≠ .verdictChanged) (hedge : ∀ m, conditionHolds m f = false) (p : Profile) (attribAge : Nat)
    (r : ResultRecord) (m : Meas) : flagSet (evaluate p attribAge r m) f = flagSet m f := by
  have hput : ∀ d x m, flagSet (putVerdict d x m) f = flagSet m f := fun d x m => by
    unfold putVerdict
    dsimp only
    split
    · rfl
    · rw [flagSet_followConditions, hedge, flagSet_raise, decide_eq_false hf, Bool.or_false, Bool.or_false]
      rfl
  have hfold : ∀ (g : Meas → Dom → Meas), (∀ m d, flagSet (g m d) f = flagSet m f) → ∀ (ds : List Dom) m,
      flagSet (ds.foldl g m) f = flagSet m f := by
    intro g hg ds
    induction ds with
    | nil => exact fun _ => rfl
    | cons d ds ih => exact fun m => (ih (g m d)).trans (hg m d)
  have hsolo : ∀ riso, flagSet (updateSolo r riso m) f = flagSet m f := fun riso => by
    unfold updateSolo
    (repeat' split) <;> rfl
  unfold evaluate
  split
  · dsimp only
    split
    · rw [hfold _ (fun m d => by unfold recordFault; split <;> rfl),
        hfold _ (fun m d => by unfold evaluateDomain; split; exacts [rfl, hput ..]), hsolo]
    · exact hsolo _
  · rfl

/-! ### The completed NEG plateau (R40, R42, R53, R64) -/

/-- The island whose NEG plateau a valid sample has completed, Vn retained (R40, R42). -/
def Island.negDone (c : Captured) (delta : Nat) (x : Sample) (i : Island) : Island :=
  { i.filled .neg c.row.maxGap delta x with
    means := { i.means with vn := some (meanOf ((gapLeaves c.row.maxGap delta i.acc).sumVs + x.vs) (plateauLength i.mode c.row)) } }

/-- The hand-over of an island before its evaluation: the record takes the next number and the slot, INVERTED sets CYCLE_FAIL (R53). -/
def handedOver (k : Island) (r : ResultRecord) (m : Meas) : Meas :=
  if r.outcome == .inverted then raise .cycleFail (putIsland { k with slot := some r } { m with resultNumber := m.resultNumber + 1 })
  else putIsland { k with slot := some r } { m with resultNumber := m.resultNumber + 1 }

section

variable {m : Meas} {d : Dom} {i k : Island} {c : Captured} {delta : Nat} {x : Sample} {r : ResultRecord}

theorem handedOver_eq (k : Island) (r : ResultRecord) (m : Meas) : handedOver k r m =
    { putIsland { k with slot := some r } { m with resultNumber := m.resultNumber + 1 } with flags := (handedOver k r m).flags } := by
  unfold handedOver
  split <;> rfl

theorem flagSet_handedOver (k : Island) (r : ResultRecord) (m : Meas) :
    flagSet (handedOver k r m) .cycleFail = (flagSet m .cycleFail || decide (r.outcome = .inverted)) := by
  unfold handedOver
  cases h : r.outcome <;> simp [flagSet_raise] <;> rfl

/-- The hand-over of an island to the resistance and verdict units (R53, R64, R72). -/
theorem publish_of_captured {ds : DomSet} (hk : islandAt m ds = some k) (hc : k.captured = some c) :
    publish ds false m = evaluate k.profile c.row.attribAge (resultOf k c false m.timebase (m.resultNumber + 1))
      (handedOver k (resultOf k c false m.timebase (m.resultNumber + 1)) m) := by
  unfold publish
  rw [hk]
  dsimp only
  split
  · next hnone => rw [hc] at hnone; cases hnone
  · next c' hc' =>
    obtain rfl : c' = c := Option.some.inj (hc'.symm.trans hc)
    rfl

theorem publish_putIsland (hat : islandAt m i.members = some i) (hm : k.members = i.members) (hc : k.captured = some c) :
    publish i.members false (putIsland k m) = evaluate k.profile c.row.attribAge (resultOf k c false m.timebase (m.resultNumber + 1))
      (handedOver k (resultOf k c false m.timebase (m.resultNumber + 1)) m) := by
  have hput : ∀ r, handedOver k r (putIsland k m) = handedOver k r m := fun r => by
    have hslot : putIsland { k with slot := some r } { putIsland k m with resultNumber := m.resultNumber + 1 } =
        putIsland { k with slot := some r } { m with resultNumber := m.resultNumber + 1 } :=
      putIsland_putIsland { k with slot := some r } k { m with resultNumber := m.resultNumber + 1 } rfl
    unfold handedOver
    split
    · exact congrArg (raise .cycleFail) hslot
    · exact hslot
  rw [publish_of_captured (islandAt_put_changed hat hm) hc, hput]
  rfl

/-- The sample that completes a NEG plateau: the record is published and evaluated, and RAMP_HOME begins (R40, R42, R53, R72). -/
theorem cycleSample_of_neg (hi : injectedBy m d = some i) (hat : islandAt m i.members = some i) (hs : i.state = .cycle .negPlateau)
    (hc : i.captured = some c) (hlevel : (m.taps.get d).mailbox.level ≠ 0) (he : echoes (m.taps.get d).mailbox x = true)
    (hclip : x.clip = false) (htflt : x.tflt = false)
    (hn : (gapLeaves c.row.maxGap delta i.acc).plateauCount + 1 = plateauLength i.mode c.row) (hk : k = i.negDone c delta x)
    (hr : r = resultOf k c false m.timebase (m.resultNumber + 1)) :
    cycleSample d delta x m = changeTap d
      (fun p => { p with ramp := some ⟨0, c.row.slew * 20, .domain, .connected, .cycle⟩, refreshStart := some m.timebase })
      (putIsland { stopTimers { k with slot := some r } with state := .cycle .rampHome }
        (evaluate i.profile c.row.attribAge r (handedOver k r m))) := by
  obtain rfl := injectedBy_injector hi
  subst hk
  have hrow := Island.row_of_captured hc
  have hcycle := cycleSample_of_full (ph := .neg) (delta := delta) hi hs he hclip htflt (by rw [hrow]; exact hn)
  have hfilled : islandAt (putIsland (i.filled .neg i.row.maxGap delta x) m) i.members = some (i.filled .neg i.row.maxGap delta x) :=
    islandAt_put_changed hat rfl
  have hdone : { i.filled .neg i.row.maxGap delta x with means := { i.means with
      vn := some (meanOf (i.filled .neg i.row.maxGap delta x).acc.sumVs (plateauLength i.mode i.row)) } } = i.negDone c delta x := by
    rw [hrow]; rfl
  have hcomplete : completePlateau .neg i.members (putIsland (i.filled .neg i.row.maxGap delta x) m) =
      enterRamp .rampHome i.members (publish i.members false (putIsland (i.negDone c delta x) m)) := by
    unfold completePlateau
    rw [hfilled]
    dsimp only
    rw [putIsland_putIsland _ _ _ (by rfl)]
    exact congrArg (fun k => enterRamp .rampHome i.members (publish i.members false (putIsland k m))) hdone
  obtain ⟨mE, hmE⟩ : ∃ mE, mE = evaluate i.profile c.row.attribAge r (handedOver (i.negDone c delta x) r m) := ⟨_, rfl⟩
  have hjudged : Judging (handedOver (i.negDone c delta x) r m) mE := by rw [hmE]; exact judging_evaluate ..
  unfold Judging at hjudged
  have hatE : islandAt mE i.members = some { i.negDone c delta x with slot := some r } := by
    rw [hjudged, handedOver_eq]
    exact islandAt_put_changed (m := { m with resultNumber := m.resultNumber + 1 }) hat rfl
  have hlevelE : (mE.taps.get i.injector).mailbox.level ≠ 0 := by rw [hjudged, handedOver_eq]; exact hlevel
  have htime : mE.timebase = m.timebase := by rw [hjudged, handedOver_eq]; rfl
  have hkrow : Island.row { i.negDone c delta x with slot := some r } = c.row := Island.row_of_captured (i := { i.negDone c delta x with slot := some r }) hc
  rw [hcycle, hcomplete, publish_putIsland (k := i.negDone c delta x) hat rfl hc, ← hr]
  show enterRamp .rampHome i.members (evaluate i.profile c.row.attribAge r (handedOver (i.negDone c delta x) r m)) = _
  rw [← hmE, enterRamp_of_ne (st := .rampHome) hatE hlevelE, hkrow, htime]
  rfl

end

/-! ### A frame in service of a PRESENT tap -/

section

variable {m : Meas} {d : Dom} {delta : Nat} {p : Presence} {x : Sample}

/-- A frame in service of a PRESENT tap renews its record, and may set SAMPLE_GAP (R132). -/
theorem arrivedMeas_of_service (d : Dom) (delta : Nat) (p : Presence) (x : Sample) (m : Meas) :
    ∃ w, arrivedMeas d delta false p x m = { putPresence d { p with latest := some x } m with flags := w } ∧
      (∀ g, g ≠ .sampleGap → w.getLsbD g.bit = flagSet m g) ∧ (2 ≤ delta → w.getLsbD Flag.sampleGap.bit = true) := by
  unfold arrivedMeas
  rw [if_neg Bool.false_ne_true]
  by_cases h : 2 ≤ delta
  · refine ⟨(raise .sampleGap m).flags, if_pos h, fun g hg => ?_, fun _ => ?_⟩
    · have hraised := flagSet_raise .sampleGap g m
      rwa [decide_eq_false hg, Bool.or_false] at hraised
    · have hraised := flagSet_raise .sampleGap .sampleGap m
      rwa [decide_eq_true rfl, Bool.or_true] at hraised
  · exact ⟨m.flags, if_neg h, fun _ _ => rfl, fun h' => absurd h' h⟩

theorem mailbox_putPresence (e : Dom) : ((putPresence d p m).taps.get e).mailbox = (m.taps.get e).mailbox := by
  rw [putPresence_taps, PerDom.get_set]
  split
  · subst_vars; rfl
  · rfl

/-- A gap is told of (R132). -/
theorem flagSet_servedMeas_gap (h : 2 ≤ delta) : flagSet (servedMeas d delta false p x m) .sampleGap = true := by
  obtain ⟨w, heq, -, hgap⟩ := arrivedMeas_of_service d delta p x m
  refine (sound_serveSample d delta x _).flags _ ?_
  rw [heq]
  exact hgap h

/-- A sample that its tap's mailbox injects into the domain is not watched (R87). -/
theorem watchSample_of_injecting (hlevel : (m.taps.get d).mailbox.level ≠ 0) (hpath : (m.taps.get d).mailbox.path = .domain) :
    watchSample d x m = m := by
  refine watchSample_of_not_watched ?_
  simp [watched, hlevel, hpath]

end

/-! ### The parts of the obligation -/

section

variable {s t : State} {f : RxFrame} {d : Dom} {p p' : Presence} {l : Byte}

/-- State `s` with a character heard on Port D. -/
def heard (s : State) : State := { s with link := { s.link with rxD := { s.link.rxD with idle := false } } }

/-- What the acceptance of a frame in service leaves. -/
theorem accepted_served {delta : Nat} {joined : Bool} (hmoved : OutputsMoved (acceptSample (keptFrame markerSample f) (heard s)) t)
    (haddr : f.address = BitVec.ofNat 8 d.number) (hf : fitted s.meas d = true) (hp : (s.meas.taps.get d).presence = some p)
    (hj : judgeSeq f.tag s.meas.timebase p = (.inService delta joined, p')) :
    OutputsMoved (forwardSample d (keptFrame markerSample f)
      (admitHeld { heard s with meas := servedMeas d delta joined p' (sampleOf f.payload) s.meas })) t := by
  have haccept := acceptSample_of_inService (f := keptFrame markerSample f) (s := heard s) haddr hf hp hj
  rw [haccept] at hmoved
  exact hmoved

section

variable {m : Meas}

/-- A completed NEG plateau, to the end of the frame (R40, R42, R53, R64, R65, R72). -/
theorem servedMeas_neg {i : Island} {c : Captured} {delta : Nat} {x : Sample} (hi : injectedBy m d = some i)
    (hat : islandAt m i.members = some i) (hs : i.state = .cycle .negPlateau) (hc : i.captured = some c)
    (hclaim : m.claim.state = .none) (hu : underRef m d = false) (hlevel : (m.taps.get d).mailbox.level ≠ 0)
    (hpath : (m.taps.get d).mailbox.path = .domain) (he : echoes (m.taps.get d).mailbox x = true) (hclip : x.clip = false)
    (htflt : x.tflt = false) (hn : (gapLeaves c.row.maxGap delta i.acc).plateauCount + 1 = plateauLength i.mode c.row) :
    let k := i.negDone c delta x
    let r := resultOf k c false m.timebase (m.resultNumber + 1)
    let m3 := servedMeas d delta false p x m
    m3.resultNumber = m.resultNumber + 1 ∧
    islandAt m3 i.members = some { stopTimers { k with slot := some r } with state := .cycle .rampHome } ∧
    (m3.taps.get d).ramp = some ⟨0, c.row.slew * 20, .domain, .connected, .cycle⟩ ∧
    (m3.taps.get d).mailbox = (m.taps.get d).mailbox ∧
    flagSet m3 .cycleFail = (flagSet m .cycleFail || decide (r.outcome = .inverted)) ∧
    m3.doms = (evaluate i.profile c.row.attribAge r m).doms := by
  intro k r m3
  obtain ⟨w, harrived, hflags, -⟩ := arrivedMeas_of_service d delta p x m
  obtain ⟨m2, hm2⟩ : ∃ m2, m2 = { putPresence d { p with latest := some x } m with flags := w } := ⟨_, rfl⟩
  have hbox : ∀ e, (m2.taps.get e).mailbox = (m.taps.get e).mailbox := fun e => by rw [hm2]; exact mailbox_putPresence e
  have hat2 : islandAt m2 i.members = some i := by rw [hm2]; exact hat
  have hr : r = resultOf k c false m2.timebase (m2.resultNumber + 1) := by rw [hm2]; rfl
  have hcycle := cycleSample_of_neg (m := m2) (d := d) (by rw [hm2]; exact hi) hat2 hs hc (by rw [hbox]; exact hlevel)
    (by rw [hbox]; exact he) hclip htflt hn rfl hr
  obtain ⟨mE, hmE⟩ : ∃ mE, mE = evaluate i.profile c.row.attribAge r (handedOver k r m2) := ⟨_, rfl⟩
  have hjudged : Judging (handedOver k r m2) mE := by rw [hmE]; exact judging_evaluate ..
  unfold Judging at hjudged
  rw [handedOver_eq] at hjudged
  obtain ⟨mC, hmC⟩ : ∃ mC, mC = cycleSample d delta x m2 := ⟨_, rfl⟩
  rw [← hmC, ← hmE] at hcycle
  have hatE : islandAt mE i.members = some { k with slot := some r } := by
    rw [hjudged]
    exact islandAt_put_changed (m := { m2 with resultNumber := m2.resultNumber + 1 }) hat2 rfl
  have hboxC : (mC.taps.get d).mailbox = (m.taps.get d).mailbox := by
    rw [hcycle, hjudged, ← hbox]
    simp
  have hmeas : m3 = mC := by
    have href : refSample d delta x mC = mC :=
      refSample_of_not_underRef (by rw [hcycle, hjudged, hm2]; exact hu) delta x
    have hnone : claimCheck (confirmSample d x mC) = mC :=
      claimCheck_confirmSample_of_none (by rw [hcycle, hjudged, hm2]; exact hclaim) d x
    have hwatch : watchSample d x mC = mC := watchSample_of_injecting (by rw [hboxC]; exact hlevel) (by rw [hboxC]; exact hpath)
    show serveSample d delta x (arrivedMeas d delta false p x m) = mC
    rw [harrived, ← hm2, serveSample, ← hmC, href, hnone, hwatch]
  rw [hmeas]
  refine ⟨?_, ?_, ?_, hboxC, ?_, ?_⟩
  · rw [hcycle, hjudged, hm2]; rfl
  · rw [hcycle]
    exact islandAt_put_changed hatE rfl
  · rw [hcycle]; simp
  · rw [hcycle]
    show flagSet mE .cycleFail = _
    rw [hmE, flagSet_evaluate_of_edge (by decide) (fun _ => rfl), flagSet_handedOver]
    exact congrArg (· || _) (by rw [hm2]; exact hflags .cycleFail (by decide))
  · have hsame : SameVerdicts (handedOver k r m2) m := by rw [handedOver_eq, hm2]; exact ⟨rfl, rfl⟩
    rw [hcycle]
    show mE.doms = _
    rw [hmE, (sameVerdicts_evaluate i.profile c.row.attribAge r hsame).1]

/-! ### The confirmation of a covered tap (R98, R99) -/

theorem confirmEcho_iff (x : Sample) : confirmEcho x = true ↔ x.bal = false ∧ (x.ref = true ∨ x.applied = 0) := by
  simp [confirmEcho]

/-- With the test armed a covered tap's frame that echoes floating confirms it (R98). -/
theorem confirmSample_of_echo {x : Sample} (hs : m.claim.state = .handoff) (ha : m.claim.armed = true)
    (hc : inSet (coveredSet m) d = true) (he : confirmEcho x = true) :
    confirmSample d x m = changeClaim (fun c => { c with confirmed := c.confirmed ||| single d }) m := by
  simp [confirmSample, hs, ha, hc, he]

theorem confirmSample_of_no_echo {x : Sample} (he : confirmEcho x = false) : confirmSample d x m = m := by
  simp [confirmSample, he]

/-- The grant test makes an island EXTERNAL, or leaves it. -/
theorem mem_islands_claimCheck {k : Island} (hk : k ∈ (claimCheck m).islands) :
    ∃ j ∈ m.islands, k.members = j.members ∧ (k = j ∨ k.state = .external) := by
  have harm : (armClaim m).islands = m.islands := by rw [armClaim_eq]
  rcases claimCheck_outcome m with ⟨h, -⟩ | ⟨h, hs, -⟩
  · rw [h, harm] at hk
    exact ⟨k, hk, rfl, .inl rfl⟩
  · have hs' : (armClaim m).claim.state = .handoff := by rw [armClaim_eq]; exact hs
    obtain ⟨hsome, hfree⟩ := grantWith_islands .ok hs'
    rw [h] at hk
    cases hc : claimedIsland (armClaim m) with
    | none =>
      rw [hfree hc, harm] at hk
      exact ⟨k, hk, rfl, .inl rfl⟩
    | some i =>
      rw [hsome i hc, changeIsland_islands, harm, List.mem_map] at hk
      obtain ⟨j, hj, rfl⟩ := hk
      refine ⟨j, hj, ?_⟩
      split
      · exact ⟨rfl, .inr rfl⟩
      · exact ⟨rfl, .inl rfl⟩

/-- A frame of a tap that only islands in HANDOFF hold or inject is taken by the claim unit alone, but for verdict records and flags. -/
theorem servedMeas_of_handoff {delta : Nat} {x : Sample} (hu : underRef m d = false)
    (hfree : ∀ i ∈ m.islands, i.injector = d ∨ inSet i.members d = true → i.state = .handoff) :
    ∃ w, Judging (claimCheck (confirmSample d x { putPresence d { p with latest := some x } m with flags := w }))
        (servedMeas d delta false p x m) ∧
      Sound (claimCheck (confirmSample d x { putPresence d { p with latest := some x } m with flags := w }))
        (servedMeas d delta false p x m) := by
  obtain ⟨w, harrived, -, -⟩ := arrivedMeas_of_service d delta p x m
  obtain ⟨m2, hm2⟩ : ∃ m2, m2 = { putPresence d { p with latest := some x } m with flags := w } := ⟨_, rfl⟩
  have hcycle : cycleSample d delta x m2 = m2 := by
    refine cycleSample_of_unused delta x fun i ph hi => ?_
    rw [hm2] at hi
    have hs := hfree i (injectedBy_mem (m := m) hi) (.inl (injectedBy_injector hi))
    rw [hs]
    exact ⟨(nomatch ·), (nomatch ·)⟩
  have href : refSample d delta x m2 = m2 := refSample_of_not_underRef (by rw [hm2]; exact hu) delta x
  have hislands : (confirmSample d x m2).islands = m.islands := by
    rw [hm2]
    unfold confirmSample
    split <;> rfl
  have hserved : servedMeas d delta false p x m = watchSample d x (claimCheck (confirmSample d x m2)) := by
    show serveSample d delta x (arrivedMeas d delta false p x m) = _
    rw [harrived, ← hm2, serveSample, hcycle, href]
  refine ⟨w, ?_, ?_⟩ <;> rw [hserved, ← hm2]
  · rcases watchSample_cases d x (claimCheck (confirmSample d x m2)) with h | h
    · exact h
    · rw [h]
      have huntaken := demandOn_of_untaken (m := asymMarked d (claimCheck (confirmSample d x m2))) (d := d) .fast fun i hi => by
        obtain ⟨j, hj, hmembers, hstate⟩ := mem_islands_claimCheck (islandOf_mem (m := claimCheck (confirmSample d x m2)) hi)
        rw [hislands] at hj
        rcases hstate with rfl | hext
        · exact .inr (.inl (hfree i hj (.inr (islandOf_inSet hi))))
        · exact .inr (.inr (.inl hext))
      rw [huntaken]
      rfl
  · exact sound_watchSample ..

end

end

end Sys2Proof.Machine
end

section
/-! PROOFS. The intake of a sample frame (R127 to R130, R152, R153), assembled. -/

namespace Sys2Proof.Machine

section

variable {s t u : State} {f : RxFrame} {d : Dom} {p p' : Presence} {l : Byte}

/-! ### What is sent -/

theorem admitHeld_of_none (h : s.meas.heldResponses = []) : admitHeld s = s := by
  simp [admitHeld, h]
  rw [← h]

/-- With no response held a forwarded sample is the one frame that may join what is on its way to the host, below the high mark (R152). -/
theorem outgoing_forwardSample {g : Frame} (h : s.meas.heldResponses = []) :
    ∃ more, outgoing (forwardSample d g s) = outgoing s ++ more ∧ more.length ≤ 1 ∧
      (fwdHighMark (forwardImage s.meas) ≤ s.link.upQueue.length → more = []) := by
  rcases forwardSample_cases d g s with ⟨decim, up, hup, heq⟩ | heq
  · refine ⟨up, by rw [heq]; simp [outgoing, h], ?_, fun hfull => ?_⟩
    · rcases hup with rfl | ⟨rfl, -⟩ <;> simp
    · rcases hup with rfl | ⟨-, hroom⟩
      · rfl
      · omega
  · exact ⟨[], by rw [heq]; simp [outgoing, raise], by simp, fun _ => rfl⟩

/-- A response that completes while there is room joins the queue (R150, R159). -/
theorem admitHeld_of_one {a : Frame} (h : s.meas.heldResponses = [a]) (hroom : s.link.upQueue.length < 32) :
    admitHeld s = { s with
      link := { s.link with upQueue := s.link.upQueue ++ [a] }, meas := { s.meas with heldResponses := [] } } := by
  have hone : 1 ≤ Config.upstreamPlaces - s.link.upQueue.length := by simp only [Config.upstreamPlaces]; omega
  unfold admitHeld occupancy
  dsimp only
  rw [h, List.take_of_length_le (by simpa using hone), List.drop_eq_nil_of_le (by simpa using hone)]

/-- A frame behind the one response that its event completed (R150; log 13). -/
theorem outgoing_behind_answer {g a : Frame} (hm : OutputsMoved (forwardSample d g (admitHeld u)) t)
    (h : u.meas.heldResponses = [a]) (hroom : u.link.upQueue.length < 32) :
    ∃ more, outgoing t = u.link.txU.toList ++ u.link.upQueue ++ a :: more ∧ more.length ≤ 1 ∧
      (fwdHighMark (forwardImage u.meas) ≤ u.link.upQueue.length + 1 → more = []) := by
  rw [admitHeld_of_one h hroom] at hm
  obtain ⟨more, hmore, hlength, hfull⟩ := outgoing_forwardSample (d := d) (g := g)
    (s := { u with link := { u.link with upQueue := u.link.upQueue ++ [a] }, meas := { u.meas with heldResponses := [] } }) rfl
  refine ⟨more, ?_, hlength, fun hmark => hfull ?_⟩
  · rw [hm.upstream, hmore]
    simp [outgoing]
  · rw [List.length_append]
    exact hmark

/-- The traffic unit at a frame that completes no deferred response (R152, R153). -/
theorem forwardSample_outcome {g : Frame} (hm : OutputsMoved (forwardSample d g u) t)
    (hlink : u.link.decim = s.link.decim ∧ u.link.drops = s.link.drops ∧ u.link.upQueue = s.link.upQueue ∧ u.link.txU = s.link.txU)
    (hheld : s.meas.heldResponses = []) (hu : u.meas.heldResponses = []) (himg : forwardImage u.meas = forwardImage s.meas) :
    let k := fwdDecimation (forwardImage s.meas) d
    let n := s.link.decim.get d + 1
    (k = 0 → t.link.decim = s.link.decim ∧ t.link.drops = s.link.drops ∧ outgoing t = outgoing s) ∧
    (n < k → t.link.decim = s.link.decim.set d n ∧ t.link.drops = s.link.drops ∧ outgoing t = outgoing s) ∧
    (0 < k → k ≤ n → s.link.upQueue.length < fwdHighMark (forwardImage s.meas) →
      t.link.decim = s.link.decim.set d 0 ∧ t.link.drops = s.link.drops ∧ ∃ x, outgoing t = outgoing s ++ [x] ∧
        (fwdAnnotate (forwardImage s.meas) d ≠ 1 → x = g) ∧
        (fwdAnnotate (forwardImage s.meas) d = 1 →
          ∃ a b, x = { g with payload := g.payload ++ [a, b] } ∧ TagLayout t.meas d a b)) ∧
    (0 < k → k ≤ n → fwdHighMark (forwardImage s.meas) ≤ s.link.upQueue.length →
      t.link.decim = s.link.decim.set d 0 ∧ t.link.drops = min 65535 (s.link.drops + 1) ∧ outgoing t = outgoing s ∧
      flagSet t.meas .fwdDrop = true) := by
  intro k n
  obtain ⟨hdecim, hdrops, hqueue, htx⟩ := hlink
  have hn : n = u.link.decim.get d + 1 := by rw [hdecim]
  have hk : k = fwdDecimation (forwardImage u.meas) d := by rw [himg]
  have hout : ∀ up, u.link.txU.toList ++ (u.link.upQueue ++ up) ++ u.meas.heldResponses = outgoing s ++ up := fun up => by
    simp [outgoing, hheld, hu, hqueue, htx]
  rw [← hdecim, ← hdrops, ← hqueue, ← himg, hk, hn]
  refine ⟨fun h => ?_, fun h => ?_, fun h0 h1 h2 => ?_, fun h0 h1 h2 => ?_⟩
  · rw [forwardSample_of_zero h] at hm
    refine ⟨by rw [hm.link], by rw [hm.link], hm.upstream.trans ?_⟩
    simpa [outgoing] using hout []
  · rw [forwardSample_of_counted h] at hm
    refine ⟨by rw [hm.link], by rw [hm.link], hm.upstream.trans ?_⟩
    simpa [outgoing] using hout []
  · rw [forwardSample_of_admitted h0 h1 h2] at hm
    refine ⟨by rw [hm.link], by rw [hm.link], _, hm.upstream.trans (hout _), forwardedFrame_of_plain, fun ha => ?_⟩
    obtain ⟨a, b, hframe, htag⟩ := forwardedFrame_of_annotated (f := g) ha
    refine ⟨a, b, hframe, TagLayout.moved ?_ hm⟩
    exact htag
  · rw [forwardSample_of_dropped h0 h1 h2] at hm
    refine ⟨by rw [hm.link], by rw [hm.link], hm.upstream.trans ?_, ?_⟩
    · simpa [outgoing] using hout []
    · rw [hm.flagSet, flagSet_raise, decide_eq_true rfl, Bool.or_true]

/-! ### The clauses -/

/-- A frame is a duplicate when it repeats the last number, in service or within a join (R132). -/
theorem judgeSeq_duplicate {seq : Byte} {now : Time} (h : judgeSeq seq now p = (.duplicate, p')) :
    p.lastSeq = some seq ∧ (p.state = .present ∨ p.joinRun ≠ 0) := by
  cases hl : p.lastSeq with
  | none =>
    simp only [judgeSeq, hl, seqDelta, one_ne_zero, if_false, if_true] at h
    (repeat' split at h) <;> cases h
  | some l =>
    by_cases hseq : seq = l
    · refine ⟨by rw [hseq], ?_⟩
      by_contra hno
      rw [not_or, not_not] at hno
      rw [judgeSeq_of_first hno.1 hno.2] at h
      cases h
    · exfalso
      by_cases hs : p.state = .present
      · rw [judgeSeq_of_service hs hl hseq] at h
        cases h
      · rcases Nat.eq_zero_or_pos p.joinRun with hz | hrun
        · rw [judgeSeq_of_first hs hz] at h
          cases h
        · by_cases hnext : seq = l + 1
          · rw [hnext, judgeSeq_of_join_next hs hrun hl] at h
            split at h <;> cases h
          · rw [judgeSeq_of_join_gap hs hrun hl hseq hnext] at h
            cases h

/-- The measurement side of a tap that confirmed itself, its presence record `q` and the flag word `w` renewed (R98). -/
def echoedMeas (d : Dom) (q : Presence) (w : BitVec 32) (m : Meas) : Meas :=
  changeClaim (fun c => { c with confirmed := c.confirmed ||| single d }) { putPresence d q m with flags := w }

theorem inSet_confirmed_echoedMeas {m : Meas} {q : Presence} {w : BitVec 32} (e : Dom) :
    inSet (echoedMeas d q w m).claim.confirmed e = (inSet m.claim.confirmed e || decide (e = d)) := by
  show inSet (m.claim.confirmed ||| single d) e = _
  rw [inSet_or, inSet_single]

/-- A renewed presence record of the same state leaves what is PRESENT. -/
theorem isPresent_echoedMeas {m : Meas} {q : Presence} {w : BitVec 32} (hq : (m.taps.get d).presence.map (·.state) = some q.state)
    (e : Dom) : isPresent (echoedMeas d q w m) e = isPresent m e := by
  show isPresent (putPresence d q m) e = isPresent m e
  unfold isPresent tapState
  rw [putPresence_taps, PerDom.get_set]
  split
  · next he => rw [he, hq]; rfl
  · rfl

variable (hmoved : OutputsMoved (acceptSample (keptFrame markerSample f) (heard s)) t) (haddr : f.address = BitVec.ofNat 8 d.number)

include hmoved haddr

/-- The frame of an unfitted tap, or a duplicate, leaves all as it was. -/
theorem intake_discarded (h : fitted s.meas d = false ∨ ∃ p, fitted s.meas d = true ∧ (s.meas.taps.get d).presence = some p ∧
    p.state = .present ∧ p.lastSeq = some f.tag) : OutputsMoved (heard s) t := by
  rcases h with hf | ⟨p, hf, hp, hs, hl⟩
  · rw [acceptSample_of_unfitted (f := keptFrame markerSample f) (s := heard s) haddr hf] at hmoved
    exact hmoved
  · rw [acceptSample_of_duplicate (f := keptFrame markerSample f) (s := heard s) haddr hf hp (judgeSeq_of_repeated hs hl)] at hmoved
    exact hmoved

/-- A frame that is taken in service. -/
theorem intake_served {delta : Nat} {joined : Bool} (hf : fitted s.meas d = true) (hp : (s.meas.taps.get d).presence = some p)
    (hj : judgeSeq f.tag s.meas.timebase p = (.inService delta joined, p')) :
    FrameServed s (servedMeas d delta joined p' (sampleOf f.payload) s.meas) t := by
  obtain ⟨h1, h2, h3, h4, h5⟩ := frameServed_of_moved (s := heard s) (accepted_served hmoved haddr hf hp hj)
  exact ⟨h1, h2, h3, h4, h5⟩

/-- A PRESENT tap's frame in service renews its record, and tells of a gap (R130, R132). -/
theorem intake_renews (hf : fitted s.meas d = true) (hp : (s.meas.taps.get d).presence = some p) (hs : p.state = .present)
    (hl : p.lastSeq = some l) (hne : f.tag ≠ l) :
    (t.meas.taps.get d).presence = some { p with
      lastSeq := some f.tag, lossStart := some s.meas.timebase, latest := some (sampleOf f.payload) } ∧
    (∀ e, e ≠ d → (t.meas.taps.get e).presence = (s.meas.taps.get e).presence) ∧
    (f.tag ≠ l + 1 → flagSet t.meas .sampleGap = true) ∧
    t.meas.tables = s.meas.tables ∧ t.meas.topo = s.meas.topo ∧ t.loader = s.loader ∧ t.pending = s.pending := by
  have hserved := intake_served hmoved haddr hf hp (judgeSeq_of_service hs hl hne)
  have hsound := sound_servedMeas (t := d) (delta := (f.tag - l).toNat) (joined := false) (x := sampleOf f.payload)
    (p := { p with lastSeq := some f.tag, lossStart := some s.meas.timebase }) hp id
  refine ⟨?_, fun e he => ?_, fun hgap => ?_, ?_, ?_, hserved.loader, hserved.pending⟩
  · rw [hserved.presence, presence_servedMeas, if_pos rfl]
  · rw [hserved.presence, presence_servedMeas, if_neg he]
  · have hzero := seqDelta_ne_zero hne
    have hone := seqDelta_ne_one hgap
    rw [hserved.flags .sampleGap (by decide)]
    exact flagSet_servedMeas_gap (by omega)
  · rw [hserved.meas]; exact hsound.tables
  · rw [hserved.meas]; exact hsound.topo

/-- The first frame of a join starts the run, and goes to the traffic unit (R129, R152). -/
theorem intake_first (hf : fitted s.meas d = true) (hp : (s.meas.taps.get d).presence = some p) (hs : p.state ≠ .present)
    (hz : p.joinRun = 0) :
    let m1 := putPresence d { p with lastSeq := some f.tag, lossStart := some s.meas.timebase, joinRun := 1 } s.meas
    let k := fwdDecimation (forwardImage s.meas) d
    let n := s.link.decim.get d + 1
    (k = 0 → OutputsMoved { heard s with meas := m1 } t) ∧
    (n < k → OutputsMoved { heard s with link := { (heard s).link with decim := (heard s).link.decim.set d n }, meas := m1 } t) ∧
    (0 < k → k ≤ n → s.link.upQueue.length < fwdHighMark (forwardImage s.meas) →
      OutputsMoved { heard s with
        link := { (heard s).link with
          decim := (heard s).link.decim.set d 0,
          upQueue := (heard s).link.upQueue ++ [forwardedFrame d ⟨0xC9, f.address, f.kind, f.tag, f.payload⟩ m1] },
        meas := m1 } t) ∧
    (0 < k → k ≤ n → fwdHighMark (forwardImage s.meas) ≤ s.link.upQueue.length →
      OutputsMoved { heard s with
        link := { (heard s).link with decim := (heard s).link.decim.set d 0, drops := min 65535 (s.link.drops + 1) },
        meas := raise .fwdDrop m1 } t) := by
  intro m1 k n
  have haccept := acceptSample_of_joining (f := keptFrame markerSample f) (s := heard s) haddr hf hp (judgeSeq_of_first hs hz)
  rw [haccept] at hmoved
  change OutputsMoved (forwardSample d (keptFrame markerSample f) { heard s with meas := m1 }) t at hmoved
  refine ⟨fun h => ?_, fun h => ?_, fun h0 h1 h2 => ?_, fun h0 h1 h2 => ?_⟩
  · rw [forwardSample_of_zero (s := { heard s with meas := m1 }) h] at hmoved
    exact hmoved
  · rw [forwardSample_of_counted (s := { heard s with meas := m1 }) h] at hmoved
    exact hmoved
  · rw [forwardSample_of_admitted (s := { heard s with meas := m1 }) h0 h1 h2] at hmoved
    exact hmoved
  · rw [forwardSample_of_dropped (s := { heard s with meas := m1 }) h0 h1 h2] at hmoved
    exact hmoved

/-- A frame, but for a duplicate, that completes no deferred response goes to the traffic unit as it came (R152, R153; log 13). -/
theorem intake_forwards (hf : fitted s.meas d = true) (hp : (s.meas.taps.get d).presence = some p)
    (hdup : ¬ (p.lastSeq = some f.tag ∧ (p.state = .present ∨ p.joinRun ≠ 0))) (hheld : s.meas.heldResponses = [])
    (hx : t.meas.pendXclaim = s.meas.pendXclaim) (hr : t.meas.pendRchk = s.meas.pendRchk) :
    ∃ u, OutputsMoved (forwardSample d (keptFrame markerSample f) u) t ∧
      (u.link.decim = s.link.decim ∧ u.link.drops = s.link.drops ∧ u.link.upQueue = s.link.upQueue ∧ u.link.txU = s.link.txU) ∧
      u.meas.heldResponses = [] ∧ forwardImage u.meas = forwardImage s.meas := by
  rcases hj : judgeSeq f.tag s.meas.timebase p with ⟨_ | _ | ⟨delta, joined⟩, p'⟩
  · exact absurd (judgeSeq_duplicate hj) hdup
  · have haccept := acceptSample_of_joining (f := keptFrame markerSample f) (s := heard s) haddr hf hp hj
    rw [haccept] at hmoved
    exact ⟨_, hmoved, ⟨rfl, rfl, rfl, rfl⟩, hheld, rfl⟩
  · have hserved := intake_served hmoved haddr hf hp hj
    have hstate := judgeSeq_state f.tag s.meas.timebase p
    rw [hj] at hstate
    have hsound := sound_servedMeas (t := d) (delta := delta) (joined := joined) (x := sampleOf f.payload) (p := p') hp
      fun h => hstate.elim (fun hs => hs.symm.trans h) fun hs => by rw [hs] at h; cases h
    have hnone : (servedMeas d delta joined p' (sampleOf f.payload) s.meas).heldResponses = [] := by
      rw [← hheld]
      exact held_servedMeas (by rw [← hx, hserved.meas]) (by rw [← hr, hserved.meas])
    have hmoved' := accepted_served hmoved haddr hf hp hj
    rw [admitHeld_of_none (s := { heard s with meas := servedMeas d delta joined p' (sampleOf f.payload) s.meas }) hnone] at hmoved'
    exact ⟨_, hmoved', ⟨rfl, rfl, rfl, rfl⟩, hnone, congrArg (fun t : Tables => t.forward.getD builtinForward) hsound.tables⟩

/-- A covered tap's frame confirms it, and the last one grants the claim (R98, R99). -/
theorem intake_confirms (hf : fitted s.meas d = true) (hp : (s.meas.taps.get d).presence = some p) (hs : p.state = .present)
    (hl : p.lastSeq = some l) (hne : f.tag ≠ l) (hclaim : s.meas.claim.state = .handoff) (harmed : s.meas.claim.armed = true)
    (hcov : inSet (coveredSet s.meas) d = true) (hu : underRef s.meas d = false)
    (hfree : ∀ i ∈ s.meas.islands, i.injector = d ∨ inSet i.members d = true → i.state = .handoff) :
    let x := sampleOf f.payload
    let ok := x.bal = false ∧ (x.ref = true ∨ x.applied = 0)
    let waits := fun e => inSet (coveredSet s.meas) e = true ∧ isPresent s.meas e = true ∧ e ≠ d ∧
      inSet s.meas.claim.confirmed e = false
    (¬ ok → t.meas.claim.confirmed = s.meas.claim.confirmed) ∧
    (ok → t.meas.claim.confirmed = s.meas.claim.confirmed ||| single d) ∧
    (ok → (∃ e, waits e) → t.meas.claim.state = .handoff ∧ t.meas.pendXclaim = s.meas.pendXclaim) ∧
    ∀ pr, ok → (∀ e, ¬ waits e) → s.meas.pendXclaim = some pr → s.meas.heldResponses = [] → s.link.upQueue.length < 32 →
      t.meas.claim.state = .granted ∧ t.meas.pendXclaim = none ∧ flagSet t.meas .handoffDone = true ∧
      (∀ i, claimedIsland s.meas = some i → islandAt s.meas i.members = some i →
        islandAt t.meas i.members = some { i with state := .external }) ∧
      ∃ g more, outgoing t = outgoing s ++ g :: more ∧ g.kind = pr.kind ∧ g.tag = pr.tag ∧ g.payload.head? = some 0 ∧
        g.payload.drop 2 = [BitVec.ofNat 8 (s.meas.claim.dom.elim 0 (·.number)),
          coveredSet s.meas &&& ~~~ (s.meas.claim.confirmed ||| single d)] ∧
        more.length ≤ 1 ∧ (fwdHighMark (forwardImage s.meas) ≤ s.link.upQueue.length + 1 → more = []) := by
  intro x ok waits
  have hj := judgeSeq_of_service (now := s.meas.timebase) hs hl hne
  have hserved := intake_served hmoved haddr hf hp hj
  have hforwarded := accepted_served hmoved haddr hf hp hj
  obtain ⟨w, hjudged, hsound⟩ := servedMeas_of_handoff (delta := (f.tag - l).toNat) (x := x)
    (p := { p with lastSeq := some f.tag, lossStart := some s.meas.timebase }) hu hfree
  obtain ⟨m3, hm3⟩ : ∃ m3, m3 = servedMeas d (f.tag - l).toNat false
    { p with lastSeq := some f.tag, lossStart := some s.meas.timebase } x s.meas := ⟨_, rfl⟩
  obtain ⟨q, hq⟩ : ∃ q : Presence, q = { p with
    lastSeq := some f.tag, lossStart := some s.meas.timebase, latest := some x } := ⟨_, rfl⟩
  rw [← hm3] at hserved hforwarded
  rw [← hm3, ← hq] at hjudged hsound
  have hpresent : ∀ e, isPresent (echoedMeas d q w s.meas) e = isPresent s.meas e :=
    isPresent_echoedMeas (q := q) (by rw [hp, hq]; rfl)
  have hconfirmed : t.meas.claim.confirmed = (confirmSample d x { putPresence d q s.meas with flags := w }).claim.confirmed := by
    rw [hserved.meas, hjudged, claimCheck_claim]
  have hecho : ok → confirmSample d x { putPresence d q s.meas with flags := w } = echoedMeas d q w s.meas := fun hok =>
    confirmSample_of_echo (m := { putPresence d q s.meas with flags := w }) hclaim harmed hcov ((confirmEcho_iff x).2 hok)
  refine ⟨fun hok => ?_, fun hok => ?_, fun hok ⟨e, hce, hpe, hed, hue⟩ => ?_, fun pr hok hnone hpr hheld hroom => ?_⟩
  · rw [hconfirmed, confirmSample_of_no_echo (Bool.eq_false_iff.2 (mt (confirmEcho_iff x).1 hok))]
    rfl
  · rw [hconfirmed, hecho hok]
    rfl
  · have hwaits : claimCheck (echoedMeas d q w s.meas) = echoedMeas d q w s.meas :=
      claimCheck_of_waiting (m := echoedMeas d q w s.meas) (d := e) harmed hce ((hpresent e).trans hpe)
        (by rw [inSet_confirmed_echoedMeas, hue, decide_eq_false hed]; rfl)
    rw [hserved.meas, hjudged, hecho hok, hwaits]
    exact ⟨hclaim, rfl⟩
  · have hgrant : claimCheck (echoedMeas d q w s.meas) = grantWith .ok (echoedMeas d q w s.meas) := by
      refine claimCheck_of_confirmed (m := echoedMeas d q w s.meas) hclaim harmed fun e hce hpe => ?_
      rw [hpresent] at hpe
      rw [inSet_confirmed_echoedMeas, Bool.or_eq_true, decide_eq_true_iff]
      by_contra hno
      rw [not_or, Bool.not_eq_true] at hno
      exact hnone e ⟨hce, hpe, hno.2, hno.1⟩
    rw [hecho hok, hgrant] at hjudged hsound
    have hanswer := grantWith_answer .ok (m := echoedMeas d q w s.meas) (p := pr) hpr hclaim
    have hheld3 : m3.heldResponses = s.meas.heldResponses ++ _ := (by rw [hjudged] : m3.heldResponses =
      (grantWith .ok (echoedMeas d q w s.meas)).heldResponses).trans hanswer
    rw [hheld, List.nil_append] at hheld3
    obtain ⟨more, hmore, hlength, hfull⟩ := outgoing_behind_answer hforwarded hheld3 hroom
    have himg : forwardImage m3 = forwardImage s.meas := by rw [hjudged, grantWith_eq]; rfl
    refine ⟨?_, ?_, ?_, fun i hi hat => ?_,
      responseFrame 0 pr.kind pr.tag .ok [BitVec.ofNat 8 (s.meas.claim.dom.elim 0 (·.number)),
        coveredSet s.meas &&& ~~~ (s.meas.claim.confirmed ||| single d)] (grantWith .ok (echoedMeas d q w s.meas)),
      more, ?_, rfl, rfl, rfl, rfl, hlength, fun h => hfull ?_⟩
    · rw [hserved.meas, hjudged, grantWith_claim]
    · rw [hserved.meas, hjudged, grantWith_pendXclaim]
    · rw [hserved.flags .handoffDone (by decide)]
      exact hsound.flags _ (grantWith_handoffDone ..)
    · have hexternal := islandAt_grantWith_claimed .ok (m := echoedMeas d q w s.meas) hclaim hi
      have hat' : islandAt (echoedMeas d q w s.meas) i.members = some i := hat
      rw [hat'] at hexternal
      rw [hserved.islandAt, hjudged]
      exact hexternal
    · rw [hmore, outgoing, hheld, List.append_nil]
      rfl
    · rw [show forwardImage _ = forwardImage s.meas from himg]
      exact h

end

/-- Settles O39. -/
theorem sampleFrameIntake : Obligations.SampleFrameIntake := by
  unfold Obligations.SampleFrameIntake
  refine ⟨fun s f d hr hc hcrc hlen hkind haddr => ?_, fun d x m h => claimCheck_confirmSample_of_none h d x,
    fun d f m => ⟨forwardedFrame_of_plain, forwardedFrame_of_annotated⟩⟩
  intro s1
  obtain ⟨t, hexec, hmoved⟩ : ∃ t, exec (.sampleFrame f) s = .next t ∧
      OutputsMoved (acceptSample (keptFrame markerSample f) (heard s)) t :=
    ⟨_, exec_sampleFrame hr hc hcrc hlen hkind haddr, pumpBoth_moved _⟩
  refine ⟨t, hexec, fun hf => intake_discarded hmoved haddr (.inl hf),
    fun p hf hp hs hl => intake_discarded hmoved haddr (.inr ⟨p, hf, hp, hs, hl⟩),
    fun p l hf hp hs hl hne => intake_renews hmoved haddr hf hp hs hl hne, fun p delta joined p' hf hp hj => ?_,
    fun p hf hp hs hz => intake_first hmoved haddr hf hp hs hz, fun p hf hp hdup hheld hx hr => ?_,
    fun p l i c vp hf hp hs hl hne hi hat hst hcap hvp hclaim hu hlevel hpath => ?_,
    fun p l hf hp hs hl hne hclaim harmed hcov hu hfree => intake_confirms hmoved haddr hf hp hs hl hne hclaim harmed hcov hu hfree⟩
  · have hserved := intake_served hmoved haddr hf hp hj
    exact ⟨hserved.meas, hserved.flags, fun e => ⟨hserved.mailbox e, hserved.ramp e, hserved.presence e,
      hserved.refreshStart e⟩⟩
  · obtain ⟨u, hu, hlink, hnone, himg⟩ := intake_forwards hmoved haddr hf hp hdup hheld hx hr
    exact forwardSample_outcome hu hlink hheld hnone himg
  · intro x n delta a1 quality he hclip htflt hn hfull
    have hj := judgeSeq_of_service (now := s.meas.timebase) hs hl hne
    have hserved := intake_served hmoved haddr hf hp hj
    have hlength : plateauLength i.mode c.row = n := plateauLength_eq ..
    obtain ⟨hnumber, hisland, hramp, hbox, hflag, hdoms⟩ := servedMeas_neg
      (p := { p with lastSeq := some f.tag, lossStart := some s.meas.timebase }) hi hat hst hcap hclaim hu hlevel hpath he hclip htflt
      (hfull.trans hlength.symm)
    obtain ⟨hlow, hhigh⟩ := meanOf_rounds (a1.sumVs + x.vs) hn
    have hdone : i.negDone c delta x = { i.filled .neg c.row.maxGap delta x with
        means := { i.means with vn := some (meanOf (a1.sumVs + x.vs) n) } } := by rw [Island.negDone, hlength]; rfl
    rw [hdone] at hisland hflag hdoms
    refine ⟨meanOf (a1.sumVs + x.vs) n, hlow, hhigh, ?_, ⟨_, (hserved.islandAt _).trans hisland, rfl, rfl, rfl, rfl⟩,
      (hserved.ramp d).trans hramp, (hserved.mailbox d).trans hbox, (hserved.flags .cycleFail (by decide)).trans hflag, ?_⟩
    · rw [hserved.meas]; exact hnumber
    · rw [hserved.meas]; exact hdoms

end Sys2Proof.Machine
end

section
/-! PROOFS. The traffic unit's filter of host frames (R145 to R147). -/

namespace Sys2Proof.Machine

/-! ### Owned taps and addresses (R146) -/

section

variable {m : Meas}

theorem underRef_iff {t : Dom} : underRef m t = true ↔ ∃ r, m.ref = some r ∧ r.tap = t := by
  cases h : m.ref <;> simp [underRef, h]

theorem owned_iff {t : Dom} :
    owned m t = true ↔ (m.taps.get t).mailbox ≠ ⟨0, .domain, .floating⟩ ∨ ∃ r, m.ref = some r ∧ r.tap = t := by
  rw [owned, Bool.or_eq_true, bne_iff_ne, underRef_iff, Mailbox.rest]

/-- The broadcast address is owned while some fitted tap is, and any other while the tap of that number is. -/
theorem addressOwned_iff {a : Nat} :
    addressOwned m a = true ↔ ∃ e : Dom, (a = e.number ∨ (a = 15 ∧ fitted m e = true)) ∧ owned m e = true := by
  by_cases hbroadcast : a = 15
  · subst hbroadcast
    have hnumber (e : Dom) : 15 ≠ e.number := by have := e.index_lt; rw [Dom.number]; omega
    simp [addressOwned, hnumber]
  · have htap : addressOwned m a = true ↔ ∃ e, Dom.ofNumber a = some e ∧ owned m e = true := by
      rw [addressOwned, if_neg hbroadcast]
      cases Dom.ofNumber a <;> simp
    have hnumber (e : Dom) : Dom.ofNumber a = some e ↔ a = e.number :=
      ⟨fun h => (Dom.number_of_ofNumber h).symm, fun h => h ▸ Dom.ofNumber_number e⟩
    simp [htap, hnumber, hbroadcast]

end

/-! ### The filter (R145) -/

/-- The filter blocks a host frame: by a kind above 0x7F, by BLOCK, or by BLOCK_OWNED while its address is owned. -/
def FilterBlocks (f : Frame) (m : Meas) : Prop :=
  0x80 ≤ f.kind.toNat ∨ fwdAction (forwardImage m) f.kind.toNat = 1 ∨
    (fwdAction (forwardImage m) f.kind.toNat = 2 ∧ addressOwned m f.address.toNat = true)

section

variable {f : Frame} {s : State}

/-- A kind above 0x7F counts as one with action BLOCK. -/
theorem filterBlocks_iff {m : Meas} {action : Nat}
    (h : action = if 0x80 ≤ f.kind.toNat then 1 else fwdAction (forwardImage m) f.kind.toNat) :
    FilterBlocks f m ↔ action = 1 ∨ (action = 2 ∧ addressOwned m f.address.toNat = true) := by
  by_cases hkind : 0x80 ≤ f.kind.toNat <;> simp [FilterBlocks, h, hkind]

theorem filterFrame_of_no_tap (hlow : 9 ≤ f.address.toNat) (hhigh : f.address.toNat ≤ 14) :
    filterFrame f s = answerFor 0 f .badArg s := by
  have hfilter : filterOf f s = .answer 0 .badArg := if_pos ⟨hlow, hhigh⟩
  rw [filterFrame, hfilter]

variable (haddr : f.address.toNat ≤ 8 ∨ f.address.toNat = 15)

include haddr

theorem filterFrame_of_blocked (hblocks : FilterBlocks f s.meas) : filterFrame f s = answerFor f.address f .filtered s := by
  have hfilter : filterOf f s = .answer f.address .filtered :=
    (if_neg (by omega)).trans (if_pos ((filterBlocks_iff rfl).1 hblocks))
  rw [filterFrame, hfilter]

theorem filterFrame_of_pass (hblocks : ¬ FilterBlocks f s.meas) (hroom : s.link.downQueue.length < 16) :
    filterFrame f s = { s with link := { s.link with downQueue := s.link.downQueue ++ [f] } } := by
  have hfilter : filterOf f s = .pass :=
    (if_neg (by omega)).trans ((if_neg (mt (filterBlocks_iff rfl).2 hblocks)).trans (if_pos hroom))
  rw [filterFrame, hfilter]
  rfl

theorem filterFrame_of_busy (hblocks : ¬ FilterBlocks f s.meas) (hfull : 16 ≤ s.link.downQueue.length) :
    filterFrame f s = answerFor f.address f .busy s := by
  have hfilter : filterOf f s = .answer f.address .busy :=
    (if_neg (by omega)).trans ((if_neg (mt (filterBlocks_iff rfl).2 hblocks)).trans (if_neg (Nat.not_lt.2 hfull)))
  rw [filterFrame, hfilter]

end

/-- An answer on a tap's behalf joins the upstream queue, or is lost with REQ_OVERRUN when the queue is full (R147); then the outputs
move. -/
theorem answerFor_moved (address : Byte) (f : Frame) (st : Status) (s : State) :
    (s.link.upQueue.length < 32 → OutputsMoved { s with link := { s.link with
      upQueue := s.link.upQueue ++ [responseFrame address f.kind f.tag st [] s.meas] } } (pumpBoth (answerFor address f st s))) ∧
    (32 ≤ s.link.upQueue.length → OutputsMoved { s with
      link := { s.link with overrun := min 255 (s.link.overrun + 1) }, meas := raise .reqOverrun s.meas }
      (pumpBoth (answerFor address f st s))) := by
  constructor
  · intro hroom
    have hjoins : answerFor address f st s = { s with link := { s.link with
        upQueue := s.link.upQueue ++ [responseFrame address f.kind f.tag st [] s.meas] } } :=
      (if_pos hroom).trans (congrArg (fun l => { s with link := l }) (if_pos hroom))
    rw [hjoins]
    exact pumpBoth_moved _
  · intro hfull
    have hlost : answerFor address f st s = countOverrun s := if_neg (Nat.not_lt.2 hfull)
    rw [hlost]
    exact pumpBoth_moved _

/-- A frame on Port U at an address from 1 to 15 goes to the filter (R127). -/
theorem dispatchFrame_of_tap_address {f : Frame} {s : State} (hlow : 1 ≤ f.address.toNat) (hhigh : f.address.toNat ≤ 15) :
    dispatchFrame .u f s = filterFrame f s := (if_neg (by omega)).trans (if_pos hhigh)

/-- Settles O41: the frame reaches the filter, whose four results are the four clauses. -/
theorem hostTapFrameFilter : Obligations.HostTapFrameFilter := by
  unfold Obligations.HostTapFrameFilter
  intro s f hr hc hcrc hlen hlow hhigh s1 a action ownedAddress blocked answer
  have hblocked : blocked ↔ FilterBlocks (keptFrame markerRequest f) s1.meas := by
    simp only [FilterBlocks, addressOwned_iff, owned_iff]
    rfl
  have hone : listening .u s = s1 := listening_of_ready (p := .u) hr hc
  have hfiltered : receiveFrame .u markerRequest f s = pumpBoth (filterFrame (keptFrame markerRequest f) s1) := by
    rw [receiveFrame_of_ready (p := .u) hr hc hlen, endFrame_of_crc _ hcrc, hone,
      dispatchFrame_of_tap_address (f := keptFrame markerRequest f) hlow hhigh]
  refine ⟨_, congrArg Host.Outcome.next hfiltered, fun hnine hfourteen => ?_, fun haddr hb => ?_, fun haddr hb hroom => ?_,
    fun haddr hb hfull => ?_⟩
  · rw [filterFrame_of_no_tap (f := keptFrame markerRequest f) hnine hfourteen]
    exact answerFor_moved 0 (keptFrame markerRequest f) .badArg s1
  · rw [filterFrame_of_blocked (f := keptFrame markerRequest f) haddr (hblocked.1 hb)]
    exact answerFor_moved f.address (keptFrame markerRequest f) .filtered s1
  · rw [filterFrame_of_pass (f := keptFrame markerRequest f) haddr (mt hblocked.2 hb) hroom]
    exact pumpBoth_moved _
  · rw [filterFrame_of_busy (f := keptFrame markerRequest f) haddr (mt hblocked.2 hb) hfull]
    exact answerFor_moved f.address (keptFrame markerRequest f) .busy s1

end Sys2Proof.Machine
end

section
/-! PROOFS. The condition flags and ISO_ALERT at every step (R81, R160). -/

namespace Sys2Proof.Machine

/-! ### Each holding condition is flagged (R160) -/

theorem flagsFollow_good : Good FlagsFollow := fun _ _ h => h.follow

/-- Flags follow their conditions as long as no condition begins and no flag is cleared. -/
theorem FlagsFollow.of_conditions {m m' : Meas} (h : FlagsFollow m) (hc : ∀ f, conditionHolds m' f = conditionHolds m f)
    (hf : m'.flags = m.flags) : FlagsFollow m' := fun f hholds => by
  rw [flagSet, hf]
  exact h f (by rw [← hc, hholds])

/-- STAT clears no flag whose condition holds (R160). -/
theorem flagsFollow_clearReported {m : Meas} (h : FlagsFollow m) : FlagsFollow (clearReported m) := fun f hholds => by
  have hc : conditionHolds m f = true := by cases f <;> exact hholds
  rw [flagSet_clearReported, h f hc, hc, Bool.and_true]

theorem flagsFollow_takeTopo (positions : BitVec 16) (inlet : Nat) (m : Meas) (h : FlagsFollow m) :
    FlagsFollow (takeTopo positions inlet m) := by
  unfold takeTopo
  dsimp only
  split
  · obtain ⟨-, -, hfollow, -⟩ := kept_resolve_followed true _ _ _
    exact hfollow
  · exact h.of_conditions (fun f => by cases f <;> rfl) rfl

theorem flagsFollow_step {s t : State} (h : FlagsFollow s.meas) (hstep : step s = .next t) : FlagsFollow t.meas :=
  step_keeps flagsFollow_good
    (hreset := fun f hholds => absurd hholds (by rw [conditionHolds_reset]; decide))
    (htopo := flagsFollow_takeTopo)
    (hstat := fun _ h => flagsFollow_clearReported h)
    (hmask := fun _ _ h => h.of_conditions (fun f => by cases f <;> rfl) rfl)
    (ha := fun l img s _ => (follow_activateMeas l.table img s.meas).1)
    (hrestart := fun m _ => flagsFollow_followConditions _)
    (hstale := fun m _ => by
      obtain ⟨-, -, hfollow, -⟩ := becomeStale_spec m
      exact hfollow)
    (htick := fun _ _ h => h.of_conditions (fun f => by cases f <;> rfl) rfl)
    h hstep

/-! ### ISO_ALERT follows the verdicts (R81) -/

theorem alertFollows_good : Good AlertFollows := fun _ _ h => h.alert

theorem alertFollows_takeTopo (positions : BitVec 16) (inlet : Nat) (m : Meas) (h : AlertFollows m) :
    AlertFollows (takeTopo positions inlet m) := by
  unfold takeTopo
  dsimp only
  split
  · obtain ⟨-, -, -, halert, -⟩ := kept_resolve_followed true _ _ _
    exact halert
  · exact h

theorem alertFollows_step {s t : State} (h : AlertFollows s.meas) (hstep : step s = .next t) : AlertFollows t.meas :=
  step_keeps alertFollows_good
    (hreset := by
      obtain ⟨-, -, -, halert, -⟩ := resetMeetsProperties
      exact halert)
    (htopo := alertFollows_takeTopo)
    (hstat := fun _ h => h)
    (hmask := fun _ _ h => h)
    (ha := fun l img s _ => (follow_activateMeas l.table img s.meas).2.1)
    (hrestart := fun m _ => alertFollows_followConditions _)
    (hstale := fun m _ => by
      obtain ⟨-, -, -, halert, -⟩ := becomeStale_spec m
      exact halert)
    (htick := fun _ _ h => h)
    h hstep

/-- Settles O57 by `step_keeps`, once for the flags and once for ISO_ALERT: what begins a condition ends with `followConditions`, and STAT
keeps the flag of a condition that holds. -/
theorem stepKeepsFlagsAndAlert : Obligations.StepKeepsFlagsAndAlert := fun _ _ hflags halert hstep =>
  ⟨flagsFollow_step hflags hstep, alertFollows_step halert hstep⟩

end Sys2Proof.Machine
end

section
/-! PROOFS. Requests of a wrong length or of another kind (R157). -/

namespace Sys2Proof.Machine

/-! ### The sixteen kinds (R157) -/

/-- The commands of the sixteen kinds all take the head request of their own kind, each with work of its own. -/
theorem exec_of_requestKind {kind : Byte} {c : Instr} {lo hi : Nat} (h : (kind, c, lo, hi) ∈ requestKinds) :
    ∃ body, ∀ s, exec c s = .next (takeRequest (· == kind) body s) := by
  simp only [requestKinds, List.mem_cons, Prod.mk.injEq, List.not_mem_nil, or_false] at h
  obtain ⟨rfl, rfl, -⟩ | ⟨rfl, rfl, -⟩ | ⟨rfl, rfl, -⟩ | ⟨rfl, rfl, -⟩ | ⟨rfl, rfl, -⟩ | ⟨rfl, rfl, -⟩ | ⟨rfl, rfl, -⟩ |
    ⟨rfl, rfl, -⟩ | ⟨rfl, rfl, -⟩ | ⟨rfl, rfl, -⟩ | ⟨rfl, rfl, -⟩ | ⟨rfl, rfl, -⟩ | ⟨rfl, rfl, -⟩ | ⟨rfl, rfl, -⟩ |
    ⟨rfl, rfl, -⟩ | ⟨rfl, rfl, -⟩ := h
  all_goals exact ⟨_, fun _ => rfl⟩

theorem requestKinds_nodup : (requestKinds.map (·.1)).Nodup := by decide

/-- A length is right for a kind only within the bounds given for it, since each kind is listed once. -/
theorem formOk_of_outside {kind : Byte} {c : Instr} {lo hi len : Nat} (h : (kind, c, lo, hi) ∈ requestKinds)
    (hlen : len < lo ∨ hi < len) : formOk kind len = false := by
  rw [formOk, List.any_eq_false]
  intro r hr hok
  simp only [Bool.and_eq_true, beq_iff_eq, decide_eq_true_eq] at hok
  obtain ⟨⟨hkind, hlo⟩, hhi⟩ := hok
  obtain rfl : r = (kind, c, lo, hi) := List.inj_on_of_nodup_map requestKinds_nodup hr h hkind
  exact hlen.elim (Nat.not_lt.2 hlo) (Nat.not_lt.2 hhi)

theorem knownKind_of_other {kind : Byte} (h : ∀ x ∈ requestKinds, x.1 ≠ kind) : knownKind kind = false :=
  List.any_eq_false.2 fun x hx => by simpa using h x hx

/-! ### The answers -/

theorem responsesOf_pos (q : Frame) (m : Meas) : 0 < responsesOf q m := by
  unfold responsesOf
  split
  · split <;> decide
  · split
    · omega
    · decide

section

variable {kind : Byte} {len r : Nat} {q : Frame} {rest : List Frame} {s : State}

theorem HeadRequest.canProcess (h : HeadRequest kind len r q rest s) (hr : responsesOf q s.meas ≤ r) : canProcess q s = true := by
  obtain ⟨-, -, -, hheld, hroom⟩ := h
  simp only [Machine.canProcess, hheld, List.isEmpty_nil, Bool.true_and, decide_eq_true_eq]
  exact (Nat.add_le_add_left hr _).trans hroom

/-- A request that adds one response is taken, and does the work of its command. -/
theorem HeadRequest.takes {body : Frame → State → State} (h : HeadRequest kind len 1 q rest s) (hxrel : kind ≠ kindXrel)
    (hrestart : kind ≠ kindRestart) (hform : formOk kind len = true) :
    takeRequest (· == kind) body s = body q (taken rest s) := by
  obtain ⟨-, hkind, -⟩ := id h
  exact takeRequest_of_head h (responses_one hkind hxrel hrestart).le (beq_self_eq_true kind) hform

/-- A request of a wrong length is answered BADFORM, whatever its work would have been. -/
theorem takeRequest_of_bad_form {mine : Byte → Bool} {body : Frame → State → State} (h : HeadRequest kind len r q rest s)
    (hr : responsesOf q s.meas ≤ r) (hmine : mine kind = true) (hform : formOk kind len = false) :
    takeRequest mine body s = pumpUp (respond q .badForm [] (taken rest s)) := by
  have hprocess := h.canProcess hr
  obtain ⟨hbuffer, rfl, rfl, -, -⟩ := h
  simp only [takeRequest, hbuffer, hmine, hprocess, hform, Bool.and_true, if_true]
  rfl

/-- A request of another kind than the sixteen is answered BADKIND. -/
theorem exec_unknownRequest_of_head (h : HeadRequest q.kind len r q rest s) (hr : responsesOf q s.meas ≤ r)
    (hkind : knownKind q.kind = false) :
    exec .unknownRequest s = .next (pumpUp (respond q .badKind [] (taken rest s))) := by
  have hprocess := h.canProcess hr
  obtain ⟨hbuffer, -⟩ := h
  simp only [exec, execUnknownRequest, hbuffer, hkind, hprocess, Bool.not_false, Bool.and_true, if_true]
  rfl

end

/-- Settles O49: in both cases the one response is all that the request comes to. -/
theorem badRequestsOnlyAnswered : Obligations.BadRequestsOnlyAnswered := by
  refine ⟨fun s q rest kind c lo hi hkind hq hlen => ?_, fun s q rest hq hother => ?_⟩
  · obtain ⟨body, hexec⟩ := exec_of_requestKind hkind
    refine ⟨_, hexec s, ?_⟩
    rw [takeRequest_of_bad_form (mine := (· == kind)) hq le_rfl (beq_self_eq_true kind) (formOk_of_outside hkind hlen)]
    exact respond_up_moved (hq.room (responsesOf_pos q s.meas))
  · have hone : responsesOf q s.meas = 1 :=
      responses_one rfl (hother (_, .xrel, 0, 0) (by decide)).symm (hother (_, .restart, 0, 0) (by decide)).symm
    exact ⟨_, exec_unknownRequest_of_head hq hone.le (knownKind_of_other hother), respond_up_moved (hq.room one_pos)⟩

end Sys2Proof.Machine
end

section
/-! SUPPORT. Reading back what the layouts write: fields at an offset (R178), and bytes assembled from bits. -/

namespace Sys2Proof.Machine

/-! ### Fields at an offset (R178) -/

/-- A text made of fields has each of them at the offset to which the fields before it come. -/
theorem field_of_flatten {fs : List (List Byte)} {widths : List Nat} {f : List Byte} {i : Nat}
    (hwidths : fs.map List.length = widths) (j : Nat) (hi : (widths.take j).sum = i) (hf : fs[j]? = some f) :
    (fs.flatten.drop i).take f.length = f := by
  subst hwidths
  induction j generalizing fs i with
  | zero =>
    cases fs with
    | nil => simp at hf
    | cons g fs =>
      obtain rfl : g = f := by simpa using hf
      obtain rfl : 0 = i := hi
      simp
  | succ j ih =>
    cases fs with
    | nil => simp at hf
    | cons g fs =>
      obtain rfl : g.length + ((fs.map List.length).take j).sum = i := by simpa using hi
      rw [List.flatten_cons, List.drop_length_add_append]
      exact ih (by simpa using hf) rfl

section

variable {fs : List (List Byte)} {widths : List Nat} {i n : Nat} (hwidths : fs.map List.length = widths) (j : Nat)
  (hi : (widths.take j).sum = i)

include hwidths hi

theorem getD_of_field {f : List Byte} (hf : fs[j]? = some f) {k : Nat} (hk : k < f.length) :
    fs.flatten.getD (i + k) 0 = f.getD k 0 := by
  have hget := congrArg (fun l : List Byte => l.getD k 0) (field_of_flatten hwidths j hi hf)
  simpa [List.getElem?_take, hk, List.getElem?_drop] using hget

theorem getD_of_byte (hf : fs[j]? = some (be8 n)) : fs.flatten.getD i 0 = BitVec.ofNat 8 n :=
  getD_of_field hwidths j hi hf Nat.zero_lt_one

theorem nat8_of_field (hf : fs[j]? = some (be8 n)) : nat8 fs.flatten i = n % 256 := by
  rw [nat8, getD_of_byte hwidths j hi hf, BitVec.toNat_ofNat]

theorem nat8_of_lt (hf : fs[j]? = some (be8 n)) (hn : n < 256) : nat8 fs.flatten i = n :=
  (nat8_of_field hwidths j hi hf).trans (Nat.mod_eq_of_lt hn)

theorem nat16_of_field (hf : fs[j]? = some (be16 n)) : nat16 fs.flatten i = n % 65536 := by
  have hhigh : fs.flatten.getD i 0 = BitVec.ofNat 8 (n / 256) := getD_of_field hwidths j hi hf Nat.zero_lt_two
  have hlow : fs.flatten.getD (i + 1) 0 = BitVec.ofNat 8 n := getD_of_field hwidths j hi hf Nat.one_lt_two
  rw [nat16, nat8, nat8, hhigh, hlow, BitVec.toNat_ofNat, BitVec.toNat_ofNat]
  omega

theorem nat16_of_word {w : BitVec 16} (hf : fs[j]? = some (be16 w.toNat)) : nat16 fs.flatten i = w.toNat :=
  (nat16_of_field hwidths j hi hf).trans (Nat.mod_eq_of_lt w.isLt)

theorem int16_of_field {z : Int} (hf : fs[j]? = some (beInt16 z)) : int16 fs.flatten i = (BitVec.ofInt 16 z).toInt := by
  rw [int16, nat16_of_word hwidths j hi hf, BitVec.ofNat_toNat, BitVec.setWidth_eq]

theorem nat32_of_word {w : BitVec 32} (hf : fs[j]? = some (be32 w.toNat)) : nat32 fs.flatten i = w.toNat := by
  have hbyte (k : Nat) (hk : k < 4) : fs.flatten.getD (i + k) 0 = (be32 w.toNat).getD k 0 := getD_of_field hwidths j hi hf hk
  have h0 : fs.flatten.getD i 0 = BitVec.ofNat 8 (w.toNat / 65536 / 256) := hbyte 0 (by decide)
  have h1 : fs.flatten.getD (i + 1) 0 = BitVec.ofNat 8 (w.toNat / 65536) := hbyte 1 (by decide)
  have h2 : fs.flatten.getD (i + 2) 0 = BitVec.ofNat 8 (w.toNat / 256) := hbyte 2 (by decide)
  have h3 : fs.flatten.getD (i + 2 + 1) 0 = BitVec.ofNat 8 w.toNat := hbyte 3 (by decide)
  have hlt := w.isLt
  simp only [nat32, nat16, nat8, h0, h1, h2, h3, BitVec.toNat_ofNat]
  omega

theorem ofNat_nat32_of_field {w : BitVec 32} (hf : fs[j]? = some (be32 w.toNat)) : BitVec.ofNat 32 (nat32 fs.flatten i) = w := by
  rw [nat32_of_word hwidths j hi hf, BitVec.ofNat_toNat, BitVec.setWidth_eq]

end

theorem nat8_lt (b : List Byte) (i : Nat) : nat8 b i < 256 := (b.getD i 0).isLt

/-- A word of four bytes is sent as they stand. -/
theorem be32_nat32 {p : List Byte} (h : p.length = 4) : be32 (BitVec.ofNat 32 (nat32 p 0)).toNat = p := by
  obtain ⟨a, b, c, d, rfl⟩ := List.length_eq_four.1 h
  have ha := a.isLt
  have hb := b.isLt
  have hc := c.isLt
  have hd := d.isLt
  have hword : (BitVec.ofNat 32 (nat32 [a, b, c, d] 0)).toNat = ((a.toNat * 256 + b.toNat) * 256 + c.toNat) * 256 + d.toNat := by
    rw [BitVec.toNat_ofNat]
    show ((a.toNat * 256 + b.toNat) * 65536 + (c.toNat * 256 + d.toNat)) % 4294967296 = _
    omega
  rw [hword]
  have hbyte {n : Nat} {x : Byte} (hn : n % 256 = x.toNat) : BitVec.ofNat 8 n = x := BitVec.eq_of_toNat_eq (by rw [BitVec.toNat_ofNat, hn])
  show [BitVec.ofNat 8 _, BitVec.ofNat 8 _, BitVec.ofNat 8 _, BitVec.ofNat 8 _] = [a, b, c, d]
  rw [hbyte (x := a) (by omega), hbyte (x := b) (by omega), hbyte (x := c) (by omega), hbyte (x := d) (by omega)]

/-! ### Bytes of bits -/

/-- A bit of a byte, read off the number that it shows. -/
theorem getLsbD_of_bit {n i : Nat} {v : Bool} (hi : i < 8) (h : n / 2 ^ i % 2 = v.toNat) : (BitVec.ofNat 8 n).getLsbD i = v := by
  rw [getLsbD_ofNat8 n hi, h, decide_toNat_eq_one]

/-- One bit at its place. -/
theorem getLsbD_bit_at {p : Nat} (hp : p < 8) (v : Bool) (j : Nat) :
    (BitVec.ofNat 8 (v.toNat * 2 ^ p)).getLsbD j = (decide (j = p) && v) := by
  cases v with
  | false => simp
  | true =>
    rw [Bool.toNat_true, Nat.one_mul, BitVec.getLsbD_ofNat, Nat.testBit_two_pow, Bool.eq_iff_iff]
    simp only [Bool.and_eq_true, decide_eq_true_eq, Bool.and_true]
    omega

/-- A byte assembled from bits at places of their own has each bit at its place. -/
theorem getLsbD_byteOfBits {bits : List (Bool × Nat)} (hplaces : (bits.map (·.2)).Nodup) (hlt : ∀ x ∈ bits, x.2 < 8) (k : Nat) :
    (BitVec.ofNat 8 (byteOfBits bits)).getLsbD k = bits.any fun x => decide (k = x.2) && x.1 := by
  induction bits generalizing k with
  | nil => simp [byteOfBits]
  | cons x bits ih =>
    obtain ⟨v, p⟩ := x
    obtain ⟨hfresh, hrest⟩ := List.nodup_cons.1 hplaces
    have hp : p < 8 := hlt (v, p) List.mem_cons_self
    replace ih := ih hrest fun y hy => hlt y (List.mem_cons_of_mem _ hy)
    have hfree : (bits.any fun x => decide (p = x.2) && x.1) = false := by
      rw [List.any_eq_false]
      intro y hy hw
      simp only [Bool.and_eq_true, decide_eq_true_eq] at hw
      exact hfresh (List.mem_map.2 ⟨y, hy, hw.1.symm⟩)
    have hdisjoint : BitVec.ofNat 8 (v.toNat * 2 ^ p) &&& BitVec.ofNat 8 (byteOfBits bits) = 0 := by
      apply BitVec.eq_of_getLsbD_eq
      intro j _
      rw [BitVec.getLsbD_and, getLsbD_bit_at hp, ih]
      by_cases hjp : j = p
      · rw [hjp, hfree]; simp
      · simp [hjp]
    have hsum : byteOfBits ((v, p) :: bits) = v.toNat * 2 ^ p + byteOfBits bits := by simp [byteOfBits]
    rw [hsum, BitVec.ofNat_add, BitVec.add_eq_or_of_and_eq_zero _ _ hdisjoint, BitVec.getLsbD_or, getLsbD_bit_at hp, ih]
    rfl

end Sys2Proof.Machine
end

section
/-! PROOFS. The values at power-on (R167), and the summary byte of a response (R158). -/

namespace Sys2Proof.Machine

/-! ### Power-on (R167) -/

theorem flagSet_reset (f : Flag) : flagSet Meas.reset f = decide (f = .reset) := by cases f <;> decide

/-- Settles O3: POWER_ON leaves the reset state, whose fields are the values asked for. -/
theorem powerOnValues : Obligations.PowerOnValues := fun s =>
  have htap (d : Dom) : Meas.reset.taps.get d = .reset := PerDom.get_replicate _ d
  have hdom (d : Dom) : Meas.reset.doms.get d = .reset := PerDom.get_replicate _ d
  ⟨{ State.reset with pending := s.pending }, rfl, rfl,
    rfl, rfl, rfl, rfl, flagSet_reset, rfl, rfl, rfl, rfl, rfl,
    rfl, rfl, rfl, rfl, rfl,
    fun d => by dsimp only [State.reset]; rw [htap d]; exact ⟨rfl, rfl, rfl, rfl, rfl, rfl, rfl⟩,
    rfl, rfl, rfl, rfl, fun d => PerDom.get_replicate _ d, rfl, rfl,
    rfl, rfl, rfl, rfl, rfl, rfl, rfl,
    fun d => by dsimp only [State.reset]; rw [hdom d]; exact ⟨rfl, rfl, rfl, rfl, rfl, rfl, rfl, rfl, rfl⟩,
    rfl, rfl, rfl, rfl, rfl, rfl, rfl, rfl, rfl⟩

/-! ### The summary byte (R158, R184) -/

/-- Two bits, the topology state and the claim state of two bits each, and two bits more. -/
theorem summary_layout {a r f w : Bool} {t c : Nat} (ht : t < 4) (hc : c < 4) :
    let b : Byte := BitVec.ofNat 8 (byteOfBits [(a, 0), (r, 1), (f, 6), (w, 7)] + t * 4 + c * 16)
    b.getLsbD 0 = a ∧ b.getLsbD 1 = r ∧ (b.extractLsb' 2 2).toNat = t ∧ (b.extractLsb' 4 2).toNat = c ∧
      b.getLsbD 6 = f ∧ b.getLsbD 7 = w := by
  have ha := Bool.toNat_le a
  have hr := Bool.toNat_le r
  have hf := Bool.toNat_le f
  have hw := Bool.toNat_le w
  have hsum : byteOfBits [(a, 0), (r, 1), (f, 6), (w, 7)] = a.toNat + (r.toNat * 2 + (f.toNat * 64 + w.toNat * 128)) := by
    simp [byteOfBits]
  rw [hsum]
  set n := a.toNat + (r.toNat * 2 + (f.toNat * 64 + w.toNat * 128)) + t * 4 + c * 16 with hn
  have hpart (i : Nat) : ((BitVec.ofNat 8 n).extractLsb' i 2).toNat = n % 256 / 2 ^ i % 4 := by
    rw [BitVec.extractLsb'_toNat, BitVec.toNat_ofNat, Nat.shiftRight_eq_div_pow]
  refine ⟨getLsbD_of_bit (by decide) ?_, getLsbD_of_bit (by decide) ?_, ?_, ?_, getLsbD_of_bit (by decide) ?_,
    getLsbD_of_bit (by decide) ?_⟩
  case refine_3 => rw [hpart]; omega
  case refine_4 => rw [hpart]; omega
  all_goals omega

/-- Settles O4. -/
theorem responseLayout : Obligations.ResponseLayout := by
  intro kind tag st values m
  obtain ⟨hattention, hrunning, htopo, hclaim, hfault, hwarn⟩ :=
    summary_layout (a := attention m) (r := partRunning m) (f := anyVerdict m .fault) (w := anyVerdict m .warn)
      (topoState_code_lt m.topo.state) (claimState_code_lt m.claim.state)
  exact ⟨BitVec.ofNat 8 (summary m), rfl, hattention.trans (Bool.eq_iff_iff.2 (by simp [attention])), hrunning, htopo, hclaim,
    hfault, hwarn⟩

end Sys2Proof.Machine
end

section
/-! PROOFS. STAT: its block (R162, R187) and the clearing (R160); and MASK (R161). -/

namespace Sys2Proof.Machine

/-! ### The STAT block (R187) -/

theorem number_lt_256 (d : Dom) : d.number < 256 := by cases d <;> decide

theorem orNumber_lt_256 (o : Option Dom) : o.elim 0 (·.number) < 256 := by
  cases o with
  | none => decide
  | some d => exact number_lt_256 d

theorem refStep_code_lt (st : RefStep) : st.code < 256 := by
  cases st with
  | preempt => decide
  | cycle st => cases st <;> decide

theorem fwdHighMark_lt (img : List Byte) : fwdHighMark img < 256 := nat8_lt img 0

theorem tableId_code_lt (t : TableId) : t.code < 256 := by cases t <;> decide

theorem resetCause_code_lt (c : ResetCause) : c.code < 256 := by cases c <;> decide

theorem refField_eq (m : Meas) :
    refField m = be8 m.ref.isSome.toNat ++ be8 (m.ref.elim 0 (·.tap.number)) ++ be8 (m.ref.elim 0 (·.step.code)) := by
  unfold refField; cases m.ref <;> rfl

theorem loadField_eq (l : Loader) :
    loadField l = be8 (l.load.elim 0 (·.table.code)) ++ be16 (l.load.elim 0 (·.buffer.length)) ++
      be8 (l.load.elim 0 (·.expected.toNat)) := by
  unfold loadField
  cases l.load with
  | none => rfl
  | some x => simp [be8]

/-- The fields of the STAT block, one after another, whatever is absent. -/
def statFields (s : State) : List (List Byte) :=
  [be32 s.meas.flags.toNat, be32 s.meas.mask.toNat, be8 (partRunning s.meas).toNat, be8 s.meas.topo.state.code,
   be8 (s.meas.topo.row.getD 0xFF), be8 s.meas.topo.count, be8 s.meas.claim.state.code, be8 (claimedNumber s.meas),
   be8 s.meas.ref.isSome.toNat, be8 (s.meas.ref.elim 0 (·.tap.number)), be8 (s.meas.ref.elim 0 (·.step.code)),
   be8 (s.loader.load.elim 0 (·.table.code)), be16 (s.loader.load.elim 0 (·.buffer.length)),
   be8 (s.loader.load.elim 0 (·.expected.toNat)), be8 (presenceByte s.meas.tables), be8 s.loader.freeze.toNat,
   be8 (occupancy s), be8 (fwdHighMark (forwardImage s.meas)),
   be8 (indications (occupancy s) (fwdHighMark (forwardImage s.meas))), be16 s.link.drops,
   be8 s.link.rxU.parity, be8 s.link.rxU.framing, be8 s.link.rxU.gap, be8 s.link.rxU.crc,
   be8 s.link.rxD.parity, be8 s.link.rxD.framing, be8 s.link.rxD.gap, be8 s.link.rxD.crc,
   be8 s.link.overrun, be32 s.meas.timebase.toNat, be8 s.meas.resetCause.code]

theorem statFields_widths (s : State) : (statFields s).map List.length =
    [4, 4, 1, 1, 1, 1, 1, 1, 1, 1, 1, 1, 2, 1, 1, 1, 1, 1, 1, 2, 1, 1, 1, 1, 1, 1, 1, 1, 1, 4, 1] := rfl

theorem statBlock_eq (s : State) : statBlock s = (statFields s).flatten := by
  unfold statBlock
  dsimp only
  rw [refField_eq, loadField_eq]
  unfold counterField statFields
  simp only [List.flatten_cons, List.flatten_nil, List.append_nil, List.append_assoc]

theorem getLsbD_presenceByte (t : Tables) (k : Nat) :
    (BitVec.ofNat 8 (presenceByte t)).getLsbD k =
      ((decide (k = 0) && t.domain.isSome) || (decide (k = 1) && t.topology.isSome) || (decide (k = 2) && t.cycle.isSome) ||
       (decide (k = 3) && t.limit.isSome) || (decide (k = 4) && t.forward.isSome)) := by
  rw [presenceByte, getLsbD_byteOfBits (by simp) (by simp)]
  simp [Bool.or_assoc]

theorem getLsbD_indications (occ high k : Nat) :
    (BitVec.ofNat 8 (indications occ high)).getLsbD k =
      ((decide (k = 0) && decide (occ = 0)) || (decide (k = 1) && decide (high ≤ occ)) || (decide (k = 2) && decide (occ = 32))) := by
  rw [indications, getLsbD_byteOfBits (by simp) (by simp)]
  simp [Bool.or_assoc, Config.upstreamPlaces, beq_eq_decide]

/-- The block is laid out as R187 says: each field of the layout stands at its offset. -/
theorem statLayout_statBlock (s : State) : StatLayout s (statBlock s) := by
  have hlength := statBlock_length s
  rw [statBlock_eq] at hlength ⊢
  have hw := statFields_widths s
  have hpart : nat8 (statFields s).flatten 8 = _ := nat8_of_field hw 2 rfl rfl
  have hactive : nat8 (statFields s).flatten 14 = _ := nat8_of_field hw 8 rfl rfl
  have htap : nat8 (statFields s).flatten 15 = _ := nat8_of_field hw 9 rfl rfl
  have hstep : nat8 (statFields s).flatten 16 = _ := nat8_of_field hw 10 rfl rfl
  have htable : nat8 (statFields s).flatten 17 = _ := nat8_of_field hw 11 rfl rfl
  have hreceived : nat16 (statFields s).flatten 18 = _ := nat16_of_field hw 12 rfl rfl
  have hpresence : (statFields s).flatten.getD 21 0 = _ := getD_of_byte hw 14 rfl rfl
  have hindications : (statFields s).flatten.getD 25 0 = _ := getD_of_byte hw 18 rfl rfl
  have hexpected : nat8 (statFields s).flatten 20 = _ := nat8_of_field hw 13 rfl rfl
  exact {
    length := hlength
    flags := nat32_of_word hw 0 rfl rfl
    mask := nat32_of_word hw 1 rfl rfl
    part := by rw [hpart]; cases partRunning s.meas <;> rfl
    topology := ⟨nat8_of_lt hw 3 rfl rfl (Nat.lt_trans (topoState_code_lt _) (by decide)), nat8_of_field hw 4 rfl rfl,
      nat8_of_field hw 5 rfl rfl⟩
    claim := ⟨nat8_of_lt hw 6 rfl rfl (Nat.lt_trans (claimState_code_lt _) (by decide)), nat8_of_lt hw 7 rfl rfl (orNumber_lt_256 _)⟩
    idle := fun h => by
      rw [hactive, htap, hstep, h]
      exact ⟨rfl, rfl, rfl⟩
    active := fun r h => by
      have hcode : r.step.code % 256 = r.step.code := Nat.mod_eq_of_lt (refStep_code_lt _)
      rw [hactive, htap, hstep, h]
      exact ⟨rfl, Nat.mod_eq_of_lt (number_lt_256 _), fun hp => hcode.trans (by rw [hp]; rfl),
        fun st hst => hcode.trans (by rw [hst]; rfl)⟩
    noLoad := fun h => by
      rw [htable, hreceived, hexpected, h]
      exact ⟨rfl, rfl, rfl⟩
    load := fun l h => by
      rw [htable, hreceived, hexpected, h]
      exact ⟨Nat.mod_eq_of_lt (tableId_code_lt _), rfl, Nat.mod_eq_of_lt l.expected.isLt⟩
    tables := fun k => by rw [hpresence]; exact getLsbD_presenceByte s.meas.tables k
    freeze := nat8_of_lt hw 15 rfl rfl (Nat.lt_trans s.loader.freeze.isLt (by decide))
    queue := ⟨nat8_of_field hw 16 rfl rfl, nat8_of_lt hw 17 rfl rfl (fwdHighMark_lt _)⟩
    indications := fun k => by rw [hindications]; exact getLsbD_indications _ _ k
    drops := nat16_of_field hw 19 rfl rfl
    portU := ⟨nat8_of_field hw 20 rfl rfl, nat8_of_field hw 21 rfl rfl, nat8_of_field hw 22 rfl rfl, nat8_of_field hw 23 rfl rfl⟩
    portD := ⟨nat8_of_field hw 24 rfl rfl, nat8_of_field hw 25 rfl rfl, nat8_of_field hw 26 rfl rfl, nat8_of_field hw 27 rfl rfl⟩
    overrun := nat8_of_field hw 28 rfl rfl
    timebase := nat32_of_word hw 29 rfl rfl
    resetCause := nat8_of_lt hw 30 rfl rfl (resetCause_code_lt _) }

/-! ### The two commands -/

/-- Settles O47: the block is taken before the clearing, and the response is formed after it. -/
theorem statAndMask : Obligations.StatAndMask := by
  refine ⟨fun s q rest h => ?_, fun s q rest h => ?_⟩
  · exact ⟨doStat q (taken rest s), (clearReported s.meas).flags,
      congrArg Host.Outcome.next (h.takes (by decide) (by decide) (by decide)), statLayout_statBlock _,
      respond_up_moved (h.room one_pos), fun f => flagSet_clearReported f s.meas⟩
  · obtain ⟨-, -, hlength, -⟩ := id h
    refine ⟨doMask q (taken rest s), congrArg Host.Outcome.next (h.takes (by decide) (by decide) (by decide)), ?_⟩
    rw [doMask, be32_nat32 hlength]
    exact respond_up_moved (h.room one_pos)

end Sys2Proof.Machine
end

section
/-! PROOFS. RESTART: its responses, and what it leaves (R166, R140, R148). -/

namespace Sys2Proof.Machine

/-! ### The responses (R166) -/

/-- The response that cancels a pending XCLAIM, naming the claimed domain. -/
def xclaimCancelled (m : Meas) : List Frame :=
  m.pendXclaim.toList.map fun p =>
    responseFrame 0 p.kind p.tag .cancelled [BitVec.ofNat 8 (m.claim.dom.elim 0 (·.number))] m

/-- The response that cancels a pending RCHK, naming the tap under check. -/
def rchkCancelled (m : Meas) : List Frame :=
  m.pendRchk.toList.map fun p =>
    responseFrame 0 p.kind p.tag .cancelled [BitVec.ofNat 8 (m.ref.elim 0 (·.tap.number))] m

/-- The responses to a RESTART, in their order. -/
def restartResponses (q : Frame) (m : Meas) : List Frame :=
  xclaimCancelled m ++ rchkCancelled m ++ [responseFrame 0 q.kind q.tag .ok [] m]

/-- Frames have joined the upstream queue. -/
def queued (fs : List Frame) (s : State) : State := { s with link := { s.link with upQueue := s.link.upQueue ++ fs } }

section

variable {s : State}

theorem queued_nil (s : State) : queued [] s = s := by rw [queued, List.append_nil]

theorem cancelXclaim_eq (hroom : s.link.upQueue.length + (xclaimCancelled s.meas).length ≤ Config.upstreamPlaces) :
    cancelXclaim s = { queued (xclaimCancelled s.meas) s with meas := { s.meas with pendXclaim := none } } := by
  unfold cancelXclaim
  cases hp : s.meas.pendXclaim with
  | none =>
    have hsame : { s.meas with pendXclaim := none } = s.meas := by rw [← hp]
    rw [hsame, xclaimCancelled, hp]
    exact (queued_nil s).symm
  | some p =>
    have hlt : s.link.upQueue.length < Config.upstreamPlaces := by simpa [xclaimCancelled, hp, Nat.succ_le_iff] using hroom
    dsimp only
    rw [respond_of_room hlt, xclaimCancelled, hp]
    rfl

theorem cancelRchk_of_pending {p : PendingRec} {r : RefCheck} (hp : s.meas.pendRchk = some p) (hr : s.meas.ref = some r) :
    cancelRchk s = (respond ⟨markerRequest, 0, p.kind, p.tag, []⟩ .cancelled (be8 r.tap.number) s).withMeas
      fun m => { m with pendRchk := none } := by rw [cancelRchk, hp, hr]

theorem cancelRchk_eq (href : s.meas.ref.isSome = true ↔ s.meas.pendRchk.isSome = true)
    (hroom : s.link.upQueue.length + (rchkCancelled s.meas).length ≤ Config.upstreamPlaces) :
    cancelRchk s = { queued (rchkCancelled s.meas) s with meas := { s.meas with pendRchk := none } } := by
  cases hp : s.meas.pendRchk with
  | none =>
    have hsame : { s.meas with pendRchk := none } = s.meas := by rw [← hp]
    rw [hsame, cancelRchk, rchkCancelled, hp]
    exact (queued_nil s).symm
  | some p =>
    obtain ⟨r, hr⟩ := Option.isSome_iff_exists.1 (href.2 (by rw [hp]; rfl))
    have hlt : s.link.upQueue.length < Config.upstreamPlaces := by simpa [rchkCancelled, hp, Nat.succ_le_iff] using hroom
    have hframe : rchkCancelled s.meas = [responseFrame 0 p.kind p.tag .cancelled (be8 r.tap.number) s.meas] := by
      rw [rchkCancelled, hp, hr]; rfl
    rw [cancelRchk_of_pending hp hr, respond_of_room hlt, hframe]
    rfl

/-- The places that R156 asks for are those of the responses. -/
theorem length_restartResponses {q : Frame} (hkind : q.kind = kindRestart)
    (hclaim : s.meas.claim.state = .handoff ↔ s.meas.pendXclaim.isSome = true)
    (href : s.meas.ref.isSome = true ↔ s.meas.pendRchk.isSome = true) :
    responsesOf q s.meas = (restartResponses q s.meas).length := by
  have hx : (if s.meas.claim.state == .handoff then 1 else 0) = (xclaimCancelled s.meas).length := by
    rw [xclaimCancelled, List.length_map]
    cases hp : s.meas.pendXclaim <;> simp [hclaim, hp]
  have hr : (if s.meas.ref.isSome then 1 else 0) = (rchkCancelled s.meas).length := by
    rw [rchkCancelled, List.length_map]
    cases hp : s.meas.pendRchk <;> simp [href, hp]
  have hresponses : responsesOf q s.meas =
      1 + (if s.meas.claim.state == .handoff then 1 else 0) + (if s.meas.ref.isSome then 1 else 0) := by
    rw [responsesOf, hkind]; rfl
  rw [hresponses, hx, hr, restartResponses, List.length_append, List.length_append, List.length_singleton]
  omega

/-! ### The command (R166) -/

/-- What a RESTART leaves before the outputs move: its responses queued, any load aborted, and the measurement side reset. -/
def restarted (q : Frame) (s : State) : State :=
  { queued (restartResponses q s.meas) s with loader := ⟨none, s.loader.freeze⟩, meas := restartMeas s.meas }

theorem doRestart_eq {q : Frame} (hclaim : s.meas.claim.state = .handoff ↔ s.meas.pendXclaim.isSome = true)
    (href : s.meas.ref.isSome = true ↔ s.meas.pendRchk.isSome = true)
    (hroom : s.link.upQueue.length + (restartResponses q s.meas).length ≤ Config.upstreamPlaces) :
    doRestart q s = pumpBoth (restarted q s) := by
  simp only [restartResponses, List.length_append, List.length_singleton] at hroom
  have hcancelled : (if s.meas.claim.state == .handoff then cancelXclaim s else s) =
      { queued (xclaimCancelled s.meas) s with meas := { s.meas with pendXclaim := none } } := by
    rw [← cancelXclaim_eq (by omega)]
    split
    · rfl
    · rename_i hc
      have hnone : s.meas.pendXclaim = none := by simpa [hclaim] using hc
      rw [cancelXclaim, hnone]
  unfold doRestart
  dsimp only
  rw [hcancelled, cancelRchk_eq (by exact href) (by
    show (s.link.upQueue ++ xclaimCancelled s.meas).length + (rchkCancelled s.meas).length ≤ _
    rw [List.length_append]; omega)]
  dsimp only
  rw [respond_of_room (by
    show ((s.link.upQueue ++ xclaimCancelled s.meas) ++ rchkCancelled s.meas).length < _
    rw [List.length_append, List.length_append]; omega)]
  congr 1
  simp only [restarted, queued, answered, restartResponses, State.withMeas, State.withLoader, List.append_assoc]
  rfl

end

/-- What a restart writes to a tap (R31, R133, R134, R140). -/
theorem writeTap_rest (isFitted : Bool) (now : Time) (p : Tap) :
    let tap := writeTap .rest isFitted now p
    let changed := isFitted = true ∧ p.mailbox ≠ ⟨0, .domain, .floating⟩
    tap = { p with mailbox := ⟨0, .domain, .floating⟩, ramp := none, due := tap.due, refreshStart := tap.refreshStart } ∧
      (changed → tap.due = true ∧ tap.refreshStart = some now) ∧
      (¬ changed → tap.due = p.due ∧ tap.refreshStart = p.refreshStart) := by
  refine ⟨rfl, fun ⟨hfit, hmove⟩ => ?_, fun hkept => ?_⟩
  · have hchanged : (isFitted && p.mailbox != .rest) = true := by
      rw [hfit, Bool.true_and, bne_iff_ne]
      exact hmove
    simp [writeTap, hchanged]
  · have hchanged : (isFitted && p.mailbox != .rest) = false := by
      rw [Bool.eq_false_iff, Ne, Bool.and_eq_true, bne_iff_ne]
      exact hkept
    simp [writeTap, hchanged]

/-- Settles O50: one response after another, then the resets of R166's table. -/
theorem restartResets : Obligations.RestartResets := by
  intro s q rest h hclaim href responses
  obtain ⟨-, hkind, -, hheld, hroom⟩ := id h
  obtain ⟨hmeas, htaps⟩ := restartMeas_eq s.meas
  have hplaces : (taken rest s).link.upQueue.length + (restartResponses q s.meas).length ≤ Config.upstreamPlaces := by
    rw [← length_restartResponses hkind hclaim href]
    exact hroom
  have hrestart : exec .restart s = .next (pumpBoth (restarted q (taken rest s))) := by
    rw [← doRestart_eq (s := taken rest s) hclaim href hplaces]
    exact congrArg Host.Outcome.next (takeRequest_of_head h le_rfl (by decide) (by decide))
  have hmoved := pumpBoth_moved (restarted q (taken rest s))
  refine ⟨_, restartMeas s.meas, hrestart, ?_, hmoved, hmeas, restartMeas_flag s.meas, fun d => ?_⟩
  · have hheld' : (restartMeas s.meas).heldResponses = [] := by rw [hmeas]; exact hheld
    rw [hmoved.upstream]
    simp only [outgoing, restarted, queued, taken, hheld, hheld', List.append_nil, ← List.append_assoc]
    rfl
  · dsimp only
    rw [htaps d]
    exact writeTap_rest (fitted s.meas d) s.meas.timebase (s.meas.taps.get d)

end Sys2Proof.Machine
end

section
/-! PROOFS. ISORD, RESRD and FLTRD: the layouts of their records (R163, R188 to R190), and what they answer (R163, R164). -/

namespace Sys2Proof.Machine

/-! ### The ISORD record (R188) -/

/-- The fields of the record of a fitted domain, one after another. -/
def isordFields (m : Meas) (d : Dom) : List (List Byte) :=
  let r := m.doms.get d
  let e := entryFor m d
  [be8 (d.number + (e.elim 0 (·.phase.code)) * 16 + (e.elim 0 (·.cause.code)) * 64),
   be8 (tapStateCode (some ((tapState m d).getD .unseen)) + byteOfBits [(held m d, 2), (r.asymActive, 3), (r.belowClear, 4),
     (r.newest.isSome, 5), (r.solo.isSome, 6), (e.isSome, 7)]),
   be8 ((islandOf m d).elim 0 (·.members.toNat)),
   be8 (islandCode m d + (islandMode m d).code * 16 + r.verdict.code * 32 + r.runLevel.code * 128),
   be8 (r.worse + r.better * 16),
   be16 (r.newest.elim 0 (·.number.toNat)), be16 (r.newest.elim 0 fun n => shownAge 65535 m.timebase n.time),
   be16 (r.solo.elim 0 (·.riso)), be16 (r.solo.elim 0 fun x => shownAge 65535 m.timebase x.time),
   be8 (e.elim 0 fun x => shownAge 255 m.timebase x.time)]

theorem isordFields_widths (m : Meas) (d : Dom) : (isordFields m d).map List.length = [1, 1, 1, 1, 1, 2, 2, 2, 2, 1] := rfl

theorem isordRecord_eq {m : Meas} {d : Dom} (h : fitted m d = true) : isordRecord m d = (isordFields m d).flatten := by
  rw [isordRecord, if_pos h]
  unfold fittedRecord isordFields
  simp only [List.flatten_cons, List.flatten_nil, List.append_nil, List.append_assoc]

/-- Byte 0: the domain, the phase of its suspended cycle, and the cause. -/
theorem isordByte0_layout (d : Dom) (e : Option SuspendEntry) :
    let b : Byte := BitVec.ofNat 8 (d.number + (e.elim 0 (·.phase.code)) * 16 + (e.elim 0 (·.cause.code)) * 64)
    b.toNat % 16 = d.number ∧ b.toNat / 16 % 4 = e.elim 0 (·.phase.code) ∧
      b.getLsbD 6 = decide (e.elim 0 (·.cause.code) = 1) ∧
      b.toNat / 16 = e.elim 0 (·.phase.code) + e.elim 0 (·.cause.code) * 4 := by
  have hd : d.number ≤ 8 := d.index_lt
  have hphase : e.elim 0 (·.phase.code) < 4 := by
    cases e with
    | none => decide
    | some x => show x.phase.code < 4; cases x.phase <;> decide
  have hcause : e.elim 0 (·.cause.code) < 2 := by
    cases e with
    | none => decide
    | some x => show x.cause.code < 2; cases x.cause <;> decide
  generalize e.elim 0 (·.phase.code) = p at *
  generalize e.elim 0 (·.cause.code) = c at *
  have hbit : (d.number + p * 16 + c * 64) / 2 ^ 6 % 2 = c := by omega
  dsimp only
  rw [getLsbD_ofNat8 _ (by decide), hbit, BitVec.toNat_ofNat]
  refine ⟨?_, ?_, rfl, ?_⟩ <;> omega

/-- Byte 1: the tap state, and six marks. -/
theorem isordByte1_layout {t : Nat} (ht : t < 4) (a b c d e f : Bool) :
    let x : Byte := BitVec.ofNat 8 (t + byteOfBits [(a, 2), (b, 3), (c, 4), (d, 5), (e, 6), (f, 7)])
    x.toNat % 4 = t ∧ x.getLsbD 2 = a ∧ x.getLsbD 3 = b ∧ x.getLsbD 4 = c ∧ x.getLsbD 5 = d ∧ x.getLsbD 6 = e ∧
      x.getLsbD 7 = f := by
  have ha := Bool.toNat_le a
  have hb := Bool.toNat_le b
  have hc := Bool.toNat_le c
  have hd := Bool.toNat_le d
  have he := Bool.toNat_le e
  have hf := Bool.toNat_le f
  have hsum : byteOfBits [(a, 2), (b, 3), (c, 4), (d, 5), (e, 6), (f, 7)] =
      a.toNat * 4 + (b.toNat * 8 + (c.toNat * 16 + (d.toNat * 32 + (e.toNat * 64 + f.toNat * 128)))) := by simp [byteOfBits]
  rw [hsum]
  set n := t + (a.toNat * 4 + (b.toNat * 8 + (c.toNat * 16 + (d.toNat * 32 + (e.toNat * 64 + f.toNat * 128))))) with hn
  refine ⟨by rw [BitVec.toNat_ofNat]; omega, getLsbD_of_bit (by decide) ?_, getLsbD_of_bit (by decide) ?_,
    getLsbD_of_bit (by decide) ?_, getLsbD_of_bit (by decide) ?_, getLsbD_of_bit (by decide) ?_,
    getLsbD_of_bit (by decide) ?_⟩ <;> omega

/-- Byte 3: the island code and mode, the verdict, the run level. -/
theorem isordByte3_layout {i md v l : Nat} (hi : i < 16) (hmd : md < 2) (hv : v < 4) (hl : l < 2) :
    let b : Byte := BitVec.ofNat 8 (i + md * 16 + v * 32 + l * 128)
    b.toNat % 16 = i ∧ b.getLsbD 4 = decide (md = 1) ∧ b.toNat % 32 = i + md * 16 ∧ b.toNat / 32 % 4 = v ∧
      b.getLsbD 7 = decide (l = 1) := by
  have hbit4 : (i + md * 16 + v * 32 + l * 128) / 2 ^ 4 % 2 = md := by omega
  have hbit7 : (i + md * 16 + v * 32 + l * 128) / 2 ^ 7 % 2 = l := by omega
  dsimp only
  rw [getLsbD_ofNat8 _ (by decide), getLsbD_ofNat8 _ (by decide), hbit4, hbit7, BitVec.toNat_ofNat]
  refine ⟨?_, rfl, ?_, ?_, rfl⟩ <;> omega

theorem tapStateCode_lt (o : Option TapState) : tapStateCode o < 4 := by
  cases o with
  | none => decide
  | some t => cases t <;> decide

theorem runLevel_code_lt (l : RunLevel) : l.code < 2 := by cases l <;> decide
theorem runLevel_code_eq_one (l : RunLevel) : l.code = 1 ↔ l = .fault := by cases l <;> decide
theorem suspendCause_code_eq_one (c : SuspendCause) : c.code = 1 ↔ c = .refchk := by cases c <;> decide

theorem islandCode_lt (m : Meas) (d : Dom) : islandCode m d < 16 := by
  unfold islandCode
  cases islandOf m d with
  | none => decide
  | some i => exact islandState_code_lt i.state

/-- The record is laid out as R188 says: each field of the layout stands at its offset. -/
theorem isordLayout_isordRecord {m : Meas} {d : Dom} (h : fitted m d = true) : IsordLayout m d (isordRecord m d) := by
  have hlength := isordRecord_length m d
  rw [isordRecord_eq h] at hlength ⊢
  have hw := isordFields_widths m d
  have hb0 : (isordFields m d).flatten.getD 0 0 = _ := getD_of_byte hw 0 rfl rfl
  have hb1 : (isordFields m d).flatten.getD 1 0 = _ := getD_of_byte hw 1 rfl rfl
  have hb2 : (isordFields m d).flatten.getD 2 0 = _ := getD_of_byte hw 2 rfl rfl
  have hb3 : (isordFields m d).flatten.getD 3 0 = _ := getD_of_byte hw 3 rfl rfl
  have hb4 : nat8 (isordFields m d).flatten 4 = _ := nat8_of_field hw 4 rfl rfl
  have hnumber : nat16 (isordFields m d).flatten 5 = _ := nat16_of_field hw 5 rfl rfl
  have hage : nat16 (isordFields m d).flatten 7 = _ := nat16_of_field hw 6 rfl rfl
  have hsolo : nat16 (isordFields m d).flatten 9 = _ := nat16_of_field hw 7 rfl rfl
  have hsoloAge : nat16 (isordFields m d).flatten 11 = _ := nat16_of_field hw 8 rfl rfl
  have hentryAge : nat8 (isordFields m d).flatten 13 = _ := nat8_of_field hw 9 rfl rfl
  obtain ⟨hdom, hphase, hcause, hhigh⟩ := isordByte0_layout d (entryFor m d)
  obtain ⟨htap, hheld, hasym, hbelow, hnewest, hhasSolo, hentry⟩ :=
    isordByte1_layout (tapStateCode_lt (some ((tapState m d).getD .unseen))) (held m d) (m.doms.get d).asymActive
      (m.doms.get d).belowClear (m.doms.get d).newest.isSome (m.doms.get d).solo.isSome (entryFor m d).isSome
  obtain ⟨hcode, hmode, hlow, hverdict, hlevel⟩ := isordByte3_layout (islandCode_lt m d) (mode_code_lt (islandMode m d))
    (verdict_code_lt (m.doms.get d).verdict) (runLevel_code_lt (m.doms.get d).runLevel)
  exact {
    length := hlength
    dom := by rw [nat8, hb0]; exact hdom
    tap := fun p hp => by
      have hstate : tapState m d = some p.state := by rw [tapState, hp]; rfl
      rw [hstate] at htap hb1
      rw [nat8, hb1]
      exact ⟨fun hs => htap.trans (by rw [hs]; rfl), fun hs => htap.trans (by rw [hs]; rfl), fun hs => htap.trans (by rw [hs]; rfl)⟩
    marks := by rw [hb1]; exact ⟨hheld, hasym, hbelow, hnewest, hhasSolo⟩
    island := fun i hi => by
      have hstate : islandCode m d = i.state.code := by rw [islandCode, hi]; rfl
      have hfull : islandMode m d = i.mode := by rw [islandMode, hi]; rfl
      rw [nat8, hb2, hb3, hi]
      exact ⟨by simp, hcode.trans hstate, hmode.trans (by rw [hfull]; exact decide_eq_decide.2 (mode_code_eq_one _))⟩
    noIsland := fun hi => by
      have hstate : islandCode m d = 0 := by rw [islandCode, hi]; rfl
      have hfast : (islandMode m d).code = 0 := by rw [islandMode, hi]; rfl
      rw [nat8, nat8, hb2, hb3, hi]
      exact ⟨rfl, hlow.trans (by rw [hstate, hfast])⟩
    verdict := by
      rw [nat8, hb3]
      exact ⟨hverdict, hlevel.trans (decide_eq_decide.2 (runLevel_code_eq_one _))⟩
    runs := fun hworse hbetter => by rw [hb4]; constructor <;> omega
    newest := fun n hn => by
      rw [hnumber, hage, hn]
      exact ⟨Nat.mod_eq_of_lt n.number.isLt, Nat.mod_eq_of_lt (Nat.lt_succ_of_le (Nat.min_le_left _ _))⟩
    noNewest := fun hn => by rw [hnumber, hage, hn]; exact ⟨rfl, rfl⟩
    solo := fun x hx => by
      rw [hsolo, hsoloAge, hx]
      exact ⟨rfl, Nat.mod_eq_of_lt (Nat.lt_succ_of_le (Nat.min_le_left _ _))⟩
    noSolo := fun hx => by rw [hsolo, hsoloAge, hx]; exact ⟨rfl, rfl⟩
    entry := fun i e hi he => by
      have hfor : entryFor m d = some e := by rw [entryFor, hi]; exact he
      rw [hfor] at hentry hb1 hb0 hphase hcause hentryAge
      rw [nat8, hb0, hb1, hentryAge]
      exact ⟨hentry, hphase, hcause.trans (decide_eq_decide.2 (suspendCause_code_eq_one _)),
        Nat.mod_eq_of_lt (Nat.lt_succ_of_le (Nat.min_le_left _ _))⟩
    noEntry := fun hnone => by
      have hfor : entryFor m d = none := by
        cases hi : islandOf m d with
        | none => rw [entryFor, hi]; rfl
        | some i => rw [entryFor, hi]; exact List.find?_eq_none.2 fun e he => by simpa using hnone i hi e he
      rw [hfor] at hentry hb1 hb0 hhigh hentryAge
      rw [nat8, hb0, hb1, hentryAge]
      exact ⟨hentry, hhigh, rfl⟩ }

/-- The record of a domain that is not fitted. -/
theorem unfittedLayout_isordRecord {m : Meas} {d : Dom} (h : fitted m d = false) : UnfittedLayout d (isordRecord m d) := by
  have hlength := isordRecord_length m d
  have heq : isordRecord m d = BitVec.ofNat 8 d.number ::
      BitVec.ofNat 8 (3 + byteOfBits [((m.doms.get d).asymActive, 3)]) :: List.replicate 12 0 := by
    rw [isordRecord, h]; rfl
  rw [heq] at hlength ⊢
  refine ⟨hlength, ?_, ?_, ?_, rfl⟩
  · show (BitVec.ofNat 8 d.number).toNat = _
    rw [BitVec.toNat_ofNat]; exact Nat.mod_eq_of_lt (number_lt_256 d)
  · show (BitVec.ofNat 8 _).toNat % 4 = 3
    cases (m.doms.get d).asymActive <;> rfl
  · show (BitVec.ofNat 8 _).getLsbD 2 = false ∧ (BitVec.ofNat 8 _).toNat / 16 = 0
    cases (m.doms.get d).asymActive <;> exact ⟨rfl, rfl⟩

/-! ### The result record (R189) -/

/-- The fields of a result record, one after another. -/
def resultFields (r : ResultRecord) : List (List Byte) :=
  [be16 r.number.toNat, be8 r.members.toNat, be8 r.injector.number, be8 r.profile.code, be8 r.mode.code, be8 r.outcome.code,
   be8 (qualityByte r.quality),
   be8 (byteOfBits [(r.means.vq.isSome, 0), (r.means.vp.isSome, 1), (r.means.vn.isSome, 2), (r.d2.isSome, 3),
     (r.rraw.isSome, 4), (r.rp.isSome, 5)]),
   be32 r.time.toNat, be16 r.u,
   beInt16 (r.means.vq.getD 0), beInt16 (r.means.vp.getD 0), beInt16 (r.means.vn.getD 0),
   be16 (r.means.vPlusQ.getD 0), be16 (r.means.vMinusQ.getD 0), beInt32 (r.d2.getD 0),
   be16 (r.rraw.getD 0), be16 (r.riso.getD 0), be16 (r.rp.getD 0), be16 (r.rn.getD 0),
   be16 r.counts.quiet, be16 r.counts.pos, be16 r.counts.neg]

theorem resultFields_widths (r : ResultRecord) : (resultFields r).map List.length =
    [2, 1, 1, 1, 1, 1, 1, 1, 4, 2, 2, 2, 2, 2, 2, 4, 2, 2, 2, 2, 2, 2, 2] := rfl

theorem resultBytes_eq (r : ResultRecord) : resultBytes r = (resultFields r).flatten := by
  unfold resultBytes resultFields orZero orZeroInt
  simp only [List.flatten_cons, List.flatten_nil, List.append_nil, List.append_assoc]

theorem profile_code_lt (p : Profile) : p.code < 256 := by cases p <;> decide
theorem cycleOutcome_code_lt (o : CycleOutcome) : o.code < 256 := by cases o <;> decide

/-- The record is laid out as R189 says. -/
theorem resultLayout_resultBytes (r : ResultRecord) : ResultLayout r (resultBytes r) := by
  have hlength := resultBytes_length r
  rw [resultBytes_eq] at hlength ⊢
  have hw := resultFields_widths r
  have hmembers : (resultFields r).flatten.getD 2 0 = _ := getD_of_byte hw 1 rfl rfl
  have hquality : (resultFields r).flatten.getD 7 0 = _ := getD_of_byte hw 6 rfl rfl
  have hpresence : (resultFields r).flatten.getD 8 0 = _ := getD_of_byte hw 7 rfl rfl
  exact {
    length := hlength
    number := nat16_of_word hw 0 rfl rfl
    who := ⟨by rw [hmembers]; simp, nat8_of_lt hw 2 rfl rfl (number_lt_256 _), nat8_of_lt hw 3 rfl rfl (profile_code_lt _),
      nat8_of_lt hw 4 rfl rfl (Nat.lt_trans (mode_code_lt _) (by decide))⟩
    outcome := nat8_of_lt hw 5 rfl rfl (cycleOutcome_code_lt _)
    quality := fun k => by
      rw [hquality, qualityByte, getLsbD_byteOfBits (by simp) (by simp)]
      simp [Bool.or_assoc]
    presence := fun k => by
      rw [hpresence, getLsbD_byteOfBits (by simp) (by simp)]
      simp [Bool.or_assoc]
    time := nat32_of_word hw 8 rfl rfl
    level := nat16_of_field hw 9 rfl rfl
    means := ⟨int16_of_field hw 10 rfl rfl, int16_of_field hw 11 rfl rfl, int16_of_field hw 12 rfl rfl,
      nat16_of_field hw 13 rfl rfl, nat16_of_field hw 14 rfl rfl⟩
    d2 := ofNat_nat32_of_field hw 15 rfl rfl
    resistances := ⟨nat16_of_field hw 16 rfl rfl, nat16_of_field hw 17 rfl rfl, nat16_of_field hw 18 rfl rfl,
      nat16_of_field hw 19 rfl rfl⟩
    counts := ⟨nat16_of_field hw 20 rfl rfl, nat16_of_field hw 21 rfl rfl, nat16_of_field hw 22 rfl rfl⟩ }

/-! ### The fault record (R190) -/

/-- The fields of an entry of the attribution list. -/
def entryFields (e : AttribEntry) : List (List Byte) :=
  [be8 (e.dom.number + e.solo.isSome.toNat * 128), be16 (e.solo.elim 0 (·.1)), be16 (e.solo.elim 0 (·.2))]

theorem entryFields_widths (e : AttribEntry) : (entryFields e).map List.length = [1, 2, 2] := rfl

theorem entryBytes_eq (e : AttribEntry) : entryBytes e = (entryFields e).flatten := by
  unfold entryBytes entryFields
  cases e.solo <;> rfl

/-- Byte 0 of an entry: the domain, and whether it has solo data. -/
theorem entryByte0_layout (d : Dom) (v : Bool) :
    let b : Byte := BitVec.ofNat 8 (d.number + v.toNat * 128)
    b.toNat % 16 = d.number ∧ b.getLsbD 7 = v := by
  have hd : d.number ≤ 8 := d.index_lt
  have hv := Bool.toNat_le v
  exact ⟨by rw [BitVec.toNat_ofNat]; omega, getLsbD_of_bit (by decide) (by omega)⟩

/-- The fields of a fault record before its entries. -/
def faultHead (r : FaultRecord) : List (List Byte) :=
  [be8 r.dom.number, be32 r.time.toNat, be8 r.members.toNat, be8 r.injector.number, be8 r.profile.code, be16 r.number.toNat,
   be16 r.riso, be8 r.rp.isSome.toNat, be16 (r.rp.getD 0), be16 (r.rn.getD 0), be8 r.entries.length]

/-- The fields of a fault record, its entries, and what is left of the eight places. -/
def faultFields (r : FaultRecord) : List (List Byte) :=
  faultHead r ++ (r.entries.map entryBytes ++ [List.replicate ((8 - r.entries.length) * 5) 0])

def faultHeadWidths : List Nat := [1, 4, 1, 1, 1, 2, 2, 1, 2, 2, 1]

theorem faultFields_widths (r : FaultRecord) : (faultFields r).map List.length =
    faultHeadWidths ++ (List.replicate r.entries.length 5 ++ [(8 - r.entries.length) * 5]) := by
  have hentries : (r.entries.map entryBytes).map List.length = List.replicate r.entries.length 5 := by
    simp [List.eq_replicate_iff, entryBytes_length]
  rw [faultFields, List.map_append, List.map_append, hentries, List.map_singleton, List.length_replicate]
  rfl

theorem faultBytes_eq {r : FaultRecord} (h : r.entries.length ≤ 8) : faultBytes r = (faultFields r).flatten := by
  unfold faultBytes entriesBytes faultFields faultHead orZero
  rw [List.take_of_length_le h, List.flatMap_def]
  simp only [List.flatten_append, List.flatten_cons, List.flatten_nil, List.append_nil, List.append_assoc]

/-- The entries follow the head, five bytes each. -/
theorem sum_take_faultWidths {n k : Nat} (h : k ≤ n) (z : Nat) :
    ((faultHeadWidths ++ (List.replicate n 5 ++ [z])).take (11 + k)).sum = 18 + 5 * k := by
  have hhead : faultHeadWidths.length = 11 := rfl
  rw [← hhead, List.take_length_add_append, List.take_append_of_le_length (by simpa using h), List.take_replicate,
    Nat.min_eq_left h, List.sum_append, List.sum_replicate, smul_eq_mul, Nat.mul_comm k 5]
  rfl

theorem getElem?_faultFields {r : FaultRecord} {k : Nat} {e : AttribEntry} (h : r.entries[k]? = some e) :
    (faultFields r)[11 + k]? = some (entryBytes e) := by
  have hlt : k < r.entries.length := (List.getElem?_eq_some_iff.1 h).1
  rw [faultFields, List.getElem?_append_right (by exact Nat.le_add_right 11 k),
    show 11 + k - (faultHead r).length = k from Nat.add_sub_cancel_left 11 k, List.getElem?_append_left (by simpa using hlt),
    List.getElem?_map, h]
  rfl

/-- The bytes of an entry in its place. -/
theorem getD_faultFields_entry {r : FaultRecord} {k j : Nat} {e : AttribEntry} (h : r.entries[k]? = some e) (hj : j < 5) :
    (faultFields r).flatten.getD (18 + 5 * k + j) 0 = (entryFields e).flatten.getD j 0 := by
  have hlt : k < r.entries.length := (List.getElem?_eq_some_iff.1 h).1
  rw [← entryBytes_eq]
  exact getD_of_field (faultFields_widths r) (11 + k) (sum_take_faultWidths hlt.le _) (getElem?_faultFields h)
    (by rw [entryBytes_length]; exact hj)

/-- Beyond the entries nothing but zeros. -/
theorem getD_faultFields_beyond {r : FaultRecord} {n : Nat} (h : 18 + 5 * r.entries.length ≤ n) :
    (faultFields r).flatten.getD n 0 = 0 := by
  have hsplit : (faultFields r).flatten = ((faultHead r).flatten ++ r.entries.flatMap entryBytes) ++
      List.replicate ((8 - r.entries.length) * 5) 0 := by
    simp [faultFields, List.flatMap_def]
  have hlength : ((faultHead r).flatten ++ r.entries.flatMap entryBytes).length = 18 + 5 * r.entries.length := by
    rw [List.length_append, flatMap_entryBytes_length]; rfl
  rw [hsplit, List.getD_append_right _ _ _ _ (by rw [hlength]; exact h), List.getD_eq_getElem?_getD, List.getElem?_replicate]
  split <;> rfl

/-- The record is laid out as R190 says. -/
theorem faultLayout_faultBytes {r : FaultRecord} (h : r.entries.length ≤ 8) : FaultLayout r (faultBytes r) := by
  have hlength := faultBytes_length r
  rw [faultBytes_eq h] at hlength ⊢
  have hw := faultFields_widths r
  have hmembers : (faultFields r).flatten.getD 5 0 = _ := getD_of_byte hw 2 rfl rfl
  have hsides : nat8 (faultFields r).flatten 12 = _ := nat8_of_field hw 7 rfl rfl
  exact {
    length := hlength
    dom := nat8_of_lt hw 0 rfl rfl (number_lt_256 _)
    time := nat32_of_word hw 1 rfl rfl
    who := ⟨by rw [hmembers]; simp, nat8_of_lt hw 3 rfl rfl (number_lt_256 _), nat8_of_lt hw 4 rfl rfl (profile_code_lt _)⟩
    number := nat16_of_word hw 5 rfl rfl
    riso := nat16_of_field hw 6 rfl rfl
    sides := ⟨by rw [hsides]; cases r.rp.isSome <;> rfl, nat16_of_field hw 8 rfl rfl, nat16_of_field hw 9 rfl rfl⟩
    count := nat8_of_lt hw 10 rfl rfl (by omega)
    entries := fun k e he => by
      have hbyte (j : Nat) (hj : j < 5) := getD_faultFields_entry he hj
      have hfields (b : List Byte) {i j : Nat} (hi : b.getD i 0 = (entryFields e).flatten.getD j 0)
          (hi' : b.getD (i + 1) 0 = (entryFields e).flatten.getD (j + 1) 0) : nat16 b i = nat16 (entryFields e).flatten j := by
        rw [nat16, nat8, nat8, hi, hi']; rfl
      have hsecond : 19 + 5 * k = 18 + 5 * k + 1 := by omega
      have hfourth : 21 + 5 * k = 18 + 5 * k + 3 := by omega
      have hfirst : (faultFields r).flatten.getD (18 + 5 * k) 0 = _ :=
        (hbyte 0 (by decide)).trans (getD_of_byte (entryFields_widths e) 0 rfl rfl)
      obtain ⟨hdom, hsolo⟩ := entryByte0_layout e.dom e.solo.isSome
      rw [nat8, hfirst, hsecond, hfourth, hfields _ (hbyte 1 (by decide)) (hbyte 2 (by decide)),
        hfields _ (hbyte 3 (by decide)) (hbyte 4 (by decide))]
      exact ⟨hdom, hsolo, nat16_of_field (entryFields_widths e) 1 rfl rfl, nat16_of_field (entryFields_widths e) 2 rfl rfl⟩
    beyond := fun n hn => by rw [nat8, getD_faultFields_beyond hn]; rfl }

/-! ### The three commands -/

section

variable {s : State} {q : Frame} {rest : List Frame}

theorem exec_isord_of_head (h : HeadRequest 0x22 1 1 q rest s) : exec .isord s = .next (doIsord q (taken rest s)) :=
  congrArg Host.Outcome.next (h.takes (by decide) (by decide) (by decide))

theorem exec_resrd_of_head (h : HeadRequest 0x23 1 1 q rest s) : exec .resrd s = .next (doResrd q (taken rest s)) :=
  congrArg Host.Outcome.next (h.takes (by decide) (by decide) (by decide))

theorem exec_fltrd_of_head (h : HeadRequest 0x24 1 1 q rest s) : exec .fltrd s = .next (doFltrd q (taken rest s)) :=
  congrArg Host.Outcome.next (h.takes (by decide) (by decide) (by decide))

theorem doIsord_of_empty (hset : q.payload = [0]) : doIsord q s = pumpUp (respond q .badArg [] s) := by
  rw [doIsord, hset]; rfl

theorem doIsord_of_set {b : Byte} (hset : q.payload = [b]) (hb : b ≠ 0) :
    doIsord q s = pumpUp (respond q .ok ((members b).flatMap (isordRecord s.meas)) s) := by
  rw [doIsord, hset]; exact if_neg hb

theorem doResrd_of_unfitted (hnone : fittedArg s.meas q 0 = none) : doResrd q s = pumpUp (respond q .badArg [] s) := by
  rw [doResrd, hnone]

theorem doResrd_of_result {d : Dom} {r : ResultRecord} (hd : fittedArg s.meas q 0 = some d)
    (hr : (islandOf s.meas d).bind (·.slot) = some r) : doResrd q s = pumpUp (respond q .ok (resultBytes r) s) := by
  simp only [doResrd, hd, hr]

theorem doResrd_of_no_result {d : Dom} (hd : fittedArg s.meas q 0 = some d)
    (hr : (islandOf s.meas d).bind (·.slot) = none) : doResrd q s = pumpUp (respond q .wrongState [] s) := by
  simp only [doResrd, hd, hr]

theorem doFltrd_of_unfitted (hnone : fittedArg s.meas q 0 = none) : doFltrd q s = pumpUp (respond q .badArg [] s) := by
  rw [doFltrd, hnone]

theorem doFltrd_of_fault {d : Dom} {r : FaultRecord} (hd : fittedArg s.meas q 0 = some d)
    (hr : (s.meas.doms.get d).fault = some r) : doFltrd q s = pumpUp (respond q .ok (1 :: faultBytes r) s) := by
  simp only [doFltrd, hd, hr]
  rfl

theorem doFltrd_of_no_fault {d : Dom} (hd : fittedArg s.meas q 0 = some d)
    (hr : (s.meas.doms.get d).fault = none) : doFltrd q s = pumpUp (respond q .ok [0] s) := by
  simp only [doFltrd, hd, hr]
  rfl

end

/-- Settles O48: each command answers what it reads and nothing else, and each record has its layout. -/
theorem readOuts : Obligations.ReadOuts := by
  refine ⟨fun s q rest h => ?_, fun s q rest hnone => ⟨fun h => ?_, fun h => ?_⟩, fun s q rest d h hd hfit => ?_,
    fun s q rest d h hd hfit => ?_, by decide, by decide, by decide, by decide, fun _ => rfl, by decide, by decide, by decide,
    by decide, by decide, by decide, by decide, by decide⟩
  · refine ⟨_, exec_isord_of_head h, fun hset => ?_, fun b hset hb => ⟨?_, fun d => mem_members, members_pairwise b,
      fun d => ⟨isordLayout_isordRecord, unfittedLayout_isordRecord⟩⟩⟩
    · rw [doIsord_of_empty hset]
      exact respond_up_moved (h.room one_pos)
    · rw [doIsord_of_set hset hb]
      exact respond_up_moved (h.room one_pos)
  · refine ⟨_, exec_resrd_of_head h, ?_⟩
    rw [doResrd_of_unfitted (s := taken rest s) (fittedArg_none hnone)]
    exact respond_up_moved (h.room one_pos)
  · refine ⟨_, exec_fltrd_of_head h, ?_⟩
    rw [doFltrd_of_unfitted (s := taken rest s) (fittedArg_none hnone)]
    exact respond_up_moved (h.room one_pos)
  · have harg : fittedArg (taken rest s).meas q 0 = some d := fittedArg_some hd hfit
    refine ⟨_, exec_resrd_of_head h, fun i r hi hr => ⟨resultLayout_resultBytes r, ?_⟩, fun hno => ?_⟩
    · have hslot : (islandOf (taken rest s).meas d).bind (·.slot) = some r := Option.bind_eq_some_iff.2 ⟨i, hi, hr⟩
      rw [doResrd_of_result harg hslot]
      exact respond_up_moved (h.room one_pos)
    · have hslot : (islandOf (taken rest s).meas d).bind (·.slot) = none :=
        Option.eq_none_iff_forall_ne_some.2 fun r hr => by
          obtain ⟨i, hi, hr⟩ := Option.bind_eq_some_iff.1 hr
          exact hno i r hi hr
      rw [doResrd_of_no_result harg hslot]
      exact respond_up_moved (h.room one_pos)
  · have harg : fittedArg (taken rest s).meas q 0 = some d := fittedArg_some hd hfit
    refine ⟨_, exec_fltrd_of_head h, fun r hr => ⟨faultLayout_faultBytes, ?_⟩, fun hno => ?_⟩
    · rw [doFltrd_of_fault (s := taken rest s) harg hr]
      exact respond_up_moved (h.room one_pos)
    · rw [doFltrd_of_no_fault (s := taken rest s) harg hno]
      exact respond_up_moved (h.room one_pos)

end Sys2Proof.Machine
end

section
/-! PROOFS. A millisecond on an empty queue: the timebase, and the events that are then due (00_scope, Time; logs 2 and 3). -/

namespace Sys2Proof.Machine

/-! ### When a timer's expiry happens -/

theorem timerExpired_iff {o : Option Timer} {now : Time} :
    timerExpired o now = true ↔ ∃ tm, o = some tm ∧ tm.dur ≤ age now tm.start := by
  cases o <;> simp [timerExpired, Timer.expired]

theorem startExpired_iff {o : Option Time} {dur : Nat} {now : Time} :
    startExpired o dur now = true ↔ ∃ st, o = some st ∧ dur ≤ age now st := by
  cases o <;> simp [startExpired]

theorem sampling_settle {step : CycleStep} {ph : Phase} (h : step.sampling = some (.settle, ph)) : step = settleStep ph := by
  cases step <;> cases h <;> rfl

theorem sampling_plateau {step : CycleStep} {ph : Phase} (h : step.sampling = some (.plateau, ph)) : step = plateauStep ph := by
  cases step <;> cases h <;> rfl

section

variable {m : Meas} {ds : DomSet} {t : Dom}

theorem refreshExpiry_isSome : (refreshExpiry t m).isSome = true ↔
    fitted m t = true ∧ ∃ st, (m.taps.get t).refreshStart = some st ∧ 20 ≤ age m.timebase st := by
  rw [← startExpired_iff, ← Bool.and_eq_true, refreshExpiry]
  exact Option.isSome_ite

theorem lossExpiry_isSome : (lossExpiry t m).isSome = true ↔
    ∃ p st, (m.taps.get t).presence = some p ∧ p.state = .present ∧ p.lossStart = some st ∧ 100 ≤ age m.timebase st := by
  unfold lossExpiry
  cases hp : (m.taps.get t).presence with
  | none => simp
  | some p => simp [startExpired_iff, Config.lossMs]

theorem joinExpiry_isSome : (joinExpiry t m).isSome = true ↔
    ∃ p st, (m.taps.get t).presence = some p ∧ p.state ≠ .present ∧ 0 < p.joinRun ∧ p.lossStart = some st ∧
      100 ≤ age m.timebase st := by
  unfold joinExpiry
  cases hp : (m.taps.get t).presence with
  | none => simp
  | some p => simp [startExpired_iff, Config.lossMs, and_assoc]

theorem freshnessExpiry_isSome : (freshnessExpiry m).isSome = true ↔
    ∃ img rp, m.tables.topology = some img ∧ m.topo.stored = some rp ∧ (m.topo.state = .known ∨ m.topo.state = .nomatch) ∧
      topoFreshness img ≤ age m.timebase rp.time := by
  unfold freshnessExpiry
  cases m.tables.topology <;> cases m.topo.stored <;> simp

theorem settleExpiry_isSome : (settleExpiry ds m).isSome = true ↔
    ∃ i tm, islandAt m ds = some i ∧ i.state = .forming ∧ i.settleTimer = .running tm ∧
      tm.dur ≤ age m.timebase tm.start := by
  unfold settleExpiry
  cases hi : islandAt m ds with
  | none => simp
  | some i => cases hs : i.state <;> cases ht : i.settleTimer <;> simp [hs, ht, Timer.expired]

theorem intervalExpiry_isSome : (intervalExpiry ds m).isSome = true ↔
    ∃ i tm, islandAt m ds = some i ∧ i.state = .interval ∧ i.intervalTimer = some tm ∧
      tm.dur ≤ age m.timebase tm.start := by
  unfold intervalExpiry
  cases hi : islandAt m ds with
  | none => simp
  | some i => simp [timerExpired_iff]

/-- A phase timer expires in a SETTLE step alone. -/
theorem phaseExpiry_isSome : (phaseExpiry ds m).isSome = true ↔
    ∃ i ph tm, islandAt m ds = some i ∧ i.state = .cycle (settleStep ph) ∧ i.phaseTimer = some tm ∧
      tm.dur ≤ age m.timebase tm.start := by
  refine ⟨fun h => ?_, fun ⟨i, ph, tm, hi, hs, ht, hdue⟩ => by rw [phaseExpiry_of_due hi hs ht hdue]; rfl⟩
  unfold phaseExpiry at h
  (repeat' split at h) <;> simp at h
  rename_i _ i hi _ st hs _ ph hst hexpired
  obtain ⟨tm, ht, hdue⟩ := timerExpired_iff.1 hexpired
  exact ⟨i, ph, tm, hi, by rw [hs, sampling_settle hst], ht, hdue⟩

/-- A plateau timer expires in a PLATEAU step alone. -/
theorem plateauExpiry_isSome : (plateauExpiry ds m).isSome = true ↔
    ∃ i ph tm, islandAt m ds = some i ∧ i.state = .cycle (plateauStep ph) ∧ i.plateauTimer = some tm ∧
      tm.dur ≤ age m.timebase tm.start := by
  refine ⟨fun h => ?_, fun ⟨i, ph, tm, hi, hs, ht, hdue⟩ => by rw [plateauExpiry_of_due hi hs ht hdue]; rfl⟩
  unfold plateauExpiry at h
  (repeat' split at h) <;> simp at h
  rename_i _ i hi _ st hs _ ph hst hexpired
  obtain ⟨tm, ht, hdue⟩ := timerExpired_iff.1 hexpired
  exact ⟨i, ph, tm, hi, by rw [hs, sampling_plateau hst], ht, hdue⟩

theorem refPhaseExpiry_isSome : (refPhaseExpiry m).isSome = true ↔
    ∃ r ph tm, m.ref = some r ∧ r.step = .cycle (settleStep ph) ∧ r.phaseTimer = some tm ∧
      tm.dur ≤ age m.timebase tm.start := by
  refine ⟨fun h => ?_, fun ⟨r, ph, tm, hr, hs, ht, hdue⟩ => by rw [refPhaseExpiry_of_due hr hs ht hdue]; rfl⟩
  unfold refPhaseExpiry at h
  (repeat' split at h) <;> simp at h
  rename_i _ r hr _ st hs _ ph hst hexpired
  obtain ⟨tm, ht, hdue⟩ := timerExpired_iff.1 hexpired
  exact ⟨r, ph, tm, hr, by rw [hs, sampling_settle hst], ht, hdue⟩

theorem refPlateauExpiry_isSome : (refPlateauExpiry m).isSome = true ↔
    ∃ r ph tm, m.ref = some r ∧ r.step = .cycle (plateauStep ph) ∧ r.plateauTimer = some tm ∧
      tm.dur ≤ age m.timebase tm.start := by
  refine ⟨fun h => ?_, fun ⟨r, ph, tm, hr, hs, ht, hdue⟩ => by rw [refPlateauExpiry_of_due hr hs ht hdue]; rfl⟩
  unfold refPlateauExpiry at h
  (repeat' split at h) <;> simp at h
  rename_i _ r hr _ st hs _ ph hst hexpired
  obtain ⟨tm, ht, hdue⟩ := timerExpired_iff.1 hexpired
  exact ⟨r, ph, tm, hr, by rw [hs, sampling_plateau hst], ht, hdue⟩

theorem handoffExpiry_isSome : (handoffExpiry m).isSome = true ↔
    m.claim.state = .handoff ∧ m.claim.limit ≤ age m.timebase m.claim.acceptance := by
  simp [handoffExpiry, handoffExpired]

theorem suspendExpiry_isSome : (suspendExpiry ds m).isSome = true ↔
    ∃ e, m.suspended.find? (fun x => x.members == ds) = some e ∧
      e.captured.row.resumeAge * 1000 < age m.timebase e.time := by
  unfold suspendExpiry entryAt
  cases m.suspended.find? (fun x => x.members == ds) <;> simp [entryTooOld]

theorem agingExpiryOf_isSome {d : Dom} : (agingExpiryOf d m).isSome = true ↔
    ((m.doms.get d).verdict = .ok ∨ (m.doms.get d).verdict = .warn) ∧ inSet (coveredSet m) d = false ∧
      ∃ n l, (m.doms.get d).newest = some n ∧ limitsOf m d (profileInForce m d) = some l ∧
        l.maxAge * 1000 < (m.timebase - n.time).toNat := by
  rw [← agingDue_iff, agingExpiryOf]
  exact Option.isSome_ite

end

/-! ### The expiries that a millisecond queues -/

/-- What the expiry of a command comes to, when its timer has run its time; a command that is no expiry of the measurement side has none. -/
def expiryOf : Instr → Meas → Option Meas
  | .freshnessExpiry => freshnessExpiry
  | .settleTimerExpiry ds => settleExpiry ds
  | .intervalExpiry ds => intervalExpiry ds
  | .phaseTimerExpiry c => cyclePhaseExpiry c
  | .plateauTimerExpiry c => cyclePlateauExpiry c
  | .refreshTimerExpiry t => refreshExpiry t
  | .lossTimerExpiry t => lossExpiry t
  | .joinRunTimeout t => joinExpiry t
  | .handoffTimeout => handoffExpiry
  | .suspendEntryExpiry ds => suspendExpiry ds
  | .agingExpiry d => agingExpiryOf d
  | _ => fun _ => none

/-- The commands that are expiries of the measurement side. -/
def isTimer : Instr → Bool
  | .freshnessExpiry | .settleTimerExpiry _ | .intervalExpiry _ | .phaseTimerExpiry _ | .plateauTimerExpiry _
  | .refreshTimerExpiry _ | .lossTimerExpiry _ | .joinRunTimeout _ | .handoffTimeout | .suspendEntryExpiry _
  | .agingExpiry _ => true
  | _ => false

theorem mem_dueIf {b : Bool} {i c : Instr} : c ∈ dueIf b i ↔ b = true ∧ c = i := by
  unfold dueIf; split <;> simp [*]

section

variable {m : Meas} {c : Instr}

theorem mem_tapDue {t : Dom} : c ∈ tapDue m t ↔
    (c = .refreshTimerExpiry t ∨ c = .lossTimerExpiry t ∨ c = .joinRunTimeout t) ∧ (expiryOf c m).isSome = true := by
  simp only [tapDue, List.mem_append, mem_dueIf]
  constructor
  · rintro ((⟨h, rfl⟩ | ⟨h, rfl⟩) | ⟨h, rfl⟩) <;> exact ⟨by simp, h⟩
  · rintro ⟨rfl | rfl | rfl, h⟩ <;> simpa [expiryOf] using h

theorem mem_islandDue {i : Island} : c ∈ islandDue m i ↔
    (c = .settleTimerExpiry i.members ∨ c = .intervalExpiry i.members ∨ c = .phaseTimerExpiry (.island i.members) ∨
      c = .plateauTimerExpiry (.island i.members)) ∧ (expiryOf c m).isSome = true := by
  simp only [islandDue, List.mem_append, mem_dueIf]
  constructor
  · rintro (((⟨h, rfl⟩ | ⟨h, rfl⟩) | ⟨h, rfl⟩) | ⟨h, rfl⟩) <;> exact ⟨by simp, h⟩
  · rintro ⟨rfl | rfl | rfl | rfl, h⟩ <;> simpa [expiryOf, cyclePhaseExpiry, cyclePlateauExpiry] using h

/-- An island's timer expires only on an island that is there. -/
theorem exists_island_of_islandAt {ds : DomSet} {i : Island} (h : islandAt m ds = some i) : ∃ i ∈ m.islands, ds = i.members :=
  ⟨i, islandAt_mem h, (islandAt_members h).symm⟩

/-- The expiries that are queued are those whose timers have run their times. -/
theorem mem_measDue : c ∈ measDue m ↔ (expiryOf c m).isSome = true := by
  simp only [measDue, List.mem_append, List.mem_flatMap, mem_tapDue, mem_islandDue, mem_dueIf, Dom.mem_all, true_and]
  constructor
  · rintro (((((((⟨t, -, h⟩ | ⟨h, rfl⟩) | ⟨i, -, -, h⟩) | ⟨h, rfl⟩) | ⟨h, rfl⟩) | ⟨h, rfl⟩) | ⟨e, -, h, rfl⟩) | ⟨d, h, rfl⟩) <;>
      exact h
  · intro h
    cases c with
    | settleTimerExpiry ds =>
      obtain ⟨i, -, hi, -⟩ := settleExpiry_isSome.1 h
      simpa [h] using exists_island_of_islandAt hi
    | intervalExpiry ds =>
      obtain ⟨i, -, hi, -⟩ := intervalExpiry_isSome.1 h
      simpa [h] using exists_island_of_islandAt hi
    | phaseTimerExpiry r =>
      cases r with
      | island ds =>
        obtain ⟨i, -, -, hi, -⟩ := phaseExpiry_isSome.1 h
        simpa [h] using exists_island_of_islandAt hi
      | refCheck => simpa [expiryOf, cyclePhaseExpiry, cyclePlateauExpiry] using h
    | plateauTimerExpiry r =>
      cases r with
      | island ds =>
        obtain ⟨i, -, -, hi, -⟩ := plateauExpiry_isSome.1 h
        simpa [h] using exists_island_of_islandAt hi
      | refCheck => simpa [expiryOf, cyclePhaseExpiry, cyclePlateauExpiry] using h
    | suspendEntryExpiry ds =>
      obtain ⟨e, he, -⟩ := suspendExpiry_isSome.1 h
      obtain rfl : e.members = ds := by simpa using List.find?_some he
      simpa using ⟨e, List.mem_of_find?_eq_some he, h, rfl⟩
    | refreshTimerExpiry t => simpa using h
    | lossTimerExpiry t => simpa using h
    | joinRunTimeout t => simpa using h
    | freshnessExpiry => simpa [expiryOf] using h
    | handoffTimeout => simpa [expiryOf] using h
    | agingExpiry d => simpa [expiryOf] using h
    | _ => simp [expiryOf] at h

end

/-! ### The requests that a millisecond queues (R156, R157) -/

theorem canProcess_iff {q : Frame} {s : State} :
    canProcess q s = true ↔ s.meas.heldResponses = [] ∧ s.link.upQueue.length + responsesOf q s.meas ≤ Config.upstreamPlaces := by
  rw [canProcess, Bool.and_eq_true, List.isEmpty_iff, decide_eq_true_iff]
  rfl

/-- The command of a request is that of its kind, and UNKNOWN_REQUEST for one of another kind. -/
theorem requestCommand_eq_iff {x : Frame} {c : Instr} : requestCommand x = c ↔
    (∃ lo hi, (x.kind, c, lo, hi) ∈ requestKinds) ∨ (c = .unknownRequest ∧ ∀ y ∈ requestKinds, y.1 ≠ x.kind) := by
  unfold requestCommand
  cases hfind : requestKinds.find? fun r => r.1 == x.kind with
  | none =>
    have hother : ∀ y ∈ requestKinds, y.1 ≠ x.kind := by simpa using hfind
    refine ⟨fun h => .inr ⟨h.symm, hother⟩, ?_⟩
    rintro (⟨lo, hi, hmem⟩ | ⟨rfl, -⟩)
    · exact absurd rfl (hother _ hmem)
    · rfl
  | some r =>
    obtain ⟨kind, c', lo, hi⟩ := r
    have hmem := List.mem_of_find?_eq_some hfind
    obtain rfl : kind = x.kind := by simpa using List.find?_some hfind
    refine ⟨fun h => .inl ⟨lo, hi, h ▸ hmem⟩, ?_⟩
    rintro (⟨lo', hi', hmem'⟩ | ⟨-, hother⟩)
    · exact congrArg (fun r => r.2.1) (List.inj_on_of_nodup_map requestKinds_nodup hmem hmem' rfl)
    · exact absurd rfl (hother _ hmem)

theorem mem_requestsDue {s : State} {c : Instr} : c ∈ requestsDue s ↔ RequestDue s c := by
  unfold requestsDue RequestDue
  cases s.link.buffer with
  | nil => simp
  | cons q rest =>
    dsimp only
    by_cases hcan : canProcess q s = true
    · obtain ⟨hheld, hroom⟩ := canProcess_iff.1 hcan
      rw [if_pos hcan, List.mem_map]
      constructor
      · rintro ⟨x, hx, h⟩
        exact ⟨q, rest, rfl, hheld, hroom, x, hx, requestCommand_eq_iff.1 h⟩
      · rintro ⟨q', rest', heq, -, -, x, hx, h⟩
        rw [← heq] at hx
        exact ⟨x, hx, requestCommand_eq_iff.2 h⟩
    · rw [if_neg hcan]
      refine iff_of_false List.not_mem_nil ?_
      rintro ⟨q', rest', heq, hheld, hroom, -⟩
      obtain ⟨rfl, rfl⟩ := List.cons.inj heq
      exact hcan (canProcess_iff.2 ⟨hheld, hroom⟩)

/-- A command that no request has is not among those of the buffered requests. -/
theorem not_requestDue {s : State} {c : Instr} (hkinds : c ∉ requestKinds.map (·.2.1)) (hunknown : c ≠ .unknownRequest) :
    ¬ RequestDue s c := by
  rintro ⟨-, -, -, -, -, x, -, ⟨lo, hi, hmem⟩ | ⟨rfl, -⟩⟩
  · exact hkinds (List.mem_map_of_mem (f := fun r => r.2.1) hmem)
  · exact hunknown rfl

/-! ### Every event -/

theorem mem_rxDue {p : Port} {s : State} {c : Instr} : c ∈ rxDue p s ↔
    (c = .rxGapTimeout p ∧ (rxOf p s).state = .inFrame) ∨ (c = .rxRecoveryDone p ∧ (rxOf p s).state = .recovering) := by
  unfold rxDue
  cases (rxOf p s).state <;> simp

theorem loadGapDue_iff {s : State} :
    loadGapDue s = true ↔ ∃ l, s.loader.load = some l ∧ 250 ≤ age s.meas.timebase l.gapStart := by
  unfold loadGapDue
  cases s.loader.load with
  | none => simp
  | some l =>
    refine (decide_eq_true_iff (p := Config.loadGapMs ≤ age s.meas.timebase l.gapStart)).trans
      ⟨fun h => ⟨l, rfl, h⟩, ?_⟩
    rintro ⟨_, hl, h⟩
    exact Option.some.inj hl ▸ h

theorem mem_dueEvents {s : State} {c : Instr} : c ∈ dueEvents s ↔
    (s.link.txD.isSome = true ∧ c = .portDTxDone) ∨ (s.link.txU.isSome = true ∧ c = .portUTxDone) ∨ RequestDue s c ∨
    (∃ p, (c = .rxGapTimeout p ∧ (rxOf p s).state = .inFrame) ∨ (c = .rxRecoveryDone p ∧ (rxOf p s).state = .recovering)) ∨
    (expiryOf c s.meas).isSome = true ∨ (loadGapDue s = true ∧ c = .loadGapTimeout) := by
  have hports : (c ∈ rxDue .u s ∨ c ∈ rxDue .d s) ↔ ∃ p, c ∈ rxDue p s :=
    ⟨fun h => h.elim (⟨_, ·⟩) (⟨_, ·⟩), fun ⟨p, h⟩ => by cases p with | u => exact .inl h | d => exact .inr h⟩
  simp only [dueEvents, List.mem_append, mem_dueIf, mem_requestsDue, mem_measDue, or_assoc]
  simp only [← mem_rxDue, ← hports, or_assoc]

theorem mem_dueEvents_of_timer {s : State} {c : Instr} (hc : isTimer c = true) :
    c ∈ dueEvents s ↔ (expiryOf c s.meas).isSome = true := by
  rw [mem_dueEvents]
  cases c <;> simp [isTimer, not_requestDue, requestKinds] at hc ⊢

/-- The commands queued at a millisecond are those of the events that are due. -/
theorem mem_dueEvents_iff_eventDue {s : State} {c : Instr} : c ∈ dueEvents s ↔ EventDue s c := by
  cases c with
  | refreshTimerExpiry t => exact (mem_dueEvents_of_timer rfl).trans refreshExpiry_isSome
  | lossTimerExpiry t => exact (mem_dueEvents_of_timer rfl).trans lossExpiry_isSome
  | joinRunTimeout t => exact (mem_dueEvents_of_timer rfl).trans joinExpiry_isSome
  | freshnessExpiry => exact (mem_dueEvents_of_timer rfl).trans freshnessExpiry_isSome
  | settleTimerExpiry ds => exact (mem_dueEvents_of_timer rfl).trans settleExpiry_isSome
  | intervalExpiry ds => exact (mem_dueEvents_of_timer rfl).trans intervalExpiry_isSome
  | phaseTimerExpiry r =>
    cases r with
    | island ds => exact (mem_dueEvents_of_timer rfl).trans phaseExpiry_isSome
    | refCheck => exact (mem_dueEvents_of_timer rfl).trans refPhaseExpiry_isSome
  | plateauTimerExpiry r =>
    cases r with
    | island ds => exact (mem_dueEvents_of_timer rfl).trans plateauExpiry_isSome
    | refCheck => exact (mem_dueEvents_of_timer rfl).trans refPlateauExpiry_isSome
  | handoffTimeout => exact (mem_dueEvents_of_timer rfl).trans handoffExpiry_isSome
  | suspendEntryExpiry ds => exact (mem_dueEvents_of_timer rfl).trans suspendExpiry_isSome
  | agingExpiry d => exact (mem_dueEvents_of_timer rfl).trans agingExpiryOf_isSome
  | loadGapTimeout =>
    have hload : loadGapDue s = true ↔ EventDue s .loadGapTimeout := loadGapDue_iff
    simp [mem_dueEvents, not_requestDue, requestKinds, expiryOf, hload]
  | topo | xclaim | xrel | meas | rchk | stat | mask | isord | resrd | fltrd | ldtab | seg | tsum | freeze | frls | restart
  | unknownRequest => simp [mem_dueEvents, expiryOf, EventDue]
  | portDTxDone | portUTxDone | rxGapTimeout | rxRecoveryDone =>
    simp [mem_dueEvents, not_requestDue, requestKinds, expiryOf, EventDue]
  | powerOn | requestFrameReceived | hostTapFrame | sampleFrame | tapResponse | receiveError | characterReceived =>
    simp [mem_dueEvents, not_requestDue, requestKinds, expiryOf, EventDue]

/-- Settles O2. -/
theorem emptyQueueIsOneMillisecond : Obligations.EmptyQueueIsOneMillisecond := by
  intro s hempty later
  have hstep : step s = .next (tick s) := by rw [step, hempty]
  have htick : tick s = { later with pending := s.pending ++ dueEvents later } := rfl
  exact ⟨dueEvents later, by rw [hstep, htick, hempty]; rfl, fun c => mem_dueEvents_iff_eventDue⟩

end Sys2Proof.Machine
end

section
/-! PROOFS. The table loader's plain requests: LDTAB (R169), the load gap timeout (R171), and SEG before the image is complete (R170). -/

namespace Sys2Proof.Machine

/-! ### Image sizes and whole-table freezes (R169, R173) -/

/-- A size of a table of `step`-byte rows lies on the grid of its least size, up to its greatest. -/
theorem within_grid_iff {base step lo hi n : Nat} (hstep : 0 < step) :
    (within (base + step * lo) (base + step * hi) n && (n - base) % step == 0) = true ↔
      ∃ k, lo ≤ k ∧ k ≤ hi ∧ n = base + step * k := by
  simp only [within, Bool.and_eq_true, decide_eq_true_eq, beq_iff_eq]
  constructor
  · rintro ⟨⟨hlo, hhi⟩, hmod⟩
    obtain ⟨k, hk⟩ := Nat.dvd_of_mod_eq_zero hmod
    have hn : n = base + step * k := by
      have := Nat.le_add_right base (step * lo)
      omega
    subst hn
    exact ⟨k, Nat.le_of_mul_le_mul_left (Nat.le_of_add_le_add_left hlo) hstep,
      Nat.le_of_mul_le_mul_left (Nat.le_of_add_le_add_left hhi) hstep, rfl⟩
  · rintro ⟨k, hlo, hhi, rfl⟩
    refine ⟨⟨Nat.add_le_add_left (Nat.mul_le_mul_left _ hlo) _, Nat.add_le_add_left (Nat.mul_le_mul_left _ hhi) _⟩, ?_⟩
    rw [Nat.add_sub_cancel_left, Nat.mul_mod_right]

theorem imageSizeOk_topology {n : Nat} : imageSizeOk .topology n = true ↔ ∃ k, 1 ≤ k ∧ k ≤ 32 ∧ n = 6 + 16 * k :=
  within_grid_iff (base := 6) (step := 16) (lo := 1) (hi := 32) (by decide)

theorem imageSizeOk_limit {n : Nat} : imageSizeOk .limit n = true ↔ ∃ k, k ≤ 32 ∧ n = 45 + 14 * k :=
  (within_grid_iff (base := 45) (step := 14) (lo := 0) (hi := 32) (by decide)).trans (by simp only [Nat.zero_le, true_and])

/-! ### LDTAB (R169) -/

section

variable {s : State} {q : Frame} {rest : List Frame} {t : TableId}

theorem exec_ldtab_of_head (h : HeadRequest 0x30 5 1 q rest s) : exec .ldtab s = .next (doLdtab q (taken rest s)) :=
  congrArg Host.Outcome.next (h.takes (by decide) (by decide) (by decide))

theorem doLdtab_of_bad (hbad : ∀ t, TableId.ofCode (nat8 q.payload 0) = some t → imageSizeOk t (nat16 q.payload 1) = false) :
    doLdtab q s = pumpUp (respond q .badArg [] s) := by
  unfold doLdtab
  split
  · rfl
  · next t ht => exact if_pos (by rw [hbad t ht]; rfl)

/-- The load that an LDTAB for a table opens. -/
def openedLoad (t : TableId) (q : Frame) (now : Time) : Load :=
  ⟨t, nat16 q.payload 1, BitVec.ofNat 16 (nat16 q.payload 3), 0, [], now⟩

/-- An LDTAB of a good form goes by the open load, then the freeze. -/
theorem doLdtab_of_good (ht : TableId.ofCode (nat8 q.payload 0) = some t) (hsize : imageSizeOk t (nat16 q.payload 1) = true) :
    doLdtab q s =
      if s.loader.load.isSome then pumpUp (respond q .busy [] s)
      else if tableFrozen s.loader t then pumpUp (respond q .locked [] s)
      else pumpUp (respond q .ok [BitVec.ofNat 8 t.code, 0, 0, 0]
        { s with loader := { s.loader with load := some (openedLoad t q s.meas.timebase) } }) := by
  simp only [doLdtab, ht, hsize]
  rfl

end

/-! ### The load gap timeout (R171) -/

theorem exec_loadGapTimeout_of_due {s : State} {l : Load} (hl : s.loader.load = some l)
    (hdue : 250 ≤ (s.meas.timebase - l.gapStart).toNat) :
    exec .loadGapTimeout s = .next (raiseIn .tableAbort (closeLoad s)) := by
  have hrun : execLoadGapTimeout s =
      .next (if Config.loadGapMs ≤ age s.meas.timebase l.gapStart then raiseIn .tableAbort (closeLoad s) else s) := by
    simp only [execLoadGapTimeout, hl]
  exact hrun.trans (congrArg _ (if_pos hdue))

/-- Settles O51. -/
theorem loadOpensAndTimesOut : Obligations.LoadOpensAndTimesOut := by
  refine ⟨fun n => ⟨beq_iff_eq, imageSizeOk_topology, beq_iff_eq, imageSizeOk_limit, beq_iff_eq⟩,
    fun l => ⟨rfl, rfl, rfl, rfl, rfl⟩, fun s q rest h => ?_, fun s l hl hdue => exec_loadGapTimeout_of_due hl hdue⟩
  have hroom := h.room one_pos
  refine ⟨_, exec_ldtab_of_head h, fun hbad => ?_, fun t ht hsize => ?_⟩
  · rw [doLdtab_of_bad hbad]
    exact respond_up_moved hroom
  · rw [doLdtab_of_good ht hsize]
    refine ⟨fun hload => ?_, fun hload hfrozen => ?_, fun hload hfrozen => ?_⟩
    · rw [if_pos (by exact hload)]
      exact respond_up_moved hroom
    · have hclosed : ¬ (taken rest s).loader.load.isSome = true := by simp [taken, hload]
      rw [if_neg hclosed, if_pos (by exact hfrozen)]
      exact respond_up_moved hroom
    · have hclosed : ¬ (taken rest s).loader.load.isSome = true := by simp [taken, hload]
      have hfree : ¬ tableFrozen (taken rest s).loader t = true := by simp [taken, hfrozen]
      rw [if_neg hclosed, if_neg hfree]
      exact respond_up_moved hroom

/-! ### SEG before the image is complete (R170) -/

section

variable {s : State} {q : Frame} {rest : List Frame} {l : Load} {n : Byte} {data : List Byte}

/-- A SEG with a segment number and 1 to 96 bytes of data has a right length. -/
theorem exec_seg_of_head (h : HeadRequest 0x31 q.payload.length 1 q rest s) (hp : q.payload = n :: data) (hlow : 1 ≤ data.length)
    (hhigh : data.length ≤ 96) : exec .seg s = .next (doSeg q (taken rest s)) := by
  refine congrArg Host.Outcome.next (h.takes (by decide) (by decide) ?_)
  have hlen : q.payload.length = data.length + 1 := by rw [hp]; rfl
  refine List.any_eq_true.2 ⟨(kindSeg, .seg, 2, 97), by decide, ?_⟩
  simp only [hlen, Bool.and_eq_true, decide_eq_true_eq]
  exact ⟨⟨rfl, by omega⟩, by omega⟩

theorem doSeg_of_no_load (hl : s.loader.load = none) : doSeg q s = pumpUp (respond q .wrongState [] s) := by
  rw [doSeg, hl]

/-- A SEG on an open load goes by its number, then by how much of the image it brings. -/
theorem doSeg_of_load (hp : q.payload = n :: data) (hl : s.loader.load = some l) :
    doSeg q s =
      if n ≠ l.expected then pumpUp (respond q .order (l.expected :: be16 l.buffer.length)
        { s with loader := { s.loader with load := some { l with gapStart := s.meas.timebase } } })
      else if l.length < l.buffer.length + data.length then
        pumpUp (respond q .badArg [] (raiseIn .tableAbort (closeLoad s)))
      else if l.buffer.length + data.length < l.length then
        pumpUp (respond q .ok (segValues 0 0xFF 0 (l.buffer.length + data.length) (l.expected + 1))
          { s with loader := { s.loader with
            load := some { l with buffer := l.buffer ++ data, expected := l.expected + 1, gapStart := s.meas.timebase } } })
      else finishLoad q l (l.buffer ++ data) (l.expected + 1) s := by
  simp only [doSeg, hl, hp, List.getD_cons_zero, List.drop_succ_cons, List.drop_zero, bne_iff_ne, List.length_append]
  rfl

end

/-- Settles O52. -/
theorem segmentTaken : Obligations.SegmentTaken := by
  intro s q rest n data h hp hlow hhigh
  have hroom := h.room one_pos
  refine ⟨_, exec_seg_of_head h hp hlow hhigh, fun hnone => ?_, fun l hl => ?_⟩
  · rw [doSeg_of_no_load (s := taken rest s) hnone]
    exact respond_up_moved hroom
  · rw [doSeg_of_load (s := taken rest s) hp hl]
    refine ⟨fun hne => ?_, fun heq hmuch => ?_, fun heq hfew => ?_⟩
    · rw [if_pos hne]
      exact respond_up_moved hroom
    · rw [if_neg (not_not.2 heq), if_pos hmuch]
      exact respond_up_moved (s := raiseIn .tableAbort (closeLoad (taken rest s))) hroom
    · rw [if_neg (not_not.2 heq), if_neg (Nat.lt_asymm hfew), if_pos hfew]
      exact respond_up_moved hroom

end Sys2Proof.Machine
end

section
/-! PROOFS. The requests on the active tables: TSUM (R175), FREEZE (R176) and FRLS (R177). -/

namespace Sys2Proof.Machine

section

variable {s : State} {q : Frame} {rest : List Frame}

/-! ### TSUM (R175) -/

theorem exec_tsum_of_head (h : HeadRequest 0x32 5 1 q rest s) : exec .tsum s = .next (doTsum q (taken rest s)) :=
  congrArg Host.Outcome.next (h.takes (by decide) (by decide) (by decide))

theorem tableId_code_of_ofCode {n : Nat} {t : TableId} (h : TableId.ofCode n = some t) : t.code = n := by
  unfold TableId.ofCode at h
  split at h <;> cases h <;> rfl

/-- A one-byte field is written back as it was read. -/
theorem be8_nat8 (p : List Byte) (i : Nat) : be8 (nat8 p i) = [p.getD i 0] := by
  rw [be8, nat8, BitVec.ofNat_toNat, BitVec.setWidth_eq]

/-- A two-byte field is written back as it was read. -/
theorem be16_nat16 (p : List Byte) (i : Nat) : be16 (nat16 p i) = [p.getD i 0, p.getD (i + 1) 0] := by
  have hword : nat16 p i = (p.getD i 0 ++ p.getD (i + 1) 0 : BitVec 16).toNat := by
    rw [BitVec.toNat_append, ← Nat.shiftLeft_add_eq_or_of_lt (BitVec.isLt _), Nat.shiftLeft_eq]; rfl
  rw [hword, be16_append]

/-- A TSUM echoes its own payload: table, offset and count. -/
theorem tsumEcho {t : TableId} (ht : TableId.ofCode (nat8 q.payload 0) = some t) (hlen : q.payload.length = 5) :
    be8 t.code ++ be16 (nat16 q.payload 1) ++ be16 (nat16 q.payload 3) = q.payload := by
  rw [tableId_code_of_ofCode ht, be8_nat8, be16_nat16, be16_nat16]
  match q.payload, hlen with
  | [a, b, c, d, e], _ => rfl

theorem doTsum_of_no_table (ht : TableId.ofCode (nat8 q.payload 0) = none) : doTsum q s = pumpUp (respond q .badArg [] s) := by
  simp only [doTsum, ht]

theorem doTsum_of_absent {t : TableId} (ht : TableId.ofCode (nat8 q.payload 0) = some t) (himg : activeImage s.meas t = none) :
    doTsum q s = pumpUp (respond q .wrongState [] s) := by
  simp only [doTsum, ht, himg]

theorem doTsum_of_active {t : TableId} {img : List Byte} (ht : TableId.ofCode (nat8 q.payload 0) = some t)
    (himg : activeImage s.meas t = some img) (hlen : q.payload.length = 5) :
    doTsum q s =
      if nat16 q.payload 3 = 0 ∨ img.length < nat16 q.payload 1 + nat16 q.payload 3 then pumpUp (respond q .badArg [] s)
      else pumpUp (respond q .ok (q.payload ++
        be16 (crc16 ((img.drop (nat16 q.payload 1)).take (nat16 q.payload 3))).toNat) s) := by
  simp only [doTsum, ht, himg, tsumEcho ht hlen]

/-! ### FREEZE (R176) -/

theorem exec_freeze_of_head (h : HeadRequest 0x33 1 1 q rest s) : exec .freeze s = .next (doFreeze q (taken rest s)) :=
  congrArg Host.Outcome.next (h.takes (by decide) (by decide) (by decide))

/-- The flags of one freeze set that another lacks. -/
theorem getLsbD_and_not {a b : BitVec 7} {k : Nat} :
    (a &&& ~~~b).getLsbD k = true ↔ k < 7 ∧ a.getLsbD k = true ∧ b.getLsbD k = false := by
  simp only [BitVec.getLsbD_and, BitVec.getLsbD_not, Bool.and_eq_true, decide_eq_true_eq, Bool.not_eq_true']
  tauto

/-- A flag that stands would be cleared. -/
theorem freezeClears_iff {old want : BitVec 7} :
    (old &&& ~~~want != 0) = true ↔ ∃ k, k < 7 ∧ old.getLsbD k = true ∧ want.getLsbD k = false := by
  simp only [← getLsbD_and_not, bne_iff_ne]
  constructor
  · intro hne
    by_contra hnone
    push Not at hnone
    exact hne (BitVec.eq_of_getLsbD_eq fun k _ => by simpa using hnone k)
  · rintro ⟨k, hk⟩ hzero
    simp [hzero] at hk

/-- A flag that is added is for a table that is not active. -/
theorem freezesAbsent_iff {m : Meas} {old want : BitVec 7} :
    freezesAbsent m (want &&& ~~~old) = true ↔
      ∃ k, k < 7 ∧ old.getLsbD k = false ∧ want.getLsbD k = true ∧ activeImage m (freezeTable k) = none := by
  simp only [freezesAbsent, List.any_eq_true, List.mem_range, Bool.and_eq_true, getLsbD_and_not, Option.isNone_iff_eq_none]
  exact exists_congr fun k => by tauto

/-- A byte without its top bit is its low seven bits. -/
theorem be8_setWidth_seven {b : Byte} (h : b.getLsbD 7 = false) : be8 (b.setWidth 7).toNat = [b] := by
  have hlow : (b.setWidth 7).setWidth 8 = b := by
    refine BitVec.eq_of_getLsbD_eq fun k hk => ?_
    rw [BitVec.getLsbD_setWidth, BitVec.getLsbD_setWidth]
    by_cases h7 : k = 7
    · subst h7; rw [h]; rfl
    · simp [hk, show k < 7 by omega]
  rw [be8, BitVec.ofNat_toNat, hlow]

/-- A FREEZE goes by its top bit, then by the flags that it would clear, then by the tables that are absent. -/
theorem doFreeze_of_byte {b : Byte} (hp : q.payload = [b]) :
    doFreeze q s =
      if b.getLsbD 7 then pumpUp (respond q .badArg [] s)
      else if s.loader.freeze &&& ~~~(b.setWidth 7) != 0 then pumpUp (respond q .locked [] s)
      else if freezesAbsent s.meas (b.setWidth 7 &&& ~~~s.loader.freeze) then pumpUp (respond q .wrongState [] s)
      else pumpUp (respond q .ok (be8 (b.setWidth 7).toNat) { s with loader := { s.loader with freeze := b.setWidth 7 } }) := by
  rw [doFreeze, hp]; rfl

/-! ### FRLS (R177) -/

theorem exec_frls_of_head (h : HeadRequest 0x34 0 1 q rest s) : exec .frls s = .next (doFrls q (taken rest s)) :=
  congrArg Host.Outcome.next (h.takes (by decide) (by decide) (by decide))

theorem doFrls_of_refusal {reason value : Nat} (h : frlsRefusal s = some (reason, value)) :
    doFrls q s = pumpUp (respond q .wrongState [BitVec.ofNat 8 reason, BitVec.ofNat 8 value] s) := by
  rw [doFrls, h]; rfl

theorem doFrls_of_no_refusal (h : frlsRefusal s = none) :
    doFrls q s = pumpUp (respond q .ok [0] { s with loader := { s.loader with freeze := 0 } }) := by
  rw [doFrls, h]; rfl

end

/-- A tap's latest sample shows its domain de-energised (R177). -/
def Calm (m : Meas) (d : Dom) : Prop :=
  ∃ p x, (m.taps.get d).presence = some p ∧ p.latest = some x ∧ x.vPlus + x.vMinus < 1200

/-- What a domain's latest sample says against FRLS: nothing when it is calm, and otherwise NO_SAMPLE without one and ENERGISED
with one. -/
theorem frlsDomain_cases (m : Meas) (d : Dom) :
    (frlsDomain m d = none ∧ Calm m d) ∨
    (frlsDomain m d = some (4, d.number) ∧ ¬ Calm m d ∧ ∀ p, (m.taps.get d).presence = some p → p.latest = none) ∨
    (frlsDomain m d = some (3, d.number) ∧ ¬ Calm m d ∧ ∃ p, (m.taps.get d).presence = some p ∧ p.latest ≠ none) := by
  unfold frlsDomain Calm
  cases hp : (m.taps.get d).presence with
  | none => simp
  | some p =>
    cases hx : p.latest with
    | none => simp [hx]
    | some x =>
      by_cases hv : x.vPlus + x.vMinus < 1200
      · left; simp [hx, hv, Config.ubusMin, Nat.not_le.2 hv]
      · right; right; simp [hx, hv, Config.ubusMin, Nat.not_lt.1 hv]

/-- No fitted domain stands against FRLS when each is calm. -/
theorem findSome_frlsDomain_eq_none {m : Meas} :
    (Dom.all.filter (fitted m)).findSome? (frlsDomain m) = none ↔ ∀ d, fitted m d = true → Calm m d := by
  simp only [List.findSome?_eq_none_iff, List.mem_filter, Dom.mem_all, true_and]
  refine forall₂_congr fun d _ => ?_
  rcases frlsDomain_cases m d with ⟨h, hc⟩ | ⟨h, hc, -⟩ | ⟨h, hc, -⟩ <;> simp [h, hc]

/-- The domains before one in the ascending list are those of a lower index. -/
theorem mem_of_all_split {l₁ l₂ : List Dom} {d e : Dom} {p : Dom → Bool} (h : Dom.all.filter p = l₁ ++ d :: l₂)
    (he : p e = true) (hlt : e.index < d.index) : e ∈ l₁ := by
  have hpair := Dom.all_pairwise.filter p
  have hmem : e ∈ Dom.all.filter p := List.mem_filter.2 ⟨Dom.mem_all e, he⟩
  rw [h] at hpair hmem
  rcases List.mem_append.1 hmem with h1 | h2
  · exact h1
  · have hpair2 := (List.pairwise_append.1 hpair).2.1
    rcases List.mem_cons.1 h2 with rfl | h3
    · exact absurd hlt (lt_irrefl _)
    · exact absurd hlt (Nat.lt_asymm (List.rel_of_pairwise_cons hpair2 h3))

/-- The fitted domain that FRLS names is the first in ascending order that is not calm. -/
theorem findSome_frlsDomain_eq_some {m : Meas} {x : Nat × Nat}
    (h : (Dom.all.filter (fitted m)).findSome? (frlsDomain m) = some x) :
    ∃ d, fitted m d = true ∧ frlsDomain m d = some x ∧ ∀ e, e.index < d.index → fitted m e = true → Calm m e := by
  obtain ⟨l₁, d, l₂, hsplit, hd, hbefore⟩ := List.findSome?_eq_some_iff.1 h
  have hmem : d ∈ Dom.all.filter (fitted m) := by rw [hsplit]; simp
  refine ⟨d, (List.mem_filter.1 hmem).2, hd, fun e hlt hfit => ?_⟩
  have hnone := hbefore e (mem_of_all_split hsplit hfit hlt)
  rcases frlsDomain_cases m e with ⟨-, hc⟩ | ⟨hs, -⟩ | ⟨hs, -⟩
  · exact hc
  · rw [hs] at hnone; cases hnone
  · rw [hs] at hnone; cases hnone

section

variable {s : State}

theorem frlsRefusal_of_claim (h : s.meas.claim.state ≠ .none) : frlsRefusal s = some (1, claimedNumber s.meas) :=
  if_pos (bne_iff_ne.2 h)

theorem frlsRefusal_of_load {l : Load} (hc : s.meas.claim.state = .none) (hl : s.loader.load = some l) :
    frlsRefusal s = some (2, l.table.code) := by
  simp [frlsRefusal, hc, hl]

theorem frlsRefusal_of_idle (hc : s.meas.claim.state = .none) (hl : s.loader.load = none) :
    frlsRefusal s = (Dom.all.filter (fitted s.meas)).findSome? (frlsDomain s.meas) := by
  simp [frlsRefusal, hc, hl]

/-- What FRLS is refused with says which of its three conditions fails first (R177). -/
theorem frlsRefusal_reason {reason value : Nat} (h : frlsRefusal s = some (reason, value)) :
    (s.meas.claim.state ≠ .none → reason = 1 ∧ value = claimedNumber s.meas) ∧
    (∀ l, s.meas.claim.state = .none → s.loader.load = some l → reason = 2 ∧ value = l.table.code) ∧
    (s.meas.claim.state = .none → s.loader.load = none → ∃ d, fitted s.meas d = true ∧ value = d.number ∧ ¬ Calm s.meas d ∧
      (∀ e, e.index < d.index → fitted s.meas e = true → Calm s.meas e) ∧ (reason = 3 ∨ reason = 4) ∧
      (reason = 4 ↔ ∀ p, (s.meas.taps.get d).presence = some p → p.latest = none)) := by
  refine ⟨fun hc => ?_, fun l hc hl => ?_, fun hc hl => ?_⟩
  · rw [frlsRefusal_of_claim hc] at h; cases h; exact ⟨rfl, rfl⟩
  · rw [frlsRefusal_of_load hc hl] at h; cases h; exact ⟨rfl, rfl⟩
  · rw [frlsRefusal_of_idle hc hl] at h
    obtain ⟨d, hfit, hd, hfirst⟩ := findSome_frlsDomain_eq_some h
    refine ⟨d, hfit, ?_⟩
    rcases frlsDomain_cases s.meas d with ⟨hs, -⟩ | ⟨hs, hcalm, hnone⟩ | ⟨hs, hcalm, p, hp, hsome⟩
    · rw [hs] at hd; cases hd
    · rw [hs] at hd; cases hd
      exact ⟨rfl, hcalm, hfirst, .inr rfl, fun _ => hnone, fun _ => rfl⟩
    · rw [hs] at hd; cases hd
      exact ⟨rfl, hcalm, hfirst, .inl rfl, fun hx => absurd hx (by decide), fun hall => absurd (hall p hp) hsome⟩

/-- FRLS is accepted exactly when no claim exists, no load is open, and every fitted domain is calm. -/
theorem frlsRefusal_eq_none : frlsRefusal s = none ↔
    s.meas.claim.state = .none ∧ s.loader.load = none ∧ ∀ d, fitted s.meas d = true → Calm s.meas d := by
  by_cases hc : s.meas.claim.state = .none
  · cases hl : s.loader.load with
    | some l => simp [frlsRefusal_of_load hc hl]
    | none => rw [frlsRefusal_of_idle hc hl, findSome_frlsDomain_eq_none]; simp [hc]
  · simp [frlsRefusal_of_claim hc, hc]

end

/-- Settles O54. -/
theorem tsumReadsActiveImage : Obligations.TsumReadsActiveImage := by
  intro s q rest h
  have hroom := h.room one_pos
  obtain ⟨-, -, hlen, -⟩ := id h
  refine ⟨_, exec_tsum_of_head h, fun ht => ?_, fun t ht => ⟨fun himg => ?_, fun img himg => ?_⟩⟩
  · rw [doTsum_of_no_table ht]
    exact respond_up_moved hroom
  · rw [doTsum_of_absent (s := taken rest s) ht himg]
    exact respond_up_moved hroom
  · rw [doTsum_of_active (s := taken rest s) ht himg hlen]
    refine ⟨fun hbad => ?_, fun hpos hfit => ?_⟩
    · rw [if_pos hbad]
      exact respond_up_moved hroom
    · rw [if_neg (not_or.2 ⟨hpos.ne', Nat.not_lt.2 hfit⟩)]
      exact respond_up_moved hroom

/-- Settles O55. -/
theorem freezeAndRelease : Obligations.FreezeAndRelease := by
  refine ⟨fun s q rest b h hp => ?_, fun s q rest h => ?_⟩
  · have hroom := h.room one_pos
    intro want clears absent
    refine ⟨_, exec_freeze_of_head h, ?_⟩
    have hclears : ((taken rest s).loader.freeze &&& ~~~want != 0) = true ↔ clears := freezeClears_iff
    have habsent : freezesAbsent (taken rest s).meas (want &&& ~~~(taken rest s).loader.freeze) = true ↔ absent := freezesAbsent_iff
    rw [doFreeze_of_byte hp]
    refine ⟨fun h7 => ?_, fun h7 hc => ?_, fun h7 hc ha => ?_, fun h7 hc ha => ?_⟩
    · rw [if_pos h7]
      exact respond_up_moved hroom
    · rw [if_neg (Bool.eq_false_iff.1 h7), if_pos (hclears.2 hc)]
      exact respond_up_moved hroom
    · rw [if_neg (Bool.eq_false_iff.1 h7), if_neg (mt hclears.1 hc), if_pos (habsent.2 ha)]
      exact respond_up_moved hroom
    · rw [if_neg (Bool.eq_false_iff.1 h7), if_neg (mt hclears.1 hc), if_neg (mt habsent.1 ha), be8_setWidth_seven h7]
      exact respond_up_moved hroom
  · have hroom := h.room one_pos
    refine ⟨_, exec_frls_of_head h, fun hc hl hcalm => ?_, fun hno => ?_⟩
    · rw [doFrls_of_no_refusal (s := taken rest s) (frlsRefusal_eq_none.2 ⟨hc, hl, hcalm⟩)]
      exact respond_up_moved hroom
    · cases hr : frlsRefusal (taken rest s) with
      | none => exact absurd (frlsRefusal_eq_none.1 hr) hno
      | some x =>
        obtain ⟨reason, value⟩ := x
        rw [doFrls_of_refusal hr]
        obtain ⟨hclaim, hload, hidle⟩ := frlsRefusal_reason hr
        refine ⟨_, _, respond_up_moved hroom, fun hc => ?_, fun l hc hl => ?_, fun hc hl => ?_⟩
        · obtain ⟨rfl, rfl⟩ := hclaim hc
          exact ⟨rfl, rfl⟩
        · obtain ⟨rfl, rfl⟩ := hload l hc hl
          exact ⟨rfl, rfl⟩
        · obtain ⟨d, hfit, rfl, hcalm, hfirst, hreason, hiff⟩ := hidle hc hl
          refine ⟨d, hfit, rfl, hcalm, hfirst, ?_, ?_⟩
          · rcases hreason with rfl | rfl
            · exact .inl rfl
            · exact .inr rfl
          · refine Iff.trans ?_ hiff
            rcases hreason with rfl | rfl <;> decide

end Sys2Proof.Machine
end

section
/-! SUPPORT. Lists of checks: the first that fails decides the row and the reason (R172). What a list comes to follows from what its
parts come to. -/

namespace Sys2Proof.Machine

/-- A list of checks passes exactly when `ok` holds, and is refused with exactly the rows and reasons of `refusal`. -/
structure Decides (cs : List Check) (ok : Prop) (refusal : Nat → Nat → Prop) : Prop where
  passes : firstFailure cs = none ↔ ok
  refused : ∀ row reason, firstFailure cs = some (row, reason) ↔ refusal row reason

theorem firstFailure_append (a b : List Check) : firstFailure (a ++ b) = (firstFailure a).or (firstFailure b) := by
  rw [firstFailure, List.find?_append, Option.map_or]; rfl

section

variable {a b cs : List Check} {ok ok' : Prop} {refusal refusal' : Nat → Nat → Prop}

theorem Decides.congr (h : Decides cs ok refusal) (hok : ok ↔ ok') (hrefusal : ∀ row reason, refusal row reason ↔ refusal' row reason) :
    Decides cs ok' refusal' :=
  ⟨h.passes.trans hok, fun row reason => (h.refused row reason).trans (hrefusal row reason)⟩

theorem decides_nil : Decides [] True fun _ _ => False := ⟨by simp [firstFailure], by simp [firstFailure]⟩

theorem decides_singleton {c : Check} (h : c.pass = true ↔ ok) :
    Decides [c] ok fun row reason => ¬ ok ∧ row = c.row ∧ reason = c.reason := by
  cases hp : c.pass with
  | true => exact ⟨by simp [firstFailure, hp, ← h], by simp [firstFailure, hp, ← h]⟩
  | false =>
    refine ⟨by simp [firstFailure, hp, ← h], fun row reason => ?_⟩
    simp only [firstFailure, List.find?_cons, hp, Bool.not_false, Option.map_some, Option.some.injEq, Prod.mk.injEq, ← h,
      Bool.false_eq_true, not_false_eq_true, true_and]
    exact and_congr eq_comm eq_comm

/-- The second of two lists is asked when the first passes. -/
theorem Decides.append (ha : Decides a ok refusal) (hb : Decides b ok' refusal') :
    Decides (a ++ b) (ok ∧ ok') fun row reason => refusal row reason ∨ (ok ∧ refusal' row reason) := by
  refine ⟨?_, fun row reason => ?_⟩
  · rw [firstFailure_append, Option.or_eq_none_iff, ha.passes, hb.passes]
  · rw [firstFailure_append, Option.or_eq_some_iff, ha.refused, ha.passes, hb.refused]

end

section

variable {κ : Type} {R : κ → κ → Prop} {keys : List κ}

/-- Of blocks of checks in the order of their keys, the first with a failure decides. -/
theorem decides_flatten {blocks : List (List Check)} {ok : κ → Prop} {refusal : κ → Nat → Nat → Prop}
    (hasymm : ∀ x y, R x y → ¬ R y x) (hkeys : keys.Pairwise R)
    (h : List.Forall₂ (fun k block => Decides block (ok k) (refusal k)) keys blocks) :
    Decides blocks.flatten (∀ k ∈ keys, ok k) fun row reason =>
      ∃ k ∈ keys, refusal k row reason ∧ ∀ j ∈ keys, R j k → ok j := by
  induction h with
  | nil => exact decides_nil.congr (by simp) (by simp)
  | @cons k block keys blocks hblock _ ih =>
    obtain ⟨hfirst, hrest⟩ := List.pairwise_cons.1 hkeys
    refine (hblock.append (ih hrest)).congr (by simp) fun row reason => ⟨?_, ?_⟩
    · rintro (href | ⟨hok, x, hx, href, hbefore⟩)
      · refine ⟨k, List.mem_cons_self, href, fun j hj hjk => ?_⟩
        rcases List.mem_cons.1 hj with rfl | hj
        · exact absurd hjk (hasymm _ _ hjk)
        · exact absurd hjk (hasymm _ _ (hfirst j hj))
      · refine ⟨x, List.mem_cons_of_mem _ hx, href, fun j hj hjx => ?_⟩
        rcases List.mem_cons.1 hj with rfl | hj
        · exact hok
        · exact hbefore j hj hjx
    · rintro ⟨x, hx, href, hbefore⟩
      rcases List.mem_cons.1 hx with rfl | hx
      · exact .inl href
      · exact .inr ⟨hbefore k List.mem_cons_self (hfirst x hx), x, hx, href, fun j hj => hbefore j (List.mem_cons_of_mem _ hj)⟩

theorem decides_flatMap {f : κ → List Check} {ok : κ → Prop} {refusal : κ → Nat → Nat → Prop} (hasymm : ∀ x y, R x y → ¬ R y x)
    (hkeys : keys.Pairwise R) (h : ∀ k ∈ keys, Decides (f k) (ok k) (refusal k)) :
    Decides (keys.flatMap f) (∀ k ∈ keys, ok k) fun row reason =>
      ∃ k ∈ keys, refusal k row reason ∧ ∀ j ∈ keys, R j k → ok j := by
  rw [List.flatMap_def]
  exact decides_flatten hasymm hkeys (List.forall₂_map_right_iff.2 (List.forall₂_same.2 h))

/-- Check `c` is the one that a key stands for. -/
def ChecksKey (ok : κ → Prop) (row reason : κ → Nat) (k : κ) (c : Check) : Prop :=
  (c.pass = true ↔ ok k) ∧ c.row = row k ∧ c.reason = reason k

/-- Of single checks in the order of their keys, the first that fails decides. -/
theorem decides_of_keys {cs : List Check} {ok : κ → Prop} {row reason : κ → Nat} (hasymm : ∀ x y, R x y → ¬ R y x)
    (hkeys : keys.Pairwise R) (h : List.Forall₂ (ChecksKey ok row reason) keys cs) :
    Decides cs (∀ k ∈ keys, ok k) fun r n =>
      ∃ k ∈ keys, (¬ ok k ∧ r = row k ∧ n = reason k) ∧ ∀ j ∈ keys, R j k → ok j := by
  have hblocks : List.Forall₂ (fun k block => Decides block (ok k) fun r n => ¬ ok k ∧ r = row k ∧ n = reason k) keys
      (cs.map fun c => [c]) :=
    List.forall₂_map_right_iff.2 (h.imp fun k c hc => hc.2.1 ▸ hc.2.2 ▸ decides_singleton hc.1)
  have hcs : (cs.map fun c => [c]).flatten = cs := by rw [← List.flatMap_def, List.flatMap_singleton']
  exact hcs ▸ decides_flatten hasymm hkeys hblocks

end

/-- Checks of one row that are numbered by their reasons, where every other number passes. -/
theorem decides_numbered {row n len : Nat} {cs : List Check} {ok : Nat → Prop}
    (h : List.Forall₂ (ChecksKey ok (fun _ => row) id) (List.range' n len) cs) (hout : ∀ k, k ∉ List.range' n len → ok k) :
    Decides cs (∀ k, ok k) fun r reason => r = row ∧ ¬ ok reason ∧ ∀ k, k < reason → ok k := by
  refine (decides_of_keys (R := (· < ·)) (fun _ _ => Nat.lt_asymm) List.pairwise_lt_range' h).congr ?_ fun r reason => ?_
  · exact ⟨fun hall k => (Classical.em (k ∈ List.range' n len)).elim (hall k) (hout k), fun hall k _ => hall k⟩
  · constructor
    · rintro ⟨k, -, ⟨hfail, rfl, rfl⟩, hbefore⟩
      exact ⟨rfl, hfail, fun j hj => (Classical.em (j ∈ List.range' n len)).elim (hbefore j · hj) (hout j)⟩
    · rintro ⟨rfl, hfail, hbefore⟩
      exact ⟨reason, by_contra fun hk => hfail (hout reason hk), ⟨hfail, rfl, rfl⟩, fun j _ hj => hbefore j hj⟩

theorem within_iff {lo hi n : Nat} : within lo hi n = true ↔ lo ≤ n ∧ n ≤ hi := by
  rw [within, Bool.and_eq_true, decide_eq_true_eq, decide_eq_true_eq]

/-! ### The profiles in their order -/

@[simp] theorem Profile.mem_all (p : Profile) : p ∈ Profile.all := by cases p <;> decide

theorem Profile.all_pairwise : Profile.all.Pairwise fun p p' => p.code < p'.code := by decide

theorem Profile.code_inj {p p' : Profile} : p.code = p'.code ↔ p = p' := by
  constructor
  · cases p <;> cases p' <;> simp [Profile.code]
  · rintro rfl; rfl

/-- Rows of numbered checks, one for each profile. -/
theorem decides_profiles {f : Profile → List Check} {ok : Profile → Nat → Prop}
    (h : ∀ p, Decides (f p) (∀ k, ok p k) fun row reason => row = p.code ∧ ¬ ok p reason ∧ ∀ k, k < reason → ok p k) :
    Decides (Profile.all.flatMap f) (∀ p k, ok p k) fun row reason => ∃ p : Profile, row = p.code ∧ ¬ ok p reason ∧
      ∀ (p' : Profile) (k : Nat), (p'.code < p.code ∨ (p' = p ∧ k < reason)) → ok p' k := by
  refine (decides_flatMap (R := fun p p' : Profile => p.code < p'.code) (fun _ _ => Nat.lt_asymm) Profile.all_pairwise
    fun p _ => h p).congr (by simp) fun row reason => ⟨?_, ?_⟩
  · rintro ⟨p, -, ⟨hrow, hfail, hlow⟩, hbefore⟩
    refine ⟨p, hrow, hfail, fun p' k hk => ?_⟩
    rcases hk with hk | ⟨rfl, hk⟩
    · exact hbefore p' (Profile.mem_all p') hk k
    · exact hlow k hk
  · rintro ⟨p, hrow, hfail, hbefore⟩
    exact ⟨p, Profile.mem_all p, ⟨hrow, hfail, fun k hk => hbefore p k (.inr ⟨rfl, hk⟩)⟩,
      fun p' _ hp' k => hbefore p' k (.inl hp')⟩

end Sys2Proof.Machine
end

section
/-! PROOFS. The validations of the five table images: which pass, and the row and reason of the first check that fails (R2, R4, R49, R70,
R143; R172). -/

namespace Sys2Proof.Machine

/-! ### CYCLE (R49) -/

theorem cycleFieldOk_of_not_mem (c : CycleRow) {k : Nat} (h : k ∉ List.range' 1 17) : CycleFieldOk c k := by
  unfold CycleFieldOk
  split
  case h_18 => trivial
  all_goals exact absurd (by decide) h

theorem decides_cycleRowChecks (img : List Byte) (p : Profile) :
    Decides (cycleRowChecks img p) (∀ k, CycleFieldOk (cycleRowOf img p) k) fun row reason =>
      row = p.code ∧ ¬ CycleFieldOk (cycleRowOf img p) reason ∧ ∀ k, k < reason → CycleFieldOk (cycleRowOf img p) k := by
  refine decides_numbered (n := 1) (len := 17) ?_ fun k => cycleFieldOk_of_not_mem _
  simp [List.range', cycleRowChecks, ChecksKey, CycleFieldOk, within_iff]

theorem decides_cycle (img : List Byte) :
    Decides (cycleChecks img) (∀ p k, CycleFieldOk (cycleRowOf img p) k) (CycleRefusal img) :=
  decides_profiles fun p => decides_cycleRowChecks img p

/-! ### FORWARD (R143) -/

theorem decides_forward (img : List Byte) : Decides (forwardChecks img) (ForwardImageOk img) (ForwardRefusal img) := by
  have hhead : Decides [⟨within 8 24 (fwdHighMark img), 0xFF, 1⟩] (HighMarkOk img) _ := decides_singleton within_iff
  have htaps := decides_of_keys (R := fun t t' : Dom => t.index < t'.index) (fun _ _ => Nat.lt_asymm) Dom.all_pairwise
    (ok := fun t => fwdAnnotate img t ≤ 1) (row := Dom.number) (reason := fun _ => 2)
    (List.forall₂_map_right_iff (f := fun t : Dom => (⟨decide (fwdAnnotate img t ≤ 1), t.number, 2⟩ : Check)).2
      (List.forall₂_same.2 fun t _ => ⟨decide_eq_true_iff, rfl, rfl⟩))
  have hkinds := decides_of_keys (R := fun k k' : Nat => k < k') (fun _ _ => Nat.lt_asymm) (List.pairwise_lt_range (n := 128))
    (ok := fun k => fwdAction img k ≤ 2) (row := id) (reason := fun _ => 3)
    (List.forall₂_map_right_iff (f := fun k : Nat => (⟨decide (fwdAction img k ≤ 2), k, 3⟩ : Check)).2
      (List.forall₂_same.2 fun k _ => ⟨decide_eq_true_iff, rfl, rfl⟩))
  refine ((hhead.append htaps).append hkinds).congr ?_ fun row reason => ?_
  · simp [ForwardImageOk, and_assoc]
  · simp only [ForwardRefusal, Dom.mem_all, List.mem_range, true_and, forall_const, Nat.not_le]
    constructor
    · rintro ((⟨hfail, rfl, rfl⟩ | ⟨hhead, t, ⟨hfail, rfl, rfl⟩, hbefore⟩) | ⟨⟨hhead, htaps⟩, k, hk, ⟨hfail, rfl, rfl⟩, hbefore⟩)
      · exact .inl ⟨hfail, rfl, rfl⟩
      · exact .inr (.inl ⟨hhead, rfl, t, rfl, hfail, hbefore⟩)
      · exact .inr (.inr ⟨hhead, rfl, htaps, hk, hfail, fun j hj => hbefore j (hj.trans hk) hj⟩)
    · rintro (⟨hfail, rfl, rfl⟩ | ⟨hhead, rfl, t, rfl, hfail, hbefore⟩ | ⟨hhead, rfl, htaps, hk, hfail, hbefore⟩)
      · exact .inl (.inl ⟨hfail, rfl, rfl⟩)
      · exact .inl (.inr ⟨hhead, t, ⟨hfail, rfl, rfl⟩, hbefore⟩)
      · exact .inr ⟨⟨hhead, htaps⟩, row, hk, ⟨hfail, rfl, rfl⟩, fun j _ hj => hbefore j hj⟩

/-! ### DOMAIN (R2) -/

/-- R2: check `x`, a domain and a reason, comes before check `y`. -/
def domainBefore (x y : Dom × Nat) : Prop :=
  domainStage x.2 < domainStage y.2 ∨
    (domainStage x.2 = domainStage y.2 ∧ (x.1.index < y.1.index ∨ (x.1 = y.1 ∧ x.2 < y.2)))

theorem domainBefore_asymm (x y : Dom × Nat) (h : domainBefore x y) : ¬ domainBefore y x := by
  simp only [domainBefore, ← Dom.index_inj] at *
  omega

/-- The checks of a DOMAIN image in their order, the resistances of every domain that passes a test. -/
def domainKeys (p : Dom → Bool) : List (Dom × Nat) :=
  Dom.all.map (·, 1) ++ [(.d1, 2)] ++ (Dom.all.filter p).flatMap (fun d => [(d, 3), (d, 4), (d, 5)]) ++ Dom.all.map (·, 6)
    ++ Dom.all.map (·, 7)

theorem domainKeys_pairwise (p : Dom → Bool) : (domainKeys p).Pairwise domainBefore := by
  have hall : (domainKeys fun _ => true).Pairwise domainBefore := by unfold domainBefore; decide
  refine hall.sublist ?_
  have hsub : ((Dom.all.filter p).flatMap fun d => [(d, 3), (d, 4), (d, 5)]).Sublist
      ((Dom.all.filter fun _ => true).flatMap fun d => [(d, 3), (d, 4), (d, 5)]) :=
    List.Sublist.flatMap (by simp) _
  exact (((List.Sublist.refl _).append hsub).append (List.Sublist.refl _)).append (List.Sublist.refl _)

section

variable {m : Meas} {img : List Byte}

/-- Every check that is not listed passes, but for check 2, which is the same at every domain and listed once. -/
theorem domainCheckOk_of_not_mem {d : Dom} {k : Nat} (h : (d, k) ∉ domainKeys (domFitted img)) (hk : k ≠ 2) :
    DomainCheckOk m img d k := by
  simp only [domainKeys, List.mem_append, List.mem_map, List.mem_flatMap, List.mem_filter, List.mem_cons, List.not_mem_nil,
    Dom.mem_all, Prod.mk.injEq, true_and, not_or] at h
  unfold DomainCheckOk
  split
  case h_1 => simp at h
  case h_2 => exact absurd rfl hk
  case h_6 => simp at h
  case h_7 => simp at h
  case h_8 => trivial
  all_goals exact fun hfit => absurd ⟨d, hfit, by simp⟩ h.1.1.2

/-- A property of the listed checks that check 2 has at the first domain where it has it at any is one of all checks. -/
theorem domainCheckOk_of_keys {P : Dom × Nat → Prop} (hfirst : ∀ d, P (d, 2) → P (.d1, 2))
    (h : ∀ x ∈ domainKeys (domFitted img), P x → DomainCheckOk m img x.1 x.2) (d : Dom) (k : Nat) (hP : P (d, k)) :
    DomainCheckOk m img d k := by
  by_cases hk : k = 2
  · subst hk
    exact h (.d1, 2) (by simp [domainKeys]) (hfirst d hP)
  · exact (Classical.em ((d, k) ∈ domainKeys (domFitted img))).elim (fun hmem => h _ hmem hP)
      fun hmem => domainCheckOk_of_not_mem hmem hk

theorem domainBefore_first {d : Dom} {x : Dom × Nat} (h : domainBefore (d, 2) x) : domainBefore (.d1, 2) x := by
  have hstage : domainStage x.2 = 2 → x.2 = 2 := by
    unfold domainStage
    split <;> omega
  have hlow : Dom.d1.index = 0 := rfl
  rcases h with h | ⟨hs, h | ⟨-, h⟩⟩
  · exact .inl h
  · exact .inr ⟨hs, .inl (by rw [hlow]; exact Nat.zero_lt_of_lt h)⟩
  · exact absurd (hstage hs.symm) (Nat.ne_of_gt h)

/-- A check that fails with none before it is listed. -/
theorem mem_domainKeys_of_first {d : Dom} {k : Nat} (hfail : ¬ DomainCheckOk m img d k)
    (hbefore : ∀ x, domainBefore x (d, k) → DomainCheckOk m img x.1 x.2) : (d, k) ∈ domainKeys (domFitted img) := by
  by_contra hmem
  by_cases hk : k = 2
  · subst hk
    have hd : d ≠ .d1 := fun hd => hmem (by simp [domainKeys, hd])
    have hpos : Dom.d1.index < d.index := Nat.pos_of_ne_zero fun h0 => hd (Dom.index_inj.1 h0)
    exact hfail (hbefore (.d1, 2) (.inr ⟨rfl, .inl hpos⟩))
  · exact hfail (domainCheckOk_of_not_mem hmem hk)

end

/-- Check `c` is the one that a domain and a reason stand for (R2). -/
def DomainKey (m : Meas) (img : List Byte) : Dom × Nat → Check → Prop :=
  ChecksKey (fun x => DomainCheckOk m img x.1 x.2) (fun x => if x.2 = 2 then 0 else x.1.number) (·.2)

theorem namedByOverride_iff {limit : List Byte} {d : Dom} :
    namedByOverride limit d = true ↔ ∃ j, j < limitCount limit ∧ overrideDom limit j = d.number := by
  simp [namedByOverride]

/-- The listed checks are those of the model, in its order. -/
theorem domainKeys_checks (m : Meas) (img : List Byte) :
    List.Forall₂ (DomainKey m img) (domainKeys (domFitted img)) (domainChecks m img) := by
  have heach : ∀ (k : Nat) (f : Dom → Check), (∀ d, DomainKey m img (d, k) (f d)) →
      List.Forall₂ (DomainKey m img) (Dom.all.map (·, k)) (Dom.all.map f) := fun k f h =>
    List.forall₂_map_left_iff.2 (List.forall₂_map_right_iff.2 (List.forall₂_same.2 fun d _ => h d))
  have hfields : ∀ d, domFitted img d = true → List.Forall₂ (DomainKey m img) [(d, 3), (d, 4), (d, 5)]
      [⟨within 50 2000 (domRc img d), d.number, 3⟩, ⟨within 200 10000 (domRbal img d), d.number, 4⟩,
        ⟨within 100 5000 (domRref img d), d.number, 5⟩] := fun d hfit => by
    simp [DomainKey, ChecksKey, DomainCheckOk, within_iff, hfit]
  refine List.rel_append (List.rel_append (List.rel_append (List.rel_append (heach 1 _ fun d => ?_) ?_) ?_)
    (heach 6 _ fun d => ?_)) (heach 7 _ fun d => ?_)
  · exact ⟨decide_eq_true_iff, rfl, rfl⟩
  · simp [DomainKey, ChecksKey, DomainCheckOk]
  · refine List.rel_flatMap (R := fun d e => d = e ∧ domFitted img d = true)
      (List.forall₂_same.2 fun d hd => ⟨rfl, (List.mem_filter.1 hd).2⟩) ?_
    rintro d _ ⟨rfl, hfit⟩
    exact hfields d hfit
  · refine ⟨?_, rfl, rfl⟩
    cases ht : m.tables.topology <;> simp [DomainCheckOk, ht]
  · refine ⟨?_, rfl, rfl⟩
    cases hl : m.tables.limit with
    | none => simp [DomainCheckOk, hl]
    | some limit =>
      simp only [DomainCheckOk, hl, Option.elim_some, Bool.or_eq_true, Bool.not_eq_true', ← Bool.not_eq_true, namedByOverride_iff,
        Option.some.injEq, forall_eq', not_exists, not_and]
      by_cases hfit : domFitted img d = true <;> simp [hfit]

theorem decides_domain (m : Meas) (img : List Byte) :
    Decides (domainChecks m img) (DomainImageOk m img) (DomainRefusal m img) := by
  refine (decides_of_keys domainBefore_asymm (domainKeys_pairwise _) (domainKeys_checks m img)).congr ?_ fun row reason => ?_
  · exact ⟨fun h d k => domainCheckOk_of_keys (P := fun _ => True) (fun _ => id) (fun x hx _ => h x hx) d k trivial,
      fun h x _ => h x.1 x.2⟩
  · constructor
    · rintro ⟨⟨d, k⟩, -, ⟨hfail, hrow, rfl⟩, hbefore⟩
      exact ⟨d, hfail, hrow, domainCheckOk_of_keys (fun _ => domainBefore_first) hbefore⟩
    · rintro ⟨d, hfail, hrow, hbefore⟩
      exact ⟨(d, reason), mem_domainKeys_of_first hfail fun x => hbefore x.1 x.2, ⟨hfail, hrow, rfl⟩,
        fun x _ => hbefore x.1 x.2⟩

/-! ### TOPOLOGY (R4) -/

theorem topologyHeaderOk_of_not_mem (m : Meas) (img : List Byte) {n : Nat} (h : n ∉ List.range' 1 5) : TopologyHeaderOk m img n := by
  unfold TopologyHeaderOk
  split
  case h_6 => trivial
  all_goals exact absurd (by decide) h

theorem topologyRowOk_of_not_mem (m : Meas) (img : List Byte) (r : Nat) {k : Nat} (h : k ∉ List.range' 3 5) :
    TopologyRowOk m img r k := by
  unfold TopologyRowOk
  split
  case h_6 => trivial
  all_goals exact absurd (by decide) h

section

variable {m : Meas} {img : List Byte} {r : Nat}

theorem labelsOk_iff : labelsOk m img r = true ↔ TopologyRowOk m img r 5 := by
  simp only [labelsOk, List.all_eq_true, Dom.mem_all, true_imp_iff, TopologyRowOk]
  refine forall_congr' fun d => ?_
  cases fitted m d <;> simp

theorem inletOk_iff : inletOk img r = true ↔ TopologyRowOk m img r 4 := by
  simp only [inletOk, TopologyRowOk, Bool.or_eq_true, Bool.and_eq_true, beq_iff_eq, decide_eq_true_eq, and_assoc]
  exact Iff.rfl

/-- One element of a list without repetitions passes a test exactly when one element alone does. -/
theorem length_filter_eq_one_iff {α : Type} {p : α → Bool} {l : List α} (h : l.Nodup) :
    (l.filter p).length = 1 ↔ ∃ e, (e ∈ l ∧ p e = true) ∧ ∀ e' ∈ l, p e' = true → e' = e := by
  constructor
  · intro hlen
    obtain ⟨e, he⟩ := List.length_eq_one_iff.1 hlen
    have hmem : ∀ x, x ∈ l ∧ p x = true ↔ x = e := fun x => by rw [← List.mem_filter, he, List.mem_singleton]
    exact ⟨e, (hmem e).2 rfl, fun x hx hp => (hmem x).1 ⟨hx, hp⟩⟩
  · rintro ⟨e, he, hunique⟩
    have hperm : (l.filter p).Perm [e] := (List.perm_ext_iff_of_nodup (h.filter p) (List.nodup_singleton e)).2 fun x => by
      rw [List.mem_filter, List.mem_singleton]
      exact ⟨fun hx => hunique x hx.1 hx.2, fun hx => hx ▸ he⟩
    exact hperm.length_eq

theorem injectorsOk_iff : injectorsOk m img r = true ↔ TopologyRowOk m img r 6 := by
  have hmates : ∀ d, ((members (labelMates img r (fitted m) d)).filter (inSet (topoInjectors img r))).length = 1 ↔
      ∃ e, (fitted m e = true ∧ topoLabel img r e = topoLabel img r d ∧ inSet (topoInjectors img r) e = true) ∧
        ∀ e', fitted m e' = true → topoLabel img r e' = topoLabel img r d → inSet (topoInjectors img r) e' = true → e' = e :=
    fun d => by
      rw [length_filter_eq_one_iff (l := members _) (Dom.all_nodup.filter _)]
      simp only [mem_members, inSet_labelMates, and_assoc, and_imp]
  simp only [injectorsOk, Bool.and_eq_true, List.all_eq_true, Dom.mem_all, true_imp_iff, Bool.or_eq_true, Bool.not_eq_true',
    beq_iff_eq, hmates, TopologyRowOk]
  refine and_congr (forall_congr' fun d => ?_) (forall_congr' fun d => ?_)
  · cases fitted m d <;> simp
  · cases fitted m d <;> simp

end

theorem decides_topologyHeader (m : Meas) (img : List Byte) :
    Decides [⟨m.tables.domain.isSome, 0xFF, 1⟩,
      ⟨within 1 32 (topoRows img) && topoRows img == (img.length - 6) / 16, 0xFF, 2⟩, ⟨decide (topoOrder img ≤ 1), 0xFF, 2⟩,
      ⟨within 100 5000 (topoFreshness img), 0xFF, 2⟩, ⟨within 0 10000 (topoSettle img), 0xFF, 2⟩]
      (∀ k, TopologyHeaderOk m img k) fun row reason => row = 0xFF ∧ ∃ n, ¬ TopologyHeaderOk m img n ∧
        (∀ n' < n, TopologyHeaderOk m img n') ∧ reason = if n = 1 then 1 else 2 := by
  have hkeys := decides_of_keys (R := fun a b : Nat => a < b) (keys := List.range' 1 5) (fun _ _ => Nat.lt_asymm)
    List.pairwise_lt_range' (ok := TopologyHeaderOk m img) (row := fun _ => 0xFF) (reason := fun n => if n = 1 then 1 else 2)
    (cs := [⟨m.tables.domain.isSome, 0xFF, 1⟩,
      ⟨within 1 32 (topoRows img) && topoRows img == (img.length - 6) / 16, 0xFF, 2⟩, ⟨decide (topoOrder img ≤ 1), 0xFF, 2⟩,
      ⟨within 100 5000 (topoFreshness img), 0xFF, 2⟩, ⟨within 0 10000 (topoSettle img), 0xFF, 2⟩])
    (by simp [List.range', ChecksKey, TopologyHeaderOk, within_iff, and_assoc, Option.isSome_iff_ne_none])
  have hout : ∀ n, n ∉ List.range' 1 5 → TopologyHeaderOk m img n := fun n => topologyHeaderOk_of_not_mem m img
  refine hkeys.congr ⟨fun h n => (Classical.em _).elim (h n) (hout n), fun h n _ => h n⟩ fun row reason => ⟨?_, ?_⟩
  · rintro ⟨n, -, ⟨hfail, rfl, rfl⟩, hbefore⟩
    exact ⟨rfl, n, hfail, fun j hj => (Classical.em _).elim (hbefore j · hj) (hout j), rfl⟩
  · rintro ⟨rfl, n, hfail, hbefore, rfl⟩
    exact ⟨n, by_contra fun hn => hfail (hout n hn), ⟨hfail, rfl, rfl⟩, fun j _ hj => hbefore j hj⟩

theorem decides_topology (m : Meas) (img : List Byte) :
    Decides (topologyChecks m img) (TopologyImageOk m img) (TopologyRefusal m img) := by
  have hrow : ∀ r, Decides [⟨decide (topoKind img r ≤ 1), r, 3⟩, ⟨inletOk img r, r, 4⟩, ⟨labelsOk m img r, r, 5⟩,
      ⟨injectorsOk m img r, r, 6⟩, ⟨decide (topoProfile img r ≤ 3), r, 7⟩] (∀ k, TopologyRowOk m img r k) _ := fun r =>
    decides_numbered (n := 3) (len := 5) (row := r)
      (by simp [List.range', ChecksKey, labelsOk_iff, inletOk_iff (m := m), injectorsOk_iff]; simp [TopologyRowOk])
      fun k => topologyRowOk_of_not_mem m img r
  have hrows := decides_flatMap (R := fun a b : Nat => a < b) (fun _ _ => Nat.lt_asymm)
    (List.pairwise_lt_range (n := topoRows img)) fun r _ => hrow r
  refine ((decides_topologyHeader m img).append hrows).congr ?_ fun row reason => or_congr Iff.rfl (and_congr_right fun _ => ?_)
  · simp [TopologyImageOk]
  · simp only [List.mem_range]
    constructor
    · rintro ⟨r, hr, ⟨rfl, hfail, hlow⟩, hbefore⟩
      refine ⟨hr, hfail, fun r' k hk => ?_⟩
      rcases hk with hk | ⟨rfl, hk⟩
      · exact hbefore r' (hk.trans hr) hk k
      · exact hlow k hk
    · rintro ⟨hr, hfail, hbefore⟩
      exact ⟨row, hr, ⟨rfl, hfail, fun k hk => hbefore row k (.inr ⟨rfl, hk⟩)⟩, fun r _ hlt k => hbefore r k (.inl hlt)⟩

/-! ### LIMIT (R70) -/

theorem limitFieldOk_of_not_mem (l : Limits) {k : Nat} (h : k ∉ List.range' 2 7) : LimitFieldOk l k := by
  unfold LimitFieldOk
  split
  case h_8 => trivial
  all_goals exact absurd (by decide) h

/-- The range checks of a row, each made where its field is selected. -/
theorem limitFieldChecks_keys (row : Nat) (sel : Nat → Bool) (l : Limits) :
    List.Forall₂ (ChecksKey (fun k => sel (k - 2) = true → LimitFieldOk l k) (fun _ => row) id) (List.range' 2 7)
      (limitFieldChecks row sel l) := by
  have himp : ∀ (b : Bool) (c : Bool) (p : Prop), (c = true ↔ p) → ((!b || c) = true ↔ (b = true → p)) := by
    intro b c p h
    rw [← h]
    cases b <;> simp
  have hwarn : (l.warnOpv == 0 || within 50 5000 l.warnOpv) = true ↔ LimitFieldOk l 2 := by
    rw [Bool.or_eq_true, beq_iff_eq, within_iff]; rfl
  simp only [limitFieldChecks, Bool.or_assoc, List.range', List.forall₂_cons]
  refine ⟨⟨himp _ _ _ hwarn, rfl, rfl⟩, ⟨himp _ _ _ within_iff, rfl, rfl⟩, ⟨himp _ _ _ within_iff, rfl, rfl⟩,
    ⟨himp _ _ _ within_iff, rfl, rfl⟩, ⟨himp _ _ _ within_iff, rfl, rfl⟩, ⟨himp _ _ _ ?_, rfl, rfl⟩,
    ⟨himp _ _ _ within_iff, rfl, rfl⟩, .nil⟩
  exact within_iff.trans (and_iff_right (Nat.zero_le _))

theorem decides_limitDefaults (img : List Byte) :
    Decides (Profile.all.flatMap fun p => limitFieldChecks p.code (fun _ => true) (limitDefault img p))
      (∀ p k, LimitFieldOk (limitDefault img p) k) fun row reason => ∃ p : Profile, row = p.code ∧
        ¬ LimitFieldOk (limitDefault img p) reason ∧
        ∀ (p' : Profile) (k : Nat), (p'.code < p.code ∨ (p' = p ∧ k < reason)) → LimitFieldOk (limitDefault img p') k := by
  refine decides_profiles fun p => decides_numbered (n := 2) (len := 7) ?_ fun k => limitFieldOk_of_not_mem _
  exact (limitFieldChecks_keys p.code (fun _ => true) (limitDefault img p)).imp fun k c hc => ⟨hc.1.trans (by simp), hc.2⟩

/-- R70: a check of an override row comes before another. -/
def overrideBefore (j k : Nat) : Prop := overrideStage j < overrideStage k ∨ (overrideStage j = overrideStage k ∧ j < k)

/-- The checks of an override row in their order: DOMAIN, PROFILE, MASK, the fields, DUPLICATE. -/
def overrideKeys : List Nat := [9, 10, 11] ++ List.range' 2 7 ++ [12]

theorem overrideKeys_pairwise : overrideKeys.Pairwise overrideBefore := by unfold overrideBefore; decide

section

variable {m : Meas} {img : List Byte}

/-- A check of an override row between 2 and 8 is that of the field its mask may select. -/
theorem overrideCheckOk_field {j k : Nat} (hk : k ∈ List.range' 2 7) : OverrideCheckOk m img j k ↔
    ((overrideMask img j).getLsbD (k - 2) = true → LimitFieldOk (overrideBlock img j) k) := by
  have hlt : k < 9 := by
    have := List.mem_range'_1.1 hk
    omega
  unfold OverrideCheckOk
  split
  case h_5 => exact Iff.rfl
  all_goals omega

theorem overrideCheckOk_of_not_mem {j k : Nat} (h : k ∉ overrideKeys) : OverrideCheckOk m img j k := by
  unfold OverrideCheckOk
  split
  case h_5 => exact fun _ => limitFieldOk_of_not_mem _ fun hk => h (by simp [overrideKeys, List.mem_range'_1] at *; omega)
  all_goals exact absurd (by decide) h

theorem fittedByte_iff {n : Nat} : (Dom.ofNumber n).elim false (fitted m) = true ↔ ∃ d, n = d.number ∧ fitted m d = true := by
  constructor
  · intro h
    cases hd : Dom.ofNumber n with
    | none => rw [hd] at h; cases h
    | some d => rw [hd] at h; exact ⟨d, (Dom.number_of_ofNumber hd).symm, h⟩
  · rintro ⟨d, rfl, h⟩
    rw [Dom.ofNumber_number]; exact h

theorem overrideKeys_checks (j : Nat) :
    List.Forall₂ (ChecksKey (OverrideCheckOk m img j) (fun _ => 4 + j) id) overrideKeys (overrideChecks m img j) := by
  refine List.rel_append (List.rel_append ?_ ?_) ?_
  · simp only [List.forall₂_cons]
    exact ⟨⟨fittedByte_iff, rfl, rfl⟩, ⟨decide_eq_true_iff, rfl, rfl⟩, ⟨by simp [OverrideCheckOk], rfl, rfl⟩, .nil⟩
  · have hfields := limitFieldChecks_keys (4 + j) (overrideMask img j).getLsbD (overrideBlock img j)
    refine ((List.forall₂_and_left _ _).2 ⟨fun k hk => hk, hfields⟩).imp fun k c hc => ?_
    exact ⟨hc.2.1.trans (overrideCheckOk_field hc.1).symm, hc.2.2⟩
  · simp only [List.forall₂_cons]
    exact ⟨⟨by simp [OverrideCheckOk, imp_iff_not_or], rfl, rfl⟩, .nil⟩

theorem decides_override (j : Nat) : Decides (overrideChecks m img j) (∀ k, OverrideCheckOk m img j k) fun row reason =>
    row = 4 + j ∧ ¬ OverrideCheckOk m img j reason ∧ ∀ k, overrideBefore k reason → OverrideCheckOk m img j k := by
  have hasymm : ∀ a b, overrideBefore a b → ¬ overrideBefore b a := fun a b => by unfold overrideBefore; omega
  have hout : ∀ k, k ∉ overrideKeys → OverrideCheckOk m img j k := fun k => overrideCheckOk_of_not_mem
  refine (decides_of_keys hasymm overrideKeys_pairwise (overrideKeys_checks j)).congr
    ⟨fun h k => (Classical.em _).elim (h k) (hout k), fun h k _ => h k⟩ fun row reason => ⟨?_, ?_⟩
  · rintro ⟨k, -, ⟨hfail, rfl, rfl⟩, hbefore⟩
    exact ⟨rfl, hfail, fun i hi => (Classical.em _).elim (hbefore i · hi) (hout i)⟩
  · rintro ⟨rfl, hfail, hbefore⟩
    exact ⟨reason, by_contra fun hk => hfail (hout reason hk), ⟨hfail, rfl, rfl⟩, fun i _ hi => hbefore i hi⟩

theorem limitHeader_iff :
    (within 0 32 (limitCount img) && img.length == 45 + 14 * limitCount img) = true ↔ LimitHeaderOk img := by
  rw [Bool.and_eq_true, within_iff, beq_iff_eq, LimitHeaderOk]
  simp only [Nat.zero_le, true_and]

/-- Checks 1 to 3 of a LIMIT image. -/
theorem decides_limitRows (m : Meas) (img : List Byte) :
    Decides ([⟨within 0 32 (limitCount img) && img.length == 45 + 14 * limitCount img, 0xFF, 1⟩]
        ++ Profile.all.flatMap (fun p => limitFieldChecks p.code (fun _ => true) (limitDefault img p))
        ++ (List.range (limitCount img)).flatMap (overrideChecks m img))
      (LimitRowsOk m img) (LimitRefusal m img) := by
  have hrows := decides_flatMap (R := fun a b : Nat => a < b) (fun _ _ => Nat.lt_asymm)
    (List.pairwise_lt_range (n := limitCount img)) fun j _ => decides_override (m := m) (img := img) j
  refine (((decides_singleton limitHeader_iff).append (decides_limitDefaults img)).append hrows).congr ?_ fun row reason => ?_
  · simp only [LimitRowsOk, List.mem_range, and_assoc]
  · rw [LimitRefusal, or_assoc, and_assoc]
    refine or_congr Iff.rfl (or_congr Iff.rfl (and_congr_right fun _ => and_congr_right fun _ => ?_))
    constructor
    · rintro ⟨j, hj, ⟨rfl, hfail, hlow⟩, hbefore⟩
      have hj := List.mem_range.1 hj
      refine ⟨j, hj, rfl, hfail, fun i k hk => ?_⟩
      rcases hk with hk | ⟨rfl, hk⟩
      · exact hbefore i (List.mem_range.2 (hk.trans hj)) hk k
      · exact hlow k hk
    · rintro ⟨j, hj, rfl, hfail, hbefore⟩
      exact ⟨j, List.mem_range.2 hj, ⟨rfl, hfail, fun k hk => hbefore j k (.inr ⟨rfl, hk⟩)⟩, fun i _ hi k => hbefore i k (.inl hi)⟩

/-- None of checks 1 to 3 has the reason of check 4. -/
theorem LimitRefusal.reason_ne {row reason : Nat} (h : LimitRefusal m img row reason) : reason ≠ 13 := by
  rintro rfl
  rcases h with ⟨-, -, h⟩ | ⟨-, p, -, hfail, -⟩ | ⟨-, -, j, -, -, hfail, -⟩
  · cases h
  · exact hfail trivial
  · exact hfail fun _ => trivial

/-! ### The order of the limits, check 4 of R70 -/

theorem warnOrdered_iff {l : Limits} : warnOrdered l = true ↔ l.warnOpv = 0 ∨ l.faultOpv ≤ l.warnOpv := by
  rw [warnOrdered, Bool.or_eq_true, beq_iff_eq, decide_eq_true_eq]

/-- In an image whose override rows pass, a row is the one that counts for the domain and profile it names. -/
theorem LimitRowsOk.effectiveLimits {j : Nat} {d : Dom} {p : Profile} (h : LimitRowsOk m img) (hj : j < limitCount img)
    (hd : overrideDom img j = d.number) (hp : overrideProfile img j = p.code) :
    effectiveLimits img d p = blendLimits (overrideMask img j) (overrideBlock img j) (limitDefault img p) := by
  have hnames : ∀ i, OverrideNames img d p i ↔ overrideDom img i = d.number ∧ overrideProfile img i = p.code := fun i => by
    rw [← overrideNames_iff, Bool.and_eq_true, beq_iff_eq, beq_iff_eq]
  obtain ⟨-, -, hrows⟩ := h
  have hfirst : ∀ i, i < j → ¬ OverrideNames img d p i := fun i hi hn => by
    obtain ⟨hid, hip⟩ := (hnames i).1 hn
    exact hrows j hj 12 i hi ⟨hid.trans hd.symm, hip.trans hp.symm⟩
  rw [Machine.effectiveLimits, overrideFor_eq_some hj ((hnames j).2 ⟨hd, hp⟩) hfirst]

theorem Profile.exists_code {n : Nat} (h : n ≤ 3) : ∃ p : Profile, n = p.code := by
  interval_cases n
  exacts [⟨.park, rfl⟩, ⟨.drive, rfl⟩, ⟨.charge, rfl⟩, ⟨.service, rfl⟩]

theorem profile_code_le (p : Profile) : p.code ≤ 3 := by cases p <;> decide

/-- The rows that the model finds out of order are those that fail check 4, in an image that passes checks 1 to 3. -/
theorem mem_warnOrderRows (h : LimitRowsOk m img) {row : Nat} : row ∈ warnOrderRows img ↔ WarnOrderFails img row := by
  simp only [warnOrderRows, List.mem_append, List.mem_filter, List.mem_range, List.mem_map, Bool.not_eq_true', ← Bool.not_eq_true,
    warnOrdered_iff, WarnOrderFails]
  refine or_congr ?_ ?_
  · constructor
    · rintro ⟨hlt, hfail⟩
      obtain ⟨p, rfl⟩ := Profile.exists_code (Nat.le_of_lt_succ hlt)
      exact ⟨p, rfl, hfail⟩
    · rintro ⟨p, rfl, hfail⟩
      exact ⟨Nat.lt_succ_of_le (profile_code_le p), hfail⟩
  · constructor
    · rintro ⟨j, ⟨hj, hfail⟩, rfl⟩
      obtain ⟨-, -, hrows⟩ := id h
      obtain ⟨d, hd, -⟩ := hrows j hj 9
      obtain ⟨p, hp⟩ := Profile.exists_code (hrows j hj 10)
      refine ⟨j, d, p, hj, hd, hp, rfl, ?_⟩
      rw [h.effectiveLimits hj hd hp]
      rw [hp] at hfail
      exact hfail
    · rintro ⟨j, d, p, hj, hd, hp, rfl, hfail⟩
      refine ⟨j, ⟨hj, ?_⟩, rfl⟩
      rw [h.effectiveLimits hj hd hp] at hfail
      rw [hp]
      exact hfail

/-- The row that the free choice of check 4 reports is one of those that fail. -/
theorem warnOrderCheck_row_mem (h : (warnOrderCheck img).pass ≠ true) : (warnOrderCheck img).row ∈ warnOrderRows img := by
  have hpos : 0 < (warnOrderRows img).length := List.length_pos_of_ne_nil fun hnil => h (by simp [warnOrderCheck, hnil])
  have hlt := Nat.mod_lt (Config.warnOrderPick (warnOrderRows img)) hpos
  show (warnOrderRows img).getD _ 0 ∈ _
  rw [List.getD_eq_getElem _ _ hlt]
  exact List.getElem_mem hlt

theorem warnOrderCheck_pass : (warnOrderCheck img).pass = true ↔ ∀ row, row ∉ warnOrderRows img := by
  rw [warnOrderCheck, List.isEmpty_iff, List.eq_nil_iff_forall_not_mem]

theorem decides_limit (m : Meas) (img : List Byte) :
    Decides (limitChecks m img) (LimitRowsOk m img ∧ ∀ row, row ∉ warnOrderRows img) fun row reason =>
      LimitRefusal m img row reason ∨ (LimitRowsOk m img ∧ (¬ ∀ r, r ∉ warnOrderRows img) ∧
        row = (warnOrderCheck img).row ∧ reason = 13) :=
  (decides_limitRows m img).append (decides_singleton warnOrderCheck_pass)

end

theorem validate_limit_none {m : Meas} {img : List Byte} : validate m .limit img = none ↔ LimitImageOk m img := by
  refine (decides_limit m img).passes.trans ?_
  exact and_congr_right fun h => forall_congr' fun row => not_congr (mem_warnOrderRows h)

theorem validate_limit_some {m : Meas} {img : List Byte} {row reason : Nat} (hne : reason ≠ 13) :
    validate m .limit img = some (row, reason) ↔ LimitRefusal m img row reason :=
  ((decides_limit m img).refused row reason).trans
    ⟨fun h => h.elim id fun hx => absurd hx.2.2.2 hne, .inl⟩

theorem validate_limit_order {m : Meas} {img : List Byte} {row : Nat} (h : validate m .limit img = some (row, 13)) :
    LimitRowsOk m img ∧ WarnOrderFails img row := by
  rcases ((decides_limit m img).refused row 13).1 h with href | ⟨hrows, hsome, rfl, -⟩
  · exact absurd rfl href.reason_ne
  · exact ⟨hrows, (mem_warnOrderRows hrows).1 (warnOrderCheck_row_mem (mt warnOrderCheck_pass.1 hsome))⟩

theorem exists_validate_limit_order {m : Meas} {img : List Byte} :
    (∃ row, validate m .limit img = some (row, 13)) ↔ LimitRowsOk m img ∧ ∃ row, WarnOrderFails img row := by
  constructor
  · rintro ⟨row, h⟩
    obtain ⟨hrows, hfails⟩ := validate_limit_order h
    exact ⟨hrows, row, hfails⟩
  · rintro ⟨hrows, row, hfails⟩
    exact ⟨_, ((decides_limit m img).refused _ 13).2
      (.inr ⟨hrows, fun hnone => hnone row ((mem_warnOrderRows hrows).2 hfails), rfl, rfl⟩)⟩

end Sys2Proof.Machine
end

section
/-! PROOFS. The frozen check (R173): which flags forbid an image, and the first frozen profile and domain whose effective LIMIT record
would change. -/

namespace Sys2Proof.Machine

/-- R173: the pairs that the frozen check compares, each frozen profile with each fitted domain. -/
def frozenPairs (l : Loader) (m : Meas) : List (Profile × Dom) :=
  (Profile.all.filter fun p => l.freeze.getLsbD (3 + p.code)).flatMap fun p => (Dom.all.filter (fitted m)).map fun d => (p, d)

/-- The order of the pairs: by profile, then by domain. -/
def pairBefore (x y : Profile × Dom) : Prop := x.1.code < y.1.code ∨ (x.1 = y.1 ∧ x.2.index < y.2.index)

theorem pairBefore_asymm (x y : Profile × Dom) (h : pairBefore x y) : ¬ pairBefore y x := by
  simp only [pairBefore, ← Profile.code_inj] at *
  omega

theorem frozenPairs_pairwise (l : Loader) (m : Meas) : (frozenPairs l m).Pairwise pairBefore := by
  refine List.pairwise_flatMap.2 ⟨fun p _ => ?_, (Profile.all_pairwise.filter _).imp fun hlt x hx y hy => ?_⟩
  · exact List.pairwise_map.2 ((Dom.all_pairwise.filter _).imp fun hlt => .inr ⟨rfl, hlt⟩)
  · obtain ⟨d, -, rfl⟩ := List.mem_map.1 hx
    obtain ⟨e, -, rfl⟩ := List.mem_map.1 hy
    exact .inl hlt

theorem mem_frozenPairs {l : Loader} {m : Meas} {p : Profile} {d : Dom} :
    (p, d) ∈ frozenPairs l m ↔ l.freeze.getLsbD (3 + p.code) = true ∧ fitted m d = true := by
  simp [frozenPairs, -BitVec.getLsbD_eq_getElem]

/-- The frozen check of a LIMIT image is a list of checks, one for each pair. -/
theorem frozenLimitPair_of_limit {l : Loader} {m : Meas} {img old : List Byte} (h : m.tables.limit = some old) :
    frozenLimitPair l m img = firstFailure ((frozenPairs l m).map fun x =>
      ⟨effectiveLimits old x.2 x.1 == effectiveLimits img x.2 x.1, x.1.code, x.2.number⟩) := by
  rw [frozenLimitPair, h, firstFailure, List.find?_map, Option.map_map]
  rfl

/-- R173: a freeze forbids a LIMIT image at a profile and a domain. -/
def FrozenDiffers (l : Loader) (m : Meas) (old img : List Byte) (p : Profile) (d : Dom) : Prop :=
  l.freeze.getLsbD (3 + p.code) = true ∧ fitted m d = true ∧ effectiveLimits old d p ≠ effectiveLimits img d p

theorem decides_frozen (l : Loader) (m : Meas) (old img : List Byte) :
    Decides ((frozenPairs l m).map fun x =>
      ⟨effectiveLimits old x.2 x.1 == effectiveLimits img x.2 x.1, x.1.code, x.2.number⟩)
      (∀ p d, ¬ FrozenDiffers l m old img p d) fun row reason =>
        ∃ p d, row = p.code ∧ reason = d.number ∧ FrozenDiffers l m old img p d ∧
          ∀ p' d', (p'.code < p.code ∨ (p' = p ∧ d'.index < d.index)) → ¬ FrozenDiffers l m old img p' d' := by
  have hpass : ∀ {P : Profile × Dom → Prop}, (∀ x ∈ frozenPairs l m, P x → effectiveLimits old x.2 x.1 = effectiveLimits img x.2 x.1) ↔
      ∀ p d, P (p, d) → ¬ FrozenDiffers l m old img p d := fun {P} =>
    ⟨fun h p d hP ⟨hf, hfit, hne⟩ => hne (h (p, d) (mem_frozenPairs.2 ⟨hf, hfit⟩) hP), fun h x hx hP => by
      obtain ⟨hf, hfit⟩ := mem_frozenPairs.1 hx
      exact by_contra fun hne => h x.1 x.2 hP ⟨hf, hfit, hne⟩⟩
  refine (decides_of_keys pairBefore_asymm (frozenPairs_pairwise l m)
    (ok := fun x => effectiveLimits old x.2 x.1 = effectiveLimits img x.2 x.1) (row := (·.1.code)) (reason := (·.2.number))
    (List.forall₂_map_right_iff.2 (List.forall₂_same.2 fun x _ => ⟨beq_iff_eq, rfl, rfl⟩))).congr ?_ fun row reason => ⟨?_, ?_⟩
  · simpa using hpass (P := fun _ => True)
  · rintro ⟨⟨p, d⟩, hmem, ⟨hne, rfl, rfl⟩, hbefore⟩
    obtain ⟨hf, hfit⟩ := mem_frozenPairs.1 hmem
    exact ⟨p, d, rfl, rfl, ⟨hf, hfit, hne⟩, hpass.1 hbefore⟩
  · rintro ⟨p, d, rfl, rfl, ⟨hf, hfit, hne⟩, hbefore⟩
    exact ⟨(p, d), mem_frozenPairs.2 ⟨hf, hfit⟩, ⟨hne, rfl, rfl⟩, hpass.2 hbefore⟩

theorem frozenFailure_limit_of_none {l : Loader} {m : Meas} (img : List Byte) (h : m.tables.limit = none) :
    frozenFailure l m .limit img = none := by
  rw [frozenFailure, frozenLimitPair, h]; rfl

theorem decides_frozenFailure {l : Loader} {m : Meas} {img old : List Byte} (h : m.tables.limit = some old) :
    (frozenFailure l m .limit img = none ↔ ∀ p d, ¬ FrozenDiffers l m old img p d) ∧
    ∀ row reason, frozenFailure l m .limit img = some (row, reason) ↔
      ∃ p d, row = p.code ∧ reason = d.number ∧ FrozenDiffers l m old img p d ∧
        ∀ p' d', (p'.code < p.code ∨ (p' = p ∧ d'.index < d.index)) → ¬ FrozenDiffers l m old img p' d' := by
  rw [frozenFailure, frozenLimitPair_of_limit h]
  exact ⟨(decides_frozen l m old img).passes, (decides_frozen l m old img).refused⟩

end Sys2Proof.Machine
end

section
/-! SUPPORT. The entry to RUNNING (R165): every FORMING whose settle timer has expired ends, and what that leaves of the partition and of
the claim. -/

namespace Sys2Proof.Machine

/-! ### The end of one FORMING -/

section

variable {m : Meas} {ds : DomSet} {i : Island}

/-- From `m` to `m'` the islands with one member set have their settle timer stopped, and no other has changed. -/
def SettleStopped (ds : DomSet) (m m' : Meas) : Prop :=
  ∀ k ∈ m'.islands, k.settleTimer = .stopped ∨ (k ∈ m.islands ∧ k.members ≠ ds)

theorem SettleStopped.after {a b c : Meas} (k : SettleStopped ds b c) (h : SettleStopped ds a b) : SettleStopped ds a c := fun j hj =>
  (k j hj).elim .inl fun ⟨hb, _⟩ => h j hb

theorem settleStopped_changeIsland {f : Island → Island} (hf : ∀ j, (f j).settleTimer = .stopped) :
    SettleStopped ds m (changeIsland ds f m) := by
  intro k hk
  obtain ⟨j, hj, rfl⟩ := List.mem_map.1 hk
  by_cases hm : j.members = ds
  · exact .inl (by rw [if_pos (by simpa using hm)]; exact hf j)
  · rw [if_neg (by simpa using hm)]
    exact .inr ⟨hj, hm⟩

theorem settleStopped_putIsland {j : Island} (hm : j.members = ds) (hj : j.settleTimer = .stopped) :
    SettleStopped ds m (putIsland j m) := by
  rw [putIsland_eq_changeIsland, hm]
  exact settleStopped_changeIsland fun _ => hj

theorem settleStopped_enterStalled (hi : islandAt m ds = some i) : SettleStopped ds m (enterStalled ds m) := by
  rw [enterStalled_spec hi]
  exact settleStopped_putIsland (m := m) (j := { clearCyclePart i with state := .stalled, demand := none })
    (islandAt_members (i := i) hi) rfl

theorem settleStopped_startFirst {row : CycleRow} (hi : islandAt m ds = some i) (hrow : cycleRow m i.profile = some row) :
    SettleStopped ds m (startFirst ds m) := by
  rw [startFirst_spec hi hrow]
  exact settleStopped_putIsland (m := m) (j := i.started row m) (islandAt_members (i := i) hi) rfl

theorem settleStopped_enterSettle (ph : Phase) : SettleStopped ds m (enterSettle ph ds m) :=
  settleStopped_changeIsland fun _ => rfl

/-- A ramp to POS or NEG stops the timers, whether it runs or is over as it begins (R30). -/
theorem settleStopped_enterRamp {st : CycleStep} (hi : islandAt m ds = some i) (hst : st = .rampPos ∨ st = .rampNeg) :
    SettleStopped ds m (enterRamp st ds m) := by
  have hmem : i.members = ds := islandAt_members hi
  have hput : SettleStopped ds m (putIsland { stopTimers i with state := .cycle st } m) := settleStopped_putIsland hmem rfl
  by_cases hlevel : (m.taps.get i.injector).mailbox.level = rampTarget st i.row.injMv
  · have hat : islandAt (changeTap i.injector (fun p => { p with ramp := none })
        (putIsland { stopTimers i with state := .cycle st } m)) ds = some { stopTimers i with state := .cycle st } :=
      islandAt_putIsland (i := { stopTimers i with state := .cycle st }) hi hmem
    obtain ⟨hpos, hneg, -⟩ := afterCycleRamp_of hat
    rw [enterRamp_of_eq hi hlevel]
    rcases hst with rfl | rfl
    · rw [hpos rfl]; exact (settleStopped_enterSettle .pos).after hput
    · rw [hneg rfl]; exact (settleStopped_enterSettle .neg).after hput
  · rw [enterRamp_of_ne hi hlevel]
    exact hput

theorem settleStopped_resumeCycle (e : SuspendEntry) (hi : islandAt m ds = some i) : SettleStopped ds m (resumeCycle e ds m) := by
  have htaken : SettleStopped ds m (changeIsland ds (Island.takingUp e) m) := settleStopped_changeIsland fun _ => rfl
  have hat : islandAt (changeIsland ds (Island.takingUp e) m) ds = some (i.takingUp e) := islandAt_changeIsland_some hi fun _ => rfl
  unfold resumeCycle
  split
  · exact (settleStopped_enterSettle .quiet).after htaken
  · exact (settleStopped_enterRamp hat (.inl rfl)).after htaken
  · exact (settleStopped_enterRamp hat (.inr rfl)).after htaken

theorem claim_resumeCycle (e : SuspendEntry) (hi : islandAt m ds = some i) : (resumeCycle e ds m).claim = m.claim := by
  have hat : islandAt (changeIsland ds (Island.takingUp e) m) ds = some (i.takingUp e) := islandAt_changeIsland_some hi fun _ => rfl
  unfold resumeCycle
  split
  · rfl
  · exact (enterRamp_up (ph := .pos) hat (.inl ⟨rfl, rfl⟩)).2.1
  · exact (enterRamp_up (ph := .neg) hat (.inr ⟨rfl, rfl⟩)).2.1

theorem endForming_of_no_island (hn : islandAt m ds = none) : endForming ds m = m := by
  unfold endForming; rw [hn]

/-- The end of FORMING is a stall, a first cycle or a resumption (R25, R108). -/
theorem endForming_outcome (hi : islandAt m ds = some i) :
    endForming ds m = enterStalled ds m ∨ endForming ds m = startFirst ds m ∨
      endForming ds m = startFirst ds (dropEntry ds m) ∨ ∃ e, endForming ds m = resumeCycle e ds (dropEntry ds m) := by
  cases hp : isPresent m i.injector with
  | false => exact .inl (endForming_of_absent hi hp)
  | true =>
    cases he : waitingEntry m i with
    | none => exact .inr (.inl (endForming_of_no_entry hi hp he))
    | some e =>
      rcases Nat.lt_or_ge (e.captured.row.resumeAge * 1000) (m.timebase - e.time).toNat with hold | hyoung
      · exact .inr (.inr (.inl (endForming_of_old_entry hi hp he hold)))
      · exact .inr (.inr (.inr ⟨e, endForming_of_young_entry hi hp he hyoung⟩))

theorem exists_cycleRow (hc : m.tables.cycle.isSome = true) (p : Profile) : ∃ row, cycleRow m p = some row := by
  obtain ⟨img, himg⟩ := Option.isSome_iff_exists.1 hc
  exact ⟨_, by rw [cycleRow, himg]; rfl⟩

theorem settleStopped_endForming (hc : m.tables.cycle.isSome = true) (hi : islandAt m ds = some i) :
    SettleStopped ds m (endForming ds m) := by
  obtain ⟨row, hrow⟩ := exists_cycleRow hc i.profile
  rcases endForming_outcome hi with h | h | h | ⟨e, h⟩ <;> rw [h]
  · exact settleStopped_enterStalled hi
  · exact settleStopped_startFirst hi hrow
  · exact settleStopped_startFirst (m := dropEntry ds m) hi hrow
  · exact settleStopped_resumeCycle (m := dropEntry ds m) e hi

/-- The end of FORMING writes the mailbox of the island's injector at most, so no other tap leaves the confirmed ones (R98). -/
theorem confirmed_endForming (hc : m.tables.cycle.isSome = true) (hi : islandAt m ds = some i) {d : Dom} (hd : d ≠ i.injector) :
    inSet (endForming ds m).claim.confirmed d = inSet m.claim.confirmed d := by
  obtain ⟨row, hrow⟩ := exists_cycleRow hc i.profile
  have hwrite : ∀ b, inSet (writeMailbox i.injector b m).claim.confirmed d = inSet m.claim.confirmed d := fun b =>
    (claimKept_writeMailbox i.injector b m).confirmed d hd
  rcases endForming_outcome hi with h | h | h | ⟨e, h⟩ <;> rw [h]
  · rw [enterStalled_spec hi]; exact hwrite .rest
  · rw [startFirst_spec hi hrow]; exact hwrite ⟨0, .domain, .connected⟩
  · rw [startFirst_spec (m := dropEntry ds m) hi hrow]; exact hwrite ⟨0, .domain, .connected⟩
  · rw [claim_resumeCycle (m := dropEntry ds m) e hi]; rfl

end

/-! ### The end of every FORMING that has waited -/

/-- An island waits in FORMING: its settle timer has expired (R25). -/
def Island.waits (i : Island) : Prop := i.state = .forming ∧ i.settleTimer = .expired

/-- The entry to RUNNING on one island. -/
def endWaiting (m : Meas) (i : Island) : Meas :=
  if i.state == .forming && i.settleTimer == .expired then endForming i.members m else m

theorem endExpiredFormings_eq (m : Meas) : endExpiredFormings m = m.islands.foldl endWaiting m := rfl

theorem endWaiting_of_waits {i : Island} (h : i.waits) (m : Meas) : endWaiting m i = endForming i.members m :=
  if_pos (by rw [h.1, h.2]; rfl)

theorem endWaiting_of_not_waits {i : Island} (h : ¬ i.waits) (m : Meas) : endWaiting m i = m :=
  if_neg (by simpa [Island.waits] using h)

theorem steady_endWaiting (m : Meas) (i : Island) : Steady m (endWaiting m i) := by
  by_cases h : i.waits
  · rw [endWaiting_of_waits h]; exact steady_endForming i.members m
  · rw [endWaiting_of_not_waits h]; exact .refl m

theorem none_waits_foldl {l : List Island} {m : Meas} (hc : m.tables.cycle.isSome = true)
    (hl : ∀ i ∈ m.islands, i.waits → ∃ k ∈ l, k.waits ∧ k.members = i.members) :
    ∀ i ∈ (l.foldl endWaiting m).islands, ¬ i.waits := by
  induction l generalizing m with
  | nil =>
    intro i hi hw
    obtain ⟨k, hk, -⟩ := hl i hi hw
    exact absurd hk List.not_mem_nil
  | cons a l ih =>
    rw [List.foldl_cons]
    refine ih (by rw [(steady_endWaiting m a).tables]; exact hc) fun i hi hw => ?_
    have hrest : i ∈ m.islands → (a.waits → a.members ≠ i.members) → ∃ k ∈ l, k.waits ∧ k.members = i.members := by
      intro hi ha
      obtain ⟨k, hk, hkw, hkm⟩ := hl i hi hw
      rcases List.mem_cons.1 hk with rfl | hk
      · exact absurd hkm (ha hkw)
      · exact ⟨k, hk, hkw, hkm⟩
    by_cases ha : a.waits
    · rw [endWaiting_of_waits ha] at hi
      cases hat : islandAt m a.members with
      | none =>
        rw [endForming_of_no_island hat] at hi
        refine hrest hi fun _ he => ?_
        rw [islandAt, List.find?_eq_none] at hat
        exact hat i hi (by simpa using he.symm)
      | some j =>
        rcases settleStopped_endForming hc hat i hi with hstop | ⟨him, hne⟩
        · rw [hw.2] at hstop; cases hstop
        · exact hrest him fun _ he => hne he.symm
    · rw [endWaiting_of_not_waits ha] at hi
      exact hrest hi fun hx => absurd hx ha

/-- After the entry to RUNNING no FORMING waits whose settle timer has expired (R165). -/
theorem none_waits_endExpiredFormings {m : Meas} (hc : m.tables.cycle.isSome = true) :
    ∀ i ∈ (endExpiredFormings m).islands, ¬ i.waits :=
  none_waits_foldl hc fun i hi hw => ⟨i, hi, hw, rfl⟩

theorem endExpiredFormings_of_no_islands {m : Meas} (h : m.islands = []) : endExpiredFormings m = m := by
  rw [endExpiredFormings_eq, h]; rfl

theorem confirmed_foldl {l : List Island} {m : Meas} {d : Dom} (hc : m.tables.cycle.isSome = true) (hp : PartitionFollows m)
    (hl : ∀ i ∈ l, i.waits → inSet i.members d = false) :
    inSet (l.foldl endWaiting m).claim.confirmed d = inSet m.claim.confirmed d := by
  induction l generalizing m with
  | nil => rfl
  | cons a l ih =>
    have hsteady := steady_endWaiting m a
    rw [List.foldl_cons, ih (by rw [hsteady.tables]; exact hc) (partitionFollows_good _ _ hsteady.sound hp)
      fun i hi => hl i (List.mem_cons_of_mem a hi)]
    by_cases ha : a.waits
    · rw [endWaiting_of_waits ha]
      cases hat : islandAt m a.members with
      | none => rw [endForming_of_no_island hat]
      | some j =>
        refine confirmed_endForming hc hat fun he => ?_
        have hin : inSet a.members d = true := by
          rw [he, ← islandAt_members hat]; exact hp.injector_mem (islandAt_mem hat)
        rw [hl a List.mem_cons_self ha] at hin
        cases hin
    · rw [endWaiting_of_not_waits ha]

theorem coveredSet_endExpiredFormings {m : Meas} (hp : Parted m) : coveredSet (endExpiredFormings m) = coveredSet m := by
  have h := steady_endExpiredFormings m
  have hmembers := congrArg (List.map Prod.fst) (h.islands hp)
  rw [List.map_map, List.map_map] at hmembers
  exact coveredSet_congr (by rw [h.claim]) (by rw [h.claim]) h.topo h.tables hmembers

/-- While the claimed island is EXTERNAL, the entry to RUNNING leaves which covered taps are confirmed (R98). -/
theorem unconfirmedSet_endExpiredFormings {m : Meas} (hc : m.tables.cycle.isSome = true) (hp : PartitionFollows m)
    (hx : ∀ i, claimedIsland m = some i → i.state = .external) :
    unconfirmedSet (endExpiredFormings m) = unconfirmedSet m := by
  have hcov := coveredSet_endExpiredFormings hp.parted
  refine DomSet.ext fun d => ?_
  rw [unconfirmedSet, unconfirmedSet, hcov, inSet_and, inSet_and, inSet_not, inSet_not]
  cases hd : inSet (coveredSet m) d with
  | false => rfl
  | true =>
    have hout : ∀ i ∈ m.islands, i.waits → inSet i.members d = false := by
      intro i hi hw
      by_contra hin
      have hin : inSet i.members d = true := by simpa using hin
      have hclaimed := (hp.claimedIsland_eq_iff hi).2 (claimsSet_iff.2 ((hp.covered_iff hi hin).1 hd))
      have hext := hx i hclaimed
      rw [hw.1] at hext
      cases hext
    rw [endExpiredFormings_eq, confirmed_foldl hc hp hout]

end Sys2Proof.Machine
end

section
/-! SUPPORT. The activation of a table (R174): what each table's own effects come to, and what stays of them through the entry to
RUNNING (R165). -/

namespace Sys2Proof.Machine

/-! ### The table's effects, then the entry to RUNNING -/

/-- What an activation leaves before it raises TABLE_DONE: the table's effects, and the entry to RUNNING if it completes the four. -/
def entered (t : TableId) (img : List Byte) (m : Meas) : Meas :=
  if !partRunning m && partRunning (activateTable t img m) then endExpiredFormings (activateTable t img m) else activateTable t img m

section

variable {t : TableId} {img : List Byte} {m : Meas}

theorem activateMeas_eq (t : TableId) (img : List Byte) (m : Meas) : activateMeas t img m = raise .tableDone (entered t img m) := rfl

theorem entered_of_enters (h : partRunning m = false) (h' : partRunning (activateTable t img m) = true) :
    entered t img m = endExpiredFormings (activateTable t img m) := if_pos (by rw [h, h']; rfl)

theorem entered_of_stays (h : partRunning (activateTable t img m) = true → partRunning m = true) :
    entered t img m = activateTable t img m := by
  refine if_neg fun hx => ?_
  simp only [Bool.and_eq_true, Bool.not_eq_true'] at hx
  rw [h hx.2] at hx
  cases hx.1

theorem entered_of_running (h : partRunning m = true) : entered t img m = activateTable t img m := entered_of_stays fun _ => h

theorem entered_cases (t : TableId) (img : List Byte) (m : Meas) : entered t img m = activateTable t img m ∨
    (partRunning m = false ∧ partRunning (activateTable t img m) = true ∧
      entered t img m = endExpiredFormings (activateTable t img m)) := by
  cases h : partRunning m with
  | true => exact .inl (entered_of_running h)
  | false =>
    cases h' : partRunning (activateTable t img m) with
    | false => exact .inl (entered_of_stays fun hx => by rw [h'] at hx; cases hx)
    | true => exact .inr ⟨rfl, rfl, entered_of_enters h h'⟩

theorem steady_entered (t : TableId) (img : List Byte) (m : Meas) : Steady (activateTable t img m) (entered t img m) := by
  rcases entered_cases t img m with h | ⟨-, -, h⟩ <;> rw [h]
  · exact .refl _
  · exact steady_endExpiredFormings _

theorem entered_of_no_islands (h : (activateTable t img m).islands = []) : entered t img m = activateTable t img m := by
  rcases entered_cases t img m with he | ⟨-, -, he⟩
  · exact he
  · rw [he, endExpiredFormings_of_no_islands h]

theorem cycle_of_partRunning (h : partRunning m = true) : m.tables.cycle.isSome = true := by
  simp only [partRunning, Bool.and_eq_true] at h
  exact h.1.2

theorem partRunning_congr {m m' : Meas} (h : m'.tables = m.tables) : partRunning m' = partRunning m := by
  rw [partRunning, h]; rfl

/-- R165: no FORMING whose settle timer has expired outlives the entry to RUNNING. -/
theorem none_waits_entered (h : partRunning m = false) (h' : partRunning (entered t img m) = true) :
    ∀ i ∈ (entered t img m).islands, ¬ i.waits := by
  have hruns : partRunning (activateTable t img m) = true := by rw [← partRunning_congr (steady_entered t img m).tables]; exact h'
  rw [entered_of_enters h hruns]
  exact none_waits_endExpiredFormings (cycle_of_partRunning hruns)

end

/-! ### DOMAIN (R3, R131) -/

section

variable {img : List Byte} {m : Meas}

theorem activateDomain_tap (d : Dom) : (activateDomain img m).taps.get d =
    if domFitted img d = fitted m d then m.taps.get d
    else if domFitted img d = true then { m.taps.get d with
      presence := some ⟨.unseen, none, 0, none, none⟩, refreshStart := some m.timebase, due := true }
    else { m.taps.get d with presence := none, refreshStart := none } := by
  show (PerDom.mapWith _ m.taps).get d = _
  rw [PerDom.get_mapWith, refitTap]
  cases fitted m d <;> cases domFitted img d <;> rfl

/-- A DOMAIN image that passes its validation does not bring the part to RUNNING: a TOPOLOGY table is active only where some domain is
fitted already (R2, checks 2 and 6). -/
theorem partRunning_of_activateDomain (hv : validate m .domain img = none) (h : partRunning (activateDomain img m) = true) :
    partRunning m = true := by
  obtain ⟨e, he⟩ : DomainCheckOk m img .d1 2 := (decides_domain m img).passes.1 hv .d1 2
  simp only [partRunning, Bool.and_eq_true] at h ⊢
  obtain ⟨⟨⟨-, htopology⟩, hcycle⟩, hlimit⟩ := h
  have hfitted : fitted m e = true := (domFitted_of_validate hv htopology e).symm.trans he
  have hdomain : m.tables.domain.isSome = true := by
    cases hd : m.tables.domain with
    | none => simp [fitted, hd] at hfitted
    | some _ => rfl
  exact ⟨⟨⟨hdomain, htopology⟩, hcycle⟩, hlimit⟩

theorem entered_domain (hv : validate m .domain img = none) : entered .domain img m = activateDomain img m :=
  entered_of_stays (t := .domain) (partRunning_of_activateDomain hv)

end

/-! ### TOPOLOGY (R5) -/

/-- The state with a TOPOLOGY table made active. -/
def withTopology (img : List Byte) (m : Meas) : Meas := { m with tables := { m.tables with topology := some img } }

section

variable {img : List Byte} {m : Meas} {rp : Report}

theorem activateTopology_of_unreported (h : m.topo.stored = none) : activateTopology img m = withTopology img m := by
  have h' : (withTopology img m).topo.stored = none := h
  show reresolve img (withTopology img m) = _
  unfold reresolve; rw [h']

theorem activateTopology_of_fresh (h : m.topo.stored = some rp) (hage : (m.timebase - rp.time).toNat < topoFreshness img) :
    activateTopology img m = resolve false img rp (withTopology img m) := by
  have h' : (withTopology img m).topo.stored = some rp := h
  show reresolve img (withTopology img m) = _
  unfold reresolve; rw [h']
  exact if_pos hage

theorem activateTopology_of_stale (h : m.topo.stored = some rp) (hage : topoFreshness img ≤ (m.timebase - rp.time).toNat) :
    activateTopology img m = becomeStale (withTopology img m) := by
  have h' : (withTopology img m).topo.stored = some rp := h
  show reresolve img (withTopology img m) = _
  unfold reresolve; rw [h']
  exact if_neg (Nat.not_lt.2 hage)

/-- A resolution against another table changes the partition, whatever row it finds (R15, R20). -/
theorem resolve_other_table (img : List Byte) (rp : Report) (m : Meas) : ∃ fl al,
    resolve false img rp m = changePartition m
      (match (matchingRows img rp.positions rp.inlet).head? with
        | some r => partitionOf img r (fitted m)
        | none => [])
      (reclassified { m.topo with
        state := if (matchingRows img rp.positions rp.inlet).isEmpty then .nomatch else .known
        row := (matchingRows img rp.positions rp.inlet).head?
        count := (matchingRows img rp.positions rp.inlet).length } fl al m) := by
  obtain ⟨fl, al, hstart⟩ := followed_eq_reclassified (2 ≤ (matchingRows img rp.positions rp.inlet).length) { m.topo with
    state := if (matchingRows img rp.positions rp.inlet).isEmpty then .nomatch else .known
    row := (matchingRows img rp.positions rp.inlet).head?
    count := (matchingRows img rp.positions rp.inlet).length } m
  refine ⟨fl, al, ?_⟩
  unfold resolve
  dsimp only
  rw [hstart]
  rfl

/-- A TOPOLOGY activation without a report only makes the table active; one with a report changes the partition to one that the new
table gives. -/
theorem activateTopology_cases (img : List Byte) (m : Meas) : activateTopology img m = withTopology img m ∨
    (PartitionFollows (activateTopology img m) ∧ ∃ parts tp fl al,
      activateTopology img m = changePartition (withTopology img m) parts (reclassified tp fl al (withTopology img m))) := by
  cases h : m.topo.stored with
  | none => exact .inl (activateTopology_of_unreported h)
  | some rp =>
    right
    rcases Nat.lt_or_ge (m.timebase - rp.time).toNat (topoFreshness img) with hage | hage
    · rw [activateTopology_of_fresh h hage]
      obtain ⟨fl, al, heq⟩ := resolve_other_table img rp (withTopology img m)
      refine ⟨partitionFollows_resolve rfl ?_ fun hb => absurd hb (by decide), _, _, fl, al, heq⟩
      show m.topo.stored.isSome = true
      rw [h]; rfl
    · rw [activateTopology_of_stale h hage]
      obtain ⟨fl, al, heq⟩ := becomeStale_eq (withTopology img m)
      exact ⟨partitionFollows_becomeStale _, _, _, fl, al, heq⟩

theorem activateTopology_tables (img : List Byte) (m : Meas) :
    (activateTopology img m).tables = { m.tables with topology := some img } := by
  rcases activateTopology_cases img m with h | ⟨-, parts, tp, fl, al, h⟩ <;> rw [h]
  · rfl
  · exact (kept_changePartition ..).tables

/-! #### Every island dissolved -/

theorem IslandsDissolved.raise {m m' : Meas} (h : IslandsDissolved m m') (f : Flag) : IslandsDissolved m (raise f m') :=
  { h with
    granted := fun hs ha hc => by
      obtain ⟨hstate, hpend, hdone⟩ := h.granted hs ha hc
      exact ⟨hstate, hpend, by rw [flagSet_raise, hdone]; rfl⟩ }

/-- What a dissolution is of does not depend on the TOPOLOGY table. -/
theorem IslandsDissolved.of_withTopology {m' : Meas} (h : IslandsDissolved (withTopology img m) m') : IslandsDissolved m m' :=
  { h with }

/-! #### The answer of a claim that the activation grants (R99, R172) -/

theorem claimedIsland_grantWith (st : Status) (hs : m.claim.state = .handoff) :
    claimedIsland (grantWith st m) = (claimedIsland m).map Island.granted := by
  obtain ⟨hsome, hnone⟩ := grantWith_islands st hs
  simp only [claimedIsland, grantWith_claim, hs]
  cases hd : m.claim.dom with
  | none => rfl
  | some d =>
    have hclaimed : claimedIsland m = islandOf m d := claimedIsland_of_handoff hs hd
    show islandOf (grantWith st m) d = (islandOf m d).map Island.granted
    cases hi : islandOf m d with
    | none => rw [islandOf, hnone (hclaimed.trans hi)]; exact hi
    | some i =>
      rw [islandOf, hsome i (hclaimed.trans hi), changeIsland_islands, List.find?_map]
      have hpred : (fun j : Island => inSet j.members d) ∘ (fun j => if j.members == i.members then j.granted else j) =
          fun j => inSet j.members d := by
        funext j; simp only [Function.comp]; split <;> rfl
      rw [hpred, show m.islands.find? (fun j => inSet j.members d) = some i from hi]
      simp

/-- A change of partition that grants a claim leaves the claimed island EXTERNAL (R99). -/
theorem claimedIsland_changePartition {b : Meas} {parts : List IslandSpec}
    (h : (changePartition b parts m).claim.state ≠ m.claim.state) {i : Island}
    (hi : claimedIsland (changePartition b parts m) = some i) : i.state = .external := by
  set x := agingTests (agingTouched b (rearrange b parts m)) (rearrange b parts m) with hx
  have hstate : x.claim.state = m.claim.state := by
    rw [hx, judging_agingTests, (rearranged_rearrange b parts m).claim]
  rw [changePartition_eq, ← hx] at h hi
  rcases claimCheck_outcome x with ⟨hc, -⟩ | ⟨hc, hs, -⟩
  · rw [hc, armClaim_eq, hstate] at h
    exact absurd rfl h
  · rw [hc, claimedIsland_grantWith .ok (by rw [armClaim_eq]; exact hs)] at hi
    obtain ⟨j, -, rfl⟩ := Option.map_eq_some_iff.1 hi
    rfl

/-- A change of partition holds at most the answer of the XCLAIM that it grants, at the end. -/
theorem changePartition_held_append (b : Meas) (parts : List IslandSpec) (m : Meas) :
    ∃ more, (changePartition b parts m).heldResponses = m.heldResponses ++ more ∧
      ((changePartition b parts m).claim.state = m.claim.state → more = []) ∧
      ∀ p, m.pendXclaim = some p → (changePartition b parts m).claim.state ≠ m.claim.state →
        ∃ g, more = [g] ∧ GrantAnswer p (changePartition b parts m) g := by
  have hr := rearranged_rearrange b parts m
  have hj := judging_agingTests (agingTouched b (rearrange b parts m)) (rearrange b parts m)
  have h := claimCheck_held_append (agingTests (agingTouched b (rearrange b parts m)) (rearrange b parts m))
  rw [← changePartition_eq] at h
  rwa [show (agingTests (agingTouched b (rearrange b parts m)) (rearrange b parts m)).claim.state = m.claim.state by rw [hj, hr.claim],
    show (agingTests (agingTouched b (rearrange b parts m)) (rearrange b parts m)).pendXclaim = m.pendXclaim by
      rw [hj]; exact hr.pendXclaim,
    show (agingTests (agingTouched b (rearrange b parts m)) (rearrange b parts m)).heldResponses = m.heldResponses by
      rw [hj]; exact hr.held] at h

end

/-! ### LIMIT (R71) -/

section

variable {img : List Byte} {m : Meas}

/-- The aging test of a LIMIT activation, under the new record (R71, R82). -/
theorem activateLimit_dom (img : List Byte) (m : Meas) (d : Dom) :
    let x := m.doms.get d
    let aged := (x.verdict = .ok ∨ x.verdict = .warn) ∧ inSet (coveredSet m) d = false ∧
      ∃ n, x.newest = some n ∧
        (effectiveLimits img d (profileInForce m d)).maxAge * 1000 < (m.timebase - n.time).toNat
    (aged → (activateLimit img m).doms.get d = { x with verdict := .unknown, worse := 0, better := 0, belowClear := false }) ∧
    (¬ aged → (activateLimit img m).doms.get d = x) := by
  intro x aged
  have hdue : agingDue { m with tables := { m.tables with limit := some img } } d = true ↔ aged := by
    rw [agingDue_iff]
    refine and_congr_right fun _ => and_congr_right fun _ => exists_congr fun n => ?_
    constructor
    · rintro ⟨l, hn, hl, hage⟩
      obtain rfl := Option.some.inj hl
      exact ⟨hn, hage⟩
    · exact fun ⟨hn, hage⟩ => ⟨_, hn, rfl, hage⟩
  have hget := agingTests_get Dom.all_nodup { m with tables := { m.tables with limit := some img } } d
  refine ⟨fun h => ?_, fun h => ?_⟩
  · exact hget.trans (if_pos ⟨Dom.mem_all d, hdue.2 h⟩)
  · exact hget.trans (if_neg fun hx => h (hdue.1 hx.2))

theorem activateLimit_judging (img : List Byte) (m : Meas) :
    Judging { m with tables := { m.tables with limit := some img } } (activateLimit img m) := judging_agingTests ..

end

/-! ### Any table -/

section

variable {t : TableId} {img : List Byte} {m : Meas}

theorem activeImage_congr {m' : Meas} (h : m'.tables = m.tables) (t : TableId) : activeImage m' t = activeImage m t := by
  cases t <;> simp only [activeImage, forwardImage, h]

theorem activeImage_activateTable (t : TableId) (img : List Byte) (m : Meas) : activeImage (activateTable t img m) t = some img := by
  cases t with
  | domain => rfl
  | topology => exact congrArg Tables.topology (activateTopology_tables img m)
  | cycle => rfl
  | limit =>
    have h : (activateLimit img m).tables = { m.tables with limit := some img } := by rw [activateLimit_judging img m]
    rw [activeImage, activateTable, h]
  | forward => simp only [activeImage, forwardImage, activateTable, activateForward, Option.getD_some]

/-- The activated table is the active one (R174). -/
theorem activeImage_entered (t : TableId) (img : List Byte) (m : Meas) : activeImage (entered t img m) t = some img :=
  (activeImage_congr (steady_entered t img m).tables t).trans (activeImage_activateTable t img m)

/-- An activation of a table other than TOPOLOGY leaves the claim and the responses that are held. -/
theorem activateTable_kept (h : t ≠ .topology) :
    (activateTable t img m).claim = m.claim ∧ (activateTable t img m).heldResponses = m.heldResponses := by
  cases t with
  | domain => exact ⟨rfl, rfl⟩
  | topology => exact absurd rfl h
  | cycle => exact ⟨rfl, rfl⟩
  | limit =>
    show (activateLimit img m).claim = _ ∧ (activateLimit img m).heldResponses = _
    rw [activateLimit_judging img m]
    exact ⟨rfl, rfl⟩
  | forward => exact ⟨rfl, rfl⟩

/-- The answer of a grant stays right through the entry to RUNNING. -/
theorem GrantAnswer.entered {p : PendingRec} {f : Frame} (h : GrantAnswer p (activateTable t img m) f)
    (hp : PartitionFollows (activateTable t img m))
    (hx : ∀ i, claimedIsland (activateTable t img m) = some i → i.state = .external) : GrantAnswer p (entered t img m) f := by
  rcases entered_cases t img m with he | ⟨-, hruns, he⟩
  · rw [he]; exact h
  · have hset := unconfirmedSet_endExpiredFormings (cycle_of_partRunning hruns) hp hx
    have hdom : (endExpiredFormings (activateTable t img m)).claim.dom = (activateTable t img m).claim.dom := by
      rw [(steady_endExpiredFormings _).claim]
    rw [unconfirmedSet, unconfirmedSet] at hset
    rw [he, GrantAnswer, hset, hdom]
    exact h

/-- An activation holds at most the answer of the XCLAIM that a TOPOLOGY activation grants (R172). -/
theorem entered_held (t : TableId) (img : List Byte) (m : Meas) :
    ∃ more, (entered t img m).heldResponses = m.heldResponses ++ more ∧
      (t ≠ .topology ∨ m.claim.state ≠ .handoff ∨ (entered t img m).claim.state = .handoff → more = []) ∧
      ∀ p, m.pendXclaim = some p → m.claim.state = .handoff → (entered t img m).claim.state ≠ .handoff →
        ∃ f, more = [f] ∧ GrantAnswer p (entered t img m) f := by
  have hsteady := steady_entered t img m
  have hstate : (entered t img m).claim.state = (activateTable t img m).claim.state := by rw [hsteady.claim]
  have hquiet : (activateTable t img m).claim.state = m.claim.state →
      (activateTable t img m).heldResponses = m.heldResponses → ∃ more, (entered t img m).heldResponses = m.heldResponses ++ more ∧
      (t ≠ .topology ∨ m.claim.state ≠ .handoff ∨ (entered t img m).claim.state = .handoff → more = []) ∧
      ∀ p, m.pendXclaim = some p → m.claim.state = .handoff → (entered t img m).claim.state ≠ .handoff →
        ∃ f, more = [f] ∧ GrantAnswer p (entered t img m) f := fun hs hheld =>
    ⟨[], by rw [hsteady.held, hheld, List.append_nil], fun _ => rfl, fun _ _ h h' => absurd (by rw [hstate, hs, h]) h'⟩
  by_cases ht : t = .topology
  · subst ht
    rcases activateTopology_cases img m with h | ⟨hp, parts, tp, fl, al, h⟩
    · have heq : activateTable .topology img m = withTopology img m := h
      exact hquiet (by rw [heq]; rfl) (by rw [heq]; rfl)
    · have heq : activateTable .topology img m =
          changePartition (withTopology img m) parts (reclassified tp fl al (withTopology img m)) := h
      obtain ⟨more, hmore, hnone, hanswer⟩ :=
        changePartition_held_append (withTopology img m) parts (reclassified tp fl al (withTopology img m))
      have hmoved := changePartition_state (withTopology img m) parts (reclassified tp fl al (withTopology img m))
      rw [← heq] at hmore hnone hanswer hmoved
      refine ⟨more, hsteady.held.trans hmore, fun hor => hnone ?_, fun p hpend hs hne => ?_⟩
      · rcases hmoved with hsame | ⟨hs, hgranted⟩
        · exact hsame
        · rcases hor with hor | hor | hor
          · exact absurd rfl hor
          · exact absurd hs hor
          · rw [hstate, hgranted] at hor; cases hor
      · have hchanged : (activateTable .topology img m).claim.state ≠ (reclassified tp fl al (withTopology img m)).claim.state :=
          fun he => hne (by rw [hstate, he]; exact hs)
        obtain ⟨f, hf, hgrant⟩ := hanswer p hpend hchanged
        refine ⟨f, hf, hgrant.entered hp fun i hi => ?_⟩
        rw [heq] at hi hchanged
        exact claimedIsland_changePartition hchanged hi
  · obtain ⟨hclaim, hheld⟩ := activateTable_kept (img := img) (m := m) ht
    exact hquiet (congrArg Claim.state hclaim) hheld

end

end Sys2Proof.Machine
end

section
/-! PROOFS. The final segment (R172, R174): the image judged, then refused or activated; and the validations and freezes that judge it. -/

namespace Sys2Proof.Machine

/-! ### What the image is judged -/

section

variable {q : Frame} {l : Load} {img : List Byte} {s u : State} {e : Byte}

theorem judgeImage_of_crc (h : crc16 img ≠ l.crc) : judgeImage l img s = (.invalid, 2, 0xFF, 0) := if_pos (by simpa using h)

theorem judgeImage_of_invalid {row reason : Nat} (h : crc16 img = l.crc) (hv : validate s.meas l.table img = some (row, reason)) :
    judgeImage l img s = (.invalid, 3, row, reason) := by
  simp only [judgeImage, h, hv, bne_self_eq_false, Bool.false_eq_true, if_false]

theorem judgeImage_of_frozen {row reason : Nat} (h : crc16 img = l.crc) (hv : validate s.meas l.table img = none)
    (hf : frozenFailure s.loader s.meas l.table img = some (row, reason)) : judgeImage l img s = (.locked, 4, row, reason) := by
  simp only [judgeImage, h, hv, hf, bne_self_eq_false, Bool.false_eq_true, if_false]

theorem judgeImage_of_good (h : crc16 img = l.crc) (hv : validate s.meas l.table img = none)
    (hf : frozenFailure s.loader s.meas l.table img = none) : judgeImage l img s = (.ok, 1, 0xFF, 0) := by
  simp only [judgeImage, h, hv, hf, bne_self_eq_false, Bool.false_eq_true, if_false]

/-! ### What becomes of the load -/

/-- The state in which an image has been activated and its load closed. -/
def activated (t : TableId) (img : List Byte) (s : State) : State :=
  ((closeLoad s).withMeas (activateMeas t img)).withLink (activateLink t)

/-- The load closes, whatever the image is judged. -/
theorem finishLoad_loader (q : Frame) (l : Load) (img : List Byte) (e : Byte) (s : State) :
    (finishLoad q l img e s).loader = { s.loader with load := none } := by
  refine (pumpBoth_moved _).loader.trans ?_
  simp only [respond, State.withLink]
  split <;> rfl

theorem finishLoad_moved_refused {st : Status} {outcome row reason : Nat} (hroom : s.link.upQueue.length < Config.upstreamPlaces)
    (hj : judgeImage l img s = (st, outcome, row, reason)) (hst : st ≠ .ok) :
    OutputsMoved (answered q st (segValues outcome row reason img.length e) (raiseIn .tableAbort (closeLoad s)))
      (finishLoad q l img e s) := by
  have hrun : finishLoad q l img e s =
      pumpBoth (respond q st (segValues outcome row reason img.length e) (raiseIn .tableAbort (closeLoad s))) := by
    simp only [finishLoad, hj, beq_iff_eq, hst, if_false]
  rw [hrun]
  exact respond_both_moved (s := raiseIn .tableAbort (closeLoad s)) hroom

theorem finishLoad_moved_activated (hroom : s.link.upQueue.length < Config.upstreamPlaces)
    (hj : judgeImage l img s = (.ok, 1, 0xFF, 0)) :
    OutputsMoved (answered q .ok (segValues 1 0xFF 0 img.length e) (activated l.table img s)) (finishLoad q l img e s) := by
  have hrun : finishLoad q l img e s = pumpBoth (respond q .ok (segValues 1 0xFF 0 img.length e) (activated l.table img s)) := by
    simp only [finishLoad, hj, beq_self_eq_true, if_true]
    rfl
  rw [hrun]
  refine respond_both_moved ?_
  have hqueue : (activated l.table img s).link.upQueue = s.link.upQueue := by
    show (activateLink l.table s.link).upQueue = _
    cases l.table <;> rfl
  rw [hqueue]; exact hroom

end

/-! ### What an activation leaves -/

section

variable {s u : State} {q : Frame} {rest : List Frame} {t : TableId} {img : List Byte} {vs : List Byte}

theorem activated_flag (hm : OutputsMoved (answered q .ok vs (activated t img (taken rest s))) u) :
    flagSet u.meas .tableDone = true := by
  rw [hm.flagSet]
  show flagSet (raise .tableDone (entered t img s.meas)) .tableDone = true
  rw [flagSet_raise, decide_eq_true rfl, Bool.or_true]

theorem activated_tables (hm : OutputsMoved (answered q .ok vs (activated t img (taken rest s))) u) :
    u.meas.tables = (entered t img s.meas).tables := by rw [hm.meas]; rfl

theorem activated_claim (hm : OutputsMoved (answered q .ok vs (activated t img (taken rest s))) u) :
    u.meas.claim = (entered t img s.meas).claim := by rw [hm.meas]; rfl

theorem activated_topo (hm : OutputsMoved (answered q .ok vs (activated t img (taken rest s))) u) :
    u.meas.topo = (activateTable t img s.meas).topo := by
  rw [hm.meas]; exact (steady_entered t img s.meas).topo

theorem activated_islands (hm : OutputsMoved (answered q .ok vs (activated t img (taken rest s))) u) :
    u.meas.islands = (entered t img s.meas).islands := by rw [hm.meas]; rfl

theorem activated_image (hm : OutputsMoved (answered q .ok vs (activated t img (taken rest s))) u) :
    activeImage u.meas t = some img :=
  (activeImage_congr (activated_tables hm) t).trans (activeImage_entered t img s.meas)

/-- The SEG's response, then the answer of a claim that the activation grants (R172). -/
theorem activated_outgoing (hheld : s.meas.heldResponses = [])
    (hm : OutputsMoved (answered q .ok vs (activated t img (taken rest s))) u) :
    ∃ more, outgoing u = outgoing s ++ responseFrame 0 q.kind q.tag .ok vs u.meas :: more ∧
      (t ≠ .topology ∨ s.meas.claim.state ≠ .handoff ∨ u.meas.claim.state = .handoff → more = []) ∧
      ∀ p, s.meas.pendXclaim = some p → s.meas.claim.state = .handoff → u.meas.claim.state ≠ .handoff →
        ∃ f, more = [f] ∧ GrantAnswer p u.meas f := by
  obtain ⟨more, hmore, hnone, hgrant⟩ := entered_held t img s.meas
  rw [hheld, List.nil_append] at hmore
  have hclaim := activated_claim hm
  refine ⟨more, ?_, fun h => hnone (by rw [hclaim] at h; exact h), fun p hp hs hne => ?_⟩
  · have hlink : (activateLink t (taken rest s).link).txU = s.link.txU ∧
        (activateLink t (taken rest s).link).upQueue = s.link.upQueue := by
      cases t <;> exact ⟨rfl, rfl⟩
    have hout : outgoing (answered q .ok vs (activated t img (taken rest s))) = (activateLink t (taken rest s).link).txU.toList ++
        ((activateLink t (taken rest s).link).upQueue ++ [responseFrame 0 q.kind q.tag .ok vs (activated t img (taken rest s)).meas]) ++
          (entered t img s.meas).heldResponses := rfl
    have hframe : responseFrame 0 q.kind q.tag .ok vs u.meas = responseFrame 0 q.kind q.tag .ok vs (activated t img (taken rest s)).meas :=
      responseFrame_congr (u := answered q .ok vs (activated t img (taken rest s))) hm
    rw [hm.upstream, hout, hlink.1, hlink.2, hmore, hframe]
    simp [outgoing, hheld]
  · obtain ⟨f, hf, hanswer⟩ := hgrant p hp hs (by rw [← hclaim]; exact hne)
    exact ⟨f, hf, GrantAnswer.moved (u := answered q .ok vs (activated t img (taken rest s))) hanswer hm⟩

/-- R165: no FORMING whose settle timer has expired outlives the entry to RUNNING. -/
theorem activated_none_waits (hm : OutputsMoved (answered q .ok vs (activated t img (taken rest s))) u)
    (hbefore : partRunning s.meas = false) (hafter : partRunning u.meas = true) :
    ∀ i ∈ u.meas.islands, ¬ (i.state = .forming ∧ i.settleTimer = .expired) := by
  rw [activated_islands hm]
  exact none_waits_entered hbefore (by rw [← partRunning_congr (activated_tables hm)]; exact hafter)

/-! ### The effects of each table -/

/-- R3, R131: a DOMAIN activation touches the taps that it fits or no longer fits. -/
theorem activated_domain (hv : validate s.meas .domain img = none)
    (hm : OutputsMoved (answered q .ok vs (activated .domain img (taken rest s))) u) :
    ∃ m : Meas, OutputsMoved (answered q .ok vs { taken rest s with loader := { s.loader with load := none }, meas := m }) u ∧
      m = { s.meas with
        tables := { s.meas.tables with domain := some img }, taps := m.taps, flags := m.flags, isoAlert := m.isoAlert } ∧
      (∀ f, flagSet s.meas f = true → flagSet m f = true) ∧
      ∀ d, m.taps.get d =
        if domFitted img d = fitted s.meas d then s.meas.taps.get d
        else if domFitted img d = true then { s.meas.taps.get d with
          presence := some ⟨.unseen, none, 0, none, none⟩, refreshStart := some s.meas.timebase, due := true }
        else { s.meas.taps.get d with presence := none, refreshStart := none } := by
  have hmeas : activateMeas .domain img s.meas = raise .tableDone (activateDomain img s.meas) := by
    rw [activateMeas_eq, entered_domain hv]
  refine ⟨activateMeas .domain img s.meas, hm, by rw [hmeas]; rfl, fun f hf => ?_, fun d => ?_⟩
  · have hkept : flagSet (activateDomain img s.meas) f = true := by
      show (s.meas.flags ||| _).getLsbD f.bit = true
      rw [BitVec.getLsbD_or]
      exact Bool.or_eq_true_iff.2 (.inl hf)
    rw [hmeas, flagSet_raise, hkept, Bool.true_or]
  · rw [hmeas]; exact activateDomain_tap d

/-- R131: the presence record and refresh timer of a tap that a DOMAIN activation fits, or no longer fits. -/
theorem activated_presence (hv : validate s.meas .domain img = none)
    (hm : OutputsMoved (answered q .ok vs (activated .domain img (taken rest s))) u) (d : Dom) :
    (domFitted img d = true → fitted s.meas d = false →
      (u.meas.taps.get d).presence = some ⟨.unseen, none, 0, none, none⟩ ∧
      (u.meas.taps.get d).refreshStart = some s.meas.timebase) ∧
    (domFitted img d = false → fitted s.meas d = true →
      (u.meas.taps.get d).presence = none ∧ (u.meas.taps.get d).refreshStart = none) ∧
    (domFitted img d = fitted s.meas d → (u.meas.taps.get d).presence = (s.meas.taps.get d).presence) := by
  obtain ⟨m, hmoved, -, -, htaps⟩ := activated_domain hv hm
  have hpresence : (u.meas.taps.get d).presence = (m.taps.get d).presence := hmoved.presence d
  have hrefresh : (u.meas.taps.get d).refreshStart = (m.taps.get d).refreshStart := by rw [hmoved.tap d]; rfl
  rw [hpresence, hrefresh, htaps d]
  refine ⟨fun hn ho => ?_, fun hn ho => ?_, fun he => ?_⟩
  · rw [hn, ho]; exact ⟨rfl, rfl⟩
  · rw [hn, ho]; exact ⟨rfl, rfl⟩
  · rw [if_pos he]

/-- R5, R12: the shapes of the islands go through the entry to RUNNING. -/
theorem activated_shapes (hm : OutputsMoved (answered q .ok vs (activated t img (taken rest s))) u)
    (hp : Parted (activateTable t img s.meas)) :
    u.meas.islands.map Island.shape = (activateTable t img s.meas).islands.map Island.shape := by
  rw [activated_islands hm]
  exact shape_of_kept ((steady_entered t img s.meas).islands hp)

/-- R5: without a report a TOPOLOGY activation leaves the topology and the partition. -/
theorem activated_unreported (hm : OutputsMoved (answered q .ok vs (activated .topology img (taken rest s))) u)
    (h : s.meas.topo.stored = none) : u.meas.topo = s.meas.topo ∧
      ((s.meas.islands.map (·.members)).Nodup → u.meas.islands.map Island.shape = s.meas.islands.map Island.shape) := by
  have heq : activateTable .topology img s.meas = withTopology img s.meas := activateTopology_of_unreported h
  have htopo := activated_topo hm
  have hshapes := activated_shapes hm
  rw [heq] at htopo hshapes
  exact ⟨htopo, hshapes⟩

/-- An activation that leaves no island has dissolved them all (R17). -/
theorem activated_dissolved (hm : OutputsMoved (answered q .ok vs (activated .topology img (taken rest s))) u)
    (h : IslandsDissolved (withTopology img s.meas) (activateTopology img s.meas)) : IslandsDissolved s.meas u.meas := by
  have hentered : entered .topology img s.meas = activateTopology img s.meas :=
    entered_of_no_islands (t := .topology) h.islands
  have hraised : IslandsDissolved s.meas (activateMeas .topology img s.meas) := by
    rw [activateMeas_eq, hentered]
    exact h.of_withTopology.raise .tableDone
  exact IslandsDissolved.moved (u := answered q .ok vs (activated .topology img (taken rest s))) hraised hm

/-- R5, R9, R20: a TOPOLOGY activation resolves a fresh report against the new table. -/
theorem activated_fresh {rp : Report} (hm : OutputsMoved (answered q .ok vs (activated .topology img (taken rest s))) u)
    (h : s.meas.topo.stored = some rp) (hage : (s.meas.timebase - rp.time).toNat < topoFreshness img) :
    let rows := matchingRows img rp.positions rp.inlet
    u.meas.topo = ⟨some rp, if rows = [] then .nomatch else .known, rows.head?, rows.length⟩ ∧
    (u.meas.islands.map Island.shape = (rows.head?.elim [] fun r => partitionOf img r (fitted s.meas)).map fun p =>
      (p.members, p.injector, p.profile)) ∧
    (rows = [] → IslandsDissolved s.meas u.meas) := by
  intro rows
  have heq : activateTopology img s.meas = resolve false img rp (withTopology img s.meas) := activateTopology_of_fresh h hage
  have hfollows : PartitionFollows (resolve false img rp (withTopology img s.meas)) :=
    partitionFollows_resolve rfl (Option.isSome_iff_exists.2 ⟨rp, h⟩) fun hb => absurd hb (by decide)
  have htopo := activated_topo hm
  have hshapes := activated_shapes hm
  rw [show activateTable .topology img s.meas = _ from heq] at htopo hshapes
  refine ⟨?_, ?_, fun hnil => ?_⟩
  · rw [htopo, (kept_resolve_followed false img rp (withTopology img s.meas)).1]
    show (⟨s.meas.topo.stored, _, _, _⟩ : Topo) = _
    rw [h]
  · rw [hshapes hfollows.parted]
    rcases resolve_islands false img rp (withTopology img s.meas) with ⟨hb, -⟩ | hi
    · cases hb
    · exact hi
  · refine activated_dissolved hm ?_
    obtain ⟨fl, al, hchange⟩ := resolve_other_table img rp (withTopology img s.meas)
    rw [heq, hchange, show matchingRows img rp.positions rp.inlet = [] from hnil]
    exact islandsDissolved_changePartition (show TopoState.nomatch ≠ .known by decide)

/-- R5, R11: a TOPOLOGY activation on a report that is not fresh makes the state STALE. -/
theorem activated_stale {rp : Report} (hm : OutputsMoved (answered q .ok vs (activated .topology img (taken rest s))) u)
    (h : s.meas.topo.stored = some rp) (hage : topoFreshness img ≤ (s.meas.timebase - rp.time).toNat) :
    u.meas.topo = { s.meas.topo with state := .stale, row := none } ∧ IslandsDissolved s.meas u.meas := by
  have heq : activateTopology img s.meas = becomeStale (withTopology img s.meas) := activateTopology_of_stale h hage
  have htopo := activated_topo hm
  rw [show activateTable .topology img s.meas = _ from heq] at htopo
  refine ⟨htopo.trans (becomeStale_spec (withTopology img s.meas)).1, activated_dissolved hm ?_⟩
  rw [heq]
  exact islandsDissolved_becomeStale _

/-- R71: a LIMIT activation tests the age of every domain, and touches no island of a RUNNING part. -/
theorem activated_limit (hm : OutputsMoved (answered q .ok vs (activated .limit img (taken rest s))) u) (d : Dom) :
    let x := s.meas.doms.get d
    let aged := (x.verdict = .ok ∨ x.verdict = .warn) ∧ inSet (coveredSet s.meas) d = false ∧
      ∃ n, x.newest = some n ∧
        (effectiveLimits img d (profileInForce s.meas d)).maxAge * 1000 < (s.meas.timebase - n.time).toNat
    (aged → u.meas.doms.get d = { x with verdict := .unknown, worse := 0, better := 0, belowClear := false }) ∧
    (¬ aged → u.meas.doms.get d = x) ∧ (partRunning s.meas = true → u.meas.islands = s.meas.islands) := by
  have hdoms : u.meas.doms = (activateLimit img s.meas).doms := by
    rw [hm.meas]; exact (steady_entered .limit img s.meas).domsEq
  obtain ⟨haged, hkept⟩ := activateLimit_dom img s.meas d
  refine ⟨fun h => ?_, fun h => ?_, fun h => ?_⟩
  · rw [hdoms]; exact haged h
  · rw [hdoms]; exact hkept h
  · have htable : (activateLimit img s.meas).islands = s.meas.islands := by rw [activateLimit_judging img s.meas]
    rw [activated_islands hm, entered_of_running h]
    exact htable

/-- R50: a CYCLE activation in a RUNNING part changes the table alone. -/
theorem activated_cycle (h : partRunning s.meas = true) :
    activated .cycle img (taken rest s) = { taken rest s with
      loader := { s.loader with load := none }
      meas := raise .tableDone { s.meas with tables := { s.meas.tables with cycle := some img } } } := by
  have hmeas : activateMeas .cycle img s.meas = raise .tableDone (activateCycle img s.meas) := by
    rw [activateMeas_eq, entered_of_running h]; rfl
  show ({ taken rest s with loader := { s.loader with load := none }, meas := activateMeas .cycle img s.meas } : State) = _
  rw [hmeas]; rfl

/-- R144: a FORWARD activation changes the table and the decimation counters alone. -/
theorem activated_forward :
    activated .forward img (taken rest s) = { taken rest s with
      loader := { s.loader with load := none }
      link := { (taken rest s).link with decim := .replicate 0 }
      meas := raise .tableDone { s.meas with tables := { s.meas.tables with forward := some img } } } := by
  have hmeas : activateMeas .forward img s.meas = raise .tableDone (activateForward img s.meas) := by
    rw [activateMeas_eq, entered_of_stays (t := .forward) fun h => h]; rfl
  show ({ taken rest s with
    loader := { s.loader with load := none }, link := { (taken rest s).link with decim := .replicate 0 }
    meas := activateMeas .forward img s.meas } : State) = _
  rw [hmeas]; rfl

end

/-- The final segment of a load completes its image (R170, R172). -/
theorem exec_seg_of_final {s : State} {q : Frame} {rest : List Frame} {l : Load} {data : List Byte}
    (h : HeadRequest 0x31 q.payload.length 1 q rest s) (hp : q.payload = l.expected :: data) (hlow : 1 ≤ data.length)
    (hhigh : data.length ≤ 96) (hl : s.loader.load = some l) (hfull : l.buffer.length + data.length = l.length) :
    exec .seg s = .next (finishLoad q l (l.buffer ++ data) (l.expected + 1) (taken rest s)) := by
  rw [exec_seg_of_head h hp hlow hhigh, doSeg_of_load (s := taken rest s) hp hl, if_neg (not_not.2 rfl),
    if_neg (Nat.not_lt.2 (Nat.le_of_eq hfull)), if_neg (Nat.not_lt.2 (Nat.le_of_eq hfull.symm))]

/-- Settles O53. -/
theorem finalSegmentJudged : Obligations.FinalSegmentJudged := by
  refine ⟨?_, fun m img => ?_, fun _ _ _ _ _ => rfl, fun l m img => ?_⟩
  · intro s q rest l data h hp hlow hhigh hl hfull img closed refused shape
    have hroom := h.room one_pos
    have hheld : s.meas.heldResponses = [] := h.2.2.2.1
    refine ⟨_, exec_seg_of_final h hp hlow hhigh hl hfull, ?_, fun hcrc => ?_, fun hcrc => ⟨fun row reason hv => ?_,
      fun row reason hv hf => ?_, fun hv hf => ?_⟩⟩
    · exact finishLoad_loader ..
    · exact finishLoad_moved_refused hroom (judgeImage_of_crc hcrc) (by decide)
    · exact finishLoad_moved_refused hroom (judgeImage_of_invalid hcrc hv) (by decide)
    · exact finishLoad_moved_refused hroom (judgeImage_of_frozen hcrc hv hf) (by decide)
    · have hm := finishLoad_moved_activated (q := q) (e := l.expected + 1) hroom (judgeImage_of_good (s := taken rest s) hcrc hv hf)
      refine ⟨activated_flag hm, activated_image hm, activated_outgoing hheld hm, ?_, ?_, ?_, ?_, ?_, ?_, activated_none_waits hm⟩
      all_goals intro ht; rw [ht] at hm hv
      · exact activated_presence hv hm
      · exact activated_domain hv hm
      · exact ⟨activated_unreported hm, fun rp hrp => ⟨activated_fresh hm hrp, activated_stale hm hrp⟩⟩
      · exact activated_limit hm
      · intro hruns
        rw [activated_cycle hruns] at hm
        exact hm
      · rw [activated_forward] at hm
        exact hm
  · exact ⟨(decides_domain m img).passes, (decides_topology m img).passes, (decides_cycle img).passes, validate_limit_none,
      (decides_forward img).passes, fun row reason => ⟨(decides_domain m img).refused row reason,
        (decides_topology m img).refused row reason, (decides_cycle img).refused row reason, validate_limit_some,
        fun hv => (validate_limit_order hv).2, (decides_forward img).refused row reason⟩, exists_validate_limit_order⟩
  · exact ⟨rfl, rfl, rfl, rfl, frozenFailure_limit_of_none img, fun old hold => decides_frozenFailure hold⟩

end Sys2Proof.Machine
end

section
/-! PROOFS. A step takes the front command, and every command answers a next state (95; log 1). -/

namespace Sys2Proof.Machine

theorem step_of_pending {s : State} {c : Instr} {rest : List Instr} (h : s.pending = c :: rest) :
    step s = exec c { s with pending := rest } := by
  rw [step, h]

/-- No command answers a fault or a refusal (log 1). Most are one of three shared operations, each total on states: a frame received
whole, a request taken off the buffer, an expiry on the measurement side. -/
theorem exec_answers_next (c : Instr) (s : State) : ∃ t, exec c s = .next t := by
  cases c with
  | powerOn => exact ⟨{ State.reset with pending := s.pending }, rfl⟩
  | requestFrameReceived f | hostTapFrame f => exact ⟨receiveFrame .u markerRequest f s, rfl⟩
  | sampleFrame f => exact ⟨receiveFrame .d markerSample f s, rfl⟩
  | tapResponse f => exact ⟨receiveFrame .d markerResponse f s, rfl⟩
  | characterReceived p ch => exact ⟨receiveChar p ch s, rfl⟩
  | topo | xclaim | xrel | meas | rchk | stat | mask | isord | resrd | fltrd | ldtab | seg | tsum | freeze | frls | restart =>
    exact ⟨takeRequest _ _ s, rfl⟩
  | freshnessExpiry | settleTimerExpiry | intervalExpiry | phaseTimerExpiry | plateauTimerExpiry | refreshTimerExpiry
  | lossTimerExpiry | joinRunTimeout | handoffTimeout | suspendEntryExpiry | agingExpiry => exact ⟨onEvent _ s, rfl⟩
  | receiveError | rxGapTimeout | rxRecoveryDone | portDTxDone | portUTxDone | unknownRequest | loadGapTimeout => exact ⟨_, rfl⟩

/-- Settles O1. -/
theorem stepTakesFrontCommand : Obligations.StepTakesFrontCommand :=
  ⟨fun _ _ _ => step_of_pending, exec_answers_next⟩

end Sys2Proof.Machine
end
